-- ==== Sys2Proof/Word.lean ====
section
/-! DEFINITION. The words of the block: `20_memory.md` R100 (every space is an array of 32-bit words) and
`00_scope.md` R6, R7 (bit numbering; an `f32` is its 32 bits). -/

namespace Sys2Proof

/-- One field of a command header, or one byte of a byte stream that carries command words (R102, R140). -/
abbrev Byte := BitVec 8

/-- The word of the block: every register, memory cell, command word and response word (R100). -/
abbrev Word := BitVec 32

/-- An IEEE binary32 value given by its 32 bits (R7). A type of its own, so that no integer operation of `Word` can be
applied to a sample by mistake; its arithmetic is in `Machine/Float.lean`. -/
structure F32 where
  bits : Word
deriving DecidableEq, Repr, Inhabited

/-- The binary32 operations whose NaN results R7 leaves without bits (see `Config.nanRaw`). -/
inductive FOp where
  | add | sub | mul | div | sqrt
deriving DecidableEq, Repr, Inhabited

end Sys2Proof
end

