-- ==== Sys2Proof/Config.lean ====
section
/-! DEFINITION. What an implementation fixes: the parameters of `00_scope.md` R5, which the model takes as arguments, and their
default values (log entry 1), the constants of R9, and the free values: the open parameters `NUM` and `RAND_STREAM` (R8, R12) and
the values the rules leave unstated (log entries 4, 5, 6, 26, 28). A free value has no body: nothing can be proved about it but what
the functions of `Machine/Num.lean` and `Machine/Float.lean` force on it. -/

namespace Sys2Proof.Config

/-! The parameters of R5 that the rule calls fixed, and the number of cells. -/

/-- `NMODES`, modes per resonator. -/
abbrev NMODES : Nat := 8
/-- `NTABLES`, wavetables. -/
abbrev NTABLES : Nat := 32
/-- `TLEN`, samples per wavetable. -/
abbrev TLEN : Nat := 2048
/-- `NPARAM`, parameter cells (`10_state.md` R35). -/
abbrev NPARAM : Nat := 39
/-- `MODAL_GAIN` = 0.3. -/
def modalGain : F32 := ⟨0x3E99999A⟩
/-- `HEADROOM` = 0.25. -/
def headroom : F32 := ⟨0x3E800000⟩

/-! The parameters that another block may have other values of: arguments of the model (R5, log entry 1). -/

/-- One choice of the parameters of R5 that the model takes as arguments, with the bounds that R5 states for them and those that the
block's registers need. `NUM` is among the free values below. -/
structure Params where
  /-- `NV`, number of voices -/
  nv : Nat
  /-- `NG`, grains per granular engine -/
  ng : Nat
  /-- `KS_CAP`, words of each Karplus-Strong delay memory -/
  ksCap : Nat
  /-- `MAXBLOCK_CAP`, frames of the output buffer -/
  maxBlockCap : Nat
  /-- `KS_DAMP`, Karplus-Strong damping coefficient -/
  ksDamp : F32
  /-- `BW_SCALE`, bandwidth in Hz of a mode at brightness 1 -/
  bwScale : F32
  /-- `DECAY_MIN`, least decay time in seconds in a mode's coefficient -/
  decayMin : F32
  /-- `GR_RATE_MAX`, grains per second at density 1 -/
  grRateMax : F32
  /-- `GR_JITTER`, position jitter at texture 1, as a fraction of the buffer -/
  grJitter : F32
  /-- `GR_DETUNE`, pitch jitter at texture 1, in semitones -/
  grDetune : F32
  /-- `SR_MIN`, least legal sample rate in Hz -/
  srMin : F32
  /-- `SR_MAX`, greatest legal sample rate in Hz -/
  srMax : F32
  /-- `RAND`: none for the open stream of R12, which is a free value; the first values of the stream where a written program fixes it
  with `.rand` (`30_encoding.md` R151, log entry 31) -/
  draws : Option (List F32)
  /-- `1 <= NV <= 32` -/
  nvBounds : 1 ≤ nv ∧ nv ≤ 32
  /-- `1 <= NG <= 255` -/
  ngBounds : 1 ≤ ng ∧ ng ≤ 255
  /-- `KS_CAP >= 3`; DEDUCED (log entry 1): the register `KSCAP` holds it (`10_state.md` R32) -/
  ksCapBounds : 3 ≤ ksCap ∧ ksCap < 2 ^ 32
  /-- DEDUCED (log entry 1): `PREPARE` has a block length of 1 to clamp to, and the register `MAXBLOCK` holds each up to this one -/
  maxBlockCapBounds : 1 ≤ maxBlockCap ∧ maxBlockCap < 2 ^ 32
  /-- `KS_DAMP` in [0, 1]: a bit pattern from +0 to 1.0, or -0 -/
  ksDampBounds : ksDamp.bits ≤ 0x3F800000 ∨ ksDamp.bits = 0x80000000
  /-- DEDUCED (log entry 1): the legal sample rates are positive, and below 2^30, so that the register `BUFLEN` holds `4 * SR`
  (`10_state.md` R32); on bit patterns, whose order is that of the values -/
  srBounds : 0 < srMin.bits ∧ srMin.bits ≤ srMax.bits ∧ srMax.bits < 0x4E800000
deriving DecidableEq, Repr

/-! The defaults of R5. -/

/-- Default `NV`. -/
abbrev NV : Nat := 8
/-- Default `NG`. -/
abbrev NG : Nat := 64
/-- Default `KS_CAP`. -/
abbrev KS_CAP : Nat := 24576
/-- Default `MAXBLOCK_CAP`. -/
abbrev MAXBLOCK_CAP : Nat := 8192
/-- Default `KS_DAMP` = 0.995. -/
def ksDamp : F32 := ⟨0x3F7EB852⟩
/-- Default `BW_SCALE` = 100.0. -/
def bwScale : F32 := ⟨0x42C80000⟩
/-- Default `DECAY_MIN` = 0.001. -/
def decayMin : F32 := ⟨0x3A83126F⟩
/-- Default `GR_RATE_MAX` = 200.0. -/
def grRateMax : F32 := ⟨0x43480000⟩
/-- Default `GR_JITTER` = 0.25. -/
def grJitter : F32 := ⟨0x3E800000⟩
/-- Default `GR_DETUNE` = 0.5. -/
def grDetune : F32 := ⟨0x3F000000⟩
/-- Default `SR_MIN` = 1000.0. -/
def srMin : F32 := ⟨0x447A0000⟩
/-- Default `SR_MAX` = 192000.0. -/
def srMax : F32 := ⟨0x483B8000⟩

/-- The block with every parameter at its default and the open stream: the block of `exec`, of `step`, of `State.reset` and of the statements. -/
@[reducible] def std : Params where
  nv := NV
  ng := NG
  ksCap := KS_CAP
  maxBlockCap := MAXBLOCK_CAP
  ksDamp := ksDamp
  bwScale := bwScale
  decayMin := decayMin
  grRateMax := grRateMax
  grJitter := grJitter
  grDetune := grDetune
  srMin := srMin
  srMax := srMax
  draws := none
  nvBounds := by decide
  ngBounds := by decide
  ksCapBounds := by decide
  maxBlockCapBounds := by decide
  ksDampBounds := by decide
  srBounds := by decide

/-! Constants (R9). -/

/-- `PI`. -/
def pi : F32 := ⟨0x40490FDB⟩
/-- `TWO_PI`. -/
def twoPi : F32 := ⟨0x40C90FDB⟩
/-- `HALF_PI`. -/
def halfPi : F32 := ⟨0x3FC90FDB⟩
/-- A draw that a `.rand` directive does not list: 0.5 (`30_encoding.md` R151). -/
def unlistedDraw : F32 := ⟨0x3F000000⟩

/-! Free values. -/

/-- What `NUM.sin` is made from (R8, log entry 2): `Machine/Num.lean` restricts it to the properties P1 and P6. -/
opaque sinRaw : F32 → F32
/-- What `NUM.cos` is made from (P2, P6). -/
opaque cosRaw : F32 → F32
/-- What `NUM.tan` is made from (P5, P6). -/
opaque tanRaw : F32 → F32
/-- What `NUM.exp` is made from (P3, P6, P7). -/
opaque expRaw : F32 → F32
/-- What `NUM.exp2` is made from (P4, P6). -/
opaque exp2Raw : F32 → F32
/-- What the open `RAND_STREAM` is made from (R12, log entry 3): `Machine/Num.lean` restricts it to [0, 1). -/
opaque randRaw : Word → F32
/-- Which NaN a binary32 operation yields on its operands (log entry 4): R7 says the operations are those of IEEE 754,
which fixes that the result is a NaN and not its bits. `Machine/Float.lean` restricts it to NaNs. -/
opaque nanRaw : FOp → F32 → F32 → F32
/-- `int(x)` outside the domain R11 gives it, "finite x >= 0" (log entry 5). -/
opaque intRaw : F32 → Word
/-- Whether `floor(-0)` is -0 (log entry 6): R11 asks for the largest integer-valued `f32` not above it, and both zeros are. -/
opaque floorKeepsNegZero : Bool
/-- `floor(x)` of an infinity or a NaN (log entry 26): R11 gives it no value, since no integer-valued `f32` is the largest not above
either of them. -/
opaque floorRaw : F32 → F32
/-- Whether `max(a, b)` is `b` where neither is the larger (log entry 28): R11 says "the usual ones", which does not say which of +0
and -0 results. -/
opaque maxTakesSecond : F32 → F32 → Bool
/-- Whether `min(a, b)` is `b` where neither is the smaller (log entry 28). -/
opaque minTakesSecond : F32 → F32 → Bool

end Sys2Proof.Config
end

