-- ==== Sys2Proof/Syntax.lean ====
section
/-! DEFINITION. The commands, one constructor per row of `spec/opcode_table.json` (`30_encoding.md` R146). The operation is
identified by its `OPC` alone (R147: "identifies the operation by its `OPC` alone"), so every command carries the other
header fields and its operand words as they came: `vid` = `VID`, `arg` = `ARG`, and `LEN` is the number of operand words.
The checks of R148 are made when the command runs (`Machine/Ops.lean`); `WellFormed.lean` says which commands pass those
that the words alone decide. -/

namespace Sys2Proof

/-- The seven faults (`60_exceptions.md` R401). Their codes are `faultCode` of `Machine/Ops.lean`. -/
inductive FaultCode where
  | illegalOpcode | badLength | badArg | badVoice | notPrepared | blockTooLong | badAddress
deriving DecidableEq, Repr

/-- A command: its operation, `VID`, `ARG` and operand words. -/
inductive Instr where
  /-- `NOP`, `OPC` 0x00: no operand words (R360). -/
  | nop (vid arg : Byte) (ops : List Word)
  /-- `PREPARE`, `OPC` 0x01: sampleRate:f, maxBlock:u (R362). -/
  | prepare (vid arg : Byte) (ops : List Word)
  /-- `CLRERR`, `OPC` 0x02: no operand words (R363). -/
  | clrerr (vid arg : Byte) (ops : List Word)
  /-- `PEEK`, `OPC` 0x03: addr:u (R364). -/
  | peek (vid arg : Byte) (ops : List Word)
  /-- `WRPARAM`, `OPC` 0x04: value:raw (R365). -/
  | wrparam (vid arg : Byte) (ops : List Word)
  /-- `SETGLOBAL`, `OPC` 0x10: no operand words (R366). -/
  | setglobal (vid arg : Byte) (ops : List Word)
  /-- `NOTEON`, `OPC` 0x11: velocity:f (R369). -/
  | noteon (vid arg : Byte) (ops : List Word)
  /-- `NOTEOFF`, `OPC` 0x12: no operand words (R370). -/
  | noteoff (vid arg : Byte) (ops : List Word)
  /-- `RENDER`, `OPC` 0x13: n:u (R368). -/
  | render (vid arg : Byte) (ops : List Word)
  /-- `V.START`, `OPC` 0x20: velocity:f (R325). -/
  | vStart (vid arg : Byte) (ops : List Word)
  /-- `V.STOP`, `OPC` 0x21: no operand words (R330, R331). -/
  | vStop (vid arg : Byte) (ops : List Word)
  /-- `V.RENDER`, `OPC` 0x22: n:u (R335). -/
  | vRender (vid arg : Byte) (ops : List Word)
  /-- `V.SETMODE`, `OPC` 0x23: no operand words (R321). -/
  | vSetmode (vid arg : Byte) (ops : List Word)
  /-- `V.SETRINGS`, `OPC` 0x24: brightness:f, damping:f, position:f, structure:f (R203). -/
  | vSetrings (vid arg : Byte) (ops : List Word)
  /-- `V.SETCLOUDS`, `OPC` 0x25: position:f, size:f, density:f, pitch:f, texture:f (R221). -/
  | vSetclouds (vid arg : Byte) (ops : List Word)
  /-- `V.SETWT`, `OPC` 0x26: tableA:u, tableB:u, morph:f, warp:f, fold:f (R276). -/
  | vSetwt (vid arg : Byte) (ops : List Word)
  /-- `V.SETMIX`, `OPC` 0x27: rings:f, clouds:f, karplus:f, wavetable:f, osc:f (R322). -/
  | vSetmix (vid arg : Byte) (ops : List Word)
  /-- `V.SETENV`, `OPC` 0x28: ampA:f, ampD:f, ampS:f, ampR:f, fltA:f, fltD:f, fltS:f, fltR:f (R292). -/
  | vSetenv (vid arg : Byte) (ops : List Word)
  /-- `V.SETFILT`, `OPC` 0x29: cutoff:f, resonance:f, envAmount:f (R300). -/
  | vSetfilt (vid arg : Byte) (ops : List Word)
  /-- `V.SETOSC`, `OPC` 0x2A: detune:f, mix:f, pulseWidth:f (R186). -/
  | vSetosc (vid arg : Byte) (ops : List Word)
  /-- `MR.SETPARAMS`, `OPC` 0x30: frequency:f, brightness:f, damping:f, position:f, structure:f (R202). -/
  | mrSetparams (vid arg : Byte) (ops : List Word)
  /-- `MR.TRIGGER`, `OPC` 0x31: velocity:f (R205). -/
  | mrTrigger (vid arg : Byte) (ops : List Word)
  /-- `MR.PROC`, `OPC` 0x32: input:f (R207). -/
  | mrProc (vid arg : Byte) (ops : List Word)
  /-- `GR.WRITE`, `OPC` 0x38: left:f, right:f (R223). -/
  | grWrite (vid arg : Byte) (ops : List Word)
  /-- `GR.PROC`, `OPC` 0x39: no operand words (R225). -/
  | grProc (vid arg : Byte) (ops : List Word)
  /-- `KS.SETFREQ`, `OPC` 0x40: frequency:f (R252). -/
  | ksSetfreq (vid arg : Byte) (ops : List Word)
  /-- `KS.TRIGGER`, `OPC` 0x41: velocity:f (R254). -/
  | ksTrigger (vid arg : Byte) (ops : List Word)
  /-- `KS.GET`, `OPC` 0x42: no operand words (R256). -/
  | ksGet (vid arg : Byte) (ops : List Word)
  /-- `WT.GET`, `OPC` 0x48: phase:f, tableA:u, tableB:u, morph:f, warp:f, fold:f (R274). -/
  | wtGet (vid arg : Byte) (ops : List Word)
  /-- `OSC.SETFREQ`, `OPC` 0x50: frequency:f (R182). -/
  | oscSetfreq (vid arg : Byte) (ops : List Word)
  /-- `OSC.SETWAVE`, `OPC` 0x51: no operand words (R183). -/
  | oscSetwave (vid arg : Byte) (ops : List Word)
  /-- `OSC.RESET`, `OPC` 0x52: no operand words (R184). -/
  | oscReset (vid arg : Byte) (ops : List Word)
  /-- `OSC.NEXT`, `OPC` 0x53: no operand words (R185). -/
  | oscNext (vid arg : Byte) (ops : List Word)
  /-- `ENV.SETPARAMS`, `OPC` 0x58: attack:f, decay:f, sustain:f, release:f (R291). -/
  | envSetparams (vid arg : Byte) (ops : List Word)
  /-- `ENV.NOTEON`, `OPC` 0x59: no operand words (R293). -/
  | envNoteon (vid arg : Byte) (ops : List Word)
  /-- `ENV.NOTEOFF`, `OPC` 0x5A: no operand words (R294). -/
  | envNoteoff (vid arg : Byte) (ops : List Word)
  /-- `ENV.NEXT`, `OPC` 0x5B: no operand words (R295). -/
  | envNext (vid arg : Byte) (ops : List Word)
  /-- `FLT.PROC`, `OPC` 0x60: left:f, right:f (R303). -/
  | fltProc (vid arg : Byte) (ops : List Word)
  /-- `FLT.RESET`, `OPC` 0x61: no operand words (R304). -/
  | fltReset (vid arg : Byte) (ops : List Word)
deriving DecidableEq, Repr

/-- The `VID` field of a command (R145). -/
def Instr.vid : Instr → Byte
  | .nop v _ _ => v
  | .prepare v _ _ => v
  | .clrerr v _ _ => v
  | .peek v _ _ => v
  | .wrparam v _ _ => v
  | .setglobal v _ _ => v
  | .noteon v _ _ => v
  | .noteoff v _ _ => v
  | .render v _ _ => v
  | .vStart v _ _ => v
  | .vStop v _ _ => v
  | .vRender v _ _ => v
  | .vSetmode v _ _ => v
  | .vSetrings v _ _ => v
  | .vSetclouds v _ _ => v
  | .vSetwt v _ _ => v
  | .vSetmix v _ _ => v
  | .vSetenv v _ _ => v
  | .vSetfilt v _ _ => v
  | .vSetosc v _ _ => v
  | .mrSetparams v _ _ => v
  | .mrTrigger v _ _ => v
  | .mrProc v _ _ => v
  | .grWrite v _ _ => v
  | .grProc v _ _ => v
  | .ksSetfreq v _ _ => v
  | .ksTrigger v _ _ => v
  | .ksGet v _ _ => v
  | .wtGet v _ _ => v
  | .oscSetfreq v _ _ => v
  | .oscSetwave v _ _ => v
  | .oscReset v _ _ => v
  | .oscNext v _ _ => v
  | .envSetparams v _ _ => v
  | .envNoteon v _ _ => v
  | .envNoteoff v _ _ => v
  | .envNext v _ _ => v
  | .fltProc v _ _ => v
  | .fltReset v _ _ => v

/-- The `ARG` field of a command (R144). -/
def Instr.arg : Instr → Byte
  | .nop _ a _ => a
  | .prepare _ a _ => a
  | .clrerr _ a _ => a
  | .peek _ a _ => a
  | .wrparam _ a _ => a
  | .setglobal _ a _ => a
  | .noteon _ a _ => a
  | .noteoff _ a _ => a
  | .render _ a _ => a
  | .vStart _ a _ => a
  | .vStop _ a _ => a
  | .vRender _ a _ => a
  | .vSetmode _ a _ => a
  | .vSetrings _ a _ => a
  | .vSetclouds _ a _ => a
  | .vSetwt _ a _ => a
  | .vSetmix _ a _ => a
  | .vSetenv _ a _ => a
  | .vSetfilt _ a _ => a
  | .vSetosc _ a _ => a
  | .mrSetparams _ a _ => a
  | .mrTrigger _ a _ => a
  | .mrProc _ a _ => a
  | .grWrite _ a _ => a
  | .grProc _ a _ => a
  | .ksSetfreq _ a _ => a
  | .ksTrigger _ a _ => a
  | .ksGet _ a _ => a
  | .wtGet _ a _ => a
  | .oscSetfreq _ a _ => a
  | .oscSetwave _ a _ => a
  | .oscReset _ a _ => a
  | .oscNext _ a _ => a
  | .envSetparams _ a _ => a
  | .envNoteon _ a _ => a
  | .envNoteoff _ a _ => a
  | .envNext _ a _ => a
  | .fltProc _ a _ => a
  | .fltReset _ a _ => a

/-- The operand words of a command, in order (R143). -/
def Instr.ops : Instr → List Word
  | .nop _ _ os => os
  | .prepare _ _ os => os
  | .clrerr _ _ os => os
  | .peek _ _ os => os
  | .wrparam _ _ os => os
  | .setglobal _ _ os => os
  | .noteon _ _ os => os
  | .noteoff _ _ os => os
  | .render _ _ os => os
  | .vStart _ _ os => os
  | .vStop _ _ os => os
  | .vRender _ _ os => os
  | .vSetmode _ _ os => os
  | .vSetrings _ _ os => os
  | .vSetclouds _ _ os => os
  | .vSetwt _ _ os => os
  | .vSetmix _ _ os => os
  | .vSetenv _ _ os => os
  | .vSetfilt _ _ os => os
  | .vSetosc _ _ os => os
  | .mrSetparams _ _ os => os
  | .mrTrigger _ _ os => os
  | .mrProc _ _ os => os
  | .grWrite _ _ os => os
  | .grProc _ _ os => os
  | .ksSetfreq _ _ os => os
  | .ksTrigger _ _ os => os
  | .ksGet _ _ os => os
  | .wtGet _ _ os => os
  | .oscSetfreq _ _ os => os
  | .oscSetwave _ _ os => os
  | .oscReset _ _ os => os
  | .oscNext _ _ os => os
  | .envSetparams _ _ os => os
  | .envNoteon _ _ os => os
  | .envNoteoff _ _ os => os
  | .envNext _ _ os => os
  | .fltProc _ _ os => os
  | .fltReset _ _ os => os

end Sys2Proof
end

