-- ==== Sys2Proof/WellFormed.lean ====
section
/-! DEFINITION. Which commands are well-formed: those that the checks (2), (3) and (4) of `30_encoding.md` R148 let pass,
which the words of the command alone decide (with `NV` of `00_scope.md` R5). Written from the columns `LEN`, "voice" and
"ARG use" of R146, apart from the table `instrRow` of `Decode.lean` that the machine uses. -/

namespace Sys2Proof

/-- The required value of `LEN` (column `LEN` of R146; check (2) of R148). -/
def Instr.lenRequired : Instr → Nat
  | .nop .. | .clrerr .. | .setglobal .. | .noteoff .. | .vStop .. | .vSetmode .. | .grProc .. | .ksGet .. |
    .oscSetwave .. | .oscReset .. | .oscNext .. | .envNoteon .. | .envNoteoff .. | .envNext .. |
    .fltReset .. => 0
  | .peek .. | .wrparam .. | .noteon .. | .render .. | .vStart .. | .vRender .. | .mrTrigger .. |
    .mrProc .. | .ksSetfreq .. | .ksTrigger .. | .oscSetfreq .. => 1
  | .prepare .. | .grWrite .. | .fltProc .. => 2
  | .vSetfilt .. | .vSetosc .. => 3
  | .vSetrings .. | .envSetparams .. => 4
  | .vSetclouds .. | .vSetwt .. | .vSetmix .. | .mrSetparams .. => 5
  | .wtGet .. => 6
  | .vSetenv .. => 8

/-- The commands that act on one voice, named by `VID` (column "voice" of R146). -/
def Instr.onVoice : Instr → Bool
  | .nop .. | .prepare .. | .clrerr .. | .peek .. | .wrparam .. | .setglobal .. | .noteon .. | .noteoff .. | .render .. | .wtGet .. => false
  | .vStart .. | .vStop .. | .vRender .. | .vSetmode .. | .vSetrings .. | .vSetclouds .. | .vSetwt .. |
    .vSetmix .. | .vSetenv .. | .vSetfilt .. | .vSetosc .. | .mrSetparams .. | .mrTrigger .. | .mrProc .. |
    .grWrite .. | .grProc .. | .ksSetfreq .. | .ksTrigger .. | .ksGet .. | .oscSetfreq .. | .oscSetwave .. |
    .oscReset .. | .oscNext .. | .envSetparams .. | .envNoteon .. | .envNoteoff .. | .envNext .. |
    .fltProc .. | .fltReset .. => true

/-- The spaces of `PEEK` that are per voice, and those that are not (`20_memory.md` R101). -/
def spacePerVoice (space : Nat) : Bool := 2 ≤ space && space ≤ 7

/-- `VID` is legal (R145; for `PEEK`, R146 and `60_exceptions.md` R403: a space above 10 makes the `VID` checks pass). -/
def Instr.vidOk (i : Instr) (cfg : Config.Params := Config.std) : Bool :=
  match i with
  | .peek vid arg _ =>
    if spacePerVoice arg.toNat then decide (vid.toNat < cfg.nv) else decide (10 < arg.toNat) || vid == 0
  | i => if i.onVoice then decide (i.vid.toNat < cfg.nv) else i.vid == 0

/-- The "must be 0" parts of `ARG` are 0 and a cell index exists (R144). -/
def Instr.argOk (i : Instr) : Bool :=
  match i with
  | .peek .. | .noteon .. | .noteoff .. | .vStart .. => true
  | .vSetmode .. | .vSetrings .. | .vSetclouds .. | .vSetfilt .. | .vSetosc .. | .mrSetparams .. => true
  | .wrparam _ arg _ => decide (arg.toNat < Config.NPARAM)
  | .vStop _ arg _ => decide (arg.toNat < 2)
  | .oscSetfreq _ arg _ | .oscReset _ arg _ | .oscNext _ arg _ => decide (arg.toNat < 2)
  | .envSetparams _ arg _ | .envNoteon _ arg _ | .envNoteoff _ arg _ | .envNext _ arg _ => decide (arg.toNat < 2)
  | .oscSetwave _ arg _ => decide (arg.toNat % 16 < 2)
  | i => i.arg == 0

/-- A command that passes the checks (2), (3) and (4) of R148. -/
def Instr.wellFormed (i : Instr) (cfg : Config.Params := Config.std) : Bool :=
  decide (i.ops.length = i.lenRequired) && i.argOk && i.vidOk cfg

end Sys2Proof
end

