-- ==== Sys2Proof/Decode.lean ====
section
/-! DEFINITION. From command words to commands and back: the header format (`30_encoding.md` R140), the opcode map (R146),
consumption (R141, R142), the checks of R148 that the header alone decides, and the byte order in which a host carries words
(`20_memory.md` R102). -/

namespace Sys2Proof

/-- The header word `OPC ++ VID ++ ARG ++ LEN` (R140). -/
def headerWord (opc vid arg : Byte) (len : Nat) : Word := opc ++ vid ++ arg ++ BitVec.ofNat 8 len

/-- `OPC`, bits 31:24 of a header (R140). -/
def headerOpc (h : Word) : Byte := h.extractLsb' 24 8
/-- `VID`, bits 23:16 of a header (R140). -/
def headerVid (h : Word) : Byte := h.extractLsb' 16 8
/-- `ARG`, bits 15:8 of a header (R140). -/
def headerArg (h : Word) : Byte := h.extractLsb' 8 8
/-- `LEN`, bits 7:0 of a header (R140). -/
def headerLen (h : Word) : Nat := (h.extractLsb' 0 8).toNat

/-- The opcode map of R146: the operation an `OPC` selects, none for the reserved space of R149. -/
def instrOfOpc (opc : Byte) : Option (Byte → Byte → List Word → Instr) :=
  match opc.toNat with
  | 0x00 => some .nop
  | 0x01 => some .prepare
  | 0x02 => some .clrerr
  | 0x03 => some .peek
  | 0x04 => some .wrparam
  | 0x10 => some .setglobal
  | 0x11 => some .noteon
  | 0x12 => some .noteoff
  | 0x13 => some .render
  | 0x20 => some .vStart
  | 0x21 => some .vStop
  | 0x22 => some .vRender
  | 0x23 => some .vSetmode
  | 0x24 => some .vSetrings
  | 0x25 => some .vSetclouds
  | 0x26 => some .vSetwt
  | 0x27 => some .vSetmix
  | 0x28 => some .vSetenv
  | 0x29 => some .vSetfilt
  | 0x2A => some .vSetosc
  | 0x30 => some .mrSetparams
  | 0x31 => some .mrTrigger
  | 0x32 => some .mrProc
  | 0x38 => some .grWrite
  | 0x39 => some .grProc
  | 0x40 => some .ksSetfreq
  | 0x41 => some .ksTrigger
  | 0x42 => some .ksGet
  | 0x48 => some .wtGet
  | 0x50 => some .oscSetfreq
  | 0x51 => some .oscSetwave
  | 0x52 => some .oscReset
  | 0x53 => some .oscNext
  | 0x58 => some .envSetparams
  | 0x59 => some .envNoteon
  | 0x5A => some .envNoteoff
  | 0x5B => some .envNext
  | 0x60 => some .fltProc
  | 0x61 => some .fltReset
  | _ => none

/-- How a command uses `VID` (column "voice" of R146). -/
inductive VidUse where
  /-- must be 0 -/
  | global
  /-- a voice number -/
  | perVoice
  /-- `PEEK`: by the space in `ARG` -/
  | bySpace
deriving DecidableEq, Repr

/-- How a command uses `ARG` (R144), as far as a check depends on it. -/
inductive ArgUse where
  /-- must be 0 -/
  | zero
  /-- every value is taken: an enum, a note, packed waveforms, the space of `PEEK` -/
  | value
  /-- a flag or an instance selector in bit 0, bits 7:1 must be 0 -/
  | bit0
  /-- the cell index of `WRPARAM`, below 39 -/
  | cell
  /-- `OSC.SETWAVE`: bits 3:1 must be 0 -/
  | oscWave
deriving DecidableEq, Repr

/-- One row of R146. -/
structure Row where
  /-- `OPC` -/
  opc : Byte
  vidUse : VidUse
  argUse : ArgUse
  /-- the required `LEN` -/
  len : Nat
  /-- words pushed to `RSP` on success -/
  rsp : Nat
  /-- the mark U: legal before `PREPARE` -/
  early : Bool
deriving DecidableEq, Repr

/-- The row of R146 that belongs to a command. -/
def instrRow : Instr → Row
  | .nop .. => ⟨0x00, .global, .zero, 0, 0, true⟩
  | .prepare .. => ⟨0x01, .global, .zero, 2, 0, true⟩
  | .clrerr .. => ⟨0x02, .global, .zero, 0, 0, true⟩
  | .peek .. => ⟨0x03, .bySpace, .value, 1, 1, true⟩
  | .wrparam .. => ⟨0x04, .global, .cell, 1, 0, true⟩
  | .setglobal .. => ⟨0x10, .global, .zero, 0, 0, false⟩
  | .noteon .. => ⟨0x11, .global, .value, 1, 0, false⟩
  | .noteoff .. => ⟨0x12, .global, .value, 0, 0, false⟩
  | .render .. => ⟨0x13, .global, .zero, 1, 0, false⟩
  | .vStart .. => ⟨0x20, .perVoice, .value, 1, 0, false⟩
  | .vStop .. => ⟨0x21, .perVoice, .bit0, 0, 0, false⟩
  | .vRender .. => ⟨0x22, .perVoice, .zero, 1, 0, false⟩
  | .vSetmode .. => ⟨0x23, .perVoice, .value, 0, 0, false⟩
  | .vSetrings .. => ⟨0x24, .perVoice, .value, 4, 0, false⟩
  | .vSetclouds .. => ⟨0x25, .perVoice, .value, 5, 0, false⟩
  | .vSetwt .. => ⟨0x26, .perVoice, .zero, 5, 0, false⟩
  | .vSetmix .. => ⟨0x27, .perVoice, .zero, 5, 0, false⟩
  | .vSetenv .. => ⟨0x28, .perVoice, .zero, 8, 0, false⟩
  | .vSetfilt .. => ⟨0x29, .perVoice, .value, 3, 0, false⟩
  | .vSetosc .. => ⟨0x2A, .perVoice, .value, 3, 0, false⟩
  | .mrSetparams .. => ⟨0x30, .perVoice, .value, 5, 0, false⟩
  | .mrTrigger .. => ⟨0x31, .perVoice, .zero, 1, 0, false⟩
  | .mrProc .. => ⟨0x32, .perVoice, .zero, 1, 1, false⟩
  | .grWrite .. => ⟨0x38, .perVoice, .zero, 2, 0, false⟩
  | .grProc .. => ⟨0x39, .perVoice, .zero, 0, 2, false⟩
  | .ksSetfreq .. => ⟨0x40, .perVoice, .zero, 1, 0, false⟩
  | .ksTrigger .. => ⟨0x41, .perVoice, .zero, 1, 0, false⟩
  | .ksGet .. => ⟨0x42, .perVoice, .zero, 0, 1, false⟩
  | .wtGet .. => ⟨0x48, .global, .zero, 6, 1, true⟩
  | .oscSetfreq .. => ⟨0x50, .perVoice, .bit0, 1, 0, false⟩
  | .oscSetwave .. => ⟨0x51, .perVoice, .oscWave, 0, 0, false⟩
  | .oscReset .. => ⟨0x52, .perVoice, .bit0, 0, 0, false⟩
  | .oscNext .. => ⟨0x53, .perVoice, .bit0, 0, 1, false⟩
  | .envSetparams .. => ⟨0x58, .perVoice, .bit0, 4, 0, false⟩
  | .envNoteon .. => ⟨0x59, .perVoice, .bit0, 0, 0, false⟩
  | .envNoteoff .. => ⟨0x5A, .perVoice, .bit0, 0, 0, false⟩
  | .envNext .. => ⟨0x5B, .perVoice, .bit0, 0, 1, false⟩
  | .fltProc .. => ⟨0x60, .perVoice, .zero, 2, 2, false⟩
  | .fltReset .. => ⟨0x61, .perVoice, .zero, 0, 0, false⟩

/-- The header word of a command, which `ERRINFO` records when it faults (`60_exceptions.md` R401). -/
def instrHeader (i : Instr) : Word := headerWord (instrRow i).opc i.vid i.arg i.ops.length

/-- The words of a command, header first, operands in order (R140). -/
def encode (i : Instr) : List Word := instrHeader i :: i.ops

/-- Check (3) of R148 on `ARG`: its "must be 0" parts, and the cell index of `WRPARAM` (R144). -/
def argAccepted (use : ArgUse) (arg : Byte) : Bool :=
  match use with
  | .zero => arg == 0
  | .value => true
  | .bit0 => arg &&& 0xFE == 0
  | .cell => decide (arg.toNat < Config.NPARAM)
  | .oscWave => arg &&& 0x0E == 0

/-- Check (3) of R148 on `VID`: a global command, and `PEEK` of a global space, must carry 0. -/
def vidZeroAccepted (use : VidUse) (vid arg : Byte) : Bool :=
  match use with
  | .global => vid == 0
  | .perVoice => true
  | .bySpace => spacePerVoice arg.toNat || decide (10 < arg.toNat) || vid == 0

/-- Check (4) of R148: a per-voice command, and `PEEK` of a per-voice space, names a voice that exists. -/
def vidVoiceAccepted (cfg : Config.Params) (use : VidUse) (vid arg : Byte) : Bool :=
  match use with
  | .global => true
  | .perVoice => decide (vid.toNat < cfg.nv)
  | .bySpace => !spacePerVoice arg.toNat || decide (vid.toNat < cfg.nv)

/-- The checks (2), (3) and (4) of R148, in that order: the first that fails decides the fault. -/
def headerFault (cfg : Config.Params) (i : Instr) : Option FaultCode :=
  let r := instrRow i
  if i.ops.length ≠ r.len then some .badLength
  else if !(argAccepted r.argUse i.arg && vidZeroAccepted r.vidUse i.vid i.arg) then some .badArg
  else if !vidVoiceAccepted cfg r.vidUse i.vid i.arg then some .badVoice
  else none

/-- What the front of the command queue holds. -/
inductive Decoded where
  /-- no header, or fewer than `LEN` operand words: the block waits (`70_reset_and_hazards.md` R453) -/
  | waiting
  /-- check (1) of R148 fails: the `OPC` is reserved (R149); the operand words are consumed all the same (R142) -/
  | illegal (header : Word) (rest : List Word)
  /-- a command, and the queue after its last operand word -/
  | command (i : Instr) (rest : List Word)
deriving DecidableEq, Repr

/-- Takes one header and then `LEN` operand words from the front of a queue (R141, R142). Total on any words. -/
def decode (q : List Word) : Decoded :=
  match q with
  | [] => .waiting
  | h :: t =>
    if t.length < headerLen h then .waiting
    else
      match instrOfOpc (headerOpc h) with
      | none => .illegal h (t.drop (headerLen h))
      | some mk => .command (mk (headerVid h) (headerArg h) (t.take (headerLen h))) (t.drop (headerLen h))

/-- A word on a byte-wide medium, least significant byte first (`20_memory.md` R102). -/
def wordBytes (w : Word) : List Byte :=
  [w.extractLsb' 0 8, w.extractLsb' 8 8, w.extractLsb' 16 8, w.extractLsb' 24 8]

/-- The words a byte stream carries (R102): four bytes a word. DESIGN CHOICE (log entry 34): R102 does not speak of a tail of fewer than
four bytes; it is no word, and it is dropped. -/
def wordsOfBytes : List Byte → List Word
  | b0 :: b1 :: b2 :: b3 :: bs => (b3 ++ b2 ++ b1 ++ b0) :: wordsOfBytes bs
  | _ => []

/-- The words of the instruction whose bits are `w`, bit 0 the least significant bit of the header word: the header is the
low 32 bits, the operand words that its `LEN` asks for follow, and every bit from `nbits` on is 0. -/
def tableWords (nbits w : Nat) : List Word :=
  let v := w % 2 ^ nbits
  let h : Word := BitVec.ofNat 32 v
  h :: (List.range (headerLen h)).map fun k => BitVec.ofNat 32 (v >>> (32 * (k + 1)))

/-- What the decoder reads from the instruction whose bits are `w` (numbered as `spec/opcode_table.json` numbers them). -/
def decodeTableWord (nbits w : Nat) : Option Instr :=
  match decode (tableWords nbits w) with
  | .command i _ => some i
  | _ => none

end Sys2Proof
end

