-- ==== Sys2Proof/Machine/Float.lean ====
section
/-! DEFINITION. Binary32 arithmetic (`00_scope.md` R7): each operation computes the exact result and rounds it once, to
nearest, ties to even; subnormals are kept. And the conversions and clamps of R10 and R11.

A finite binary32 value is an integer number of units of 2^-149. `F32.value` reads it so, and `F32.ofRatio` rounds a
non-negative ratio of integers, in the same units, to the nearest binary32. -/

namespace Sys2Proof

/-- 2^149: how many units make 1. -/
def unitsPerOne : Nat := 2 ^ 149

/-- What a binary32 value stands for: a NaN, an infinity, or a signed number of units of 2^-149. -/
inductive FVal where
  | nan
  | inf (neg : Bool)
  | fin (neg : Bool) (units : Nat)
deriving DecidableEq, Repr

/-- The biased exponent, bits 30:23 (R7). -/
def F32.expField (x : F32) : Nat := (x.bits.extractLsb' 23 8).toNat
/-- The fraction, bits 22:0 (R7). -/
def F32.fracField (x : F32) : Nat := (x.bits.extractLsb' 0 23).toNat
/-- The sign, bit 31 (R7). -/
def F32.sign (x : F32) : Bool := x.bits.msb

/-- The value of a binary32 (R7). -/
def F32.value (x : F32) : FVal :=
  if x.expField = 255 then (if x.fracField = 0 then .inf x.sign else .nan)
  else if x.expField = 0 then .fin x.sign x.fracField
  else .fin x.sign ((2 ^ 23 + x.fracField) * 2 ^ (x.expField - 1))

/-- A binary32 from its sign and its bits 30:0. -/
def F32.pack (neg : Bool) (mag : Nat) : F32 := ⟨BitVec.ofNat 32 (if neg then 2 ^ 31 + mag else mag)⟩

/-- +0. -/
def F32.zero : F32 := ⟨0⟩
/-- 1.0. -/
def F32.one : F32 := ⟨0x3F800000⟩
/-- An infinity. -/
def F32.infinity (neg : Bool) : F32 := F32.pack neg 0x7F800000

def F32.isNaN (x : F32) : Bool := decide (x.expField = 255) && decide (x.fracField ≠ 0)
def F32.isFinite (x : F32) : Bool := decide (x.expField ≠ 255)

/-- The nearest integer to `num / den`, ties to even. -/
def nearestEven (num den : Nat) : Nat :=
  let q := num / den
  let r := num % den
  if 2 * r < den || (2 * r == den && q % 2 == 0) then q else q + 1

/-- Bits 30:0 of the binary32 nearest to `num / den` units, ties to even (R7); from 2^128 on, an infinity. A result `q`
with 24 significant bits, scaled by `2^k`, has the bits `k * 2^23 + q`: the leading bit of `q` and a carry out of the rounding
both count up the exponent field. -/
def roundMagnitude (num den : Nat) : Nat :=
  let n := num / den
  if 2 ^ 128 * 2 ^ 149 ≤ n then 0x7F800000
  else
    let k := n.log2 - 23
    min (k * 2 ^ 23 + nearestEven num (den * 2 ^ k)) 0x7F800000

/-- The binary32 nearest to `num / den` units of 2^-149, with a sign. -/
def F32.ofRatio (neg : Bool) (num den : Nat) : F32 := F32.pack neg (roundMagnitude num den)

/-- A NaN that an operation yields: R7 fixes that it is a NaN and not which one, so it is the free value `Config.nanRaw`,
restricted to NaNs (log entry 4). -/
def F32.nanOf (op : FOp) (a b : F32) : F32 :=
  if (Config.nanRaw op a b).isNaN then Config.nanRaw op a b else ⟨0x7FC00000⟩

/-- Changes the sign bit, as the `-( )` of R204 does (log entry 22). -/
def F32.neg (x : F32) : F32 := ⟨x.bits ^^^ 0x80000000⟩

/-- `abs(x)` clears the sign bit (R11). -/
def F32.abs (x : F32) : F32 := ⟨x.bits &&& 0x7FFFFFFF⟩

/-- A signed number of units as an integer. -/
def signedUnits (neg : Bool) (units : Nat) : Int := if neg then -(units : Int) else (units : Int)

/-- `a + b`, or for `FOp.sub` the sum with `b`'s sign changed (R7). An exact sum of zero is +0 unless both are -0. -/
def F32.addAs (op : FOp) (a b : F32) (flipB : Bool) : F32 :=
  match a.value, b.value with
  | .nan, _ => F32.nanOf op a b
  | _, .nan => F32.nanOf op a b
  | .inf sa, .inf sb => if sa = (sb ^^ flipB) then F32.infinity sa else F32.nanOf op a b
  | .inf sa, .fin _ _ => F32.infinity sa
  | .fin _ _, .inf sb => F32.infinity (sb ^^ flipB)
  | .fin sa ua, .fin sb ub =>
    let z := signedUnits sa ua + signedUnits (sb ^^ flipB) ub
    if z = 0 then F32.pack (sa && (sb ^^ flipB)) 0 else F32.ofRatio (decide (z < 0)) z.natAbs 1

/-- `a + b` (R7). -/
def F32.add (a b : F32) : F32 := F32.addAs .add a b false
/-- `a - b` (R7). -/
def F32.sub (a b : F32) : F32 := F32.addAs .sub a b true

/-- `a * b` (R7). -/
def F32.mul (a b : F32) : F32 :=
  match a.value, b.value with
  | .nan, _ => F32.nanOf .mul a b
  | _, .nan => F32.nanOf .mul a b
  | .inf sa, .inf sb => F32.infinity (sa ^^ sb)
  | .inf sa, .fin sb ub => if ub = 0 then F32.nanOf .mul a b else F32.infinity (sa ^^ sb)
  | .fin sa ua, .inf sb => if ua = 0 then F32.nanOf .mul a b else F32.infinity (sa ^^ sb)
  | .fin sa ua, .fin sb ub => F32.ofRatio (sa ^^ sb) (ua * ub) unitsPerOne

/-- `a / b` (R7); a finite non-zero value divided by a zero is an infinity, as in IEEE 754. -/
def F32.div (a b : F32) : F32 :=
  match a.value, b.value with
  | .nan, _ => F32.nanOf .div a b
  | _, .nan => F32.nanOf .div a b
  | .inf _, .inf _ => F32.nanOf .div a b
  | .inf sa, .fin sb _ => F32.infinity (sa ^^ sb)
  | .fin sa _, .inf sb => F32.pack (sa ^^ sb) 0
  | .fin sa ua, .fin sb ub =>
    if ub = 0 then (if ua = 0 then F32.nanOf .div a b else F32.infinity (sa ^^ sb))
    else F32.ofRatio (sa ^^ sb) (ua * unitsPerOne) ub

/-- The integer square root by bits: of the numbers below `2^k` above `r` (a multiple of `2^k`), the largest whose square
is at most `n`. -/
def isqrtFrom (n : Nat) : Nat → Nat → Nat
  | 0, r => r
  | k + 1, r => if (r + 2 ^ k) * (r + 2 ^ k) ≤ n then isqrtFrom n k (r + 2 ^ k) else isqrtFrom n k r

/-- The square root of `u` units, as twice its integer part in units plus 1 if it is not exact: enough to round from, since
a square root of at least one unit is at least 2^74 units, where binary32 values are far more than one unit apart. -/
def sqrtTwice (u : Nat) : Nat :=
  let n := u * unitsPerOne
  let r := isqrtFrom n (n.log2 / 2 + 1) 0
  if r * r = n then 2 * r else 2 * r + 1

/-- `sqrt(x)` (R7); the square root of -0 is -0, of a negative value a NaN, as in IEEE 754. -/
def F32.sqrt (x : F32) : F32 :=
  match x.value with
  | .nan => F32.nanOf .sqrt x x
  | .inf neg => if neg then F32.nanOf .sqrt x x else x
  | .fin neg u => if u = 0 then x else if neg then F32.nanOf .sqrt x x else F32.ofRatio false (sqrtTwice u) 2

/-- A value as an integer number of units, an infinity as one beyond every finite value; none for a NaN. -/
def F32.key (x : F32) : Option Int :=
  match x.value with
  | .nan => none
  | .inf neg => some (signedUnits neg (2 ^ 150 * 2 ^ 150))
  | .fin neg u => some (signedUnits neg u)

/-- `a < b`: false if either is a NaN. -/
def F32.lt (a b : F32) : Bool :=
  match a.key, b.key with
  | some x, some y => decide (x < y)
  | _, _ => false

/-- `a <= b`: false if either is a NaN. -/
def F32.le (a b : F32) : Bool :=
  match a.key, b.key with
  | some x, some y => decide (x ≤ y)
  | _, _ => false

/-- `a = b` as numbers: the two zeros are equal, a NaN equals nothing. -/
def F32.eqv (a b : F32) : Bool :=
  match a.key, b.key with
  | some x, some y => decide (x = y)
  | _, _ => false

/-- `max(a, b)` on finite values (R11). Where neither is the larger, which R11 leaves open for +0 and -0 and does not ask of a NaN, the
result is one of the two and which one is a free value: DESIGN CHOICE (log entry 28). -/
def F32.max (a b : F32) : F32 :=
  if a.lt b then b else if b.lt a then a else if Config.maxTakesSecond a b then b else a
/-- `min(a, b)` on finite values (R11); where neither is the smaller, as for `max`: DESIGN CHOICE (log entry 28). -/
def F32.min (a b : F32) : F32 :=
  if b.lt a then b else if a.lt b then a else if Config.minTakesSecond a b then b else a

/-- `clamp(x, lo, hi)` (R10): a NaN gives `lo`. -/
def F32.clamp (x lo hi : F32) : F32 := if !lo.le x then lo else if hi.lt x then hi else x

/-- `san(x)` (R10). -/
def F32.san (x : F32) : F32 := if x.isFinite then x else F32.zero

/-- `clampu(n, hi)` (R10). -/
def clampu (n hi : Nat) : Nat := Nat.min n hi

/-- `int(x)` (R11): discards the fraction of a finite `x >= 0`; outside that domain the rule gives no value and it is the
free value `Config.intRaw` (log entry 5). -/
def F32.toInt (x : F32) : Nat :=
  match x.value with
  | .fin neg u => if neg && u ≠ 0 then (Config.intRaw x).toNat else u / unitsPerOne
  | _ => (Config.intRaw x).toNat

/-- `flt(n)` (R11): the binary32 nearest to an unsigned integer. -/
def F32.ofNat (n : Nat) : F32 := F32.ofRatio false (n * unitsPerOne) 1

/-- The decimal literal `num / den` of a rule: the nearest binary32 (R7). -/
def F32.dec (num den : Nat) : F32 := F32.ofRatio false (num * unitsPerOne) den

/-- `floor(x)` (R11), exact: the fraction of the magnitude is cut off, and one more unit of 1 is taken off below zero if there
was a fraction. R11 leaves open the sign of `floor(-0)` (log entry 6) and `floor` of an infinity or a NaN (log entry 26): DESIGN CHOICE,
each is a free value. -/
def F32.floor (x : F32) : F32 :=
  match x.value with
  | .nan | .inf _ => Config.floorRaw x
  | .fin false u => F32.ofRatio false (u / unitsPerOne * unitsPerOne) 1
  | .fin true u =>
    if u = 0 then (if Config.floorKeepsNegZero then x else F32.zero)
    else F32.ofRatio true ((u + (unitsPerOne - 1)) / unitsPerOne * unitsPerOne) 1

/-- `frac(x)` (R11): `x - floor(x)`, and +0 if that difference rounds to 1. For an infinity or a NaN it is computed from the free value
that `floor` has there, and is not in [0, 1) (log entry 26). -/
def F32.frac (x : F32) : F32 := if x.sub x.floor = F32.one then F32.zero else x.sub x.floor

end Sys2Proof
end

