-- ==== Sys2Proof/Machine/Defaults.lean ====
section
/-! DEFINITION. The defaults of the 39 parameter cells (`10_state.md` R35): what the cells hold after reset, and what the
shadow registers of a voice hold after reset and after `PREPARE` (R42). -/

namespace Sys2Proof.Machine

/-- A `u` default. -/
def uCell (n : Nat) : Word := BitVec.ofNat 32 n
/-- An `f` default, the decimal `num / den`. -/
def fCell (num den : Nat) : Word := (F32.dec num den).bits

/-- Column "default (reset)" of R35, cells 0 to 38. -/
def cellDefaults : List Word := [
  uCell 0,
  fCell 1 2, fCell 1 2, fCell 1 4, fCell 0 1, uCell 0,
  fCell 0 1, fCell 1 2, fCell 1 2, fCell 0 1, fCell 1 2, uCell 0,
  uCell 0, uCell 8, fCell 0 1, fCell 0 1, fCell 0 1,
  fCell 1 2, fCell 1 1, fCell 1 2, fCell 1 2, fCell 1 2,
  fCell 1 100, fCell 1 10, fCell 3 4, fCell 1 4,
  fCell 1 100, fCell 1 4, fCell 1 2, fCell 1 4,
  fCell 8000 1, fCell 3 4, fCell 0 1, uCell 0,
  uCell 1, uCell 2, fCell 0 1, fCell 0 1, fCell 1 2]

end Sys2Proof.Machine
end

