-- ==== Sys2Proof/Machine/Memory.lean ====
section
/-! DEFINITION. A memory of the block (`20_memory.md` R100): an array of 32-bit words by word index, kept as the list of its
words that are not +0, by rising index (log entry 12). Every memory of the block holds +0 in every word after reset
(`10_state.md` R60, R61, R63), so an index that is not listed reads as +0. -/

namespace Sys2Proof.Machine

/-- A memory: (index, word) pairs, indices strictly rising, no word 0. -/
abbrev Mem := List (Nat × Word)

/-- `MemRead(S[a], 1)` (R100). -/
def Mem.read (m : Mem) (a : Nat) : Word :=
  match m with
  | [] => 0
  | (b, w) :: m => if a = b then w else Mem.read m a

/-- A word put in front of a memory whose indices are all larger: nothing for the word 0, which is not listed. -/
def Mem.cons (a : Nat) (w : Word) (m : Mem) : Mem := if w = 0 then m else (a, w) :: m

/-- `MemWrite(S[a], 1, w)` (R100). -/
def Mem.write (m : Mem) (a : Nat) (w : Word) : Mem :=
  match m with
  | [] => Mem.cons a w []
  | (b, x) :: m =>
    if a < b then Mem.cons a w ((b, x) :: m)
    else if a = b then Mem.cons a w m
    else (b, x) :: Mem.write m a w

/-- `S[i] <- +0` for every `i` below `n`: those entries go (`43_karplus_strong.md` R252). -/
def Mem.zeroBelow (m : Mem) (n : Nat) : Mem := m.filter fun c => decide (n ≤ c.1)

/-- The canonical form: indices strictly rising, from `lo` on, and no word 0. -/
def Mem.wfFrom : Nat → Mem → Bool
  | _, [] => true
  | lo, (a, w) :: m => decide (lo ≤ a) && decide (w ≠ 0) && Mem.wfFrom (a + 1) m

/-- The canonical form of a memory. -/
def Mem.wf (m : Mem) : Bool := Mem.wfFrom 0 m

end Sys2Proof.Machine
end

