-- ==== Sys2Proof/Machine/Units.lean ====
section
/-! DEFINITION. The units of a voice and their registers, as plain data (`10_state.md` R37 to R61). The 67 registers of the
voice register file (R42) are grouped by the unit that owns them (R48 to R53); `Machine/Operands.lean` gives them their `PEEK`
indices. -/

namespace Sys2Proof.Machine

/-- Engine modes (R37), codes 0 to 8 in this order. -/
inductive EngineMode where
  | rings | clouds | karplus | ringsIntoClouds | hybridAll | osc | oscRings | oscClouds | fullHybrid
deriving DecidableEq, Repr

/-- Resonator models (R38), codes 0 to 3. -/
inductive Model where
  | string | membrane | tube | bell
deriving DecidableEq, Repr

/-- Waveforms (R39), codes 0 to 4. -/
inductive Wave where
  | sine | saw | square | triangle | pulse
deriving DecidableEq, Repr

/-- Filter types (R40), codes 0 to 2. -/
inductive FilterType where
  | lowpass | bandpass | highpass
deriving DecidableEq, Repr

/-- Envelope stages (R41), codes 0 to 4. -/
inductive Stage where
  | idle | attack | decay | sustain | release
deriving DecidableEq, Repr

/-- One oscillator (R50): `PHASE`, `INC`, `WAVE`. -/
structure Osc where
  phase : F32
  inc : F32
  wave : Wave
deriving DecidableEq, Repr

/-- The two oscillators of a voice and what they share (R50): `OSC_DETUNE`, `OSC_MIX`, `OSC_PW`. -/
structure Oscs where
  osc0 : Osc
  osc1 : Osc
  detune : F32
  mix : F32
  pw : F32
deriving DecidableEq, Repr

/-- One mode of the resonator (R45). -/
structure Mode where
  freq : F32
  decay : F32
  bri : F32
  c1 : F32
  c2 : F32
  x1 : F32
  x2 : F32
  y1 : F32
  y2 : F32
  exc : F32
deriving DecidableEq, Repr

/-- The modal resonator (`41_modal_resonator.md` R200): `MR_FREQ`, `MR_BRI`, `MR_DAMP`, `MR_POS`, `MR_STRUCT`, `MR_MODEL` and
the eight modes. -/
structure Rings where
  freq : F32
  bri : F32
  damp : F32
  pos : F32
  struct : F32
  model : Model
  modes : Vector Mode Config.NMODES
deriving DecidableEq, Repr

/-- One grain (R46). -/
structure Grain where
  active : Bool
  pos : F32
  phase : F32
  dur : F32
  ratio : F32
  pan : F32
  amp : F32
deriving DecidableEq, Repr

/-- The granular engine (`42_granular_engine.md` R220): `GR_POS` to `GR_TEX`, `GR_FREEZE`, `GR_WC`, the grains and the buffers
`GBUF_L`, `GBUF_R` (R60). -/
structure Clouds (cfg : Config.Params) where
  pos : F32
  size : F32
  dens : F32
  pitch : F32
  tex : F32
  freeze : Bool
  wc : Word
  grains : Vector Grain cfg.ng
  bufL : Mem
  bufR : Mem
deriving DecidableEq, Repr

/-- The Karplus-Strong oscillator (R48): `KS_LEN`, `KS_WC`, `KS_PREV` and the delay memory `KSDL` (R61). -/
structure Karplus where
  len : Word
  wc : Word
  prev : F32
  line : Mem
deriving DecidableEq, Repr

/-- The wavetable shadows and the phase accumulator of a voice (R49): `WT_A`, `WT_B`, `WT_MORPH`, `WT_WARP`, `WT_FOLD`,
`WTPHASE`. -/
structure WtRegs where
  a : Fin Config.NTABLES
  b : Fin Config.NTABLES
  morph : F32
  warp : F32
  fold : F32
  phase : F32
deriving DecidableEq, Repr

/-- The mix weights (R53). -/
structure Mix where
  rings : F32
  clouds : F32
  karplus : F32
  wt : F32
  osc : F32
deriving DecidableEq, Repr

/-- One envelope (R51): `STAGE`, `LEVEL`, `A`, `D`, `S`, `R`, `RELRATE`. -/
structure Env where
  stage : Stage
  level : F32
  a : F32
  d : F32
  s : F32
  r : F32
  relRate : F32
deriving DecidableEq, Repr

/-- The filter (R52): `FLT_CUTOFF`, `FLT_Q`, `FLT_ENVAMT`, `FLT_TYPE` and the integrators. -/
structure Filt where
  cutoff : F32
  q : F32
  envAmt : F32
  type : FilterType
  s1l : F32
  s2l : F32
  s1r : F32
  s2r : F32
deriving DecidableEq, Repr

/-- A voice (`46_voice.md` R320): its lifecycle registers `ACTIVE`, `FADING`, `NOTE` (255 = none), `AGE`, `FREQ`, `VEL`,
`FADEIN_CNT`, `FADEOUT_CNT`, `MODE` (R42), and its units. `enva` is `ENV[0]`, `envf` is `ENV[1]`. -/
structure Voice (cfg : Config.Params) where
  active : Bool
  fading : Bool
  note : Word
  age : Word
  freq : F32
  vel : F32
  fadeinCnt : Word
  fadeoutCnt : Word
  mode : EngineMode
  rings : Rings
  clouds : Clouds cfg
  karplus : Karplus
  wt : WtRegs
  mix : Mix
  oscs : Oscs
  enva : Env
  envf : Env
  flt : Filt
deriving DecidableEq, Repr

end Sys2Proof.Machine
end

