-- ==== Sys2Proof/Machine/ResetValues.lean ====
section
/-! DEFINITION. The reset values of the registers of a voice (`10_state.md` R42, R45, R46, R78), all stated by the spec. They are
what hardware reset leaves (`70_reset_and_hazards.md` R440) and what `PREPARE` starts from (`47_voice_pool_and_system.md` R362). -/

namespace Sys2Proof.Machine

/-- Mode `i` after reset (R45): `FREQ` is `440*(i+1)`. -/
def resetMode (i : Nat) : Mode where
  freq := F32.ofNat (440 * (i + 1))
  decay := F32.one
  bri := F32.dec 1 2
  c1 := F32.zero
  c2 := F32.zero
  x1 := F32.zero
  x2 := F32.zero
  y1 := F32.zero
  y2 := F32.zero
  exc := F32.zero

/-- A grain after reset (R46): "All reset to 0". -/
def resetGrain : Grain where
  active := false
  pos := F32.zero
  phase := F32.zero
  dur := F32.zero
  ratio := F32.zero
  pan := F32.zero
  amp := F32.zero

/-- The resonator after reset (R42, indices 10 to 15). -/
def resetRings : Rings where
  freq := F32.ofNat 440
  bri := F32.dec 1 2
  damp := F32.dec 1 2
  pos := F32.dec 1 4
  struct := F32.zero
  model := .string
  modes := #v[resetMode 0, resetMode 1, resetMode 2, resetMode 3, resetMode 4, resetMode 5, resetMode 6, resetMode 7]

/-- The granular engine after reset (R42, indices 16 to 22; R60). -/
def resetClouds (cfg : Config.Params) : Clouds cfg where
  pos := F32.zero
  size := F32.dec 1 2
  dens := F32.dec 1 2
  pitch := F32.zero
  tex := F32.dec 1 2
  freeze := false
  wc := 0
  grains := Vector.replicate cfg.ng resetGrain
  bufL := []
  bufR := []

/-- The Karplus-Strong oscillator after reset (R42, indices 23 to 25; R61). -/
def resetKarplus : Karplus where
  len := 0
  wc := 0
  prev := F32.zero
  line := []

/-- The wavetable registers after reset (R42, indices 8 and 26 to 30). -/
def resetWt : WtRegs where
  a := 0
  b := 8
  morph := F32.zero
  warp := F32.zero
  fold := F32.zero
  phase := F32.zero

/-- The mix weights after reset (R42, indices 31 to 35). -/
def resetMix : Mix where
  rings := F32.dec 1 2
  clouds := F32.one
  karplus := F32.dec 1 2
  wt := F32.dec 1 2
  osc := F32.dec 1 2

/-- The oscillators after reset (R42, indices 36 to 44). -/
def resetOscs : Oscs where
  osc0 := ⟨F32.zero, F32.zero, .saw⟩
  osc1 := ⟨F32.zero, F32.zero, .square⟩
  detune := F32.zero
  mix := F32.zero
  pw := F32.dec 1 2

/-- The amplitude envelope after reset (R42, indices 45 to 51). -/
def resetEnvA : Env where
  stage := .idle
  level := F32.zero
  a := F32.dec 1 100
  d := F32.dec 1 10
  s := F32.dec 3 4
  r := F32.dec 1 4
  relRate := F32.zero

/-- The filter envelope after reset (R42, indices 52 to 58). -/
def resetEnvF : Env where
  stage := .idle
  level := F32.zero
  a := F32.dec 1 100
  d := F32.dec 1 4
  s := F32.dec 1 2
  r := F32.dec 1 4
  relRate := F32.zero

/-- The filter after reset (R42, indices 59 to 66). -/
def resetFilt : Filt where
  cutoff := F32.ofNat 8000
  q := F32.dec 3 4
  envAmt := F32.zero
  type := .lowpass
  s1l := F32.zero
  s2l := F32.zero
  s1r := F32.zero
  s2r := F32.zero

/-- A voice after reset (R42). -/
def resetVoice (cfg : Config.Params) : Voice cfg where
  active := false
  fading := false
  note := 255
  age := 0
  freq := F32.ofNat 440
  vel := F32.zero
  fadeinCnt := 0
  fadeoutCnt := 0
  mode := .rings
  rings := resetRings
  clouds := resetClouds cfg
  karplus := resetKarplus
  wt := resetWt
  mix := resetMix
  oscs := resetOscs
  enva := resetEnvA
  envf := resetEnvF
  flt := resetFilt

end Sys2Proof.Machine
end

