-- ==== Sys2Proof/Machine/Vec.lean ====
section
/-! DEFINITION. Banks iterated in index order (`00_scope.md` R14): the same function applied to every element of a fixed bank,
by recursion on the list of its elements, so that the kernel can evaluate it. -/

namespace Sys2Proof.Machine

/-- Applies `f` to every element together with its index, the first index being `k`. -/
def listMapFrom {α β : Type} (f : Nat → α → β) : Nat → List α → List β
  | _, [] => []
  | k, a :: as => f k a :: listMapFrom f (k + 1) as

theorem length_listMapFrom {α β : Type} (f : Nat → α → β) (k : Nat) (l : List α) :
    (listMapFrom f k l).length = l.length := by
  induction l generalizing k with
  | nil => rfl
  | cons a as ih => simp [listMapFrom, ih]

/-- `for i in 0..n-1: bank[i] <- f i bank[i]`. -/
def vecMapIdx {α β : Type} {n : Nat} (f : Nat → α → β) (v : Vector α n) : Vector β n :=
  ⟨(listMapFrom f 0 v.toList).toArray, by simp [length_listMapFrom]⟩

/-- `for i in 0..n-1: bank[i] <- f bank[i]`. -/
def vecMap {α β : Type} {n : Nat} (f : α → β) (v : Vector α n) : Vector β n := vecMapIdx (fun _ a => f a) v

end Sys2Proof.Machine
end

