-- ==== Sys2Proof/Machine/State.lean ====
section
/-! DEFINITION. The state of the block (`10_state.md` R30), the reasons a step can stop, and the state after reset
(`70_reset_and_hazards.md` R440). -/

namespace Sys2Proof.Machine

/-- The two channels of the output buffer (`20_memory.md` R101: `OUT_L`, `OUT_R`). -/
inductive Channel where
  | left | right
deriving DecidableEq, Repr

/-- What the host does at one of its two memory ports (R111, R112). -/
inductive PortAct (cfg : Config.Params) where
  /-- writes a parameter cell -/
  | writeCell (cell : Fin Config.NPARAM) (w : Word)
  /-- writes a frame of the output buffer -/
  | writeOut (ch : Channel) (frame : Fin cfg.maxBlockCap) (w : Word)
  /-- reads a frame of the output buffer -/
  | readOut (ch : Channel) (frame : Fin cfg.maxBlockCap)
deriving DecidableEq, Repr

/-- A host port access that falls in the time of the next command: it lands after `slot` of the cell reads that `SETGLOBAL`
makes (R115 (b)); with slot 0 it lands before the command starts, with a slot of 1 or more while the command executes. -/
structure PortAccess (cfg : Config.Params) where
  slot : Nat
  act : PortAct cfg
deriving DecidableEq, Repr

/-- The state of the block. `STATUS`, `ACTIVE_COUNT`, `NVOICES`, `NGRAINS` and `KSCAP` are derived (`10_state.md` R32, R33); the
wavetable memory is a constant (R76, log entry 13). `cfg` are the parameters of the block (`00_scope.md` R5); `State` alone is the
state of the block with the default parameters. -/
structure State (cfg : Config.Params := Config.std) where
  /-- `ERR` -/
  err : Word
  /-- `ERRINFO` -/
  errInfo : Word
  /-- `ERRCNT` -/
  errCnt : Word
  /-- `SR` -/
  sr : F32
  /-- `MAXBLOCK` -/
  maxBlock : Word
  /-- `FIN` -/
  fadeIn : Word
  /-- `FOUT` -/
  fadeOut : Word
  /-- `BUFLEN` -/
  bufLen : Word
  /-- `RNG_IDX` -/
  rngIdx : Word
  /-- `NOTE_SEQ` -/
  noteSeq : Word
  /-- the parameter cells, raw words (R34, R35) -/
  params : Vector Word Config.NPARAM
  /-- the voices (R42, R45, R46, R60, R61) -/
  voices : Vector (Voice cfg) cfg.nv
  /-- `OUT_L` (R63) -/
  outL : Mem
  /-- `OUT_R` (R63) -/
  outR : Mem
  /-- the command queue, front first (R75) -/
  cmd : List Word
  /-- the response queue, front first (R74) -/
  rsp : List Word
  /-- the MODEL's own field, no state of the spec (log entry 7): the host's port accesses that fall in the time of the next
  command, oldest first -/
  port : List (PortAccess cfg)
deriving DecidableEq, Repr

/-- The reasons the machine itself can stop with a fault: NONE. The block's own faults are recorded and the block goes on
(`60_exceptions.md` R404: "the block goes on to the next command"), so raising one is a next state; no arithmetic operation and no
access faults (R400, R402). Nothing raises this type. -/
inductive Fault where
deriving DecidableEq, Repr

/-- The reasons the model gives a step no meaning. -/
inductive Refusal where
  /-- An instruction whose meaning is not written: raised by no arm of `exec` any more. Safe. -/
  | notModelled (mnemonic : String)
  /-- The host touches a frame of the output buffer that `RENDER` or `V.RENDER` is rendering, while it executes: raised by
  `execRender` and `execVRender`. `20_memory.md` R112: "its result is undefined: a model must treat it as a refusal of the whole
  run, not pick a value". Safe: the run has no meaning. -/
  | hostTouchedOut
deriving DecidableEq, Repr

/-- A block with the parameters `cfg` right after reset (`70_reset_and_hazards.md` R440, `10_state.md` R78). -/
def State.resetAt (cfg : Config.Params) : State cfg where
  err := 0
  errInfo := 0
  errCnt := 0
  sr := F32.zero
  maxBlock := 0
  fadeIn := 0
  fadeOut := 0
  bufLen := 0
  rngIdx := 0
  noteSeq := 0
  params := vecMapIdx (fun k _ => cellDefaults.getD k 0) (Vector.replicate Config.NPARAM 0)
  voices := Vector.replicate cfg.nv (resetVoice cfg)
  outL := []
  outR := []
  cmd := []
  rsp := []
  port := []

/-- The machine right after reset: the block with the default parameters. -/
def State.reset : State := State.resetAt Config.std

end Sys2Proof.Machine
end

