-- ==== Sys2Proof/Machine/Ops.lean ====
section
/-! DEFINITION. The named operations over the state: voices, output buffer, response queue, draws; fault entry
(`60_exceptions.md` R404), the one shared form of taking a fault; the checks a command passes before it has any effect
(`30_encoding.md` R148); the landing of host port accesses (`20_memory.md` R111, R115); and the step around a command. -/

namespace Sys2Proof.Machine

variable {cfg : Config.Params}

/-- What a step answers. -/
abbrev Out (cfg : Config.Params := Config.std) := Host.Outcome (State cfg) Fault Refusal

/-! Registers and memories of the state. -/

/-- Voice `v`. -/
def State.voice (s : State cfg) (v : Fin cfg.nv) : Voice cfg := s.voices[v]

/-- Replaces voice `v`. -/
def State.setVoice (s : State cfg) (v : Fin cfg.nv) (x : Voice cfg) : State cfg := { s with voices := s.voices.set v x }

/-- Changes voice `v`. -/
def State.updVoice (s : State cfg) (v : Fin cfg.nv) (f : Voice cfg → Voice cfg) : State cfg := s.setVoice v (f (s.voice v))

/-- The same change to every voice, in index order (`00_scope.md` R14). -/
def State.updVoices (s : State cfg) (f : Voice cfg → Voice cfg) : State cfg := { s with voices := vecMap f s.voices }

/-- `RSP.push(w)` (`00_scope.md` R13, `10_state.md` R74). -/
def State.push (s : State cfg) (w : Word) : State cfg := { s with rsp := s.rsp ++ [w] }

/-- `RSP.push` of a binary32 pushes its 32 bits (R13). -/
def State.pushF (s : State cfg) (x : F32) : State cfg := s.push x.bits

/-- Sets `RNG_IDX`, after draws (`00_scope.md` R12). -/
def State.setRng (s : State cfg) (k : Word) : State cfg := { s with rngIdx := k }

/-- `OUT_L` or `OUT_R` (R63). -/
def State.out (s : State cfg) (ch : Channel) : Mem :=
  match ch with
  | .left => s.outL
  | .right => s.outR

/-- Replaces the contents of `OUT_L` or `OUT_R`. -/
def State.setOut (s : State cfg) (ch : Channel) (m : Mem) : State cfg :=
  match ch with
  | .left => { s with outL := m }
  | .right => { s with outR := m }

/-- `OUT[f] <- OUT[f] + y`: one read, one binary32 add, one write (`46_voice.md` R344). -/
def Mem.accumulate (m : Mem) (f : Nat) (y : F32) : Mem := m.write f (F32.add ⟨m.read f⟩ y).bits

/-- `STATUS.READY`: `SR` is not +0 (`10_state.md` R33, `60_exceptions.md` R415). -/
def State.ready (s : State cfg) : Bool := s.sr != F32.zero

/-! Faults. -/

/-- The codes of the faults (`60_exceptions.md` R401). -/
def faultCode (f : FaultCode) : Word :=
  match f with
  | .illegalOpcode => 1
  | .badLength => 2
  | .badArg => 3
  | .badVoice => 4
  | .notPrepared => 5
  | .blockTooLong => 6
  | .badAddress => 7

/-- Fault entry (`60_exceptions.md` R404): `ERR` and `ERRINFO` keep the first fault, `ERRCNT` counts and saturates, nothing else
changes, nothing is pushed. There is no return (R406): the next command follows as it would have anyway. -/
def State.raise (s : State cfg) (f : FaultCode) (header : Word) : State cfg :=
  { s with
    err := if s.err = 0 then faultCode f else s.err
    errInfo := if s.err = 0 then header else s.errInfo
    errCnt := if s.errCnt = 0xFFFFFFFF then s.errCnt else s.errCnt + 1 }

/-- What `CLRERR` does to the fault record (`47_voice_pool_and_system.md` R363). -/
def State.clearFault (s : State cfg) : State cfg := { s with err := 0, errInfo := 0, errCnt := 0 }

/-- The checks (2) to (5) of R148 in that order: what the header decides, then whether the command is legal before
`PREPARE`. -/
def firstFault (i : Instr) (s : State cfg) : Option FaultCode :=
  match headerFault cfg i with
  | some f => some f
  | none => if s.ready || (instrRow i).early then none else some .notPrepared

/-- A command faults: a next state (R404). -/
def faultOf (i : Instr) (s : State cfg) (f : FaultCode) : Out cfg := .next (s.raise f (instrHeader i))

/-- Runs a command that names no voice: its effect, unless a check faults. -/
def runGlobal (i : Instr) (s : State cfg) (effect : Out cfg) : Out cfg :=
  match firstFault i s with
  | some f => faultOf i s f
  | none => effect

/-- The voice a `VID` names, if it exists. -/
def voiceOf (vid : Byte) : Option (Fin cfg.nv) :=
  if h : vid.toNat < cfg.nv then some ⟨vid.toNat, h⟩ else none

/-- Runs a command on the voice its `VID` names: its effect, unless a check faults. -/
def runVoice (i : Instr) (s : State cfg) (effect : Fin cfg.nv → Out cfg) : Out cfg :=
  match firstFault i s with
  | some f => faultOf i s f
  | none =>
    match voiceOf i.vid with
    | some v => effect v
    | none => faultOf i s .badVoice

/-! Host port accesses in the time of a command (`20_memory.md` R111, R112, R115). -/

/-- One host port access lands. A read of `OUT` changes nothing in the block. -/
def State.land (s : State cfg) (a : PortAct cfg) : State cfg :=
  match a with
  | .writeCell c w => { s with params := s.params.set c w }
  | .writeOut ch f w => s.setOut ch ((s.out ch).write f w)
  | .readOut _ _ => s

/-- Accesses land in order. -/
def State.landList (s : State cfg) (l : List (PortAccess cfg)) : State cfg := l.foldl (fun s p => s.land p.act) s

/-- The accesses of slot 0 land: those before the command starts. -/
def State.landBefore (s : State cfg) : State cfg :=
  { s.landList (s.port.filter fun p => p.slot == 0) with port := s.port.filter fun p => p.slot != 0 }

/-- The accesses that are left land: those while the command executed. -/
def State.landAfter (s : State cfg) : State cfg := { s.landList s.port with port := [] }

/-- What a cell holds at a read that `slot` reads precede: a host write in the time of the command is seen if it landed by then
(R115 (b): "seen or not seen, cell by cell"). -/
def cellAfter (cell : Fin Config.NPARAM) (slot : Nat) (w : Word) (l : List (PortAccess cfg)) : Word :=
  match l with
  | [] => w
  | p :: l =>
    match p.act with
    | .writeCell c x => cellAfter cell slot (if c = cell ∧ p.slot ≤ slot then x else w) l
    | _ => cellAfter cell slot w l

/-- An access of the host to a frame below `n` of the output buffer while the command executes (R112). -/
def touchesOut (n : Nat) (p : PortAccess cfg) : Bool :=
  match p.act with
  | .writeOut _ f _ => p.slot != 0 && decide (f.val < n)
  | .readOut _ f => p.slot != 0 && decide (f.val < n)
  | .writeCell _ _ => false

/-- The host touches a frame below `n` while the command executes. -/
def State.hostInOut (s : State cfg) (n : Nat) : Bool := s.port.any (touchesOut n)

/-! The step around a command (`10_state.md` R31, R75; `70_reset_and_hazards.md` R452, R453). -/

/-- The state in which a command starts: its words are taken from the queue (`30_encoding.md` R142), and the host accesses that
land before it starts have landed. -/
def State.begin (s : State cfg) (rest : List Word) : State cfg := { s with cmd := rest }.landBefore

/-- The end of a command: the host accesses that fell in its time have landed. -/
def finish (o : Out cfg) : Out cfg :=
  match o with
  | .next s => .next s.landAfter
  | .fault f => .fault f
  | .refused r => .refused r

/-- One step, `run` being what executes one command. With no whole command in the queue the block waits: the same state (R453). A
reserved `OPC` is the fault `ILLEGAL_OPCODE` (`30_encoding.md` R149, check (1) of R148). -/
def stepBy (run : Instr → State cfg → Out cfg) (s : State cfg) : Out cfg :=
  match decode s.cmd with
  | .waiting => .next s
  | .illegal header rest => finish (.next ((s.begin rest).raise .illegalOpcode header))
  | .command i rest => finish (run i (s.begin rest))

end Sys2Proof.Machine
end

