-- ==== Sys2Proof/Machine/Operands.lean ====
section
/-! DEFINITION. The operand forms: operand words (`30_encoding.md` R143), the uses of `ARG` (R144), the ranges to which every
parameter operand is clamped (`10_state.md` R35, R36), the enumeration codes (R37 to R41), and the register indices of the
spaces that `PEEK` reads (R42, R45, R46). -/

namespace Sys2Proof.Machine

variable {cfg : Config.Params}

/-- Operand word `k` of a command (R143). -/
def opWord (ops : List Word) (k : Nat) : Word := ops.getD k 0
/-- Operand word `k` as a binary32. -/
def opF32 (ops : List Word) (k : Nat) : F32 := ⟨opWord ops k⟩

/-- The flag or instance selector in `ARG[0]` (R144 (d), (e)). -/
def argBit0 (arg : Byte) : Bool := arg.getLsbD 0
/-- A MIDI note in `ARG`: `clampu(ARG, 127)` (R144 (c), R36). -/
def argNote (arg : Byte) : Nat := clampu arg.toNat 127
/-- `ARG[3:0]` (R144 (f)). -/
def argLow (arg : Byte) : Nat := (arg.extractLsb' 0 4).toNat
/-- `ARG[7:4]` (R144 (f)). -/
def argHigh (arg : Byte) : Nat := (arg.extractLsb' 4 4).toNat

/-! Ranges (R35, R36). -/

/-- [0, 1]: brightness, damping, position, structure, size, density, texture, morph, fold, mix weights, sustain, `OSC_MIX`, velocity. -/
def clampUnit (x : F32) : F32 := x.clamp F32.zero F32.one
/-- [-1, 1]: warp, filter envelope amount. -/
def clampBipolar (x : F32) : F32 := x.clamp F32.one.neg F32.one
/-- [-12, 12] semitones: granular pitch. -/
def clampPitch (x : F32) : F32 := x.clamp (F32.ofNat 12).neg (F32.ofNat 12)
/-- [-24, 24] semitones: oscillator detune. -/
def clampDetune (x : F32) : F32 := x.clamp (F32.ofNat 24).neg (F32.ofNat 24)
/-- [0.05, 0.95]: pulse width. -/
def clampWidth (x : F32) : F32 := x.clamp (F32.dec 5 100) (F32.dec 95 100)
/-- [0.001, 10] seconds: envelope times. -/
def clampTime (x : F32) : F32 := x.clamp (F32.dec 1 1000) (F32.ofNat 10)
/-- [20, 20000] Hz: cutoff. -/
def clampCutoff (x : F32) : F32 := x.clamp (F32.ofNat 20) (F32.ofNat 20000)
/-- [0.1, 10]: quality factor. -/
def clampQ (x : F32) : F32 := x.clamp (F32.dec 1 10) (F32.ofNat 10)
/-- [1, 20000] Hz: frequency operands (R36). -/
def clampFreq (x : F32) : F32 := x.clamp F32.one (F32.ofNat 20000)
/-- [0, 0.5]: the phase increment of an oscillator (`40_basic_oscillator.md` R182). -/
def clampInc (x : F32) : F32 := x.clamp F32.zero (F32.dec 1 2)

/-! Enumeration codes. -/

/-- Engine mode of a code after `clampu(n, 8)` (R37). -/
def modeOfCode (n : Nat) : EngineMode :=
  match clampu n 8 with
  | 0 => .rings
  | 1 => .clouds
  | 2 => .karplus
  | 3 => .ringsIntoClouds
  | 4 => .hybridAll
  | 5 => .osc
  | 6 => .oscRings
  | 7 => .oscClouds
  | _ => .fullHybrid

/-- The code of an engine mode (R37). -/
def modeCode (m : EngineMode) : Nat :=
  match m with
  | .rings => 0
  | .clouds => 1
  | .karplus => 2
  | .ringsIntoClouds => 3
  | .hybridAll => 4
  | .osc => 5
  | .oscRings => 6
  | .oscClouds => 7
  | .fullHybrid => 8

/-- Resonator model of a code after `clampu(n, 3)` (R38). -/
def modelOfCode (n : Nat) : Model :=
  match clampu n 3 with
  | 0 => .string
  | 1 => .membrane
  | 2 => .tube
  | _ => .bell

/-- The code of a resonator model (R38). -/
def modelCode (m : Model) : Nat :=
  match m with
  | .string => 0
  | .membrane => 1
  | .tube => 2
  | .bell => 3

/-- Waveform of a code after `clampu(n, 4)` (R39). -/
def waveOfCode (n : Nat) : Wave :=
  match clampu n 4 with
  | 0 => .sine
  | 1 => .saw
  | 2 => .square
  | 3 => .triangle
  | _ => .pulse

/-- The code of a waveform (R39). -/
def waveCode (w : Wave) : Nat :=
  match w with
  | .sine => 0
  | .saw => 1
  | .square => 2
  | .triangle => 3
  | .pulse => 4

/-- Filter type of a code after `clampu(n, 2)` (R40). -/
def typeOfCode (n : Nat) : FilterType :=
  match clampu n 2 with
  | 0 => .lowpass
  | 1 => .bandpass
  | _ => .highpass

/-- The code of a filter type (R40). -/
def typeCode (t : FilterType) : Nat :=
  match t with
  | .lowpass => 0
  | .bandpass => 1
  | .highpass => 2

/-- The code of an envelope stage (R41). -/
def stageCode (st : Stage) : Nat :=
  match st with
  | .idle => 0
  | .attack => 1
  | .decay => 2
  | .sustain => 3
  | .release => 4

/-- A wavetable index: `clampu(n, 31)` (R35). -/
def tableOf (n : Nat) : Fin Config.NTABLES := ⟨clampu n 31, Nat.lt_of_le_of_lt (Nat.min_le_right n 31) (by decide)⟩

/-! What `PEEK` reads of a voice. -/

/-- A number as a response word: `zext_32`. -/
def natWord (n : Nat) : Word := BitVec.ofNat 32 n
/-- A flag as a response word. -/
def flagWord (b : Bool) : Word := if b then 1 else 0

/-- The registers of an envelope in index order (R42, 45 to 51 and 52 to 58). -/
def envRegs (e : Env) : List Word :=
  [natWord (stageCode e.stage), e.level.bits, e.a.bits, e.d.bits, e.s.bits, e.r.bits, e.relRate.bits]

/-- The 67 registers of a voice in index order (R42). -/
def voiceRegs (x : Voice cfg) : List Word :=
  [flagWord x.active, flagWord x.fading, x.note, x.age, x.freq.bits, x.vel.bits, x.fadeinCnt, x.fadeoutCnt,
    x.wt.phase.bits, natWord (modeCode x.mode)] ++
  [x.rings.freq.bits, x.rings.bri.bits, x.rings.damp.bits, x.rings.pos.bits, x.rings.struct.bits,
    natWord (modelCode x.rings.model)] ++
  [x.clouds.pos.bits, x.clouds.size.bits, x.clouds.dens.bits, x.clouds.pitch.bits, x.clouds.tex.bits,
    flagWord x.clouds.freeze, x.clouds.wc] ++
  [x.karplus.len, x.karplus.wc, x.karplus.prev.bits] ++
  [natWord x.wt.a, natWord x.wt.b, x.wt.morph.bits, x.wt.warp.bits, x.wt.fold.bits] ++
  [x.mix.rings.bits, x.mix.clouds.bits, x.mix.karplus.bits, x.mix.wt.bits, x.mix.osc.bits] ++
  [x.oscs.osc0.phase.bits, x.oscs.osc0.inc.bits, natWord (waveCode x.oscs.osc0.wave), x.oscs.osc1.phase.bits,
    x.oscs.osc1.inc.bits, natWord (waveCode x.oscs.osc1.wave), x.oscs.detune.bits, x.oscs.mix.bits, x.oscs.pw.bits] ++
  envRegs x.enva ++ envRegs x.envf ++
  [x.flt.cutoff.bits, x.flt.q.bits, x.flt.envAmt.bits, natWord (typeCode x.flt.type), x.flt.s1l.bits, x.flt.s2l.bits,
    x.flt.s1r.bits, x.flt.s2r.bits]

/-- The ten registers of a mode in index order (R45); the indices 10 to 15 read 0. -/
def modeRegs (m : Mode) : List Word :=
  [m.freq.bits, m.decay.bits, m.bri.bits, m.c1.bits, m.c2.bits, m.x1.bits, m.x2.bits, m.y1.bits, m.y2.bits, m.exc.bits]

/-- The seven registers of a grain in index order (R46); the index 7 reads 0. -/
def grainRegs (g : Grain) : List Word :=
  [flagWord g.active, g.pos.bits, g.phase.bits, g.dur.bits, g.ratio.bits, g.pan.bits, g.amp.bits]

end Sys2Proof.Machine
end

