-- ==== Sys2Proof/Machine/Flags.lean ====
section
/-! DEFINITION. The derived state of the block: the block has no condition codes and no arithmetic flags (`10_state.md` R44), so
what is computed here is `STATUS` (R33), `ACTIVE_COUNT` (R32) and the lifecycle state of a voice (R43). -/

namespace Sys2Proof.Machine

variable {cfg : Config.Params}

/-- `STATUS`: bit 0 `READY`, bit 1 `ERRF`, bits 31:2 read 0 (R33). -/
def State.status (s : State cfg) : Word :=
  flagWord s.ready ||| (if s.err = 0 then 0 else 2)

/-- `ACTIVE_COUNT` (R32). -/
def State.activeCount (s : State cfg) : Word := natWord (s.voices.toList.countP fun x => x.active)

/-- The lifecycle states of a voice. -/
inductive Lifecycle where
  | idle | sounding | releasing | fadingOut
deriving DecidableEq, Repr

/-- The lifecycle state that the registers of a voice stand for (R43). -/
def lifecycle (x : Voice cfg) : Lifecycle :=
  if !x.active then .idle
  else if x.fading then .fadingOut
  else if x.enva.stage = .release then .releasing
  else .sounding

end Sys2Proof.Machine
end

