-- ==== Sys2Proof/Machine/Num.lean ====
section
/-! DEFINITION. The open parameters of the block: the numerics record `NUM` (`00_scope.md` R8) and the draw stream
`RAND_STREAM` (R12). Each is a free value of `Config` forced into the set the rule allows: a raw value inside the set is taken
as it is, so that every admissible `NUM` and every admissible stream is some raw value (log entries 2 and 3). For arguments
that are no finite number the properties say nothing (but P7 for minus infinity) and the raw value stands. -/

namespace Sys2Proof

/-- P6 for `sin` and `cos`: of a finite argument, a finite value of magnitude at most 1. -/
def boundedRaw (x r : F32) : F32 :=
  if !x.isFinite || (r.isFinite && r.abs.le F32.one) then r else F32.zero

/-- P6 for `exp` and `exp2`: of a finite argument, a finite value that is not negative. -/
def nonNegRaw (x r : F32) : F32 :=
  if !x.isFinite || (r.isFinite && F32.zero.le r) then r else F32.zero

/-- `NUM.sin` (P1, P6). -/
def Num.sin (x : F32) : F32 := if x = F32.zero then F32.zero else boundedRaw x (Config.sinRaw x)

/-- `NUM.cos` (P2, P6). -/
def Num.cos (x : F32) : F32 := if x = F32.zero then F32.one else boundedRaw x (Config.cosRaw x)

/-- `NUM.tan` (P5, P6). -/
def Num.tan (x : F32) : F32 :=
  if x = F32.zero then F32.zero
  else if !x.isFinite || (Config.tanRaw x).isFinite then Config.tanRaw x else F32.zero

/-- `NUM.exp` (P3, P6, P7). -/
def Num.exp (x : F32) : F32 :=
  if x.eqv F32.zero then F32.one
  else if x.le F32.zero && !(nonNegRaw x (Config.expRaw x)).le F32.one then F32.zero
  else nonNegRaw x (Config.expRaw x)

/-- The integer a finite integer-valued `x` in [-126, 127] stands for, raised by 127 (P4). -/
def exactPower (x : F32) : Option Nat :=
  match x.value with
  | .fin neg u =>
    if u % unitsPerOne = 0 then
      (if neg then (if u / unitsPerOne ≤ 126 then some (127 - u / unitsPerOne) else none)
       else if u / unitsPerOne ≤ 127 then some (127 + u / unitsPerOne) else none)
    else none
  | _ => none

/-- `NUM.exp2` (P4, P6): exactly `2^k` for an integer-valued `k` in [-126, 127]. -/
def Num.exp2 (x : F32) : F32 :=
  match exactPower x with
  | some e => F32.pack false (e * 2 ^ 23)
  | none => nonNegRaw x (Config.exp2Raw x)

/-- A value that `RAND_STREAM` may have: in [0, 1) (R12). -/
def isDraw (r : F32) : Bool := F32.zero.le r && r.lt F32.one

/-- R12 for a draw: a value in [0, 1). -/
def unitRaw (r : F32) : F32 := if isDraw r then r else F32.zero

/-- `RAND_STREAM(k)` of the open stream (R12): a value in [0, 1). -/
def randStream (k : Word) : F32 := unitRaw (Config.randRaw k)

/-- `RAND_STREAM(k)` of the block with the parameters `cfg` (R12): the open stream, or the stream that `.rand` fixed, which is 0.5
where nothing is listed (`30_encoding.md` R151). -/
def drawOf (cfg : Config.Params) (k : Word) : F32 :=
  match cfg.draws with
  | none => randStream k
  | some xs => unitRaw (xs.getD k.toNat Config.unlistedDraw)

end Sys2Proof
end

