-- ==== Sys2Proof/Machine/Oscillator.lean ====
section
/-! DEFINITION. The basic oscillator with polynomial step correction (`40_basic_oscillator.md` R180 to R188) and the commands
`OSC.SETFREQ`, `OSC.SETWAVE`, `OSC.RESET`, `OSC.NEXT`, `V.SETOSC`. -/

namespace Sys2Proof.Machine

variable {cfg : Config.Params}

/-- 2.0. -/
def two : F32 := F32.ofNat 2
/-- 0.5. -/
def half : F32 := F32.dec 1 2

/-- The step-correction polynomial `PB(t, dt)` (R181). -/
def stepCorrection (t dt : F32) : F32 :=
  if F32.zero.lt dt && t.lt dt then
    (((t.div dt).add (t.div dt)).sub ((t.div dt).mul (t.div dt))).sub F32.one
  else if F32.zero.lt dt && (F32.one.sub dt).lt t then
    ((((t.sub F32.one).div dt).mul ((t.sub F32.one).div dt)).add
      (((t.sub F32.one).div dt).add ((t.sub F32.one).div dt))).add F32.one
  else F32.zero

/-- 1 below the step, -1 from it on: the `n` of `SQUARE` and `PULSE` (R185). -/
def rectangle (t width : F32) : F32 := if t.lt width then F32.one else F32.one.neg

/-- The sample of an oscillator before its phase advances (R185). -/
def oscValue (o : Osc) (pw : F32) : F32 :=
  match o.wave with
  | .sine => Num.sin (Config.twoPi.mul o.phase)
  | .saw => ((two.mul o.phase).sub F32.one).sub (stepCorrection o.phase o.inc)
  | .square =>
    ((rectangle o.phase half).add (stepCorrection o.phase o.inc)).sub
      (stepCorrection (o.phase.add half).frac o.inc)
  | .triangle => F32.one.sub ((F32.ofNat 4).mul (o.phase.sub half).abs)
  | .pulse =>
    ((rectangle o.phase pw).add (stepCorrection o.phase o.inc)).sub
      (stepCorrection (o.phase.add (F32.one.sub pw)).frac o.inc)

/-- The advance of the phase (R185). -/
def oscAdvance (o : Osc) : Osc := { o with phase := (o.phase.add o.inc).frac }

/-- Oscillator instance `k` of a voice; `k` is `ARG[0]` (R180). -/
def oscOf (o : Oscs) (k : Bool) : Osc := if k then o.osc1 else o.osc0

/-- Replaces oscillator instance `k`. -/
def setOsc (o : Oscs) (k : Bool) (x : Osc) : Oscs := if k then { o with osc1 := x } else { o with osc0 := x }

/-- Changes oscillator instance `k` of a voice. -/
def updOsc (x : Voice cfg) (k : Bool) (f : Osc → Osc) : Voice cfg := { x with oscs := setOsc x.oscs k (f (oscOf x.oscs k)) }

/-- `OSC_NEXT(v, k)` (R185): the oscillators after the call, and the sample. -/
def oscNext (o : Oscs) (k : Bool) : Oscs × F32 := (setOsc o k (oscAdvance (oscOf o k)), oscValue (oscOf o k) o.pw)

/-- `OSC_SAMPLE(v)` (R187): both oscillators advance, whatever `OSC_MIX` is. -/
def oscSample (o : Oscs) : Oscs × F32 :=
  let r0 := oscNext o false
  let r1 := oscNext r0.1 true
  (r1.1, r0.2.add (o.mix.mul (r1.2.sub r0.2)))

/-- `OSC_RETUNE(v)` (R186). -/
def oscRetune (sr freq : F32) (o : Oscs) : Oscs :=
  { o with
    osc0 := { o.osc0 with inc := clampInc (freq.div sr) }
    osc1 := { o.osc1 with inc := clampInc ((freq.mul (Num.exp2 (o.detune.div (F32.ofNat 12)))).div sr) } }

/-- The body of `V.SETOSC` (R186). -/
def oscSet (sr freq : F32) (wave0 wave1 : Nat) (detune mix pw : F32) (o : Oscs) : Oscs :=
  oscRetune sr freq
    { osc0 := { o.osc0 with wave := waveOfCode wave0 }
      osc1 := { o.osc1 with wave := waveOfCode wave1 }
      detune := clampDetune detune
      mix := clampUnit mix
      pw := clampWidth pw }

/-- `OSC.SETFREQ` (R182). -/
def execOscSetfreq (vid arg : Byte) (ops : List Word) (s : State cfg) : Out cfg :=
  runVoice (.oscSetfreq vid arg ops) s fun v =>
    .next (s.updVoice v fun x =>
      updOsc x (argBit0 arg) fun o => { o with inc := clampInc ((clampFreq (opF32 ops 0)).div s.sr) })

/-- `OSC.SETWAVE` (R183): the waveform is in `ARG[7:4]`. -/
def execOscSetwave (vid arg : Byte) (ops : List Word) (s : State cfg) : Out cfg :=
  runVoice (.oscSetwave vid arg ops) s fun v =>
    .next (s.updVoice v fun x =>
      updOsc x (argBit0 arg) fun o => { o with wave := waveOfCode (argHigh arg) })

/-- `OSC.RESET` (R184). -/
def execOscReset (vid arg : Byte) (ops : List Word) (s : State cfg) : Out cfg :=
  runVoice (.oscReset vid arg ops) s fun v =>
    .next (s.updVoice v fun x =>
      updOsc x (argBit0 arg) fun o => { o with phase := F32.zero })

/-- `OSC.NEXT` (R185). -/
def execOscNext (vid arg : Byte) (ops : List Word) (s : State cfg) : Out cfg :=
  runVoice (.oscNext vid arg ops) s fun v =>
    .next ((s.updVoice v fun x => { x with oscs := (oscNext x.oscs (argBit0 arg)).1 }).pushF
      (oscNext (s.voice v).oscs (argBit0 arg)).2)

/-- `V.SETOSC` (R186): the waveforms are in `ARG[3:0]` and `ARG[7:4]`. -/
def execVSetosc (vid arg : Byte) (ops : List Word) (s : State cfg) : Out cfg :=
  runVoice (.vSetosc vid arg ops) s fun v =>
    .next (s.updVoice v fun x =>
      { x with
        oscs := oscSet s.sr x.freq (argLow arg) (argHigh arg) (opF32 ops 0) (opF32 ops 1) (opF32 ops 2) x.oscs })

end Sys2Proof.Machine
end

