-- ==== Sys2Proof/Machine/Resonator.lean ====
section
/-! DEFINITION. The modal resonator bank (`41_modal_resonator.md` R200 to R208) and the commands `MR.SETPARAMS`, `MR.TRIGGER`,
`MR.PROC`, `V.SETRINGS`. -/

namespace Sys2Proof.Machine

variable {cfg : Config.Params}

/-- The Bell ratio table (R201). -/
def bellTable : List F32 :=
  [F32.dec 100 100, F32.dec 276 100, F32.dec 540 100, F32.dec 893 100, F32.dec 1334 100, F32.dec 1864 100,
    F32.dec 2480 100, F32.dec 3187 100]

/-- The frequency of mode `i` (R201), `f` being `MR_FREQ` and `st` being `MR_STRUCT`. -/
def modeFreq (model : Model) (f st : F32) (i : Nat) : F32 :=
  let h := F32.ofNat (i + 1)
  match model with
  | .string => (f.mul h).mul (F32.one.add ((st.mul (F32.dec 2 100)).mul (h.mul h)))
  | .membrane => (f.mul h.sqrt).mul (F32.one.add st)
  | .tube => f.mul ((two.mul h).sub F32.one)
  | .bell => (f.mul (bellTable.getD i F32.one)).mul (F32.one.add (st.mul (F32.dec 1 10)))

/-- The pole radius of a mode: the `R` of R204. -/
def poleRadius (cfg : Config.Params) (sr : F32) (m : Mode) : F32 :=
  (Num.exp (F32.one.neg.div ((m.decay.max cfg.decayMin).mul sr))).mul
    (Num.exp ((Config.pi.mul (m.bri.mul cfg.bwScale)).neg.div sr))

/-- `MR_COEF(v, i)` (R204). -/
def modeCoef (cfg : Config.Params) (sr : F32) (m : Mode) : Mode :=
  { m with
    c1 := (two.mul (poleRadius cfg sr m)).mul (Num.cos ((Config.twoPi.mul m.freq).div sr))
    c2 := (poleRadius cfg sr m).mul (poleRadius cfg sr m) }

/-- `MR_SET` (R202). -/
def ringsSet (cfg : Config.Params) (sr frequency brightness damping position structure_ : F32) (model : Nat) (r : Rings) : Rings :=
  { freq := clampFreq frequency
    bri := clampUnit brightness
    damp := clampUnit damping
    pos := clampUnit position
    struct := clampUnit structure_
    model := modelOfCode model
    modes := vecMapIdx (fun i m =>
      modeCoef cfg sr { m with
        freq := modeFreq (modelOfCode model) (clampFreq frequency) (clampUnit structure_) i
        decay := (clampUnit damping).mul two
        bri := clampUnit brightness }) r.modes }

/-- The impulse that a trigger adds to mode `i`: the `a` of R205. -/
def triggerImpulse (vel pos : F32) (i : Nat) : F32 :=
  (vel.mul (Num.sin (((F32.ofNat (i + 1)).mul Config.pi).mul pos))).div (F32.ofNat (i + 1))

/-- `MR_TRIG` (R205): a trigger adds to `EXC` and clears nothing (R206). -/
def ringsTrigger (velocity : F32) (r : Rings) : Rings :=
  { r with modes := vecMapIdx (fun i m =>
      { m with exc := m.exc.add (triggerImpulse (clampUnit velocity) r.pos i) }) r.modes }

/-- The output of a mode for the input `x`: the `y` of R207. -/
def modeOutput (x : F32) (m : Mode) : F32 :=
  ((half.mul ((x.add m.exc).sub m.x2)).add (m.c1.mul m.y1)).sub (m.c2.mul m.y2)

/-- A mode after one sample of input `x` (R207). -/
def modeAdvance (x : F32) (m : Mode) : Mode :=
  { m with
    exc := F32.zero
    x2 := m.x1
    x1 := x.add m.exc
    y2 := m.y1
    y1 := modeOutput x m }

/-- `MR_PROC(v, x)` (R207): every mode reads only its own registers, so the sum of the outputs, from +0 in index order, is
over the modes as they were. -/
def ringsProc (x : F32) (r : Rings) : Rings × F32 :=
  ({ r with modes := vecMap (modeAdvance x) r.modes },
    (r.modes.toList.foldl (fun sum m => sum.add (modeOutput x m)) F32.zero).mul Config.modalGain)

/-- `MR.SETPARAMS` (R202). -/
def execMrSetparams (vid arg : Byte) (ops : List Word) (s : State cfg) : Out cfg :=
  runVoice (.mrSetparams vid arg ops) s fun v =>
    .next (s.updVoice v fun x =>
      { x with
        rings := ringsSet cfg s.sr (opF32 ops 0) (opF32 ops 1) (opF32 ops 2) (opF32 ops 3) (opF32 ops 4)
          arg.toNat x.rings })

/-- `V.SETRINGS` (R203): the resonator is re-tuned to the voice's own `FREQ`. -/
def execVSetrings (vid arg : Byte) (ops : List Word) (s : State cfg) : Out cfg :=
  runVoice (.vSetrings vid arg ops) s fun v =>
    .next (s.updVoice v fun x =>
      { x with
        rings := ringsSet cfg s.sr x.freq (opF32 ops 0) (opF32 ops 1) (opF32 ops 2) (opF32 ops 3)
          arg.toNat x.rings })

/-- `MR.TRIGGER` (R205). -/
def execMrTrigger (vid arg : Byte) (ops : List Word) (s : State cfg) : Out cfg :=
  runVoice (.mrTrigger vid arg ops) s fun v =>
    .next (s.updVoice v fun x => { x with rings := ringsTrigger (opF32 ops 0) x.rings })

/-- `MR.PROC` (R207). -/
def execMrProc (vid arg : Byte) (ops : List Word) (s : State cfg) : Out cfg :=
  runVoice (.mrProc vid arg ops) s fun v =>
    .next ((s.updVoice v fun x => { x with rings := (ringsProc (opF32 ops 0).san x.rings).1 }).pushF
      (ringsProc (opF32 ops 0).san (s.voice v).rings).2)

end Sys2Proof.Machine
end

