-- ==== Sys2Proof/Machine/Granular.lean ====
section
/-! DEFINITION. The granular engine (`42_granular_engine.md` R220 to R235) and the commands `GR.WRITE`, `GR.PROC`, `V.SETCLOUDS`. -/

namespace Sys2Proof.Machine

variable {cfg : Config.Params}

/-- `GR_SET` (R221). -/
def cloudsSet (freeze : Nat) (position size density pitch texture : F32) (c : Clouds cfg) : Clouds cfg :=
  { c with
    freeze := decide (clampu freeze 1 = 1)
    pos := clampUnit position
    size := clampUnit size
    dens := clampUnit density
    pitch := clampPitch pitch
    tex := clampUnit texture }

/-- `GR_WRITE(v, l, r)` (R223): nothing while freeze is on. -/
def cloudsWrite (bufLen : Word) (l r : F32) (c : Clouds cfg) : Clouds cfg :=
  if c.freeze then c
  else
    { c with
      bufL := c.bufL.write c.wc.toNat l.bits
      bufR := c.bufR.write c.wc.toNat r.bits
      wc := (c.wc + 1) % bufLen }

/-- `(j * 2) - 1`: a draw spread over [-1, 1) (R227, `43_karplus_strong.md` R254). -/
def bipolarDraw (j : F32) : F32 := (j.mul two).sub F32.one

/-- The grain that `GR_INIT` makes of the three draws `j1`, `j2`, `j3` (R227). -/
def grainInit (sr : F32) (c : Clouds cfg) (j1 j2 j3 : F32) : Grain where
  pos := ((bipolarDraw j1).mul c.tex).mul cfg.grJitter
  phase := F32.zero
  dur := ((F32.dec 1 100).add (c.size.mul half)).mul sr
  ratio := Num.exp2 ((c.pitch.add (((bipolarDraw j2).mul c.tex).mul cfg.grDetune)).div (F32.ofNat 12))
  pan := half.add ((j3.sub half).mul c.tex)
  amp := F32.one
  active := true

/-- The least index, from `k` on, of a grain that is not active (R226: "first inactive slot"). -/
def firstInactive : Nat → List Grain → Option Nat
  | _, [] => none
  | k, g :: gs => if g.active then firstInactive (k + 1) gs else some k

/-- The spawn probability `p` (R226). -/
def spawnProbability (sr : F32) (c : Clouds cfg) : F32 := (c.dens.mul cfg.grRateMax).div sr

/-- `GR_SPAWN(v)` (R226, R227): the engine and `RNG_IDX` afterwards. One draw decides; three more are made only when a grain is
spawned. -/
def cloudsSpawn (sr : F32) (rng : Word) (c : Clouds cfg) : Clouds cfg × Word :=
  if (drawOf cfg rng).lt (spawnProbability sr c) then
    match firstInactive 0 c.grains.toList with
    | some g =>
      ({ c with
          grains := c.grains.setIfInBounds g
            (grainInit sr c (drawOf cfg (rng + 1)) (drawOf cfg (rng + 2)) (drawOf cfg (rng + 3))) }, rng + 4)
    | none => (c, rng + 1)
  else (c, rng + 1)

/-- `GR_POSN(v, g)` (R228). -/
def grainPosition (bufLen : Word) (c : Clouds cfg) (g : Grain) : F32 :=
  (((c.pos.add g.pos).add (((g.phase.mul g.dur).mul g.ratio).div (F32.ofNat bufLen.toNat))).frac).mul
    (F32.ofNat bufLen.toNat)

/-- The linear interpolation `S[i0] + (fr * (S[i1] - S[i0]))` (R229, `44_wavetable_engine.md` R273). -/
def interpolate (a b fr : F32) : F32 := a.add (fr.mul (b.sub a))

/-- The read at position `p` of one buffer (R229), its index wrapped as `20_memory.md` R106 says, "as `i mod n`". For a finite position
this is R229's one subtraction, since its integer is at most `BUFLEN` (`wrap_eq_sub_once`). A position that is not finite has a free
integer (log entry 5), which one subtraction need not bring below `BUFLEN`: DESIGN CHOICE (log entry 29), the index is wrapped there
too, so the read stays in the ring (R222). -/
def bufferRead (bufLen : Nat) (m : Mem) (p : F32) : F32 :=
  let i0 := p.toInt % bufLen
  interpolate ⟨m.read i0⟩ ⟨m.read ((i0 + 1) % bufLen)⟩ (p.sub (F32.ofNat p.toInt))

/-- The windowed amplitude `a` of a grain (R230). -/
def grainWindow (g : Grain) : F32 :=
  (half.mul (F32.one.sub (Num.cos (Config.twoPi.mul g.phase)))).mul g.amp

/-- What a grain adds to the left sum: `(sL * a) * gl` (R229, R230). -/
def grainLeft (bufLen : Word) (c : Clouds cfg) (g : Grain) : F32 :=
  ((bufferRead bufLen.toNat c.bufL (grainPosition bufLen c g)).mul (grainWindow g)).mul
    (Num.cos (g.pan.mul Config.halfPi))

/-- What a grain adds to the right sum: `(sR * a) * gr` (R229, R230). -/
def grainRight (bufLen : Word) (c : Clouds cfg) (g : Grain) : F32 :=
  ((bufferRead bufLen.toNat c.bufR (grainPosition bufLen c g)).mul (grainWindow g)).mul
    (Num.sin (g.pan.mul Config.halfPi))

/-- `GR_ADVANCE(v, g)` of an active grain (R231). -/
def grainAdvance (g : Grain) : Grain :=
  let ph := g.phase.add (F32.one.div g.dur)
  if g.active then { g with phase := ph, active := !F32.one.le ph } else g

/-- `GR_NORM` (R232). -/
def cloudsNorm (acc : F32) (cnt : Nat) : F32 :=
  if cnt = 0 then F32.zero else acc.mul (F32.one.div (F32.ofNat cnt).sqrt)

/-- The active grains, in index order. -/
def activeGrains (c : Clouds cfg) : List Grain := c.grains.toList.filter fun g => g.active

/-- Steps 2 to 4 of `GR_PROC` (R225), after the spawn: a grain is advanced right after it was read, and no other grain reads it, so
the sums are over the grains as they were. -/
def cloudsMix (bufLen : Word) (c : Clouds cfg) : F32 × F32 :=
  (cloudsNorm ((activeGrains c).foldl (fun acc g => acc.add (grainLeft bufLen c g)) F32.zero) (activeGrains c).length,
    cloudsNorm ((activeGrains c).foldl (fun acc g => acc.add (grainRight bufLen c g)) F32.zero) (activeGrains c).length)

/-- What `GR_PROC` leaves and returns: the engine, `RNG_IDX`, the left and the right sample (R225). -/
structure CloudsOut (cfg : Config.Params) where
  clouds : Clouds cfg
  rng : Word
  left : F32
  right : F32
deriving DecidableEq, Repr

/-- `GR_PROC(v)` (R225). -/
def cloudsProc (sr : F32) (bufLen rng : Word) (c : Clouds cfg) : CloudsOut cfg :=
  let sp := cloudsSpawn sr rng c
  { clouds := { sp.1 with grains := vecMap grainAdvance sp.1.grains }
    rng := sp.2
    left := (cloudsMix bufLen sp.1).1
    right := (cloudsMix bufLen sp.1).2 }

/-- `V.SETCLOUDS` (R221). -/
def execVSetclouds (vid arg : Byte) (ops : List Word) (s : State cfg) : Out cfg :=
  runVoice (.vSetclouds vid arg ops) s fun v =>
    .next (s.updVoice v fun x =>
      { x with
        clouds := cloudsSet arg.toNat (opF32 ops 0) (opF32 ops 1) (opF32 ops 2) (opF32 ops 3) (opF32 ops 4)
          x.clouds })

/-- `GR.WRITE` (R223). -/
def execGrWrite (vid arg : Byte) (ops : List Word) (s : State cfg) : Out cfg :=
  runVoice (.grWrite vid arg ops) s fun v =>
    .next (s.updVoice v fun x =>
      { x with
        clouds := cloudsWrite s.bufLen (opF32 ops 0).san (opF32 ops 1).san x.clouds })

/-- `GR.PROC` (R225). -/
def execGrProc (vid arg : Byte) (ops : List Word) (s : State cfg) : Out cfg :=
  runVoice (.grProc vid arg ops) s fun v =>
    let r := cloudsProc s.sr s.bufLen s.rngIdx (s.voice v).clouds
    .next ((((s.updVoice v fun x => { x with clouds := r.clouds }).setRng r.rng).pushF r.left).pushF r.right)

end Sys2Proof.Machine
end

