-- ==== Sys2Proof/Machine/Karplus.lean ====
section
/-! DEFINITION. The Karplus-Strong oscillator (`43_karplus_strong.md` R250 to R258) and the commands `KS.SETFREQ`, `KS.TRIGGER`,
`KS.GET`. -/

namespace Sys2Proof.Machine

variable {cfg : Config.Params}

/-- `KS_LENGTH(f)` (R251). -/
def ksLength (cfg : Config.Params) (sr f : F32) : Nat := Nat.min (Nat.max ((sr.div f).toInt + 1) 2) cfg.ksCap

/-- `KS_SETFREQ(v, frequency)` (R252): all `KS_CAP` words are zeroed. -/
def karplusSetFreq (cfg : Config.Params) (sr frequency : F32) (k : Karplus) : Karplus :=
  { len := natWord (ksLength cfg sr (clampFreq frequency))
    wc := 0
    prev := F32.zero
    line := k.line.zeroBelow cfg.ksCap }

/-- `KSDL[i] <- ((RAND() * 2) - 1) * vel` for the first `n` indices, draw `rng + i` for index `i` (R254). -/
def karplusFill (cfg : Config.Params) (vel : F32) (rng : Word) : Nat → Mem → Mem
  | 0, m => m
  | n + 1, m => (karplusFill cfg vel rng n m).write n ((bipolarDraw (drawOf cfg (rng + natWord n))).mul vel).bits

/-- `KS_TRIGGER(v, velocity)` (R254): `KS_LEN` draws from `RNG_IDX` on. -/
def karplusTrigger (cfg : Config.Params) (velocity : F32) (rng : Word) (k : Karplus) : Karplus :=
  { k with line := karplusFill cfg (clampUnit velocity) rng k.len.toNat k.line }

/-- The word that `KS_GET` reads (R256). -/
def karplusOut (k : Karplus) : F32 := ⟨k.line.read k.wc.toNat⟩

/-- What `KS_GET` leaves (R256). -/
def karplusAdvance (cfg : Config.Params) (k : Karplus) : Karplus :=
  { k with
    line := k.line.write k.wc.toNat ((((karplusOut k).add k.prev).mul half).mul cfg.ksDamp).bits
    prev := karplusOut k
    wc := (k.wc + 1) % k.len }

/-- `KS_GET(v)` (R256). -/
def karplusGet (cfg : Config.Params) (k : Karplus) : Karplus × F32 := (karplusAdvance cfg k, karplusOut k)

/-- `KS.SETFREQ` (R252). -/
def execKsSetfreq (vid arg : Byte) (ops : List Word) (s : State cfg) : Out cfg :=
  runVoice (.ksSetfreq vid arg ops) s fun v =>
    .next (s.updVoice v fun x => { x with karplus := karplusSetFreq cfg s.sr (opF32 ops 0) x.karplus })

/-- `KS.TRIGGER` (R254). -/
def execKsTrigger (vid arg : Byte) (ops : List Word) (s : State cfg) : Out cfg :=
  runVoice (.ksTrigger vid arg ops) s fun v =>
    .next ((s.updVoice v fun x => { x with karplus := karplusTrigger cfg (opF32 ops 0) s.rngIdx x.karplus }).setRng
      (s.rngIdx + (s.voice v).karplus.len))

/-- `KS.GET` (R256). -/
def execKsGet (vid arg : Byte) (ops : List Word) (s : State cfg) : Out cfg :=
  runVoice (.ksGet vid arg ops) s fun v =>
    .next ((s.updVoice v fun x => { x with karplus := (karplusGet cfg x.karplus).1 }).pushF
      (karplusGet cfg (s.voice v).karplus).2)

end Sys2Proof.Machine
end

