-- ==== Sys2Proof/Machine/Wavetable.lean ====
section
/-! DEFINITION. The wavetable engine (`44_wavetable_engine.md` R270 to R279): the read-only memory `WT`, the interpolated read,
morph, warp and fold, and the commands `WT.GET`, `V.SETWT`. -/

namespace Sys2Proof.Machine

variable {cfg : Config.Params}

/-- The harmonic count `NH(t)`, in integer arithmetic (R272). -/
def harmonicCount (t : Nat) : Nat := 1 + 16 * t / 31

/-- The partial of harmonic `h` of table `t` at sample `n` (R271). -/
def wtPartial (t n h : Nat) : F32 :=
  let hf := F32.ofNat h
  let tp := (F32.ofNat t).div (F32.ofNat 31)
  let x := (F32.ofNat n).div (F32.ofNat 2048)
  let mul := hf.mul (F32.one.add ((tp.mul (F32.dec 1 10)).mul hf))
  (Num.sin ((Config.twoPi.mul x).mul mul)).div hf

/-- `WT_GEN(t, n)` (R271): the partials summed from +0 in ascending order, divided by their number. -/
def wtGen (t n : Nat) : F32 :=
  (((List.range (harmonicCount t)).foldl (fun acc h => acc.add (wtPartial t n (h + 1))) F32.zero)).div
    (F32.ofNat (harmonicCount t))

/-- The word of `WT` at an address (`10_state.md` R62): `WT[2048*t + n] = WT_GEN(t, n)`. -/
def wtWord (a : Nat) : Word := (wtGen (a / Config.TLEN) (a % Config.TLEN)).bits

/-- `T[t][n]` (R270). -/
def tableSample (t : Fin Config.NTABLES) (n : Nat) : F32 := ⟨wtWord (Config.TLEN * t + n)⟩

/-- `WT_READ(t, ph)` (R273). -/
def wtRead (t : Fin Config.NTABLES) (ph : F32) : F32 :=
  let p := ph.mul (F32.ofNat 2048)
  let i0 := p.toInt % Config.TLEN
  interpolate (tableSample t i0) (tableSample t ((i0 + 1) % Config.TLEN)) (p.sub (F32.ofNat p.toInt))

/-- The value before the fold (R274): with a warp that is not zero the morphed value is discarded and table A alone is read at
the warped phase (R275). -/
def wtUnfolded (ph : F32) (a b : Fin Config.NTABLES) (m w : F32) : F32 :=
  if !w.eqv F32.zero then wtRead a (ph.add (w.mul (Num.sin (Config.twoPi.mul ph)))).frac
  else interpolate (wtRead a ph) (wtRead b ph) m

/-- The fold (R274). -/
def wtFolded (y fo : F32) : F32 :=
  if F32.zero.lt fo then Num.sin (y.mul (F32.one.add (fo.mul (F32.ofNat 8)))) else y

/-- `WT_GET` (R274). -/
def wtGet (phase : F32) (a b : Fin Config.NTABLES) (morph warp fold : F32) : F32 :=
  wtFolded (wtUnfolded phase.san.frac a b (clampUnit morph) (clampBipolar warp)) (clampUnit fold)

/-- `WT_SET` (R276). -/
def wtSet (tableA tableB : Nat) (morph warp fold : F32) (t : WtRegs) : WtRegs :=
  { t with
    a := tableOf tableA
    b := tableOf tableB
    morph := clampUnit morph
    warp := clampBipolar warp
    fold := clampUnit fold }

/-- `WT_SAMPLE(v)` (R277). -/
def wtSample (sr freq : F32) (t : WtRegs) : WtRegs × F32 :=
  ({ t with phase := (t.phase.add (freq.div sr)).frac }, wtGet t.phase t.a t.b t.morph t.warp t.fold)

/-- `WT.GET` (R274). -/
def execWtGet (vid arg : Byte) (ops : List Word) (s : State cfg) : Out cfg :=
  runGlobal (.wtGet vid arg ops) s
    (.next (s.pushF (wtGet (opF32 ops 0) (tableOf (opWord ops 1).toNat) (tableOf (opWord ops 2).toNat)
      (opF32 ops 3) (opF32 ops 4) (opF32 ops 5))))

/-- `V.SETWT` (R276). -/
def execVSetwt (vid arg : Byte) (ops : List Word) (s : State cfg) : Out cfg :=
  runVoice (.vSetwt vid arg ops) s fun v =>
    .next (s.updVoice v fun x =>
      { x with
        wt := wtSet (opWord ops 0).toNat (opWord ops 1).toNat (opF32 ops 2) (opF32 ops 3) (opF32 ops 4) x.wt })

end Sys2Proof.Machine
end

