-- ==== Sys2Proof/Machine/Envelope.lean ====
section
/-! DEFINITION. The envelope generators (`45_envelope_and_filter.md` R290 to R297) and the commands `ENV.SETPARAMS`, `ENV.NOTEON`,
`ENV.NOTEOFF`, `ENV.NEXT`, `V.SETENV`. -/

namespace Sys2Proof.Machine

variable {cfg : Config.Params}

/-- Envelope `e` of a voice; `e` is `ARG[0]`: amplitude or filter (R290). -/
def envOf (x : Voice cfg) (e : Bool) : Env := if e then x.envf else x.enva

/-- Replaces envelope `e`. -/
def setEnv (x : Voice cfg) (e : Bool) (v : Env) : Voice cfg := if e then { x with envf := v } else { x with enva := v }

/-- `ENV_SET` (R291). -/
def envSet (a d s r : F32) (e : Env) : Env :=
  { e with a := clampTime a, d := clampTime d, s := clampUnit s, r := clampTime r }

/-- `ENV_NOTEON` (R293): the level is kept. -/
def envNoteOn (e : Env) : Env := { e with stage := .attack }

/-- `ENV_NOTEOFF` (R294). -/
def envNoteOff (sr : F32) (e : Env) : Env :=
  match e.stage with
  | .idle | .release => e
  | .attack | .decay | .sustain => { e with relRate := e.level.div (e.r.mul sr), stage := .release }

/-- `ENV_NEXT` (R295): the envelope after the update, whose level is the sample. -/
def envNext (sr : F32) (e : Env) : Env :=
  match e.stage with
  | .idle => { e with level := F32.zero }
  | .attack =>
    let l := e.level.add (F32.one.div (e.a.mul sr))
    if F32.one.le l then { e with level := F32.one, stage := .decay } else { e with level := l }
  | .decay =>
    let l := e.level.sub ((F32.one.sub e.s).div (e.d.mul sr))
    if l.le e.s then { e with level := e.s, stage := .sustain } else { e with level := l }
  | .sustain => { e with level := e.s }
  | .release =>
    let l := e.level.sub e.relRate
    if l.le F32.zero then { e with level := F32.zero, stage := .idle } else { e with level := l }

/-- The test `isActive` (R296). -/
def envActive (e : Env) : Bool := e.stage != .idle

/-- `ENV.SETPARAMS` (R291). -/
def execEnvSetparams (vid arg : Byte) (ops : List Word) (s : State cfg) : Out cfg :=
  runVoice (.envSetparams vid arg ops) s fun v =>
    .next (s.updVoice v fun x =>
      setEnv x (argBit0 arg)
        (envSet (opF32 ops 0) (opF32 ops 1) (opF32 ops 2) (opF32 ops 3) (envOf x (argBit0 arg))))

/-- `ENV.NOTEON` (R293). -/
def execEnvNoteon (vid arg : Byte) (ops : List Word) (s : State cfg) : Out cfg :=
  runVoice (.envNoteon vid arg ops) s fun v =>
    .next (s.updVoice v fun x => setEnv x (argBit0 arg) (envNoteOn (envOf x (argBit0 arg))))

/-- `ENV.NOTEOFF` (R294). -/
def execEnvNoteoff (vid arg : Byte) (ops : List Word) (s : State cfg) : Out cfg :=
  runVoice (.envNoteoff vid arg ops) s fun v =>
    .next (s.updVoice v fun x => setEnv x (argBit0 arg) (envNoteOff s.sr (envOf x (argBit0 arg))))

/-- `ENV.NEXT` (R295). -/
def execEnvNext (vid arg : Byte) (ops : List Word) (s : State cfg) : Out cfg :=
  runVoice (.envNext vid arg ops) s fun v =>
    .next ((s.updVoice v fun x => setEnv x (argBit0 arg) (envNext s.sr (envOf x (argBit0 arg)))).pushF
      (envNext s.sr (envOf (s.voice v) (argBit0 arg))).level)

/-- `V.SETENV` (R292). -/
def execVSetenv (vid arg : Byte) (ops : List Word) (s : State cfg) : Out cfg :=
  runVoice (.vSetenv vid arg ops) s fun v =>
    .next (s.updVoice v fun x =>
      { x with
        enva := envSet (opF32 ops 0) (opF32 ops 1) (opF32 ops 2) (opF32 ops 3) x.enva
        envf := envSet (opF32 ops 4) (opF32 ops 5) (opF32 ops 6) (opF32 ops 7) x.envf })

end Sys2Proof.Machine
end

