-- ==== Sys2Proof/Machine/Filter.lean ====
section
/-! DEFINITION. The multimode filter (`45_envelope_and_filter.md` R300 to R306, `46_voice.md` R348) and the commands `V.SETFILT`,
`FLT.PROC`, `FLT.RESET`. -/

namespace Sys2Proof.Machine

variable {cfg : Config.Params}

/-- `FLT_SET` (R300). -/
def filtSet (type : Nat) (cutoff resonance envAmount : F32) (f : Filt) : Filt :=
  { f with
    type := typeOfCode type
    cutoff := clampCutoff cutoff
    q := clampQ resonance
    envAmt := clampBipolar envAmount }

/-- The coefficients of the filter (R301). -/
structure FiltCoef where
  g : F32
  r2 : F32
  h : F32
deriving DecidableEq, Repr

/-- `FLT_COEF(v, fc)` (R301), `FC_MAX` being `min(20000, 0.49 * SR)`. -/
def filtCoef (sr q fc : F32) : FiltCoef :=
  let fcl := fc.clamp (F32.ofNat 20) ((F32.ofNat 20000).min ((F32.dec 49 100).mul sr))
  let g := Num.tan ((Config.pi.mul fcl).div sr)
  let r2 := F32.one.div q
  { g := g, r2 := r2, h := F32.one.div ((F32.one.add (r2.mul g)).add (g.mul g)) }

/-- What one channel of the filter returns: the output and the two integrator states (R302). -/
structure FiltOut where
  y : F32
  s1 : F32
  s2 : F32
deriving DecidableEq, Repr

/-- `FLT_CORE` (R302). -/
def filtCore (x s1 s2 : F32) (c : FiltCoef) (type : FilterType) : FiltOut :=
  let yHP := c.h.mul ((x.sub (s1.mul (c.g.add c.r2))).sub s2)
  let yBP := (yHP.mul c.g).add s1
  let yLP := (yBP.mul c.g).add s2
  { y := match type with
      | .lowpass => yLP
      | .bandpass => yBP
      | .highpass => yHP
    s1 := (yHP.mul c.g).add yBP
    s2 := (yBP.mul c.g).add yLP }

/-- What `FLT_PROC` leaves and returns (R303). -/
structure FiltProc where
  filt : Filt
  left : F32
  right : F32
deriving DecidableEq, Repr

/-- `FLT_PROC(v, xl, xr, fc)` (R303): both channels share the coefficients and have states of their own. -/
def filtProc (sr xl xr fc : F32) (f : Filt) : FiltProc :=
  let c := filtCoef sr f.q fc
  let l := filtCore xl f.s1l f.s2l c f.type
  let r := filtCore xr f.s1r f.s2r c f.type
  { filt := { f with s1l := l.s1, s2l := l.s2, s1r := r.s1, s2r := r.s2 }, left := l.y, right := r.y }

/-- `FLT_MODCUT(v, ef)` (R305). -/
def filtModCut (f : Filt) (ef : F32) : F32 :=
  clampCutoff (f.cutoff.mul (F32.one.add ((ef.mul f.envAmt).mul (F32.ofNat 10))))

/-- All four integrators at +0 (R304). -/
def filtClear (f : Filt) : Filt := { f with s1l := F32.zero, s2l := F32.zero, s1r := F32.zero, s2r := F32.zero }

/-- `FLT_GUARD(v)` (`46_voice.md` R348). -/
def filtGuard (f : Filt) : Filt :=
  if f.s1l.isFinite && f.s2l.isFinite && f.s1r.isFinite && f.s2r.isFinite then f else filtClear f

/-- `V.SETFILT` (R300). -/
def execVSetfilt (vid arg : Byte) (ops : List Word) (s : State cfg) : Out cfg :=
  runVoice (.vSetfilt vid arg ops) s fun v =>
    .next (s.updVoice v fun x =>
      { x with
        flt := filtSet arg.toNat (opF32 ops 0) (opF32 ops 1) (opF32 ops 2) x.flt })

/-- `FLT.PROC` (R303): with the unmodulated cutoff. -/
def execFltProc (vid arg : Byte) (ops : List Word) (s : State cfg) : Out cfg :=
  runVoice (.fltProc vid arg ops) s fun v =>
    let r := filtProc s.sr (opF32 ops 0).san (opF32 ops 1).san (s.voice v).flt.cutoff (s.voice v).flt
    .next (((s.updVoice v fun x => { x with flt := r.filt }).pushF r.left).pushF r.right)

/-- `FLT.RESET` (R304). -/
def execFltReset (vid arg : Byte) (ops : List Word) (s : State cfg) : Out cfg :=
  runVoice (.fltReset vid arg ops) s fun v =>
    .next (s.updVoice v fun x => { x with flt := filtClear x.flt })

end Sys2Proof.Machine
end

