-- ==== Sys2Proof/Machine/Voice.lean ====
section
/-! DEFINITION. The voice (`46_voice.md` R320 to R351): start, stop, the engine-mode graphs, the fades, rendering, and the commands
`V.START`, `V.STOP`, `V.RENDER`, `V.SETMODE`, `V.SETMIX`. -/

namespace Sys2Proof.Machine

variable {cfg : Config.Params}

/-- `NOTE_FREQ(n)` (R323). -/
def noteFreq (n : Nat) : F32 :=
  (F32.ofNat 440).mul (Num.exp2 (((F32.ofNat n).sub (F32.ofNat 69)).div (F32.ofNat 12)))

/-- `MIX_SET` (R322). -/
def mixSet (rings clouds karplus wavetable osc : F32) : Mix where
  rings := clampUnit rings
  clouds := clampUnit clouds
  karplus := clampUnit karplus
  wt := clampUnit wavetable
  osc := clampUnit osc

/-! Lifecycle. -/

/-- What `V_START` makes of a voice (R325); `n` is the note after `clampu`, `seq` the new `NOTE_SEQ`, `rng` the index of the
first draw. -/
def voiceStart (sr : F32) (seq rng : Word) (n : Nat) (velocity : F32) (x : Voice cfg) : Voice cfg :=
  { x with
    freq := noteFreq n
    vel := clampUnit velocity
    note := natWord n
    age := seq
    fadeinCnt := 0
    fading := false
    fadeoutCnt := 0
    rings := ringsTrigger (clampUnit velocity)
      (ringsSet cfg sr (noteFreq n) x.rings.bri x.rings.damp x.rings.pos x.rings.struct (modelCode x.rings.model) x.rings)
    karplus := karplusTrigger cfg (clampUnit velocity) rng (karplusSetFreq cfg sr (noteFreq n) x.karplus)
    wt := { x.wt with phase := F32.zero }
    oscs := oscRetune sr (noteFreq n) x.oscs
    enva := envNoteOn x.enva
    envf := envNoteOn x.envf
    active := true }

/-- `V_START(v, note, velocity)` (R325): one draw for each word of the new delay line. -/
def State.startVoice (s : State cfg) (v : Fin cfg.nv) (n : Nat) (velocity : F32) : State cfg :=
  let x := voiceStart s.sr (s.noteSeq + 1) s.rngIdx n velocity (s.voice v)
  { s.setVoice v x with noteSeq := s.noteSeq + 1, rngIdx := s.rngIdx + x.karplus.len }

/-- `V_STOP(v, allowTailOff)` (R330, R331). -/
def voiceStop (sr : F32) (tailOff : Bool) (x : Voice cfg) : Voice cfg :=
  if !x.active then x
  else if tailOff then { x with enva := envNoteOff sr x.enva, envf := envNoteOff sr x.envf }
  else if x.fading then x
  else { x with fading := true, fadeoutCnt := 0 }

/-- `V_CLEAR(v)` (R345). -/
def voiceClear (x : Voice cfg) : Voice cfg :=
  { x with
    active := false
    fading := false
    fadeoutCnt := 0
    note := 255
    enva := { x.enva with stage := .idle, level := F32.zero }
    envf := { x.envf with stage := .idle, level := F32.zero } }

/-! The engine graphs. -/

/-- What an engine graph leaves and returns: the voice, `RNG_IDX`, the left and the right sample. -/
structure EngineOut (cfg : Config.Params) where
  voice : Voice cfg
  rng : Word
  left : F32
  right : F32
deriving DecidableEq, Repr

/-- `r <- MR_PROC(v, +0)` (R337). -/
def genRings (x : Voice cfg) : Voice cfg × F32 :=
  ({ x with rings := (ringsProc F32.zero x.rings).1 }, (ringsProc F32.zero x.rings).2)

/-- `k <- KS_GET(v)` (R337). -/
def genKarplus (x : Voice cfg) : Voice cfg × F32 :=
  ({ x with karplus := (karplusGet cfg x.karplus).1 }, (karplusGet cfg x.karplus).2)

/-- `w <- WT_SAMPLE(v)` (R337). -/
def genWt (sr : F32) (x : Voice cfg) : Voice cfg × F32 :=
  ({ x with wt := (wtSample sr x.freq x.wt).1 }, (wtSample sr x.freq x.wt).2)

/-- `o <- OSC_SAMPLE(v)` (R337). -/
def genOsc (x : Voice cfg) : Voice cfg × F32 :=
  ({ x with oscs := (oscSample x.oscs).1 }, (oscSample x.oscs).2)

/-- `CLOUD(m)` (R337): the mono source is written to both channels of the buffer, then one granular sample is made. -/
def genCloud (sr : F32) (bufLen rng : Word) (m : F32) (x : Voice cfg) : EngineOut cfg :=
  let c := cloudsProc sr bufLen rng (cloudsWrite bufLen m.san m.san x.clouds)
  { voice := { x with clouds := c.clouds }, rng := c.rng, left := c.left, right := c.right }

/-- A graph without the granular engine: one sample for both sides, no draw. -/
def monoOut (rng : Word) (x : Voice cfg) (y : F32) : EngineOut cfg := { voice := x, rng := rng, left := y, right := y }

/-- The outputs of a graph through a function of each side. -/
def EngineOut.mapOut (e : EngineOut cfg) (f : F32 → F32) : EngineOut cfg := { e with left := f e.left, right := f e.right }

/-- `ENGINE_SAMPLE(v)` (R336, R337): only the engines that the graph of `MODE` names advance, in the order it names them. -/
def engineSample (sr : F32) (bufLen rng : Word) (x : Voice cfg) : EngineOut cfg :=
  match x.mode with
  | .rings =>
    let r := genRings x
    monoOut rng r.1 r.2
  | .clouds =>
    let w := genWt sr x
    genCloud sr bufLen rng w.2 w.1
  | .karplus =>
    let k := genKarplus x
    monoOut rng k.1 k.2
  | .ringsIntoClouds =>
    let r := genRings x
    genCloud sr bufLen rng r.2 r.1
  | .hybridAll =>
    let r := genRings x
    let k := genKarplus r.1
    let w := genWt sr k.1
    let m := ((x.mix.rings.mul r.2).add (x.mix.karplus.mul k.2)).add (x.mix.wt.mul w.2)
    (genCloud sr bufLen rng m w.1).mapOut fun c => x.mix.clouds.mul c
  | .osc =>
    let o := genOsc x
    monoOut rng o.1 o.2
  | .oscRings =>
    let o := genOsc x
    let r := genRings o.1
    monoOut rng r.1 ((half.mul o.2).add (half.mul r.2))
  | .oscClouds =>
    let o := genOsc x
    (genCloud sr bufLen rng o.2 o.1).mapOut fun c => (half.mul o.2).add (half.mul c)
  | .fullHybrid =>
    let r := genRings x
    let k := genKarplus r.1
    let w := genWt sr k.1
    let o := genOsc w.1
    let m := (((x.mix.rings.mul r.2).add (x.mix.karplus.mul k.2)).add (x.mix.wt.mul w.2)).add (x.mix.osc.mul o.2)
    (genCloud sr bufLen rng m o.1).mapOut fun c => m.add (x.mix.clouds.mul c)

/-! Fades and gain. -/

/-- The gain of `FADE_IN_GAIN(v)` (R340). -/
def fadeInGain (fin : Word) (x : Voice cfg) : F32 :=
  if x.fadeinCnt < fin then (F32.ofNat x.fadeinCnt.toNat).div (F32.ofNat fin.toNat) else F32.one

/-- The counter after `FADE_IN_GAIN(v)` (R340). -/
def fadeInCount (fin : Word) (x : Voice cfg) : Word := if x.fadeinCnt < fin then x.fadeinCnt + 1 else x.fadeinCnt

/-- The counter after `FADE_OUT_GAIN(v)` (R341). -/
def fadeOutCount (x : Voice cfg) : Word := if x.fading then x.fadeoutCnt + 1 else x.fadeoutCnt

/-- The gain of `FADE_OUT_GAIN(v)` (R341), after the counter advanced. -/
def fadeOutGain (fout : Word) (x : Voice cfg) : F32 :=
  if x.fading then (F32.ofNat (fout - fadeOutCount x).toNat).div (F32.ofNat fout.toNat) else F32.one

/-- Gain staging (R342). -/
def frameGain (a vel gi go : F32) : F32 := (((a.mul vel).mul gi).mul go).mul Config.headroom

/-- What one rendered sample makes: the voice before the end tests, `RNG_IDX`, and what is added to the frame (R335). -/
def voiceFrame (sr : F32) (fin fout bufLen rng : Word) (x : Voice cfg) : EngineOut cfg :=
  let e := engineSample sr bufLen rng x
  let y := e.voice
  let a := envNext sr y.enva
  let ef := envNext sr y.envf
  let p := filtProc sr e.left.san e.right.san (filtModCut y.flt ef.level) y.flt
  let g := frameGain a.level y.vel (fadeInGain fin y) (fadeOutGain fout y)
  { voice := { y with
      enva := a
      envf := ef
      flt := filtGuard p.filt
      fadeinCnt := fadeInCount fin y
      fadeoutCnt := fadeOutCount y }
    rng := e.rng
    left := p.left.san.mul g
    right := p.right.san.mul g }

/-- The end tests after a sample (R335): the fade-out is complete, or the amplitude envelope is idle. -/
def voiceEnds (fout : Word) (x : Voice cfg) : Bool := (x.fading && decide (fout ≤ x.fadeoutCnt)) || !envActive x.enva

/-- One sample of `V_RENDER` without the end tests: frame `f` of the block (R335, R344). -/
def State.renderFrame (s : State cfg) (v : Fin cfg.nv) (f : Nat) : State cfg :=
  let r := voiceFrame s.sr s.fadeIn s.fadeOut s.bufLen s.rngIdx (s.voice v)
  { s.setVoice v r.voice with
    rngIdx := r.rng
    outL := s.outL.accumulate f r.left
    outR := s.outR.accumulate f r.right }

/-- The sample loop of `V_RENDER` (R335): `n` frames from frame `f` on, unless the voice ends. -/
def State.renderLoop (v : Fin cfg.nv) : Nat → Nat → State cfg → State cfg
  | 0, _, s => s
  | n + 1, f, s =>
    let t := s.renderFrame v f
    if voiceEnds t.fadeOut (t.voice v) then t.updVoice v voiceClear else State.renderLoop v n (f + 1) t

/-- `V_RENDER(v, n)` (R335): nothing for an inactive voice. -/
def State.renderVoice (s : State cfg) (v : Fin cfg.nv) (n : Nat) : State cfg :=
  if (s.voice v).active then State.renderLoop v n 0 s else s

/-- A render command of `n` frames: `BLOCK_TOO_LONG` before any effect (R335, `47_voice_pool_and_system.md` R368); a refusal
of the run if the host touches these frames while they are the block's (`20_memory.md` R112); else its effect. -/
def renderGuard (i : Instr) (s : State cfg) (n : Word) (effect : State cfg) : Out cfg :=
  if s.maxBlock < n then faultOf i s .blockTooLong
  else if s.hostInOut n.toNat then .refused .hostTouchedOut
  else .next effect

/-- `V.START` (R325). -/
def execVStart (vid arg : Byte) (ops : List Word) (s : State cfg) : Out cfg :=
  runVoice (.vStart vid arg ops) s fun v => .next (s.startVoice v (argNote arg) (opF32 ops 0))

/-- `V.STOP` (R330, R331): `allowTailOff` is `ARG[0]`. -/
def execVStop (vid arg : Byte) (ops : List Word) (s : State cfg) : Out cfg :=
  runVoice (.vStop vid arg ops) s fun v => .next (s.updVoice v (voiceStop s.sr (argBit0 arg)))

/-- `V.RENDER` (R335). -/
def execVRender (vid arg : Byte) (ops : List Word) (s : State cfg) : Out cfg :=
  runVoice (.vRender vid arg ops) s fun v =>
    renderGuard (.vRender vid arg ops) s (opWord ops 0) (s.renderVoice v (opWord ops 0).toNat)

/-- `V.SETMODE` (R321). -/
def execVSetmode (vid arg : Byte) (ops : List Word) (s : State cfg) : Out cfg :=
  runVoice (.vSetmode vid arg ops) s fun v => .next (s.updVoice v fun x => { x with mode := modeOfCode arg.toNat })

/-- `V.SETMIX` (R322). -/
def execVSetmix (vid arg : Byte) (ops : List Word) (s : State cfg) : Out cfg :=
  runVoice (.vSetmix vid arg ops) s fun v =>
    .next (s.updVoice v fun x =>
      { x with mix := mixSet (opF32 ops 0) (opF32 ops 1) (opF32 ops 2) (opF32 ops 3) (opF32 ops 4) })

end Sys2Proof.Machine
end

