-- ==== Sys2Proof/Machine/Pool.lean ====
section
/-! DEFINITION. The voice pool (`47_voice_pool_and_system.md` R361, R366 to R372): parameter broadcast, note routing and stealing,
rendering of all voices, and the commands `SETGLOBAL`, `NOTEON`, `NOTEOFF`, `RENDER`. -/

namespace Sys2Proof.Machine

variable {cfg : Config.Params}

/-- The voice numbers in ascending order. -/
def voiceNumbers (cfg : Config.Params) : List (Fin cfg.nv) := List.finRange cfg.nv

/-- The cells as `SETGLOBAL` reads them, one read each in ascending order (R366). -/
def State.cellsRead (s : State cfg) : Vector Word Config.NPARAM :=
  vecMapIdx (fun c w => if h : c < Config.NPARAM then cellAfter ⟨c, h⟩ c w s.port else w) s.params

/-- What `SETGLOBAL` does to one voice, given the cells as read (R366). -/
def voiceSetGlobal (sr : F32) (p : Vector Word Config.NPARAM) (x : Voice cfg) : Voice cfg :=
  { x with
    mode := modeOfCode p[0].toNat
    rings := ringsSet cfg sr x.freq ⟨p[1]⟩ ⟨p[2]⟩ ⟨p[3]⟩ ⟨p[4]⟩ p[5].toNat x.rings
    clouds := cloudsSet p[11].toNat ⟨p[6]⟩ ⟨p[7]⟩ ⟨p[8]⟩ ⟨p[9]⟩ ⟨p[10]⟩ x.clouds
    wt := wtSet p[12].toNat p[13].toNat ⟨p[14]⟩ ⟨p[15]⟩ ⟨p[16]⟩ x.wt
    mix := mixSet ⟨p[17]⟩ ⟨p[18]⟩ ⟨p[19]⟩ ⟨p[20]⟩ ⟨p[21]⟩
    enva := envSet ⟨p[22]⟩ ⟨p[23]⟩ ⟨p[24]⟩ ⟨p[25]⟩ x.enva
    envf := envSet ⟨p[26]⟩ ⟨p[27]⟩ ⟨p[28]⟩ ⟨p[29]⟩ x.envf
    flt := filtSet p[33].toNat ⟨p[30]⟩ ⟨p[31]⟩ ⟨p[32]⟩ x.flt
    oscs := oscSet sr x.freq p[34].toNat p[35].toNat ⟨p[36]⟩ ⟨p[37]⟩ ⟨p[38]⟩ x.oscs }

/-- A voice that holds the note `n` and is not fading out (R369, R370). -/
def holdsNote (n : Nat) (x : Voice cfg) : Bool := x.active && x.note == natWord n && !x.fading

/-- A voice that is Releasing or FadingOut (R369 (3)). -/
def isEnding (x : Voice cfg) : Bool := lifecycle x == .releasing || lifecycle x == .fadingOut

/-- The voice of smallest `AGE` in a list of voice numbers, ties to the first (R369: "oldest"). -/
def State.oldest (s : State cfg) (l : List (Fin cfg.nv)) : Option (Fin cfg.nv) :=
  match l with
  | [] => none
  | v :: l =>
    match s.oldest l with
    | none => some v
    | some w => if (s.voice w).age < (s.voice v).age then some w else some v

/-- The voice that `NOTEON` starts (R369): (1) the one that holds the note, (2) the first free, (3) the oldest that is releasing
or fading out, (4) the oldest. -/
def State.allocate (s : State cfg) (n : Nat) : Fin cfg.nv :=
  match (voiceNumbers cfg).find? fun v => holdsNote n (s.voice v) with
  | some v => v
  | none =>
    match (voiceNumbers cfg).find? fun v => !(s.voice v).active with
    | some v => v
    | none =>
      match s.oldest ((voiceNumbers cfg).filter fun v => isEnding (s.voice v)) with
      | some v => v
      | none => (s.oldest (voiceNumbers cfg)).getD ⟨0, cfg.nvBounds.1⟩

/-- What `NOTEOFF` does to one voice (R370). -/
def voiceNoteOff (sr : F32) (n : Nat) (x : Voice cfg) : Voice cfg := if holdsNote n x then voiceStop sr true x else x

/-- `SETGLOBAL` (R366). -/
def execSetglobal (vid arg : Byte) (ops : List Word) (s : State cfg) : Out cfg :=
  runGlobal (.setglobal vid arg ops) s (.next (s.updVoices (voiceSetGlobal s.sr s.cellsRead)))

/-- `NOTEON` (R369). -/
def execNoteon (vid arg : Byte) (ops : List Word) (s : State cfg) : Out cfg :=
  runGlobal (.noteon vid arg ops) s
    (.next (s.startVoice (s.allocate (argNote arg)) (argNote arg) (opF32 ops 0)))

/-- `NOTEOFF` (R370). -/
def execNoteoff (vid arg : Byte) (ops : List Word) (s : State cfg) : Out cfg :=
  runGlobal (.noteoff vid arg ops) s (.next (s.updVoices (voiceNoteOff s.sr (argNote arg))))

/-- `RENDER` (R368): every voice renders its whole block before the next starts. -/
def execRender (vid arg : Byte) (ops : List Word) (s : State cfg) : Out cfg :=
  runGlobal (.render vid arg ops) s
    (renderGuard (.render vid arg ops) s (opWord ops 0)
      ((voiceNumbers cfg).foldl (fun t v => t.renderVoice v (opWord ops 0).toNat) s))

end Sys2Proof.Machine
end

