-- ==== Sys2Proof/Machine/System.lean ====
section
/-! DEFINITION. The system commands `NOP`, `PREPARE`, `CLRERR`, `PEEK`, `WRPARAM` (`47_voice_pool_and_system.md` R360 to R365). -/

namespace Sys2Proof.Machine

variable {cfg : Config.Params}

/-- `max(1, int(ms * SR))`: a fade length (R362). -/
def fadeLength (ms sr : F32) : Word := natWord (Nat.max 1 (ms.mul sr).toInt)

/-- A voice after `PREPARE` (R362): its reset values, then the registers that are derived from `SR`. -/
def preparedVoice (cfg : Config.Params) (sr : F32) : Voice cfg :=
  { resetVoice cfg with
    rings := { resetRings with modes := vecMap (modeCoef cfg sr) resetRings.modes }
    karplus := karplusSetFreq cfg sr (resetVoice cfg).freq resetKarplus
    oscs := oscRetune sr (resetVoice cfg).freq resetOscs }

/-- The sample rate that `PREPARE` sets (R362). -/
def clampRate (cfg : Config.Params) (x : F32) : F32 := x.clamp cfg.srMin cfg.srMax

/-- The block length that `PREPARE` sets (R362). -/
def clampBlock (cfg : Config.Params) (n : Nat) : Nat := Nat.min (Nat.max n 1) cfg.maxBlockCap

/-- `PREPARE` (R362). Not changed: the cells, `RNG_IDX`, the fault record, `OUT`, the queues. DESIGN CHOICE (log entry 27): R362 sets
`NOTE_SEQ` to 0, and `70_reset_and_hazards.md` R443 does not list it among what stays, while `10_state.md` R32 names only `V.START` and
`NOTEON` as writing it, and no ruling says which holds; the model follows R362. -/
def State.prepare (s : State cfg) (sampleRate : F32) (maxBlock : Nat) : State cfg :=
  { s with
    sr := clampRate cfg sampleRate
    maxBlock := natWord (clampBlock cfg maxBlock)
    fadeIn := fadeLength (F32.dec 10 1000) (clampRate cfg sampleRate)
    fadeOut := fadeLength (F32.dec 2 1000) (clampRate cfg sampleRate)
    bufLen := natWord ((F32.ofNat 4).mul (clampRate cfg sampleRate)).toInt
    noteSeq := 0
    voices := Vector.replicate cfg.nv (preparedVoice cfg (clampRate cfg sampleRate)) }

/-- The size of a space in words (R364, `20_memory.md` R101); 0 for the spaces above 10, which do not exist. -/
def State.spaceSize (s : State cfg) (space : Nat) : Nat :=
  match space with
  | 0 => 15
  | 1 => Config.NPARAM
  | 2 => 67
  | 3 => 128
  | 4 => 8 * cfg.ng
  | 5 => s.bufLen.toNat
  | 6 => s.bufLen.toNat
  | 7 => cfg.ksCap
  | 8 => 65536
  | 9 => cfg.maxBlockCap
  | 10 => cfg.maxBlockCap
  | _ => 0

/-- The `SYS` registers in index order (`10_state.md` R32). -/
def State.sysRegs (s : State cfg) : List Word :=
  [s.status, s.err, s.errInfo, s.errCnt, s.sr.bits, s.maxBlock, s.fadeIn, s.fadeOut, s.bufLen, s.rngIdx, s.noteSeq,
    natWord cfg.nv, natWord cfg.ng, natWord cfg.ksCap, s.activeCount]

/-- A word of a per-voice space (R364): spaces 2 to 7. -/
def voiceWord (space addr : Nat) (x : Voice cfg) : Word :=
  match space with
  | 2 => (voiceRegs x).getD addr 0
  | 3 => ((x.rings.modes.toList.map modeRegs).getD (addr / 16) []).getD (addr % 16) 0
  | 4 => ((x.clouds.grains.toList.map grainRegs).getD (addr / 8) []).getD (addr % 8) 0
  | 5 => x.clouds.bufL.read addr
  | 6 => x.clouds.bufR.read addr
  | _ => x.karplus.line.read addr

/-- A word of a global space (R364): spaces 0, 1, 8, 9, 10. -/
def State.globalWord (s : State cfg) (space addr : Nat) : Word :=
  match space with
  | 0 => s.sysRegs.getD addr 0
  | 1 => s.params.toList.getD addr 0
  | 8 => wtWord addr
  | 9 => s.outL.read addr
  | _ => s.outR.read addr

/-- The word that `PEEK` reads (R364). -/
def State.peekWord (s : State cfg) (space : Nat) (vid : Byte) (addr : Nat) : Word :=
  if spacePerVoice space then
    match voiceOf vid with
    | some v => voiceWord space addr (s.voice v)
    | none => 0
  else s.globalWord space addr

/-- Replaces a parameter cell; a number above 38 names none. -/
def State.setCell (s : State cfg) (c : Nat) (w : Word) : State cfg := { s with params := s.params.setIfInBounds c w }

/-- `NOP` (R360). -/
def execNop (vid arg : Byte) (ops : List Word) (s : State cfg) : Out cfg :=
  runGlobal (.nop vid arg ops) s (.next s)

/-- `PREPARE` (R362). -/
def execPrepare (vid arg : Byte) (ops : List Word) (s : State cfg) : Out cfg :=
  runGlobal (.prepare vid arg ops) s (.next (s.prepare (opF32 ops 0) (opWord ops 1).toNat))

/-- `CLRERR` (R363). -/
def execClrerr (vid arg : Byte) (ops : List Word) (s : State cfg) : Out cfg :=
  runGlobal (.clrerr vid arg ops) s (.next s.clearFault)

/-- `PEEK` (R364): `BAD_ADDRESS` for a space that does not exist or an address at or above its size. -/
def execPeek (vid arg : Byte) (ops : List Word) (s : State cfg) : Out cfg :=
  runGlobal (.peek vid arg ops) s
    (if s.spaceSize arg.toNat ≤ (opWord ops 0).toNat then faultOf (.peek vid arg ops) s .badAddress
    else .next (s.push (s.peekWord arg.toNat vid (opWord ops 0).toNat)))

/-- `WRPARAM` (R365): the word is stored as given. -/
def execWrparam (vid arg : Byte) (ops : List Word) (s : State cfg) : Out cfg :=
  runGlobal (.wrparam vid arg ops) s (.next (s.setCell arg.toNat (opWord ops 0)))

end Sys2Proof.Machine
end

