-- ==== Sys2Proof/Machine/Dispatch.lean ====
section
/-! DEFINITION. The command dispatch: one arm per command of `30_encoding.md` R146, each one call of its meaning. -/

namespace Sys2Proof.Machine

/-- Runs one command: its effect, or the fault it takes (`60_exceptions.md` R402, R404). -/
def exec (i : Instr) (s : State) : Host.Outcome State Fault Refusal :=
  match i with
  | .nop vid arg ops => Sys2Proof.Machine.execNop vid arg ops s
  | .prepare vid arg ops => Sys2Proof.Machine.execPrepare vid arg ops s
  | .clrerr vid arg ops => Sys2Proof.Machine.execClrerr vid arg ops s
  | .peek vid arg ops => Sys2Proof.Machine.execPeek vid arg ops s
  | .wrparam vid arg ops => Sys2Proof.Machine.execWrparam vid arg ops s
  | .setglobal vid arg ops => Sys2Proof.Machine.execSetglobal vid arg ops s
  | .noteon vid arg ops => Sys2Proof.Machine.execNoteon vid arg ops s
  | .noteoff vid arg ops => Sys2Proof.Machine.execNoteoff vid arg ops s
  | .render vid arg ops => Sys2Proof.Machine.execRender vid arg ops s
  | .vStart vid arg ops => Sys2Proof.Machine.execVStart vid arg ops s
  | .vStop vid arg ops => Sys2Proof.Machine.execVStop vid arg ops s
  | .vRender vid arg ops => Sys2Proof.Machine.execVRender vid arg ops s
  | .vSetmode vid arg ops => Sys2Proof.Machine.execVSetmode vid arg ops s
  | .vSetrings vid arg ops => Sys2Proof.Machine.execVSetrings vid arg ops s
  | .vSetclouds vid arg ops => Sys2Proof.Machine.execVSetclouds vid arg ops s
  | .vSetwt vid arg ops => Sys2Proof.Machine.execVSetwt vid arg ops s
  | .vSetmix vid arg ops => Sys2Proof.Machine.execVSetmix vid arg ops s
  | .vSetenv vid arg ops => Sys2Proof.Machine.execVSetenv vid arg ops s
  | .vSetfilt vid arg ops => Sys2Proof.Machine.execVSetfilt vid arg ops s
  | .vSetosc vid arg ops => Sys2Proof.Machine.execVSetosc vid arg ops s
  | .mrSetparams vid arg ops => Sys2Proof.Machine.execMrSetparams vid arg ops s
  | .mrTrigger vid arg ops => Sys2Proof.Machine.execMrTrigger vid arg ops s
  | .mrProc vid arg ops => Sys2Proof.Machine.execMrProc vid arg ops s
  | .grWrite vid arg ops => Sys2Proof.Machine.execGrWrite vid arg ops s
  | .grProc vid arg ops => Sys2Proof.Machine.execGrProc vid arg ops s
  | .ksSetfreq vid arg ops => Sys2Proof.Machine.execKsSetfreq vid arg ops s
  | .ksTrigger vid arg ops => Sys2Proof.Machine.execKsTrigger vid arg ops s
  | .ksGet vid arg ops => Sys2Proof.Machine.execKsGet vid arg ops s
  | .wtGet vid arg ops => Sys2Proof.Machine.execWtGet vid arg ops s
  | .oscSetfreq vid arg ops => Sys2Proof.Machine.execOscSetfreq vid arg ops s
  | .oscSetwave vid arg ops => Sys2Proof.Machine.execOscSetwave vid arg ops s
  | .oscReset vid arg ops => Sys2Proof.Machine.execOscReset vid arg ops s
  | .oscNext vid arg ops => Sys2Proof.Machine.execOscNext vid arg ops s
  | .envSetparams vid arg ops => Sys2Proof.Machine.execEnvSetparams vid arg ops s
  | .envNoteon vid arg ops => Sys2Proof.Machine.execEnvNoteon vid arg ops s
  | .envNoteoff vid arg ops => Sys2Proof.Machine.execEnvNoteoff vid arg ops s
  | .envNext vid arg ops => Sys2Proof.Machine.execEnvNext vid arg ops s
  | .fltProc vid arg ops => Sys2Proof.Machine.execFltProc vid arg ops s
  | .fltReset vid arg ops => Sys2Proof.Machine.execFltReset vid arg ops s

end Sys2Proof.Machine
end

