-- ==== Sys2Proof/Machine/Step.lean ====
section
/-! DEFINITION. One step of the block (`10_state.md` R31, R75; `70_reset_and_hazards.md` R452, R453): it takes the command at the
front of the queue, executes it to completion, and the host's port accesses that fell in its time land. -/

namespace Sys2Proof.Machine

/-- One step of the block with the default parameters. -/
def step (s : State) : Host.Outcome State Fault Refusal := stepBy exec s

/-- The instruction whose bits are `w`, put at the front of the command queue, where the next step takes its command. -/
def State.withFetchWord (s : State) (nbits w : Nat) : State := { s with cmd := tableWords nbits w ++ s.cmd }

end Sys2Proof.Machine
end

