-- ==== Sys2Proof/Safety.lean ====
section
/-! DEFINITION. The terms in which statements about the block are made: ranges of values, the legal configurations, and the
conditions that every step is claimed to keep. -/

namespace Sys2Proof

/-- `lo <= x <= hi`, which no NaN satisfies. -/
def F32.between (lo hi x : F32) : Bool := lo.le x && x.le hi

/-- A value of [0, 1]. -/
def F32.inUnit (x : F32) : Bool := F32.between F32.zero F32.one x

/-- A value of [0, 1), as `frac` answers (`00_scope.md` R11). -/
def F32.inUnitOpen (x : F32) : Bool := F32.zero.le x && x.lt F32.one

namespace Machine

variable {cfg : Config.Params}

/-- The `VID` of a voice. -/
def vidOf {n : Nat} (v : Fin n) : Byte := BitVec.ofNat 8 v

/-! Commands. -/

/-- The commands that name a voice: the per-voice ones, and `PEEK` of a per-voice space (`30_encoding.md` R145, R146). -/
def usesVoice (i : Instr) : Bool :=
  match i with
  | .peek _ arg _ => spacePerVoice arg.toNat
  | i => i.onVoice

/-- The commands marked U: legal before `PREPARE` (R146, `60_exceptions.md` R415). -/
def isEarly (i : Instr) : Bool :=
  match i with
  | .nop .. | .prepare .. | .clrerr .. | .peek .. | .wrparam .. | .wtGet .. => true
  | _ => false

/-- Check (6) of R148 passes: the block is not too long, the address is inside its space. -/
def operandsOk (i : Instr) (s : State cfg) : Bool :=
  match i with
  | .render _ _ ops | .vRender _ _ ops => decide ((opWord ops 0).toNat ≤ s.maxBlock.toNat)
  | .peek _ arg ops => decide ((opWord ops 0).toNat < s.spaceSize arg.toNat)
  | _ => true

/-- The host stays away from the frames of a render command while it executes (`20_memory.md` R112). -/
def hostAway (i : Instr) (s : State cfg) : Bool :=
  match i with
  | .render _ _ ops | .vRender _ _ ops => !s.hostInOut (opWord ops 0).toNat
  | _ => true

/-- The state after a fault of a code (`60_exceptions.md` R401, R404). -/
def State.faulted (s : State cfg) (code : Word) (header : Word) : State cfg :=
  { s with
    err := if s.err = 0 then code else s.err
    errInfo := if s.err = 0 then header else s.errInfo
    errCnt := if s.errCnt = 0xFFFFFFFF then s.errCnt else s.errCnt + 1 }

/-- Voice `v` was started on note `n` with a velocity, and nothing else changed (`46_voice.md` R323, R325). -/
def startedVoice (s t : State cfg) (v : Fin cfg.nv) (n : Nat) (velocity : F32) : Prop :=
  let x := s.voice v
  let vel := velocity.clamp F32.zero F32.one
  let f := (F32.ofNat 440).mul (Num.exp2 (((F32.ofNat n).sub (F32.ofNat 69)).div (F32.ofNat 12)))
  t.voice v =
    { x with
      freq := f
      vel := vel
      note := BitVec.ofNat 32 n
      age := s.noteSeq + 1
      fadeinCnt := 0
      fading := false
      fadeoutCnt := 0
      rings := ringsTrigger vel (ringsSet cfg s.sr f x.rings.bri x.rings.damp x.rings.pos x.rings.struct
        (modelCode x.rings.model) x.rings)
      karplus := karplusTrigger cfg vel s.rngIdx (karplusSetFreq cfg s.sr f x.karplus)
      wt := { x.wt with phase := F32.zero }
      oscs := oscRetune s.sr f x.oscs
      enva := { x.enva with stage := .attack }
      envf := { x.envf with stage := .attack }
      active := true } ∧
    t = { s with
      voices := s.voices.set v (t.voice v)
      noteSeq := s.noteSeq + 1
      rngIdx := s.rngIdx + (t.voice v).karplus.len }

/-! Memories. -/

/-- The memories of a voice are in canonical form. -/
def voiceMemOk (x : Voice cfg) : Bool := x.clouds.bufL.wf && x.clouds.bufR.wf && x.karplus.line.wf

/-- Every memory is in canonical form (log entry 12). -/
def State.memOk (s : State cfg) : Prop := s.outL.wf = true ∧ s.outR.wf = true ∧ ∀ v, voiceMemOk (s.voice v) = true

/-! Registers. -/

/-- The resonator shadows are in their ranges (`10_state.md` R35, R42). -/
def ringsLegal (r : Rings) : Bool :=
  F32.between F32.one (F32.ofNat 20000) r.freq && r.bri.inUnit && r.damp.inUnit && r.pos.inUnit && r.struct.inUnit

/-- The granular shadows are in their ranges. -/
def cloudsLegal (c : Clouds cfg) : Bool :=
  c.pos.inUnit && c.size.inUnit && c.dens.inUnit && c.tex.inUnit &&
    F32.between (F32.ofNat 12).neg (F32.ofNat 12) c.pitch

/-- The wavetable shadows are in their ranges. -/
def wtLegal (t : WtRegs) : Bool := t.morph.inUnit && t.fold.inUnit && F32.between F32.one.neg F32.one t.warp

/-- The mix weights are in their ranges. -/
def mixLegal (m : Mix) : Bool := m.rings.inUnit && m.clouds.inUnit && m.karplus.inUnit && m.wt.inUnit && m.osc.inUnit

/-- The oscillator shadows and increments are in their ranges. -/
def oscsLegal (o : Oscs) : Bool :=
  F32.between (F32.ofNat 24).neg (F32.ofNat 24) o.detune && o.mix.inUnit &&
    F32.between (F32.dec 5 100) (F32.dec 95 100) o.pw &&
    F32.between F32.zero (F32.dec 1 2) o.osc0.inc && F32.between F32.zero (F32.dec 1 2) o.osc1.inc

/-- The times and the sustain level of an envelope are in their ranges. -/
def envLegal (e : Env) : Bool :=
  F32.between (F32.dec 1 1000) (F32.ofNat 10) e.a && F32.between (F32.dec 1 1000) (F32.ofNat 10) e.d &&
    F32.between (F32.dec 1 1000) (F32.ofNat 10) e.r && e.s.inUnit

/-- The filter shadows are in their ranges. -/
def filtLegal (f : Filt) : Bool :=
  F32.between (F32.ofNat 20) (F32.ofNat 20000) f.cutoff && F32.between (F32.dec 1 10) (F32.ofNat 10) f.q &&
    F32.between F32.one.neg F32.one f.envAmt

/-- Every shadow register of a voice holds a legal value (`10_state.md` R36). -/
def voiceLegal (x : Voice cfg) : Bool :=
  x.vel.inUnit && ringsLegal x.rings && cloudsLegal x.clouds && wtLegal x.wt && mixLegal x.mix && oscsLegal x.oscs &&
    envLegal x.enva && envLegal x.envf && filtLegal x.flt

/-- The phases of a voice's oscillators are in [0, 1) (`40_basic_oscillator.md` R180). -/
def voicePhasesOk (x : Voice cfg) : Bool := x.oscs.osc0.phase.inUnitOpen && x.oscs.osc1.phase.inUnitOpen

/-- Every shadow register of the block holds a legal value, and so do the oscillators. -/
def State.registersLegal (s : State cfg) : Prop :=
  ∀ v, (voiceLegal (s.voice v) && voicePhasesOk (s.voice v)) = true

/-! Configuration, cursors, counters. -/

/-- The registers that `PREPARE` writes are as reset left them, or hold legal values (`10_state.md` R32). -/
def State.configOk (s : State cfg) : Prop :=
  (s.sr = F32.zero ∧ s.maxBlock = 0 ∧ s.fadeIn = 0 ∧ s.fadeOut = 0 ∧ s.bufLen = 0) ∨
    (F32.between cfg.srMin cfg.srMax s.sr = true ∧ 1 ≤ s.maxBlock.toNat ∧ s.maxBlock.toNat ≤ cfg.maxBlockCap ∧
      1 ≤ s.fadeIn.toNat ∧ 1 ≤ s.fadeOut.toNat ∧ 1 ≤ s.bufLen.toNat ∧
      s.bufLen.toNat = ((F32.ofNat 4).mul s.sr).toInt)

/-- The delay line of a voice has a legal length, and its cursors lie inside (`43_karplus_strong.md` R250; R42, index 22). -/
def voiceCursorsOk (bufLen : Word) (x : Voice cfg) : Bool :=
  decide (2 ≤ x.karplus.len.toNat) && decide (x.karplus.len.toNat ≤ cfg.ksCap) &&
    decide (x.karplus.wc.toNat < x.karplus.len.toNat) && decide (x.clouds.wc.toNat < bufLen.toNat)

/-- The block is configured legally, and once it is prepared every cursor lies inside its memory. -/
def State.cursorsOk (s : State cfg) : Prop :=
  s.configOk ∧ (s.ready = true → ∀ v, voiceCursorsOk s.bufLen (s.voice v) = true)

/-- The lifecycle registers of a voice belong together: an active voice holds a note and an inactive one 255; only an active voice
fades out; the fade counters are within their lengths, and a fade-out that is complete has ended the voice
(`10_state.md` R42, `46_voice.md` R340, R341, R345). -/
def voiceLifeOk (fin fout : Word) (x : Voice cfg) : Bool :=
  (if x.active then decide (x.note.toNat ≤ 127) else x.note == 255 && !x.fading) &&
    (if x.fading then decide (x.fadeoutCnt.toNat < fout.toNat) else x.fadeoutCnt == 0) &&
    decide (x.fadeinCnt.toNat ≤ fin.toNat)

/-- The lifecycle registers of every voice belong together. -/
def State.livesOk (s : State cfg) : Prop := s.configOk ∧ ∀ v, voiceLifeOk s.fadeIn s.fadeOut (s.voice v) = true

/-- The level of an envelope is in [0, 1] and its release decrement is not negative (`45_envelope_and_filter.md` R297). -/
def envLevelOk (e : Env) : Bool := e.level.inUnit && F32.zero.le e.relRate

/-- The levels of all envelopes are in [0, 1]. -/
def State.levelsOk (s : State cfg) : Prop :=
  s.configOk ∧ s.registersLegal ∧ ∀ v, (envLevelOk (s.voice v).enva && envLevelOk (s.voice v).envf) = true

/-- The modes of a resonator are what `MR_SET` makes them for its registers: frequency, decay, brightness (R200, R202). -/
def modesSet (r : Rings) : Prop :=
  ∀ i : Fin Config.NMODES, r.modes[i].freq = modeFreq r.model r.freq r.struct i ∧
    r.modes[i].decay = r.damp.mul two ∧ r.modes[i].bri = r.bri

/-- The modes of every resonator are a function of its registers, and once the block is prepared their coefficients are too. -/
def State.modesDetermined (s : State cfg) : Prop :=
  ∀ v, modesSet (s.voice v).rings ∧
    (s.ready = true → ∀ i : Fin Config.NMODES, modeCoef cfg s.sr (s.voice v).rings.modes[i] = (s.voice v).rings.modes[i])

/-- At most one voice that is not fading out holds any note (`47_voice_pool_and_system.md` R372 (b)). -/
def State.notesHeldOnce (s : State cfg) : Prop :=
  ∀ v w, (s.voice v).active = true → (s.voice v).fading = false → (s.voice w).active = true →
    (s.voice w).fading = false → (s.voice v).note = (s.voice w).note → v = w

end Machine

end Sys2Proof
end

