-- ==== Sys2Proof/Certificates/Slice0/Obligations.lean ====
section
/-! DEFINITION. The statements for the provers. Each docstring names the rules of the spec that the statement formalises. A command
that names a voice carries its number in `VID` (`vidOf`); `[w0, w1]` are its operand words. -/

open Sys2Proof Sys2Proof.Machine

/-! Encoding (`30_encoding.md`). -/

/-- Decoding the words of any command gives the command back, whatever follows it (R140, R141, R142, R146). -/
def Obligations.EncodeDecode : Prop :=
  ∀ (i : Instr) (rest : List Word), i.ops.length ≤ 255 → decode (encode i ++ rest) = .command i rest

/-- Words that decode to a command are the words of that command, and nothing else is taken (R140, R142, R147). -/
def Obligations.DecodeEncode : Prop :=
  ∀ (q : List Word) (i : Instr) (rest : List Word),
    decode q = .command i rest → q = encode i ++ rest ∧ i.ops.length ≤ 255

/-- The encoding examples of R152, word by word. -/
def Obligations.DecodesSpecWords : Prop :=
  decode [0x00000000] = .command (.nop 0 0 []) [] ∧
  decode [0x01000002, 0x473B8000, 0x00000200] = .command (.prepare 0 0 [0x473B8000, 0x200]) [] ∧
  decode [0x03000301, 0x00000010] = .command (.peek 0 3 [16]) [] ∧
  decode [0x04001E01, 0x447A0000] = .command (.wrparam 0 30 [0x447A0000]) [] ∧
  decode [0x11003C01, 0x3F800000] = .command (.noteon 0 60 [0x3F800000]) [] ∧
  decode [0x12003C00] = .command (.noteoff 0 60 []) [] ∧
  decode [0x13000001, 0x00000040] = .command (.render 0 0 [64]) [] ∧
  decode [0x21020000] = .command (.vStop 2 0 []) [] ∧
  decode [0x23010200] = .command (.vSetmode 1 2 []) [] ∧
  decode [0x2A004103, 0x00000000, 0x3F000000, 0x3E800000] =
    .command (.vSetosc 0 0x41 [0, 0x3F000000, 0x3E800000]) [] ∧
  decode [0x51002100] = .command (.oscSetwave 0 0x21 []) [] ∧
  decode [0x5B000100] = .command (.envNext 0 1 []) [] ∧
  decode [0x42070000] = .command (.ksGet 7 0 []) []

/-- The reserved opcodes of R149, exactly: a command with one of them takes its words (R142), records `ILLEGAL_OPCODE` with its
header, and changes nothing else (`60_exceptions.md` R401, R404); every other opcode selects an operation. -/
def Obligations.ReservedOpcodesFault : Prop :=
  let reserved (o : Byte) : Prop :=
    (0x05 ≤ o ∧ o ≤ 0x0F) ∨ (0x14 ≤ o ∧ o ≤ 0x1F) ∨ (0x2B ≤ o ∧ o ≤ 0x2F) ∨ (0x33 ≤ o ∧ o ≤ 0x37) ∨
      (0x3A ≤ o ∧ o ≤ 0x3F) ∨ (0x43 ≤ o ∧ o ≤ 0x47) ∨ (0x49 ≤ o ∧ o ≤ 0x4F) ∨ (0x54 ≤ o ∧ o ≤ 0x57) ∨
      (0x5C ≤ o ∧ o ≤ 0x5F) ∨ 0x62 ≤ o
  (∀ o : Byte, reserved o ↔ instrOfOpc o = none) ∧
    ∀ (s : State) (h : Word) (q : List Word),
      s.port = [] → s.cmd = h :: q → headerLen h ≤ q.length → reserved (headerOpc h) →
        step s = .next (State.faulted { s with cmd := q.drop (headerLen h) } 1 h)

/-- The commands that `WellFormed.lean` calls well-formed are those that pass the checks (2), (3) and (4) of R148, whatever the
parameters of the block are (`00_scope.md` R5). -/
def Obligations.WellFormedIffChecksPass : Prop :=
  ∀ (cfg : Config.Params) (i : Instr), i.wellFormed cfg = true ↔ headerFault cfg i = none

/-- The checks (2) to (6) of R148, in their order: the first that fails decides the fault, with the codes of `60_exceptions.md`
R401, and the fault is all that happens (R403, R404, R405). Check (1) is `ReservedOpcodesFault`. -/
def Obligations.FirstFailingCheckFaults : Prop :=
  ∀ (i : Instr) (s : State),
    (i.ops.length ≠ i.lenRequired → exec i s = .next (s.faulted 2 (instrHeader i))) ∧
    (i.ops.length = i.lenRequired → (i.argOk = false ∨ (i.vidOk = false ∧ usesVoice i = false)) →
      exec i s = .next (s.faulted 3 (instrHeader i))) ∧
    (i.ops.length = i.lenRequired → i.argOk = true → i.vidOk = false → usesVoice i = true →
      exec i s = .next (s.faulted 4 (instrHeader i))) ∧
    (i.wellFormed = true → s.ready = false → isEarly i = false → exec i s = .next (s.faulted 5 (instrHeader i))) ∧
    (i.wellFormed = true → (s.ready = true ∨ isEarly i = true) → operandsOk i s = false →
      (∀ vid arg ops, i ≠ .peek vid arg ops) → exec i s = .next (s.faulted 6 (instrHeader i))) ∧
    (i.wellFormed = true → operandsOk i s = false →
      (∃ vid arg ops, i = .peek vid arg ops) → exec i s = .next (s.faulted 7 (instrHeader i)))

/-- A command that passes all checks runs: it answers a next state, raises nothing (R148, `60_exceptions.md` R402), and pushes as
many response words as its row of R146 says. -/
def Obligations.PassedChecksCannotFault : Prop :=
  ∀ (i : Instr) (s : State),
    i.wellFormed = true → (s.ready = true ∨ isEarly i = true) → operandsOk i s = true → hostAway i s = true →
      ∃ t, exec i s = .next t ∧
        (∃ l, t.rsp = s.rsp ++ l ∧ l.length = (instrRow i).rsp) ∧
        ((∀ vid arg ops, i ≠ .clrerr vid arg ops) → t.err = s.err ∧ t.errInfo = s.errInfo ∧ t.errCnt = s.errCnt)

/-- The mode `READY` is entered by `PREPARE` only and never left (`60_exceptions.md` R415); `PREPARE` always enters it. -/
def Obligations.ReadyEnteredByPrepareOnly : Prop :=
  (∀ (i : Instr) (s t : State), exec i s = .next t → s.ready = true → t.ready = true) ∧
  (∀ (i : Instr) (s t : State), exec i s = .next t → s.ready = false → t.ready = true →
    ∃ w0 w1, i = .prepare 0 0 [w0, w1]) ∧
  (∀ (s : State) (w0 w1 : Word), ∃ t, exec (.prepare 0 0 [w0, w1]) s = .next t ∧ t.ready = true)

/-! The step (`10_state.md` R75, `70_reset_and_hazards.md` R452, R453; `20_memory.md` R112, R115). -/

/-- A step runs the command at the front of the queue: its words are taken, the host accesses of slot 0 land before it and the
others after it (slots are the model's choice, log entry 7). With no host access pending the step is the command, in the state
without its words. -/
def Obligations.StepRunsDecodedCommand : Prop :=
  ∀ (s : State) (i : Instr) (rest : List Word),
    decode s.cmd = .command i rest →
      step s = finish (exec i (s.begin rest)) ∧ (s.port = [] → step s = exec i { s with cmd := rest })

/-- The block waits, in the same state, while its queue holds no header or fewer operand words than the header asks for
(R453). -/
def Obligations.StepWaitsForOperands : Prop :=
  ∀ s : State,
    (s.cmd = [] ∨ ∃ h q, s.cmd = h :: q ∧ q.length < headerLen h) → step s = .next s

/-- The one thing that stops a run: the host touches frames that a render command owns (R112). Nothing else is refused and nothing
stops with a fault of the machine. The model's choices in it: a host access in the time of a command is an entry with a slot, and a
slot of 1 or more says that it falls while the command executes (log entry 7, DESIGN CHOICE); which accesses break R112, those to the
frames of the command whether or not a voice that sounds writes them (log entry 19, DEDUCED); and that `Fault` is empty, the block's
faults being next states (log entry 17, DEDUCED). -/
def Obligations.RefusedOnlyWhenHostTouchesOut : Prop :=
  (∀ (i : Instr) (s : State) (f : Fault), exec i s ≠ .fault f) ∧
  (∀ (i : Instr) (s : State) (r : Refusal), exec i s = .refused r →
    r = .hostTouchedOut ∧ hostAway i s = false) ∧
  (∀ (s : State) (v : Fin Config.NV) (n : Word), s.ready = true → n.toNat ≤ s.maxBlock.toNat →
    (∃ p ∈ s.port, p.slot ≠ 0 ∧ ∃ (ch : Channel) (f : Fin Config.MAXBLOCK_CAP) (w : Word),
      f.val < n.toNat ∧ (p.act = .writeOut ch f w ∨ p.act = .readOut ch f)) →
      exec (.render 0 0 [n]) s = .refused .hostTouchedOut ∧
        exec (.vRender (vidOf v) 0 [n]) s = .refused .hostTouchedOut)

/-- Each cell read of `SETGLOBAL` returns the cell's value or a value that the host writes to that cell in the time of the command
(R115 (b)); a single write is seen exactly by the reads of its cell that it does not follow. That the host's writes are a list of
slotted accesses is the model's choice (log entry 7). -/
def Obligations.CellReadsOldOrHostWritten : Prop :=
  (∀ (s : State) (c : Fin Config.NPARAM),
    s.cellsRead[c] = s.params[c] ∨ ∃ p ∈ s.port, p.act = .writeCell c s.cellsRead[c]) ∧
  (∀ (s : State) (c d : Fin Config.NPARAM) (w : Word) (k : Nat), s.port = [⟨k, .writeCell c w⟩] →
    s.cellsRead[d] = if d = c ∧ k ≤ d.val then w else s.params[d])

/-! Reset (`70_reset_and_hazards.md`). -/

/-- What reset leaves: the registers, memories and queues that R441 gathers, the cells and the shadow registers at the defaults of
`10_state.md` R35, and the global registers of R440. -/
def Obligations.ResetLeaves : Prop :=
  let s := State.reset
  let d (n k : Nat) : F32 := F32.dec n k
  let c (n k : Nat) : Word := (F32.dec n k).bits
  (s.cmd = [] ∧ s.rsp = []) ∧
  (s.err = 0 ∧ s.errInfo = 0 ∧ s.errCnt = 0 ∧ s.sr = F32.zero ∧ s.maxBlock = 0 ∧ s.fadeIn = 0 ∧ s.fadeOut = 0 ∧
    s.bufLen = 0 ∧ s.rngIdx = 0 ∧ s.noteSeq = 0 ∧ s.status = 0 ∧ s.activeCount = 0) ∧
  s.params.toList =
    [0, c 5 10, c 5 10, c 25 100, 0, 0] ++ [0, c 5 10, c 5 10, 0, c 5 10, 0] ++ [0, 8, 0, 0, 0] ++
    [c 5 10, c 1 1, c 5 10, c 5 10, c 5 10] ++ [c 1 100, c 1 10, c 75 100, c 25 100] ++
    [c 1 100, c 25 100, c 5 10, c 25 100] ++ [c 8000 1, c 75 100, 0, 0] ++ [1, 2, 0, 0, c 5 10] ∧
  (∀ a, s.outL.read a = 0 ∧ s.outR.read a = 0) ∧
  ∀ v : Fin Config.NV,
    let x := s.voice v
    (x.active = false ∧ x.fading = false ∧ x.note = 255 ∧ x.age = 0 ∧ x.freq = d 440 1 ∧ x.vel = F32.zero ∧
      x.fadeinCnt = 0 ∧ x.fadeoutCnt = 0 ∧ x.mode = .rings) ∧
    (x.rings.freq = d 440 1 ∧ x.rings.bri = d 5 10 ∧ x.rings.damp = d 5 10 ∧ x.rings.pos = d 25 100 ∧
      x.rings.struct = F32.zero ∧ x.rings.model = .string) ∧
    (x.clouds.pos = F32.zero ∧ x.clouds.size = d 5 10 ∧ x.clouds.dens = d 5 10 ∧ x.clouds.pitch = F32.zero ∧
      x.clouds.tex = d 5 10 ∧ x.clouds.freeze = false ∧ x.clouds.wc = 0) ∧
    x.wt = ⟨0, 8, F32.zero, F32.zero, F32.zero, F32.zero⟩ ∧
    x.mix = ⟨d 5 10, d 1 1, d 5 10, d 5 10, d 5 10⟩ ∧
    x.oscs = ⟨⟨F32.zero, F32.zero, .saw⟩, ⟨F32.zero, F32.zero, .square⟩, F32.zero, F32.zero, d 5 10⟩ ∧
    x.enva = ⟨.idle, F32.zero, d 1 100, d 1 10, d 75 100, d 25 100, F32.zero⟩ ∧
    x.envf = ⟨.idle, F32.zero, d 1 100, d 25 100, d 5 10, d 25 100, F32.zero⟩ ∧
    x.flt = ⟨d 8000 1, d 75 100, F32.zero, .lowpass, F32.zero, F32.zero, F32.zero, F32.zero⟩ ∧
    (x.karplus.len = 0 ∧ x.karplus.wc = 0 ∧ x.karplus.prev = F32.zero) ∧
    (∀ a, x.clouds.bufL.read a = 0 ∧ x.clouds.bufR.read a = 0 ∧ x.karplus.line.read a = 0) ∧
    (∀ g : Fin Config.NG, x.clouds.grains[g] =
      ⟨false, F32.zero, F32.zero, F32.zero, F32.zero, F32.zero, F32.zero⟩) ∧
    ∀ i : Fin Config.NMODES, x.rings.modes[i] =
      ⟨d (440 * (i + 1)) 1, d 1 1, d 5 10, F32.zero, F32.zero, F32.zero, F32.zero, F32.zero, F32.zero, F32.zero⟩

/-- Every invariant that a step keeps holds after reset. That a memory has a canonical form, which `memOk` says it is in, is no rule of
the spec but the model's choice (log entry 12). -/
def Obligations.InvariantsHoldAtReset : Prop :=
  State.reset.memOk ∧ State.reset.registersLegal ∧ State.reset.modesDetermined ∧ State.reset.cursorsOk ∧
    State.reset.livesOk ∧ State.reset.levelsOk ∧ State.reset.notesHeldOnce

/-! Numerics (`00_scope.md`). -/

/-- The properties P1 to P7 of R8, and that a draw lies in [0, 1) (R12): all that is known of the free values. -/
def Obligations.NumAndDrawsAdmissible : Prop :=
  (Num.sin F32.zero = F32.zero ∧ Num.cos F32.zero = F32.one ∧ Num.exp F32.zero = F32.one ∧
    Num.exp F32.zero.neg = F32.one ∧ Num.tan F32.zero = F32.zero) ∧
  (∀ (x : F32) (neg : Bool) (n : Nat), x.value = .fin neg (n * unitsPerOne) →
    (if neg then n ≤ 126 else n ≤ 127) →
      (Num.exp2 x).value = .fin false (if neg then 2 ^ (149 - n) else 2 ^ (149 + n))) ∧
  (∀ x : F32, x.isFinite = true →
    (Num.sin x).isFinite = true ∧ (Num.cos x).isFinite = true ∧ (Num.tan x).isFinite = true ∧
    (Num.exp x).isFinite = true ∧ (Num.exp2 x).isFinite = true ∧
    (Num.sin x).abs.le F32.one = true ∧ (Num.cos x).abs.le F32.one = true ∧
    F32.zero.le (Num.exp x) = true ∧ F32.zero.le (Num.exp2 x) = true) ∧
  (∀ x : F32, x.le F32.zero = true → (Num.exp x).le F32.one = true) ∧
  (∀ k : Word, (randStream k).inUnitOpen = true)

/-- The clamp and the sanitising step of R10: which value comes out, for every value that goes in. -/
def Obligations.ClampAndSan : Prop :=
  (∀ x lo hi : F32, lo.le hi = true →
    F32.between lo hi (x.clamp lo hi) = true ∧
    (x.isNaN = true → x.clamp lo hi = lo) ∧
    (x.lt lo = true → x.clamp lo hi = lo) ∧
    (F32.between lo hi x = true → x.clamp lo hi = x) ∧
    (hi.lt x = true → x.clamp lo hi = hi)) ∧
  (∀ x : F32, x.san = if x.isFinite then x else F32.zero) ∧
  (∀ n hi : Nat, clampu n hi = if n ≤ hi then n else hi)

/-- `floor` is the largest integer-valued value not above its argument, and `frac` lies in [0, 1), for every finite argument
(R11). -/
def Obligations.FloorAndFrac : Prop :=
  ∀ x : F32, x.isFinite = true →
    x.floor.le x = true ∧ (∃ neg n, x.floor.value = .fin neg (n * unitsPerOne)) ∧
    (∀ (y : F32) (neg : Bool) (n : Nat), y.value = .fin neg (n * unitsPerOne) → y.le x = true → y.le x.floor = true) ∧
    x.frac.inUnitOpen = true

/-- Sums, differences, products and quotients of finite values are the exact result rounded to the nearest binary32, ties to the
one whose last bit is 0 (R7). Values are counted in units of 2^-149; the exact result is `num / den` units; a result at least halfway
from the largest finite value to 2^128 is an infinity. A division by a zero is left out. -/
def Obligations.RoundsToNearestEven : Prop :=
  let rounded (y : F32) (num : Int) (den : Nat) : Prop :=
    (∀ neg u, y.value = .fin neg u →
      (num < 0 → neg = true) ∧ (0 < num → neg = false) ∧
      ∀ (z : F32) (nz : Bool) (w : Nat), z.value = .fin nz w →
        |signedUnits neg u * den - num| ≤ |signedUnits nz w * den - num| ∧
        (|signedUnits neg u * den - num| = |signedUnits nz w * den - num| →
          signedUnits nz w = signedUnits neg u ∨ y.bits.getLsbD 0 = false)) ∧
    (∀ neg, y.value = .inf neg ↔
      (neg = decide (num < 0) ∧ (2 ^ 277 - 2 ^ 252) * (den : Int) ≤ |num|)) ∧
    y.value ≠ .nan
  ∀ (a b : F32) (na nb : Bool) (ua ub : Nat), a.value = .fin na ua → b.value = .fin nb ub →
    rounded (a.add b) (signedUnits na ua + signedUnits nb ub) 1 ∧
    rounded (a.sub b) (signedUnits na ua - signedUnits nb ub) 1 ∧
    rounded (a.mul b) (signedUnits na ua * signedUnits nb ub) (2 ^ 149) ∧
    (ub ≠ 0 → rounded (a.div b) ((if nb then -signedUnits na ua else signedUnits na ua) * 2 ^ 149) ub)

/-- The square root of a finite value that is not negative is the binary32 nearest to the exact root (R7): no other value lies on
the root's side of the midpoint between the two. In units, the exact root of `u` units is the root of `u * 2^149`. -/
def Obligations.SqrtRoundsToNearest : Prop :=
  ∀ (a : F32) (u : Nat), a.value = .fin false u →
    ∃ r, a.sqrt.value = .fin false r ∧
      ∀ (z : F32) (w : Nat), z.value = .fin false w →
        (r < w → 4 * (u * 2 ^ 149) ≤ (r + w) * (r + w)) ∧ (w < r → (r + w) * (r + w) ≤ 4 * (u * 2 ^ 149))

/-! The basic oscillator (`40_basic_oscillator.md`). -/

/-- `OSC.SETFREQ`, `OSC.SETWAVE`, `OSC.RESET` and `OSC.NEXT` on instance `k` (R182 to R185): the register that each writes, the
word that `OSC.NEXT` pushes, and nothing else. -/
def Obligations.OscillatorCommands : Prop :=
  ∀ (s : State) (v : Fin Config.NV) (k : Bool), s.ready = true →
    let put (o : Oscs) (x : Osc) : Oscs := if k then { o with osc1 := x } else { o with osc0 := x }
    let get (o : Oscs) : Osc := if k then o.osc1 else o.osc0
    let sel : Nat := if k then 1 else 0
    (∀ w : Word, exec (.oscSetfreq (vidOf v) (BitVec.ofNat 8 sel) [w]) s =
      .next (s.updVoice v fun x => { x with
        oscs := put x.oscs { get x.oscs with
          inc := (((F32.mk w).clamp F32.one (F32.ofNat 20000)).div s.sr).clamp F32.zero (F32.dec 1 2) } })) ∧
    (∀ n : Fin 16, exec (.oscSetwave (vidOf v) (BitVec.ofNat 8 (16 * n + sel)) []) s =
      .next (s.updVoice v fun x => { x with
        oscs := put x.oscs { get x.oscs with
          wave := if n = 0 then .sine else if n = 1 then .saw else if n = 2 then .square
            else if n = 3 then .triangle else .pulse } })) ∧
    exec (.oscReset (vidOf v) (BitVec.ofNat 8 sel) []) s =
      .next (s.updVoice v fun x => { x with oscs := put x.oscs { get x.oscs with phase := F32.zero } }) ∧
    exec (.oscNext (vidOf v) (BitVec.ofNat 8 sel) []) s =
      .next ((s.updVoice v fun x => { x with
        oscs := put x.oscs { get x.oscs with phase := ((get x.oscs).phase.add (get x.oscs).inc).frac } }).push
          (oscValue (get (s.voice v).oscs) (s.voice v).oscs.pw).bits)

/-- The samples of the waveforms (R185) with the correction `PB` of R181 written out; with an increment of 0 there is no
correction and the phase stays; a pulse of width 0.5 is the square, bit for bit. -/
def Obligations.OscillatorSamples : Prop :=
  let pb (t dt : F32) : F32 :=
    if F32.zero.lt dt = true ∧ t.lt dt = true then
      let u := t.div dt
      ((u.add u).sub (u.mul u)).sub F32.one
    else if F32.zero.lt dt = true ∧ (F32.one.sub dt).lt t = true then
      let u := (t.sub F32.one).div dt
      ((u.mul u).add (u.add u)).add F32.one
    else F32.zero
  (∀ (t dt pw : F32),
    oscValue ⟨t, dt, .sine⟩ pw = Num.sin (Config.twoPi.mul t) ∧
    oscValue ⟨t, dt, .saw⟩ pw = (((F32.ofNat 2).mul t).sub F32.one).sub (pb t dt) ∧
    oscValue ⟨t, dt, .square⟩ pw =
      ((if t.lt (F32.dec 1 2) then F32.one else F32.one.neg).add (pb t dt)).sub (pb (t.add (F32.dec 1 2)).frac dt) ∧
    oscValue ⟨t, dt, .triangle⟩ pw = F32.one.sub ((F32.ofNat 4).mul (t.sub (F32.dec 1 2)).abs) ∧
    oscValue ⟨t, dt, .pulse⟩ pw =
      ((if t.lt pw then F32.one else F32.one.neg).add (pb t dt)).sub (pb (t.add (F32.one.sub pw)).frac dt) ∧
    pb t F32.zero = F32.zero ∧
    oscValue ⟨t, dt, .pulse⟩ (F32.dec 1 2) = oscValue ⟨t, dt, .square⟩ pw) ∧
  (∀ t : F32, t.inUnitOpen = true → t ≠ F32.zero.neg → (t.add F32.zero).frac = t)

/-! The modal resonator (`41_modal_resonator.md`). -/

/-- `MR.SETPARAMS` and `V.SETRINGS` (R202, R203), the latter at the voice's own frequency: the six registers, and of every mode
the frequency by the law of R201 with its Bell ratios, decay, brightness and the coefficients of R204; the taps and `EXC` stay. -/
def Obligations.ResonatorSetCommands : Prop :=
  let law (m : Nat) (f st : F32) (i : Nat) : F32 :=
    let h := F32.ofNat (i + 1)
    if m = 0 then (f.mul h).mul (F32.one.add ((st.mul (F32.dec 2 100)).mul (h.mul h)))
    else if m = 1 then (f.mul h.sqrt).mul (F32.one.add st)
    else if m = 2 then f.mul (((F32.ofNat 2).mul h).sub F32.one)
    else
      let bell := [F32.dec 100 100, F32.dec 276 100, F32.dec 540 100, F32.dec 893 100, F32.dec 1334 100, F32.dec 1864 100,
        F32.dec 2480 100, F32.dec 3187 100]
      (f.mul (bell.getD i F32.one)).mul (F32.one.add (st.mul (F32.dec 1 10)))
  let unit (x : F32) : F32 := x.clamp F32.zero F32.one
  let set (s t : State) (v : Fin Config.NV) (model : Nat) (f b d p st : F32) : Prop :=
    let r := (t.voice v).rings
    t = s.updVoice v (fun x => { x with rings := r }) ∧
    (r.freq = f.clamp F32.one (F32.ofNat 20000) ∧ r.bri = unit b ∧ r.damp = unit d ∧ r.pos = unit p ∧
      r.struct = unit st ∧ modelCode r.model = min model 3) ∧
    ∀ i : Fin Config.NMODES,
      let m := (s.voice v).rings.modes[i]
      let n := r.modes[i]
      n.freq = law (min model 3) r.freq r.struct i ∧ n.decay = r.damp.mul (F32.ofNat 2) ∧ n.bri = r.bri ∧
      (let dd := n.decay.max (F32.dec 1 1000)
       let rr := (Num.exp (F32.one.neg.div (dd.mul s.sr))).mul
         (Num.exp ((Config.pi.mul (n.bri.mul (F32.ofNat 100))).neg.div s.sr))
       n.c1 = ((F32.ofNat 2).mul rr).mul (Num.cos ((Config.twoPi.mul n.freq).div s.sr)) ∧ n.c2 = rr.mul rr) ∧
      n.x1 = m.x1 ∧ n.x2 = m.x2 ∧ n.y1 = m.y1 ∧ n.y2 = m.y2 ∧ n.exc = m.exc
  ∀ (s : State) (v : Fin Config.NV) (arg : Byte) (f b d p st : Word), s.ready = true →
    (∃ t, exec (.mrSetparams (vidOf v) arg [f, b, d, p, st]) s = .next t ∧
      set s t v arg.toNat ⟨f⟩ ⟨b⟩ ⟨d⟩ ⟨p⟩ ⟨st⟩) ∧
    (∃ t, exec (.vSetrings (vidOf v) arg [b, d, p, st]) s = .next t ∧
      set s t v arg.toNat (s.voice v).freq ⟨b⟩ ⟨d⟩ ⟨p⟩ ⟨st⟩)

/-- `MR.TRIGGER` (R205): every mode's pending excitation grows by its impulse; it adds, and nothing is cleared (R206). That the
excitation enters the filter at the next `MR.PROC` is said by `Obligations.ResonatorProcCommand`. -/
def Obligations.ResonatorTriggerCommand : Prop :=
  ∀ (s : State) (v : Fin Config.NV) (w : Word), s.ready = true →
    ∃ t, exec (.mrTrigger (vidOf v) 0 [w]) s = .next t ∧
      t = s.updVoice v (fun x => { x with rings := { x.rings with modes := (t.voice v).rings.modes } }) ∧
      ∀ i : Fin Config.NMODES,
        let m := (s.voice v).rings.modes[i]
        let h := F32.ofNat (i + 1)
        let vel := (F32.mk w).clamp F32.zero F32.one
        (t.voice v).rings.modes[i] =
          { m with exc := m.exc.add ((vel.mul (Num.sin ((h.mul Config.pi).mul (s.voice v).rings.pos))).div h) }

/-- `MR.PROC` (R207): every mode takes its excitation and the input and moves its taps; the pushed word is 0.3 times the sum of the
modes' outputs. A resonator at rest (taps and excitation +0, finite coefficients) stays at rest and pushes +0 for an input of
+0 (R208 (d)). -/
def Obligations.ResonatorProcCommand : Prop :=
  ∀ (s : State) (v : Fin Config.NV) (w : Word), s.ready = true →
    let x := (F32.mk w).san
    let y (m : Mode) : F32 :=
      (((F32.dec 1 2).mul ((x.add m.exc).sub m.x2)).add (m.c1.mul m.y1)).sub (m.c2.mul m.y2)
    ∃ t, exec (.mrProc (vidOf v) 0 [w]) s = .next t ∧
      t = (s.updVoice v (fun x => { x with rings := { x.rings with modes := (t.voice v).rings.modes } })).push
        ((((s.voice v).rings.modes.toList.map y).foldl F32.add F32.zero).mul (F32.dec 3 10)).bits ∧
      (∀ i : Fin Config.NMODES,
        let m := (s.voice v).rings.modes[i]
        (t.voice v).rings.modes[i] =
          { m with exc := F32.zero, x2 := m.x1, x1 := x.add m.exc, y2 := m.y1, y1 := y m }) ∧
      (w = 0 →
        (∀ i : Fin Config.NMODES,
          let m := (s.voice v).rings.modes[i]
          m.c1.isFinite = true ∧ m.c2.isFinite = true ∧ m.x1 = F32.zero ∧ m.x2 = F32.zero ∧ m.y1 = F32.zero ∧
            m.y2 = F32.zero ∧ m.exc = F32.zero) →
        t = s.push 0)

/-! The granular engine (`42_granular_engine.md`). -/

/-- `GR.WRITE` (R223): one word of each buffer at the write cursor, the cursor on by one modulo `BUFLEN`; nothing at all while
freeze is on. Every other word of both buffers reads as before. Memories in canonical form (the model's choice, log entry 12). -/
def Obligations.GranularWriteCommand : Prop :=
  ∀ (s : State) (v : Fin Config.NV) (l r : Word), s.ready = true → s.memOk →
    ∃ t, exec (.grWrite (vidOf v) 0 [l, r]) s = .next t ∧
      t = s.updVoice v (fun x => { x with
        clouds := { x.clouds with
          bufL := (t.voice v).clouds.bufL, bufR := (t.voice v).clouds.bufR, wc := (t.voice v).clouds.wc } }) ∧
      ((s.voice v).clouds.freeze = true → t = s) ∧
      ((s.voice v).clouds.freeze = false →
        (t.voice v).clouds.wc = ((s.voice v).clouds.wc + 1) % s.bufLen ∧
        ∀ a,
          (t.voice v).clouds.bufL.read a =
            (if a = (s.voice v).clouds.wc.toNat then (F32.mk l).san.bits else (s.voice v).clouds.bufL.read a) ∧
          (t.voice v).clouds.bufR.read a =
            (if a = (s.voice v).clouds.wc.toNat then (F32.mk r).san.bits else (s.voice v).clouds.bufR.read a))

/-- `GR.PROC` (R225 to R232, R234): the spawn decision takes one draw, a spawn three more and the first free slot; every active
grain, the spawned one among them, is read at its position with linear interpolation (R228, R229), the index wrapped
modulo `BUFLEN` (`20_memory.md` R106; for a position that is not finite this is the model's choice, log entry 29), windowed and panned
(R230), summed and advanced; the sums are scaled by 1/sqrt of their number. Buffers, cursor and parameters stay; a full pool drops the
spawn (R233), and at density +0 nothing is ever spawned (R226). -/
def Obligations.GranularProcCommand : Prop :=
  ∀ (s : State) (v : Fin Config.NV), s.ready = true →
    let c := (s.voice v).clouds
    let draw (k : Nat) : F32 := randStream (s.rngIdx + BitVec.ofNat 32 k)
    let spread (j : F32) : F32 := (j.mul (F32.ofNat 2)).sub F32.one
    let spawns : Prop := (draw 0).lt ((c.dens.mul (F32.ofNat 200)).div s.sr) = true
    let fresh : Grain :=
      { active := true
        pos := ((spread (draw 1)).mul c.tex).mul (F32.dec 25 100)
        phase := F32.zero
        dur := ((F32.dec 1 100).add (c.size.mul (F32.dec 1 2))).mul s.sr
        ratio := Num.exp2 ((c.pitch.add (((spread (draw 2)).mul c.tex).mul (F32.dec 1 2))).div (F32.ofNat 12))
        pan := (F32.dec 1 2).add (((draw 3).sub (F32.dec 1 2)).mul c.tex)
        amp := F32.one }
    let firstFree (g : Fin Config.NG) : Prop := c.grains[g].active = false ∧ ∀ k < g, c.grains[k].active = true
    ∃ (t : State) (now : Vector Grain Config.NG),
      exec (.grProc (vidOf v) 0 []) s = .next t ∧
      (∀ g : Fin Config.NG,
        (spawns ∧ firstFree g → now[g] = fresh) ∧ (¬(spawns ∧ firstFree g) → now[g] = c.grains[g])) ∧
      (spawns ∧ (∃ g, firstFree g) → t.rngIdx = s.rngIdx + 4) ∧
      (¬(spawns ∧ ∃ g, firstFree g) → t.rngIdx = s.rngIdx + 1) ∧
      (c.dens = F32.zero → F32.zero.lt s.sr = true → ¬spawns) ∧
      (∀ g : Fin Config.NG,
        let p := now[g].phase.add (F32.one.div now[g].dur)
        (t.voice v).clouds.grains[g] =
          if now[g].active then { now[g] with phase := p, active := !F32.one.le p } else now[g]) ∧
      (let heard := now.toList.filter fun g => g.active
       let norm (acc : F32) : F32 :=
        if heard.length = 0 then F32.zero else acc.mul (F32.one.div (F32.ofNat heard.length).sqrt)
       let n := s.bufLen.toNat
       let read (m : Mem) (g : Grain) : F32 :=
        let q := ((c.pos.add g.pos).add (((g.phase.mul g.dur).mul g.ratio).div (F32.ofNat n))).frac
        let p := q.mul (F32.ofNat n)
        let i0 := p.toInt % n
        let x : F32 := ⟨m.read i0⟩
        let y : F32 := ⟨m.read ((i0 + 1) % n)⟩
        x.add ((p.sub (F32.ofNat p.toInt)).mul (y.sub x))
       let amp (g : Grain) : F32 :=
        ((F32.dec 1 2).mul (F32.one.sub (Num.cos (Config.twoPi.mul g.phase)))).mul g.amp
       let left (g : Grain) : F32 := ((read c.bufL g).mul (amp g)).mul (Num.cos (g.pan.mul Config.halfPi))
       let right (g : Grain) : F32 := ((read c.bufR g).mul (amp g)).mul (Num.sin (g.pan.mul Config.halfPi))
       t.rsp = s.rsp ++
        [(norm ((heard.map left).foldl F32.add F32.zero)).bits,
          (norm ((heard.map right).foldl F32.add F32.zero)).bits]) ∧
      t = { s with
        voices := s.voices.set v { s.voice v with clouds := { c with grains := (t.voice v).clouds.grains } }
        rngIdx := t.rngIdx
        rsp := t.rsp }

/-- While freeze is on, no command but `PREPARE` changes a word of the granular buffers or the write cursor (R224). -/
def Obligations.FreezeKeepsBuffers : Prop :=
  ∀ (i : Instr) (s t : State) (v : Fin Config.NV),
    exec i s = .next t → (∀ vid arg ops, i ≠ .prepare vid arg ops) → (s.voice v).clouds.freeze = true →
      (t.voice v).clouds.bufL = (s.voice v).clouds.bufL ∧ (t.voice v).clouds.bufR = (s.voice v).clouds.bufR ∧
        (t.voice v).clouds.wc = (s.voice v).clouds.wc

/-! Karplus-Strong (`43_karplus_strong.md`). -/

/-- `KS.SETFREQ` (R251, R252): the length law, the whole memory +0, cursor and previous sample 0; after it `KS.GET` pushes +0 and
leaves the line silent, for memories in canonical form (the model's choice, log entry 12). -/
def Obligations.KarplusSetfreqCommand : Prop :=
  ∀ (s : State) (v : Fin Config.NV) (w : Word), s.ready = true →
    ∃ t, exec (.ksSetfreq (vidOf v) 0 [w]) s = .next t ∧
      t = s.updVoice v (fun x => { x with karplus := (t.voice v).karplus }) ∧
      (let k := (t.voice v).karplus
       k.len.toNat = min (max ((s.sr.div ((F32.mk w).clamp F32.one (F32.ofNat 20000))).toInt + 1) 2) 24576 ∧
       k.wc = 0 ∧ k.prev = F32.zero ∧
       ∀ a, k.line.read a = if a < 24576 then 0 else (s.voice v).karplus.line.read a) ∧
      (s.memOk → ∀ n : Nat, n < (t.voice v).karplus.len.toNat →
        ∀ u : State, u = t.updVoice v (fun x => { x with
            karplus := { x.karplus with wc := BitVec.ofNat 32 n } }) →
          ∃ u', exec (.ksGet (vidOf v) 0 []) u = .next u' ∧ u'.rsp = t.rsp ++ [0] ∧
            (u'.voice v).karplus.line = (t.voice v).karplus.line ∧ (u'.voice v).karplus.prev = F32.zero)

/-- `KS.TRIGGER` (R254): the words of the line are `KS_LEN` draws, spread over [-1, 1) and scaled by the velocity; length, cursor,
previous sample and every other word stay. Memories in canonical form (the model's choice, log entry 12). -/
def Obligations.KarplusTriggerCommand : Prop :=
  ∀ (s : State) (v : Fin Config.NV) (w : Word), s.ready = true → s.memOk →
    ∃ t, exec (.ksTrigger (vidOf v) 0 [w]) s = .next t ∧
      t = { s.updVoice v (fun x => { x with
          karplus := { x.karplus with line := (t.voice v).karplus.line } }) with
        rngIdx := s.rngIdx + (s.voice v).karplus.len } ∧
      ∀ a, (t.voice v).karplus.line.read a =
        if a < (s.voice v).karplus.len.toNat then
          ((((randStream (s.rngIdx + BitVec.ofNat 32 a)).mul (F32.ofNat 2)).sub F32.one).mul
            ((F32.mk w).clamp F32.zero F32.one)).bits
        else (s.voice v).karplus.line.read a

/-- `KS.GET` (R256): it pushes the word at the cursor and writes back the damped average with the previous sample; every other word
stays. Memories in canonical form (the model's choice, log entry 12). -/
def Obligations.KarplusGetCommand : Prop :=
  ∀ (s : State) (v : Fin Config.NV), s.ready = true → s.memOk →
    let k := (s.voice v).karplus
    let out : F32 := ⟨k.line.read k.wc.toNat⟩
    ∃ t, exec (.ksGet (vidOf v) 0 []) s = .next t ∧
      t = (s.updVoice v (fun x => { x with
        karplus := { x.karplus with
          line := (t.voice v).karplus.line, prev := out, wc := (k.wc + 1) % k.len } })).push out.bits ∧
      ∀ a, (t.voice v).karplus.line.read a =
        if a = k.wc.toNat then (((out.add k.prev).mul (F32.dec 1 2)).mul (F32.dec 995 1000)).bits
        else k.line.read a

/-! The wavetable engine (`44_wavetable_engine.md`). -/

/-- `WT.GET` (R274): one word is pushed, made from the tables by the read of R273, morph, warp and fold; nothing else changes, and it
needs no `PREPARE`. The tables are written out: the partials of R271, as many as R272 counts. -/
def Obligations.WavetableGetCommand : Prop :=
  let sample (t n : Nat) : F32 :=
    let tp := (F32.ofNat t).div (F32.ofNat 31)
    let x := (F32.ofNat n).div (F32.ofNat 2048)
    let part (h : Nat) : F32 :=
      let hf := F32.ofNat h
      let mul := hf.mul (F32.one.add ((tp.mul (F32.dec 1 10)).mul hf))
      (Num.sin ((Config.twoPi.mul x).mul mul)).div hf
    let nh := 1 + 16 * t / 31
    (((List.range nh).map fun k => part (k + 1)).foldl F32.add F32.zero).div (F32.ofNat nh)
  let read (t : Fin Config.NTABLES) (ph : F32) : F32 :=
    let p := ph.mul (F32.ofNat 2048)
    let i0 := p.toInt % 2048
    let a := sample t i0
    let b := sample t ((i0 + 1) % 2048)
    a.add ((p.sub (F32.ofNat p.toInt)).mul (b.sub a))
  let table (w : Word) : Fin Config.NTABLES := ⟨min w.toNat 31, by simp only [Config.NTABLES]; omega⟩
  ∀ (s : State) (phase ta tb morph warp fold : Word),
    exec (.wtGet 0 0 [phase, ta, tb, morph, warp, fold]) s = .next (s.push (
      let ph := (F32.mk phase).san.frac
      let m := (F32.mk morph).clamp F32.zero F32.one
      let w := (F32.mk warp).clamp F32.one.neg F32.one
      let fo := (F32.mk fold).clamp F32.zero F32.one
      let a := read (table ta) ph
      let b := read (table tb) ph
      let y := if w.eqv F32.zero then a.add (m.mul (b.sub a))
        else read (table ta) (ph.add (w.mul (Num.sin (Config.twoPi.mul ph)))).frac
      (if F32.zero.lt fo then Num.sin (y.mul (F32.one.add (fo.mul (F32.ofNat 8)))) else y).bits))

/-- Warp discards morph (R275): with a warp that is not zero, `WT.GET` pushes the same word whatever table B and the morph are. -/
def Obligations.WarpDiscardsMorph : Prop :=
  ∀ (s : State) (phase ta tb tb' morph morph' warp fold : Word),
    (F32.mk warp).eqv F32.zero = false →
      ∃ t, exec (.wtGet 0 0 [phase, ta, tb, morph, warp, fold]) s = .next t ∧
        exec (.wtGet 0 0 [phase, ta, tb', morph', warp, fold]) s = .next t

/-- The round trip of R278: every table word is finite, and at phase 0.25 with both tables the same, no warp and no fold, `WT.GET`
pushes the table's sample 512, whatever the morph is: the same word, or +0 for a sample of -0. -/
def Obligations.WavetableRoundTrip : Prop :=
  (∀ (t : Fin Config.NTABLES) (n : Nat), n < 2048 → (F32.mk (wtWord (2048 * t + n))).isFinite = true) ∧
  ∀ (s : State) (k : Fin Config.NTABLES) (morph : Word),
    ∃ w, exec (.wtGet 0 0 [0x3E800000, BitVec.ofNat 32 k, BitVec.ofNat 32 k, morph, 0, 0]) s = .next (s.push w) ∧
      (w = wtWord (2048 * k + 512) ∨ (wtWord (2048 * k + 512) = 0x80000000 ∧ w = 0))

/-! Envelopes and filter (`45_envelope_and_filter.md`). -/

/-- `ENV.SETPARAMS`, `ENV.NOTEON`, `ENV.NOTEOFF`, `ENV.NEXT` on envelope `e` and `V.SETENV` on both (R291 to R295): what each
writes, the level that `ENV.NEXT` pushes, and nothing else. -/
def Obligations.EnvelopeCommands : Prop :=
  let time (w : Word) : F32 := (F32.mk w).clamp (F32.dec 1 1000) (F32.ofNat 10)
  let unit (w : Word) : F32 := (F32.mk w).clamp F32.zero F32.one
  let next (sr : F32) (e : Env) : Env :=
    match e.stage with
    | .idle => { e with level := F32.zero }
    | .attack =>
      let l := e.level.add (F32.one.div (e.a.mul sr))
      if F32.one.le l then { e with level := F32.one, stage := .decay } else { e with level := l }
    | .decay =>
      let l := e.level.sub ((F32.one.sub e.s).div (e.d.mul sr))
      if l.le e.s then { e with level := e.s, stage := .sustain } else { e with level := l }
    | .sustain => { e with level := e.s }
    | .release =>
      let l := e.level.sub e.relRate
      if l.le F32.zero then { e with level := F32.zero, stage := .idle } else { e with level := l }
  ∀ (s : State) (v : Fin Config.NV) (k : Bool), s.ready = true →
    let put (x : Voice Config.std) (e : Env) : Voice Config.std := if k then { x with envf := e } else { x with enva := e }
    let get (x : Voice Config.std) : Env := if k then x.envf else x.enva
    let arg : Byte := if k then 1 else 0
    (∀ a d u r : Word, exec (.envSetparams (vidOf v) arg [a, d, u, r]) s =
      .next (s.updVoice v fun x => put x { get x with a := time a, d := time d, s := unit u, r := time r })) ∧
    exec (.envNoteon (vidOf v) arg []) s = .next (s.updVoice v fun x => put x { get x with stage := .attack }) ∧
    exec (.envNoteoff (vidOf v) arg []) s =
      .next (s.updVoice v fun x =>
        if (get x).stage = .idle ∨ (get x).stage = .release then x
        else put x { get x with relRate := (get x).level.div ((get x).r.mul s.sr), stage := .release }) ∧
    exec (.envNext (vidOf v) arg []) s =
      .next ((s.updVoice v fun x => put x (next s.sr (get x))).push (next s.sr (get (s.voice v))).level.bits) ∧
    ∀ a d u r a' d' u' r' : Word, exec (.vSetenv (vidOf v) 0 [a, d, u, r, a', d', u', r']) s =
      .next (s.updVoice v fun x => { x with
        enva := { x.enva with a := time a, d := time d, s := unit u, r := time r }
        envf := { x.envf with a := time a', d := time d', s := unit u', r := time r' } })

/-- `V.SETFILT`, `FLT.PROC`, `FLT.RESET` (R300 to R304): the parameters; the two filtered words and the four integrators, by the
equations of R301 and R302 with the unmodulated cutoff; the integrators at +0. -/
def Obligations.FilterCommands : Prop :=
  ∀ (s : State) (v : Fin Config.NV), s.ready = true →
    (∀ (arg : Byte) (c q e : Word), exec (.vSetfilt (vidOf v) arg [c, q, e]) s =
      .next (s.updVoice v fun x => { x with
        flt := { x.flt with
          type := if arg.toNat = 0 then .lowpass else if arg.toNat = 1 then .bandpass else .highpass
          cutoff := (F32.mk c).clamp (F32.ofNat 20) (F32.ofNat 20000)
          q := (F32.mk q).clamp (F32.dec 1 10) (F32.ofNat 10)
          envAmt := (F32.mk e).clamp F32.one.neg F32.one } })) ∧
    (∀ l r : Word,
      let f := (s.voice v).flt
      let fcl := f.cutoff.clamp (F32.ofNat 20) ((F32.ofNat 20000).min ((F32.dec 49 100).mul s.sr))
      let g := Num.tan ((Config.pi.mul fcl).div s.sr)
      let r2 := F32.one.div f.q
      let h := F32.one.div ((F32.one.add (r2.mul g)).add (g.mul g))
      let hp (x s1 s2 : F32) : F32 := h.mul ((x.sub (s1.mul (g.add r2))).sub s2)
      let bp (x s1 s2 : F32) : F32 := ((hp x s1 s2).mul g).add s1
      let lp (x s1 s2 : F32) : F32 := ((bp x s1 s2).mul g).add s2
      let y (x s1 s2 : F32) : F32 :=
        match f.type with
        | .lowpass => lp x s1 s2
        | .bandpass => bp x s1 s2
        | .highpass => hp x s1 s2
      let xl := (F32.mk l).san
      let xr := (F32.mk r).san
      exec (.fltProc (vidOf v) 0 [l, r]) s =
        .next (((s.updVoice v fun x => { x with
          flt := { x.flt with
            s1l := ((hp xl f.s1l f.s2l).mul g).add (bp xl f.s1l f.s2l)
            s2l := ((bp xl f.s1l f.s2l).mul g).add (lp xl f.s1l f.s2l)
            s1r := ((hp xr f.s1r f.s2r).mul g).add (bp xr f.s1r f.s2r)
            s2r := ((bp xr f.s1r f.s2r).mul g).add (lp xr f.s1r f.s2r) } }).push
              (y xl f.s1l f.s2l).bits).push (y xr f.s1r f.s2r).bits)) ∧
    exec (.fltReset (vidOf v) 0 []) s =
      .next (s.updVoice v fun x => { x with
        flt := { x.flt with s1l := F32.zero, s2l := F32.zero, s1r := F32.zero, s2r := F32.zero } })

/-! Voices (`46_voice.md`). -/

/-- The group setters `V.SETMODE` (R321), `V.SETMIX` (R322), `V.SETOSC` (R186), `V.SETWT` (R276) and `V.SETCLOUDS` (R221): each
writes its shadow registers, clamped, and nothing else; `V.SETOSC` also retunes both oscillators. -/
def Obligations.GroupSetterCommands : Prop :=
  let unit (w : Word) : F32 := (F32.mk w).clamp F32.zero F32.one
  ∀ (s : State) (v : Fin Config.NV), s.ready = true →
    (∀ arg : Byte, ∃ m, modeCode m = min arg.toNat 8 ∧
      exec (.vSetmode (vidOf v) arg []) s = .next (s.updVoice v fun x => { x with mode := m })) ∧
    (∀ a b c d e : Word, exec (.vSetmix (vidOf v) 0 [a, b, c, d, e]) s =
      .next (s.updVoice v fun x => { x with
        mix := { rings := unit a, clouds := unit b, karplus := unit c, wt := unit d, osc := unit e } })) ∧
    (∀ (n0 n1 : Fin 16) (d m p : Word), ∃ w0 w1, waveCode w0 = min n0.val 4 ∧ waveCode w1 = min n1.val 4 ∧
      exec (.vSetosc (vidOf v) (BitVec.ofNat 8 (16 * n1 + n0)) [d, m, p]) s =
        .next (s.updVoice v fun x =>
          let det := (F32.mk d).clamp (F32.ofNat 24).neg (F32.ofNat 24)
          let half := F32.dec 1 2
          { x with
            oscs := {
              osc0 := { x.oscs.osc0 with wave := w0, inc := (x.freq.div s.sr).clamp F32.zero half }
              osc1 := { x.oscs.osc1 with
                wave := w1
                inc := ((x.freq.mul (Num.exp2 (det.div (F32.ofNat 12)))).div s.sr).clamp F32.zero half }
              detune := det
              mix := unit m
              pw := (F32.mk p).clamp (F32.dec 5 100) (F32.dec 95 100) } })) ∧
    (∀ a b m w f : Word, ∃ ta tb : Fin Config.NTABLES, ta.val = min a.toNat 31 ∧ tb.val = min b.toNat 31 ∧
      exec (.vSetwt (vidOf v) 0 [a, b, m, w, f]) s =
        .next (s.updVoice v fun x => { x with
          wt := { x.wt with
            a := ta, b := tb, morph := unit m, warp := (F32.mk w).clamp F32.one.neg F32.one, fold := unit f } })) ∧
    (∀ (arg : Byte) (p z d q t : Word), exec (.vSetclouds (vidOf v) arg [p, z, d, q, t]) s =
      .next (s.updVoice v fun x => { x with
        clouds := { x.clouds with
          freeze := decide (arg ≠ 0)
          pos := unit p, size := unit z, dens := unit d
          pitch := (F32.mk q).clamp (F32.ofNat 12).neg (F32.ofNat 12)
          tex := unit t } }))

/-- `V.START` and `NOTEON` (R325, `47_voice_pool_and_system.md` R369): exactly one voice is started, on the note clamped to 127,
with everything R325 sets at the note's frequency (R323), and `KS_LEN` draws taken; for `NOTEON` it is the voice that
`AllocationOrder` speaks of. -/
def Obligations.StartCommands : Prop :=
  ∀ (s : State) (v : Fin Config.NV) (arg : Byte) (w : Word), s.ready = true →
    (∃ t, exec (.vStart (vidOf v) arg [w]) s = .next t ∧ startedVoice s t v (min arg.toNat 127) ⟨w⟩) ∧
    (∃ t, exec (.noteon 0 arg [w]) s = .next t ∧
      startedVoice s t (s.allocate (min arg.toNat 127)) (min arg.toNat 127) ⟨w⟩)

/-- Which voice `NOTEON` takes (R369): the lowest that holds the note and is not fading out; else the lowest that is free; else the
oldest that is releasing or fading out; else the oldest. The oldest has the smallest `AGE`, ties to the lowest number. -/
def Obligations.AllocationOrder : Prop :=
  ∀ (s : State) (n : Nat),
    let t := s.allocate n
    let holds (v : Fin Config.NV) : Prop :=
      (s.voice v).active = true ∧ (s.voice v).note = BitVec.ofNat 32 n ∧ (s.voice v).fading = false
    let free (v : Fin Config.NV) : Prop := (s.voice v).active = false
    let ending (v : Fin Config.NV) : Prop :=
      (s.voice v).active = true ∧ ((s.voice v).fading = true ∨ (s.voice v).enva.stage = .release)
    let older (v w : Fin Config.NV) : Prop :=
      (s.voice v).age.toNat < (s.voice w).age.toNat ∨ ((s.voice v).age = (s.voice w).age ∧ v ≤ w)
    ((∃ v, holds v) → holds t ∧ ∀ v, holds v → t ≤ v) ∧
    ((¬∃ v, holds v) → (∃ v, free v) → free t ∧ ∀ v, free v → t ≤ v) ∧
    ((¬∃ v, holds v) → (¬∃ v, free v) → (∃ v, ending v) → ending t ∧ ∀ v, ending v → older t v) ∧
    ((¬∃ v, holds v) → (¬∃ v, free v) → (¬∃ v, ending v) → ∀ v, older t v)

/-- `V.STOP` with and without tail-off and `NOTEOFF` (R330, R331, R370): an active voice releases both envelopes, or begins its
fade-out unless it is fading already; `NOTEOFF` releases every voice that holds the note and is not fading out. -/
def Obligations.StopCommands : Prop :=
  let off (sr : F32) (e : Env) : Env :=
    if e.stage = .idle ∨ e.stage = .release then e
    else { e with relRate := e.level.div (e.r.mul sr), stage := .release }
  ∀ (s : State) (v : Fin Config.NV), s.ready = true →
    exec (.vStop (vidOf v) 1 []) s =
      .next (s.updVoice v fun x =>
        if x.active then { x with enva := off s.sr x.enva, envf := off s.sr x.envf } else x) ∧
    exec (.vStop (vidOf v) 0 []) s =
      .next (s.updVoice v fun x =>
        if x.active = true ∧ x.fading = false then { x with fading := true, fadeoutCnt := 0 } else x) ∧
    ∀ arg : Byte, exec (.noteoff 0 arg []) s =
      .next (s.updVoices fun x =>
        if x.active = true ∧ x.note = BitVec.ofNat 32 (min arg.toNat 127) ∧ x.fading = false then
          { x with enva := off s.sr x.enva, envf := off s.sr x.envf }
        else x)

/-- `V.RENDER` (R335): nothing for an inactive voice, else frame after frame from frame 0: the engines, the envelopes, the filter
at the modulated cutoff and its guard, the fades, the gain, the accumulation into both channels, the end tests. -/
def Obligations.VoiceRenderCommand : Prop :=
  let frame (s : State) (v : Fin Config.NV) (f : Nat) : State :=
    let x := s.voice v
    let e := engineSample s.sr s.bufLen s.rngIdx x
    let a := envNext s.sr x.enva
    let ef := envNext s.sr x.envf
    let fc := (x.flt.cutoff.mul (F32.one.add ((ef.level.mul x.flt.envAmt).mul (F32.ofNat 10)))).clamp
      (F32.ofNat 20) (F32.ofNat 20000)
    let p := filtProc s.sr e.left.san e.right.san fc x.flt
    let gi := if x.fadeinCnt < s.fadeIn then (F32.ofNat x.fadeinCnt.toNat).div (F32.ofNat s.fadeIn.toNat) else F32.one
    let go := if x.fading then
        (F32.ofNat (s.fadeOut - (x.fadeoutCnt + 1)).toNat).div (F32.ofNat s.fadeOut.toNat)
      else F32.one
    let g := (((a.level.mul x.vel).mul gi).mul go).mul (F32.dec 25 100)
    let guarded :=
      if p.filt.s1l.isFinite && p.filt.s2l.isFinite && p.filt.s1r.isFinite && p.filt.s2r.isFinite then p.filt
      else { p.filt with s1l := F32.zero, s2l := F32.zero, s1r := F32.zero, s2r := F32.zero }
    { s with
      voices := s.voices.set v { e.voice with
        enva := a
        envf := ef
        flt := guarded
        fadeinCnt := if x.fadeinCnt < s.fadeIn then x.fadeinCnt + 1 else x.fadeinCnt
        fadeoutCnt := if x.fading then x.fadeoutCnt + 1 else x.fadeoutCnt }
      rngIdx := e.rng
      outL := s.outL.write f ((F32.mk (s.outL.read f)).add (p.left.san.mul g)).bits
      outR := s.outR.write f ((F32.mk (s.outR.read f)).add (p.right.san.mul g)).bits }
  let ended (t : State) (v : Fin Config.NV) : Prop :=
    ((t.voice v).fading = true ∧ t.fadeOut.toNat ≤ (t.voice v).fadeoutCnt.toNat) ∨ (t.voice v).enva.stage = .idle
  let cleared (t : State) (v : Fin Config.NV) : State :=
    t.updVoice v fun x => { x with
      active := false, fading := false, fadeoutCnt := 0, note := 255
      enva := { x.enva with stage := .idle, level := F32.zero }
      envf := { x.envf with stage := .idle, level := F32.zero } }
  ∃ loop : Fin Config.NV → Nat → Nat → State → State,
    (∀ v f s, loop v 0 f s = s) ∧
    (∀ v n f s, (ended (frame s v f) v → loop v (n + 1) f s = cleared (frame s v f) v) ∧
      (¬ended (frame s v f) v → loop v (n + 1) f s = loop v n (f + 1) (frame s v f))) ∧
    ∀ (s : State) (v : Fin Config.NV) (n : Word), s.ready = true → n.toNat ≤ s.maxBlock.toNat →
      s.hostInOut n.toNat = false →
        exec (.vRender (vidOf v) 0 [n]) s = .next (if (s.voice v).active then loop v n.toNat 0 s else s)

/-- What a render command leaves alone (R335, R344, R345, `20_memory.md` R101): every frame from `n` on; for `V.RENDER` every other
voice, for `RENDER` every inactive one; of every voice its note frequency, velocity, age, mode, mix and delay-line length, and every
shadow register of its resonator, granular engine, wavetable, oscillators (their increments too), envelopes and filter
(`10_state.md` R48 to R52); and the cells. Memories in canonical form (the model's choice, log entry 12). -/
def Obligations.RenderFrame : Prop :=
  ∀ (s t : State) (v : Fin Config.NV) (n : Word), s.memOk →
    (exec (.vRender (vidOf v) 0 [n]) s = .next t ∨ exec (.render 0 0 [n]) s = .next t) →
      (∀ a, n.toNat ≤ a → t.outL.read a = s.outL.read a ∧ t.outR.read a = s.outR.read a) ∧
      t.params = s.params ∧ t.rsp = s.rsp ∧ t.noteSeq = s.noteSeq ∧ t.sr = s.sr ∧
      (∀ w, (s.voice w).active = false → t.voice w = s.voice w) ∧
      (exec (.vRender (vidOf v) 0 [n]) s = .next t → ∀ w, w ≠ v → t.voice w = s.voice w) ∧
      ∀ w,
        let x := s.voice w
        let y := t.voice w
        (y.freq = x.freq ∧ y.vel = x.vel ∧ y.age = x.age ∧ y.mode = x.mode ∧ y.mix = x.mix ∧
          y.karplus.len = x.karplus.len) ∧
        (y.rings.freq = x.rings.freq ∧ y.rings.bri = x.rings.bri ∧ y.rings.damp = x.rings.damp ∧
          y.rings.pos = x.rings.pos ∧ y.rings.struct = x.rings.struct ∧ y.rings.model = x.rings.model) ∧
        (y.clouds.pos = x.clouds.pos ∧ y.clouds.size = x.clouds.size ∧ y.clouds.dens = x.clouds.dens ∧
          y.clouds.pitch = x.clouds.pitch ∧ y.clouds.tex = x.clouds.tex ∧ y.clouds.freeze = x.clouds.freeze) ∧
        (y.wt.a = x.wt.a ∧ y.wt.b = x.wt.b ∧ y.wt.morph = x.wt.morph ∧ y.wt.warp = x.wt.warp ∧
          y.wt.fold = x.wt.fold) ∧
        (y.oscs.osc0.inc = x.oscs.osc0.inc ∧ y.oscs.osc0.wave = x.oscs.osc0.wave ∧ y.oscs.osc1.inc = x.oscs.osc1.inc ∧
          y.oscs.osc1.wave = x.oscs.osc1.wave ∧ y.oscs.detune = x.oscs.detune ∧ y.oscs.mix = x.oscs.mix ∧
          y.oscs.pw = x.oscs.pw) ∧
        (y.enva.a = x.enva.a ∧ y.enva.d = x.enva.d ∧ y.enva.s = x.enva.s ∧ y.enva.r = x.enva.r) ∧
        (y.envf.a = x.envf.a ∧ y.envf.d = x.envf.d ∧ y.envf.s = x.envf.s ∧ y.envf.r = x.envf.r) ∧
        y.flt.cutoff = x.flt.cutoff ∧ y.flt.q = x.flt.q ∧ y.flt.envAmt = x.flt.envAmt ∧ y.flt.type = x.flt.type

/-- `RENDER` (R368, R372 (d)): the voices render their whole blocks one after another, in ascending order; with no active voice
nothing changes, and with exactly one the command is that voice's `V.RENDER`. -/
def Obligations.RenderCommand : Prop :=
  ∀ (s : State) (n : Word), s.ready = true → n.toNat ≤ s.maxBlock.toNat → s.hostInOut n.toNat = false →
    (exec (.render 0 0 [n]) s =
      .next ([(0 : Fin Config.NV), 1, 2, 3, 4, 5, 6, 7].foldl (fun t v => t.renderVoice v n.toNat) s)) ∧
    ((∀ v, (s.voice v).active = false) → exec (.render 0 0 [n]) s = .next s) ∧
    (∀ v, (s.voice v).active = true → (∀ w, w ≠ v → (s.voice w).active = false) →
      exec (.render 0 0 [n]) s = exec (.vRender (vidOf v) 0 [n]) s)

/-- A fade-out ends the voice (R331, R341, R345): a voice that is fading out and still has `k` frames to go is inactive, and holds
no note, after a render of `k` frames or more, and adds nothing to the frames from number `k` on. Memories in canonical form (the
model's choice, log entry 12). -/
def Obligations.FadeOutEndsTheVoice : Prop :=
  ∀ (s : State) (v : Fin Config.NV) (n : Word),
    s.ready = true → n.toNat ≤ s.maxBlock.toNat → s.hostInOut n.toNat = false → s.memOk →
    (s.voice v).active = true → (s.voice v).fading = true →
    (s.voice v).fadeoutCnt.toNat < s.fadeOut.toNat →
    s.fadeOut.toNat - (s.voice v).fadeoutCnt.toNat ≤ n.toNat →
      ∃ t, exec (.vRender (vidOf v) 0 [n]) s = .next t ∧
        (t.voice v).active = false ∧ (t.voice v).fading = false ∧ (t.voice v).note = 255 ∧
        ∀ a, s.fadeOut.toNat - (s.voice v).fadeoutCnt.toNat ≤ a →
          t.outL.read a = s.outL.read a ∧ t.outR.read a = s.outR.read a

/-- The gains (R340, R341, R342): the fade-in gain and the fade-out gain lie in [0, 1], and the gain of a frame in [0, 0.25]. -/
def Obligations.FrameGainInRange : Prop :=
  ∀ (fin fout : Word) (x : Voice Config.std) (a : F32),
    voiceLifeOk fin fout x = true → x.vel.inUnit = true → a.inUnit = true →
      (fadeInGain fin x).inUnit = true ∧ (fadeOutGain fout x).inUnit = true ∧
      F32.between F32.zero (F32.dec 25 100)
        (frameGain a x.vel (fadeInGain fin x) (fadeOutGain fout x)) = true

/-- The nine graphs (R336, R337): only the engines that the graph of the mode names advance, and only the granular engine draws
(R351), one draw or four. An engine that is named advances as its command does, and the graph's samples are made from the words
those commands push: `r` from `MR.PROC` of +0, `k` from `KS.GET`, `w` from `WT.GET` at `WTPHASE`, which then moves on by `FREQ / SR`
(R277), `o` from `OSC.NEXT` of both oscillators (R187), `cl` and `cr` from `GR.WRITE` of the mono source `m` and `GR.PROC`. -/
def Obligations.OnlyNamedEnginesAdvance : Prop :=
  (∀ (sr : F32) (bufLen rng : Word) (x : Voice Config.std),
    let e := engineSample sr bufLen rng x
    let m := modeCode x.mode
    e.voice = { x with
      rings := e.voice.rings, karplus := e.voice.karplus, wt := e.voice.wt, oscs := e.voice.oscs,
      clouds := e.voice.clouds } ∧
    (m = 1 ∨ m = 2 ∨ m = 5 ∨ m = 7 → e.voice.rings = x.rings) ∧
    (m ≠ 2 ∧ m ≠ 4 ∧ m ≠ 8 → e.voice.karplus = x.karplus) ∧
    (m ≠ 1 ∧ m ≠ 4 ∧ m ≠ 8 → e.voice.wt = x.wt) ∧
    (m < 5 → e.voice.oscs = x.oscs) ∧
    (m = 0 ∨ m = 2 ∨ m = 5 ∨ m = 6 → e.voice.clouds = x.clouds ∧ e.rng = rng ∧ e.left = e.right) ∧
    (m = 1 ∨ m = 3 ∨ m = 4 ∨ m = 7 ∨ m = 8 → e.rng = rng + 1 ∨ e.rng = rng + 4)) ∧
  ∀ (s : State) (v : Fin Config.NV), s.ready = true →
    let x := s.voice v
    let half := F32.dec 1 2
    ∃ (sr sk s0 s1 sg sc : State) (r k o0 o1 w cl cr : F32),
      (exec (.mrProc (vidOf v) 0 [0]) s = .next sr ∧ sr.rsp = s.rsp ++ [r.bits]) ∧
      (exec (.ksGet (vidOf v) 0 []) s = .next sk ∧ sk.rsp = s.rsp ++ [k.bits]) ∧
      (exec (.oscNext (vidOf v) 0 []) s = .next s0 ∧ s0.rsp = s.rsp ++ [o0.bits]) ∧
      (exec (.oscNext (vidOf v) 1 []) s0 = .next s1 ∧ s1.rsp = s0.rsp ++ [o1.bits]) ∧
      exec (.wtGet 0 0 [x.wt.phase.bits, BitVec.ofNat 32 x.wt.a, BitVec.ofNat 32 x.wt.b, x.wt.morph.bits, x.wt.warp.bits,
        x.wt.fold.bits]) s = .next (s.push w.bits) ∧
      (let o := o0.add (x.oscs.mix.mul (o1.sub o0))
       let all := ((x.mix.rings.mul r).add (x.mix.karplus.mul k)).add (x.mix.wt.mul w)
       let m : F32 := match x.mode with
        | .clouds => w
        | .ringsIntoClouds => r
        | .hybridAll => all
        | .oscClouds => o
        | .fullHybrid => all.add (x.mix.osc.mul o)
        | .rings | .karplus | .osc | .oscRings => F32.zero
       (exec (.grWrite (vidOf v) 0 [m.bits, m.bits]) s = .next sg) ∧
       (exec (.grProc (vidOf v) 0 []) sg = .next sc ∧ sc.rsp = sg.rsp ++ [cl.bits, cr.bits]) ∧
       (let rings := (sr.voice v).rings
        let karplus := (sk.voice v).karplus
        let oscs := (s1.voice v).oscs
        let wt := { x.wt with phase := (x.wt.phase.add (x.freq.div s.sr)).frac }
        let clouds := (sc.voice v).clouds
        let draws := sc.rngIdx
        engineSample s.sr s.bufLen s.rngIdx x =
          match x.mode with
          | .rings => ⟨{ x with rings := rings }, s.rngIdx, r, r⟩
          | .clouds => ⟨{ x with wt := wt, clouds := clouds }, draws, cl, cr⟩
          | .karplus => ⟨{ x with karplus := karplus }, s.rngIdx, k, k⟩
          | .ringsIntoClouds => ⟨{ x with rings := rings, clouds := clouds }, draws, cl, cr⟩
          | .hybridAll => ⟨{ x with rings := rings, karplus := karplus, wt := wt, clouds := clouds }, draws,
              x.mix.clouds.mul cl, x.mix.clouds.mul cr⟩
          | .osc => ⟨{ x with oscs := oscs }, s.rngIdx, o, o⟩
          | .oscRings => ⟨{ x with oscs := oscs, rings := rings }, s.rngIdx, (half.mul o).add (half.mul r),
              (half.mul o).add (half.mul r)⟩
          | .oscClouds => ⟨{ x with oscs := oscs, clouds := clouds }, draws, (half.mul o).add (half.mul cl),
              (half.mul o).add (half.mul cr)⟩
          | .fullHybrid =>
            ⟨{ x with rings := rings, karplus := karplus, wt := wt, oscs := oscs, clouds := clouds }, draws,
              m.add (x.mix.clouds.mul cl), m.add (x.mix.clouds.mul cr)⟩))

/-! The pool and the system (`47_voice_pool_and_system.md`). -/

/-- `SETGLOBAL` (R366): every voice's shadow registers are set from the cells as read, each by its group's setter; with no host
write in its time it is idempotent. -/
def Obligations.SetglobalCommand : Prop :=
  ∀ s : State, s.ready = true →
    let p (c : Fin Config.NPARAM) : F32 := ⟨s.cellsRead[c]⟩
    let n (c : Fin Config.NPARAM) : Nat := s.cellsRead[c].toNat
    let t := s.updVoices fun x => { x with
      mode := modeOfCode (n 0)
      rings := ringsSet Config.std s.sr x.freq (p 1) (p 2) (p 3) (p 4) (n 5) x.rings
      clouds := cloudsSet (n 11) (p 6) (p 7) (p 8) (p 9) (p 10) x.clouds
      wt := wtSet (n 12) (n 13) (p 14) (p 15) (p 16) x.wt
      mix := mixSet (p 17) (p 18) (p 19) (p 20) (p 21)
      enva := envSet (p 22) (p 23) (p 24) (p 25) x.enva
      envf := envSet (p 26) (p 27) (p 28) (p 29) x.envf
      flt := filtSet (n 33) (p 30) (p 31) (p 32) x.flt
      oscs := oscSet s.sr x.freq (n 34) (n 35) (p 36) (p 37) (p 38) x.oscs }
    exec (.setglobal 0 0 []) s = .next t ∧
      (s.port = [] → s.cellsRead = s.params ∧ exec (.setglobal 0 0 []) t = .next t)

/-- After `PREPARE`, a `SETGLOBAL` with every cell at its default changes nothing at all (R366, example). -/
def Obligations.SetglobalAtDefaultsChangesNothing : Prop :=
  ∀ (s t : State) (w0 w1 : Word), s.params = State.reset.params → s.port = [] →
    exec (.prepare 0 0 [w0, w1]) s = .next t → exec (.setglobal 0 0 []) t = .next t

/-- `NOP` changes nothing (R360), `CLRERR` clears the fault record (R363), `WRPARAM` stores its word as given in its cell (R365);
nothing else changes, and none of them needs `PREPARE`. -/
def Obligations.NopClrerrWrparamCommands : Prop :=
  ∀ s : State,
    exec (.nop 0 0 []) s = .next s ∧
    exec (.clrerr 0 0 []) s = .next { s with err := 0, errInfo := 0, errCnt := 0 } ∧
    ∀ (c : Fin Config.NPARAM) (w : Word),
      exec (.wrparam 0 (BitVec.ofNat 8 c) [w]) s = .next { s with params := s.params.set c w }

/-- `PEEK` (R364): the word it pushes, space by space, for every address below the size of the space, the registers in the order of
their indices (`10_state.md` R32, R42, R45, R46) and the enumerations by their codes (R37 to R41); nothing but the response queue
changes, and it needs no `PREPARE`. -/
def Obligations.PeekCommand : Prop :=
  ∀ (s : State) (v : Fin Config.NV) (a : Nat),
    let peek (vid : Byte) (space : Nat) (w : Word) : Prop :=
      exec (.peek vid (BitVec.ofNat 8 space) [BitVec.ofNat 32 a]) s = .next (s.push w)
    let mode (m : EngineMode) : Word :=
      match m with
      | .rings => 0 | .clouds => 1 | .karplus => 2 | .ringsIntoClouds => 3 | .hybridAll => 4
      | .osc => 5 | .oscRings => 6 | .oscClouds => 7 | .fullHybrid => 8
    let model (m : Model) : Word := match m with | .string => 0 | .membrane => 1 | .tube => 2 | .bell => 3
    let wave (w : Wave) : Word := match w with | .sine => 0 | .saw => 1 | .square => 2 | .triangle => 3 | .pulse => 4
    let type (y : FilterType) : Word := match y with | .lowpass => 0 | .bandpass => 1 | .highpass => 2
    let stage (e : Stage) : Word :=
      match e with | .idle => 0 | .attack => 1 | .decay => 2 | .sustain => 3 | .release => 4
    let x := s.voice v
    (a < 15 → peek 0 0 ([if s.sr = F32.zero then (if s.err = 0 then 0 else 2) else (if s.err = 0 then 1 else 3),
      s.err, s.errInfo, s.errCnt, s.sr.bits, s.maxBlock, s.fadeIn, s.fadeOut, s.bufLen, s.rngIdx, s.noteSeq,
      8, 64, 24576, BitVec.ofNat 32 (s.voices.toList.filter fun x => x.active).length].getD a 0)) ∧
    (∀ c : Fin Config.NPARAM, a = c.val → peek 0 1 s.params[c]) ∧
    (a < 67 → peek (vidOf v) 2 ((
      [if x.active then 1 else 0, if x.fading then 1 else 0, x.note, x.age, x.freq.bits, x.vel.bits, x.fadeinCnt,
        x.fadeoutCnt, x.wt.phase.bits, mode x.mode] ++
      [x.rings.freq.bits, x.rings.bri.bits, x.rings.damp.bits, x.rings.pos.bits, x.rings.struct.bits,
        model x.rings.model] ++
      [x.clouds.pos.bits, x.clouds.size.bits, x.clouds.dens.bits, x.clouds.pitch.bits, x.clouds.tex.bits,
        if x.clouds.freeze then 1 else 0, x.clouds.wc] ++
      [x.karplus.len, x.karplus.wc, x.karplus.prev.bits] ++
      [BitVec.ofNat 32 x.wt.a, BitVec.ofNat 32 x.wt.b, x.wt.morph.bits, x.wt.warp.bits, x.wt.fold.bits] ++
      [x.mix.rings.bits, x.mix.clouds.bits, x.mix.karplus.bits, x.mix.wt.bits, x.mix.osc.bits] ++
      [x.oscs.osc0.phase.bits, x.oscs.osc0.inc.bits, wave x.oscs.osc0.wave, x.oscs.osc1.phase.bits,
        x.oscs.osc1.inc.bits, wave x.oscs.osc1.wave, x.oscs.detune.bits, x.oscs.mix.bits, x.oscs.pw.bits] ++
      [stage x.enva.stage, x.enva.level.bits, x.enva.a.bits, x.enva.d.bits, x.enva.s.bits, x.enva.r.bits,
        x.enva.relRate.bits] ++
      [stage x.envf.stage, x.envf.level.bits, x.envf.a.bits, x.envf.d.bits, x.envf.s.bits, x.envf.r.bits,
        x.envf.relRate.bits] ++
      [x.flt.cutoff.bits, x.flt.q.bits, x.flt.envAmt.bits, type x.flt.type, x.flt.s1l.bits, x.flt.s2l.bits,
        x.flt.s1r.bits, x.flt.s2r.bits]).getD a 0)) ∧
    (∀ (i : Fin Config.NMODES) (k : Fin 16), a = 16 * i.val + k.val →
      let m := x.rings.modes[i]
      peek (vidOf v) 3 (([m.freq, m.decay, m.bri, m.c1, m.c2, m.x1, m.x2, m.y1, m.y2, m.exc].map F32.bits).getD k 0)) ∧
    (∀ (g : Fin Config.NG) (k : Fin 8), a = 8 * g.val + k.val →
      let m := x.clouds.grains[g]
      peek (vidOf v) 4 ([if m.active then 1 else 0, m.pos.bits, m.phase.bits, m.dur.bits, m.ratio.bits, m.pan.bits,
        m.amp.bits].getD k 0)) ∧
    (a < s.bufLen.toNat → peek (vidOf v) 5 (x.clouds.bufL.read a) ∧ peek (vidOf v) 6 (x.clouds.bufR.read a)) ∧
    (a < 24576 → peek (vidOf v) 7 (x.karplus.line.read a)) ∧
    (a < 65536 → peek 0 8 (wtGen (a / 2048) (a % 2048)).bits) ∧
    (a < 8192 → peek 0 9 (s.outL.read a) ∧ peek 0 10 (s.outR.read a))

/-- `PREPARE` (R362): the clamped sample rate and block length, the fade lengths, the buffer length; every voice at its reset
values but for the coefficients of its modes, its delay-line length and its increments; cells, draws, fault record, output and
queues stay. That `NOTE_SEQ` becomes 0 is R362 against the column of `10_state.md` R32 (the model's choice, log entry 27). -/
def Obligations.PrepareCommand : Prop :=
  ∀ (s : State) (w0 w1 : Word),
    ∃ t, exec (.prepare 0 0 [w0, w1]) s = .next t ∧
      (let sr := (F32.mk w0).clamp (F32.ofNat 1000) (F32.ofNat 192000)
       t = { s with
        sr := sr
        maxBlock := BitVec.ofNat 32 (min (max w1.toNat 1) 8192)
        fadeIn := BitVec.ofNat 32 (max 1 ((F32.dec 10 1000).mul sr).toInt)
        fadeOut := BitVec.ofNat 32 (max 1 ((F32.dec 2 1000).mul sr).toInt)
        bufLen := BitVec.ofNat 32 ((F32.ofNat 4).mul sr).toInt
        noteSeq := 0
        voices := t.voices } ∧
       ∀ v : Fin Config.NV,
        t.voice v = { resetVoice Config.std with
          rings := { (resetVoice Config.std).rings with modes := (t.voice v).rings.modes }
          karplus := (t.voice v).karplus
          oscs := { (resetVoice Config.std).oscs with
            osc0 := { (resetVoice Config.std).oscs.osc0 with inc := ((F32.ofNat 440).div sr).clamp F32.zero (F32.dec 1 2) }
            osc1 := { (resetVoice Config.std).oscs.osc1 with inc := ((F32.ofNat 440).div sr).clamp F32.zero (F32.dec 1 2) } } } ∧
        (∀ i : Fin Config.NMODES, (t.voice v).rings.modes[i] = modeCoef Config.std sr (resetMode i)) ∧
        (t.voice v).karplus.len = BitVec.ofNat 32 (ksLength Config.std sr (F32.ofNat 440)) ∧ (t.voice v).karplus.wc = 0 ∧
        (t.voice v).karplus.prev = F32.zero ∧ ∀ a, (t.voice v).karplus.line.read a = 0)

/-- Which commands write the global registers, the cells, the output buffer and the queues (R32, R34, R63, R101): no command other
than those named does, a fault writes only the fault record, and the response queue only grows. That `PREPARE` is among those that
write `NOTE_SEQ` is `47_voice_pool_and_system.md` R362 against the column of R32 (the model's choice, log entry 27). -/
def Obligations.RegistersWrittenOnlyBy : Prop :=
  ∀ (i : Instr) (s t : State), exec i s = .next t →
    let isPrepare : Prop := ∃ vid arg ops, i = .prepare vid arg ops
    let isStart : Prop := (∃ vid arg ops, i = .vStart vid arg ops) ∨ ∃ vid arg ops, i = .noteon vid arg ops
    let isRender : Prop := (∃ vid arg ops, i = .vRender vid arg ops) ∨ ∃ vid arg ops, i = .render vid arg ops
    let draws : Prop := isStart ∨ isRender ∨ (∃ vid arg ops, i = .ksTrigger vid arg ops) ∨
      ∃ vid arg ops, i = .grProc vid arg ops
    ((t.err = s.err ∧ t.errInfo = s.errInfo ∧ t.errCnt = s.errCnt) ∨ (∃ vid arg ops, i = .clrerr vid arg ops) ∨
      ∃ code, t = s.faulted code (instrHeader i)) ∧
    (¬isPrepare → t.sr = s.sr ∧ t.maxBlock = s.maxBlock ∧ t.fadeIn = s.fadeIn ∧ t.fadeOut = s.fadeOut ∧
      t.bufLen = s.bufLen) ∧
    (¬isPrepare → ¬isStart → t.noteSeq = s.noteSeq) ∧
    (¬draws → t.rngIdx = s.rngIdx) ∧
    ((∀ vid arg ops, i ≠ .wrparam vid arg ops) → t.params = s.params) ∧
    (¬isRender → t.outL = s.outL ∧ t.outR = s.outR) ∧
    t.cmd = s.cmd ∧ t.port = s.port ∧ (∃ l, t.rsp = s.rsp ++ l)

/-- Which voices a command touches: a per-voice command only the voice its `VID` names; `NOTEON` only the voice it starts;
`NOTEOFF` only those that hold the note; `RENDER` only active ones; `NOP`, `CLRERR`, `PEEK`, `WRPARAM` and `WT.GET` none
(R101, R368 to R370, `60_exceptions.md` R404). -/
def Obligations.VoicesTouchedOnlyBy : Prop :=
  ∀ (i : Instr) (s t : State) (w : Fin Config.NV), exec i s = .next t →
    (i.onVoice = true → i.vid ≠ vidOf w → t.voice w = s.voice w) ∧
    (∀ vid arg ops, i = .noteon vid arg ops → w ≠ s.allocate (min arg.toNat 127) → t.voice w = s.voice w) ∧
    (∀ vid arg ops, i = .noteoff vid arg ops → (s.voice w).note ≠ BitVec.ofNat 32 (min arg.toNat 127) →
      t.voice w = s.voice w) ∧
    (∀ vid arg ops, i = .render vid arg ops → (s.voice w).active = false → t.voice w = s.voice w) ∧
    ((∃ vid arg ops, i = .nop vid arg ops ∨ i = .clrerr vid arg ops ∨ i = .peek vid arg ops ∨
      i = .wrparam vid arg ops ∨ i = .wtGet vid arg ops) → t.voice w = s.voice w)

/-- Words on a byte-wide medium (`20_memory.md` R102): least significant byte first, and the words come back. That a tail of
fewer than four bytes carries no word is the model's choice (log entry 34). -/
def Obligations.BytesCarryWords : Prop :=
  (∀ ws : List Word, wordsOfBytes (ws.flatMap wordBytes) = ws) ∧
  (∀ (ws : List Word) (bs : List Byte), bs.length < 4 → wordsOfBytes (ws.flatMap wordBytes ++ bs) = ws) ∧
  (∀ w : Word, (wordBytes w).map BitVec.toNat =
    [w.toNat % 256, w.toNat / 256 % 256, w.toNat / 65536 % 256, w.toNat / 16777216])

/-! Invariants of the step. -/

/-- Every step keeps every memory in canonical form (log entry 12): reads after it are reads of what it wrote. -/
def Obligations.StepKeepsMemories : Prop :=
  ∀ s t : State, step s = .next t → s.memOk → t.memOk

/-- "So a shadow register always holds a legal value" (`10_state.md` R36): every step keeps every shadow register in the range of
R35, and every oscillator's phase in [0, 1) and increment in [0, 0.5] (R180). It keeps the wavetable phase `WTPHASE` of a voice in
[0, 1) too (R42, `44_wavetable_engine.md` R277), in a legal configuration and for a finite `FREQ`, which the open `NUM.exp2` does not
bound. -/
def Obligations.StepKeepsLegalRegisters : Prop :=
  ∀ s t : State, step s = .next t →
    (s.registersLegal → t.registersLegal) ∧
    (s.configOk → ∀ v : Fin Config.NV, (s.voice v).freq.isFinite = true → (s.voice v).wt.phase.inUnitOpen = true →
      (t.voice v).wt.phase.inUnitOpen = true)

/-- The mode frequencies are always a function of base frequency, model and structure (`41_modal_resonator.md` R200), decay and
brightness of theirs, and in a prepared block the coefficients of all of them (R204). -/
def Obligations.StepKeepsModes : Prop :=
  ∀ s t : State, step s = .next t → s.modesDetermined → t.modesDetermined

/-- In a prepared block every delay line has 2 to `KS_CAP` words and its cursor inside (`43_karplus_strong.md` R250), and every
granular write cursor is inside its buffer (`10_state.md` R42). -/
def Obligations.StepKeepsCursors : Prop :=
  ∀ s t : State, step s = .next t → s.cursorsOk → t.cursorsOk

/-- The lifecycle registers stay together: `FADEOUT_CNT` never reaches `FOUT` in a voice that goes on, `FADEIN_CNT` never passes
`FIN`, only active voices fade out and hold notes (`46_voice.md` R340, R341, R345, `10_state.md` R42). -/
def Obligations.StepKeepsLives : Prop :=
  ∀ s t : State, step s = .next t → s.livesOk → t.livesOk

/-- "0 <= LEVEL <= 1 always" (`45_envelope_and_filter.md` R297 (a)). -/
def Obligations.StepKeepsLevels : Prop :=
  ∀ s t : State, step s = .next t → s.levelsOk → t.levelsOk

/-- If no `V.START` is used, at most one voice that is not fading out holds any note (`47_voice_pool_and_system.md`
R372 (b)). -/
def Obligations.NotesHeldOnce : Prop :=
  ∀ (i : Instr) (s t : State), exec i s = .next t → (∀ vid arg ops, i ≠ .vStart vid arg ops) →
    s.notesHeldOnce → t.notesHeldOnce
end

