-- ==== Sys2Proof/Laws/Round.lean ====
section
/-! SUPPORT. Rounding (`00_scope.md` R7): the magnitudes of binary32 and their units, that `roundMagnitude` is exact on them,
monotone, and stays below an infinity for what is below the largest finite value. -/

namespace Sys2Proof

/-- The units of 2^-149 that the bits 30:0 stand for, below the infinity. -/
def magUnits (m : Nat) : Nat :=
  if m < 2 ^ 23 then m else (2 ^ 23 + m % 2 ^ 23) * 2 ^ (m / 2 ^ 23 - 1)

/-- A magnitude by its exponent step and its 24 significant bits. -/
theorem magUnits_scaled (k q : Nat) (hq : q < 2 ^ 24) (hk : k = 0 ∨ 2 ^ 23 ≤ q) :
    magUnits (k * 2 ^ 23 + q) = q * 2 ^ k := by
  unfold magUnits
  rcases Nat.lt_or_ge q (2 ^ 23) with h | h
  · obtain rfl : k = 0 := by omega
    rw [if_pos (by omega)]
    ring
  · have e1 : ¬ k * 2 ^ 23 + q < 2 ^ 23 := by omega
    have e2 : (k * 2 ^ 23 + q) % 2 ^ 23 = q - 2 ^ 23 := by omega
    have e3 : (k * 2 ^ 23 + q) / 2 ^ 23 = k + 1 := by omega
    have e4 : 2 ^ 23 + (q - 2 ^ 23) = q := by omega
    have e5 : k + 1 - 1 = k := by omega
    rw [if_neg e1, e2, e3, e4, e5]

/-- The largest 24-bit value one step up is the least of the next step. -/
theorem magUnits_carry (k : Nat) : magUnits (k * 2 ^ 23 + 2 ^ 24) = 2 ^ 24 * 2 ^ k := by
  have h := magUnits_scaled (k + 1) (2 ^ 23) (by norm_num) (Or.inr le_rfl)
  rw [show (k + 1) * 2 ^ 23 + 2 ^ 23 = k * 2 ^ 23 + 2 ^ 24 by ring] at h
  rw [h]; ring

/-- Every magnitude as an exponent step and 24 significant bits. -/
theorem mag_split (m : Nat) : ∃ k q, m = k * 2 ^ 23 + q ∧ q < 2 ^ 24 ∧ (k = 0 ∨ 2 ^ 23 ≤ q) := by
  rcases Nat.lt_or_ge m (2 ^ 23) with h | h
  · exact ⟨0, m, by omega, by omega, Or.inl rfl⟩
  · exact ⟨m / 2 ^ 23 - 1, 2 ^ 23 + m % 2 ^ 23, by omega, by omega, Or.inr (by omega)⟩

theorem magUnits_succ_lt (m : Nat) : magUnits m < magUnits (m + 1) := by
  obtain ⟨k, q, rfl, hq, hk⟩ := mag_split m
  rw [magUnits_scaled k q hq hk]
  rcases Nat.lt_or_ge (q + 1) (2 ^ 24) with h | h
  · rw [show k * 2 ^ 23 + q + 1 = k * 2 ^ 23 + (q + 1) by ring, magUnits_scaled k (q + 1) h (by omega)]
    exact Nat.mul_lt_mul_of_pos_right (by omega) (Nat.two_pow_pos k)
  · rw [show k * 2 ^ 23 + q + 1 = k * 2 ^ 23 + 2 ^ 24 by omega, magUnits_carry]
    exact Nat.mul_lt_mul_of_pos_right (by omega) (Nat.two_pow_pos k)

theorem magUnits_strictMono : StrictMono magUnits := strictMono_nat_of_lt_succ magUnits_succ_lt

theorem magUnits_le_iff {a b : Nat} : magUnits a ≤ magUnits b ↔ a ≤ b := magUnits_strictMono.le_iff_le

theorem magUnits_lt_iff {a b : Nat} : magUnits a < magUnits b ↔ a < b := magUnits_strictMono.lt_iff_lt

theorem magUnits_infinity : magUnits 0x7F800000 = 2 ^ 128 * 2 ^ 149 := by
  have h := magUnits_carry 253
  rw [show 253 * 2 ^ 23 + 2 ^ 24 = 0x7F800000 by norm_num] at h
  rw [h, ← pow_add, ← pow_add]

/-! The nearest integer. -/

theorem nearestEven_cases (a b : Nat) : nearestEven a b = a / b ∨ nearestEven a b = a / b + 1 := by
  unfold nearestEven
  simp only
  split
  · exact Or.inl rfl
  · exact Or.inr rfl

theorem nearestEven_exact (q b : Nat) (hb : 0 < b) : nearestEven (q * b) b = q := by
  unfold nearestEven
  simp [Nat.mul_div_cancel q hb, hb]

theorem nearestEven_eq_succ {a b : Nat} (h : nearestEven a b = a / b + 1) :
    b < 2 * (a % b) ∨ (2 * (a % b) = b ∧ (a / b) % 2 ≠ 0) := by
  unfold nearestEven at h
  simp only at h
  split at h
  · omega
  · rename_i c
    simp only [Bool.or_eq_true, decide_eq_true_eq, Bool.and_eq_true, beq_iff_eq, not_or, not_and, not_lt] at c
    rcases Nat.lt_or_ge b (2 * (a % b)) with h1 | h1
    · exact Or.inl h1
    · exact Or.inr ⟨by omega, c.2 (by omega)⟩

theorem nearestEven_eq_self {a b : Nat} (h : nearestEven a b = a / b) :
    2 * (a % b) < b ∨ (2 * (a % b) = b ∧ (a / b) % 2 = 0) := by
  unfold nearestEven at h
  simp only at h
  split at h
  · rename_i c
    simpa using c
  · omega

theorem nearestEven_mono {a b c d : Nat} (hb : 0 < b) (hd : 0 < d) (h : a * d ≤ c * b) :
    nearestEven a b ≤ nearestEven c d := by
  have hq : a / b ≤ c / d := by
    rw [Nat.le_div_iff_mul_le hd]
    have h1 : a / b * b ≤ a := Nat.div_mul_le_self a b
    have h2 : a / b * d * b ≤ c * b := by nlinarith
    exact Nat.le_of_mul_le_mul_right h2 hb
  rcases Nat.lt_or_ge (a / b) (c / d) with h1 | h1
  · rcases nearestEven_cases a b with e | e <;> rcases nearestEven_cases c d with e' | e' <;> omega
  · have he : a / b = c / d := by omega
    rcases nearestEven_cases a b with e | e <;> rcases nearestEven_cases c d with e' | e' <;> try omega
    exfalso
    have s1 := nearestEven_eq_succ e
    have s2 := nearestEven_eq_self e'
    have da := Nat.div_add_mod a b
    have dc := Nat.div_add_mod c d
    have hr : (a % b) * d ≤ (c % d) * b := by
      rw [he] at da
      nlinarith
    rcases s1 with s1 | ⟨s1, p1⟩ <;> rcases s2 with s2 | ⟨s2, p2⟩
    · nlinarith
    · nlinarith
    · nlinarith
    · rw [he] at p1; omega

theorem nearestEven_ge {a b q : Nat} (hb : 0 < b) (h : q * b ≤ a) : q ≤ nearestEven a b := by
  have := nearestEven_mono (a := q * b) (b := b) (c := a) (d := b) hb hb (Nat.mul_le_mul_right b h)
  rwa [nearestEven_exact q b hb] at this

theorem nearestEven_le {a b q : Nat} (hb : 0 < b) (h : a ≤ q * b) : nearestEven a b ≤ q := by
  have := nearestEven_mono (a := a) (b := b) (c := q * b) (d := b) hb hb (Nat.mul_le_mul_right b h)
  rwa [nearestEven_exact q b hb] at this

/-! The rounded magnitude. -/

/-- The exponent step of `roundMagnitude`. -/
def roundStep (n : Nat) : Nat := n.log2 - 23

theorem roundStep_mono {a b : Nat} (h : a ≤ b) : roundStep a ≤ roundStep b := by
  unfold roundStep
  have : a.log2 ≤ b.log2 := by
    simpa [Nat.log2_eq_log_two] using Nat.log_mono_right h
  omega

theorem lt_roundStep (n : Nat) : n < 2 ^ 24 * 2 ^ roundStep n := by
  unfold roundStep
  have h : n < 2 ^ (n.log2 + 1) := Nat.lt_log2_self
  rw [← pow_add]
  exact lt_of_lt_of_le h (Nat.pow_le_pow_right (by norm_num) (by omega))

theorem roundStep_le {n : Nat} (h : roundStep n ≠ 0) : 2 ^ 23 * 2 ^ roundStep n ≤ n := by
  unfold roundStep at *
  have hn : n ≠ 0 := by rintro rfl; simp at h
  have := Nat.log2_self_le hn
  rw [← pow_add, show 23 + (n.log2 - 23) = n.log2 by omega]
  exact this

theorem roundMagnitude_le_infinity (num den : Nat) : roundMagnitude num den ≤ 0x7F800000 := by
  unfold roundMagnitude
  simp only
  split
  · exact le_rfl
  · exact Nat.min_le_right _ _

/-- What `roundMagnitude` is below the overflow. -/
theorem roundMagnitude_eq {num den : Nat} (h : num / den < 2 ^ 128 * 2 ^ 149) :
    roundMagnitude num den =
      min (roundStep (num / den) * 2 ^ 23 + nearestEven num (den * 2 ^ roundStep (num / den))) 0x7F800000 := by
  unfold roundMagnitude
  simp only
  rw [if_neg (by omega)]
  rfl

theorem nearestEven_step_le {num den : Nat} (hd : 0 < den) :
    nearestEven num (den * 2 ^ roundStep (num / den)) ≤ 2 ^ 24 := by
  apply nearestEven_le (Nat.mul_pos hd (Nat.two_pow_pos _))
  have h := lt_roundStep (num / den)
  have h2 : num < (num / den + 1) * den := by
    have := Nat.lt_div_mul_add hd (a := num); nlinarith
  nlinarith

theorem nearestEven_step_ge {num den : Nat} (hd : 0 < den) (h : roundStep (num / den) ≠ 0) :
    2 ^ 23 ≤ nearestEven num (den * 2 ^ roundStep (num / den)) := by
  apply nearestEven_ge (Nat.mul_pos hd (Nat.two_pow_pos _))
  have h1 := roundStep_le h
  have h2 : num / den * den ≤ num := Nat.div_mul_le_self num den
  nlinarith

theorem roundMagnitude_mono {a b c d : Nat} (hb : 0 < b) (hd : 0 < d) (h : a * d ≤ c * b) :
    roundMagnitude a b ≤ roundMagnitude c d := by
  have hq : a / b ≤ c / d := by
    rw [Nat.le_div_iff_mul_le hd]
    have h1 : a / b * b ≤ a := Nat.div_mul_le_self a b
    have h2 : a / b * d * b ≤ c * b := by nlinarith
    exact Nat.le_of_mul_le_mul_right h2 hb
  rcases Nat.lt_or_ge (c / d) (2 ^ 128 * 2 ^ 149) with hc | hc
  · rw [roundMagnitude_eq hc, roundMagnitude_eq (lt_of_le_of_lt hq hc)]
    refine min_le_min ?_ le_rfl
    have hs := roundStep_mono hq
    rcases Nat.eq_or_lt_of_le hs with he | hl
    · rw [he]
      apply Nat.add_le_add_left
      apply nearestEven_mono (Nat.mul_pos hb (Nat.two_pow_pos _)) (Nat.mul_pos hd (Nat.two_pow_pos _))
      calc a * (d * 2 ^ roundStep (c / d)) = a * d * 2 ^ roundStep (c / d) := by ring
        _ ≤ c * b * 2 ^ roundStep (c / d) := Nat.mul_le_mul_right _ h
        _ = c * (b * 2 ^ roundStep (c / d)) := by ring
    · have h1 := nearestEven_step_le (num := a) hb
      have h2 := nearestEven_step_ge (num := c) hd (by omega)
      omega
  · have : roundMagnitude c d = 0x7F800000 := by
      unfold roundMagnitude
      simp only
      rw [if_pos hc]
    rw [this]
    exact roundMagnitude_le_infinity a b

theorem magUnits_lt_infinity {m : Nat} (h : m < 0x7F800000) : magUnits m < 2 ^ 128 * 2 ^ 149 := by
  rw [← magUnits_infinity]
  exact magUnits_lt_iff.mpr h

theorem roundStep_scaled {k q : Nat} (hq : q < 2 ^ 24) (hk : k = 0 ∨ 2 ^ 23 ≤ q) : roundStep (q * 2 ^ k) = k := by
  rcases Nat.lt_or_ge q (2 ^ 23) with h | h
  · obtain rfl : k = 0 := by omega
    unfold roundStep
    have : (q * 2 ^ 0).log2 < 23 ∨ q = 0 := by
      rcases Nat.eq_zero_or_pos q with h0 | h0
      · exact Or.inr h0
      · left; rw [Nat.log2_lt (by omega)]; simpa using h
    rcases this with h1 | rfl
    · omega
    · simp
  · unfold roundStep
    have : q.log2 = 23 := by
      rw [Nat.log2_eq_iff (by omega)]
      exact ⟨h, by simpa using hq⟩
    have h2 : (q * 2 ^ k).log2 = 23 + k := by
      rw [Nat.log2_eq_iff (by positivity)]
      constructor
      · rw [pow_add]; exact Nat.mul_le_mul_right _ h
      · rw [show 23 + k + 1 = 24 + k by ring, pow_add]; exact Nat.mul_lt_mul_of_pos_right hq (Nat.two_pow_pos k)
    omega

/-- Rounding is exact on the magnitudes of binary32. -/
theorem roundMagnitude_exact {m den : Nat} (hm : m < 0x7F800000) (hd : 0 < den) :
    roundMagnitude (magUnits m * den) den = m := by
  have hn : magUnits m * den / den = magUnits m := Nat.mul_div_cancel _ hd
  rw [roundMagnitude_eq (by rw [hn]; exact magUnits_lt_infinity hm), hn]
  obtain ⟨k, q, rfl, hq, hk⟩ := mag_split m
  rw [magUnits_scaled k q hq hk, roundStep_scaled hq hk,
    show q * 2 ^ k * den = q * (den * 2 ^ k) by ring,
    nearestEven_exact q _ (Nat.mul_pos hd (Nat.two_pow_pos k))]
  exact Nat.min_eq_left (by omega)

/-- What is at least a magnitude rounds to at least that magnitude. -/
theorem le_roundMagnitude {m num den : Nat} (hm : m < 0x7F800000) (hd : 0 < den) (h : magUnits m * den ≤ num) :
    m ≤ roundMagnitude num den := by
  have := roundMagnitude_mono (a := magUnits m * den) (b := den) (c := num) (d := den) hd hd
    (Nat.mul_le_mul_right den h)
  rwa [roundMagnitude_exact hm hd] at this

/-- What is at most a magnitude rounds to at most that magnitude. -/
theorem roundMagnitude_le {m num den : Nat} (hm : m < 0x7F800000) (hd : 0 < den) (h : num ≤ magUnits m * den) :
    roundMagnitude num den ≤ m := by
  have := roundMagnitude_mono (a := num) (b := den) (c := magUnits m * den) (d := den) hd hd
    (Nat.mul_le_mul_right den h)
  rwa [roundMagnitude_exact hm hd] at this

end Sys2Proof
end

