-- ==== Sys2Proof/Laws/Float.lean ====
section
/-! SUPPORT. Binary32 values (`00_scope.md` R7, R10): every value by sign and magnitude, the order of values that are no NaN, what
`clamp` and `san` answer, and where the results of the arithmetic operations lie. -/

namespace Sys2Proof

/-! Sign and magnitude. -/

/-- Bits 30:0. -/
def F32.mag (x : F32) : Nat := x.bits.toNat % 2 ^ 31

theorem F32.mag_lt (x : F32) : x.mag < 2 ^ 31 := Nat.mod_lt _ (by norm_num)

theorem F32.pack_sign_mag (x : F32) : F32.pack x.sign x.mag = x := by
  obtain ⟨b⟩ := x
  have hb := b.isLt
  simp only [F32.pack, F32.sign, F32.mag, BitVec.msb_eq_decide, F32.mk.injEq]
  apply BitVec.eq_of_toNat_eq
  rw [BitVec.toNat_ofNat]
  by_cases h : 2 ^ 31 ≤ b.toNat
  · rw [if_pos (by simpa using h)]; omega
  · rw [if_neg (by simpa using h)]; omega

theorem F32.expField_pack (neg : Bool) {m : Nat} (hm : m < 2 ^ 31) : (F32.pack neg m).expField = m / 2 ^ 23 := by
  simp only [F32.expField, F32.pack, BitVec.extractLsb'_toNat, BitVec.toNat_ofNat, Nat.shiftRight_eq_div_pow]
  cases neg <;> simp <;> omega

theorem F32.fracField_pack (neg : Bool) {m : Nat} (_ : m < 2 ^ 31) : (F32.pack neg m).fracField = m % 2 ^ 23 := by
  simp only [F32.fracField, F32.pack, BitVec.extractLsb'_toNat, BitVec.toNat_ofNat, Nat.shiftRight_eq_div_pow]
  cases neg <;> simp
  omega

theorem F32.sign_pack (neg : Bool) {m : Nat} (hm : m < 2 ^ 31) : (F32.pack neg m).sign = neg := by
  simp only [F32.sign, F32.pack, BitVec.msb_eq_decide, BitVec.toNat_ofNat]
  cases neg <;> simp <;> omega

/-- Two packed values are equal only if sign and magnitude are. -/
theorem F32.pack_inj {s t : Bool} {m n : Nat} (hm : m < 2 ^ 31) (hn : n < 2 ^ 31) (h : F32.pack s m = F32.pack t n) :
    s = t ∧ m = n := by
  have h1 := congrArg F32.sign h
  have h2 := congrArg F32.expField h
  have h3 := congrArg F32.fracField h
  rw [F32.sign_pack s hm, F32.sign_pack t hn] at h1
  rw [F32.expField_pack s hm, F32.expField_pack t hn] at h2
  rw [F32.fracField_pack s hm, F32.fracField_pack t hn] at h3
  exact ⟨h1, by omega⟩

theorem F32.value_pack (neg : Bool) {m : Nat} (hm : m < 0x7F800000) :
    (F32.pack neg m).value = .fin neg (magUnits m) := by
  have h31 : m < 2 ^ 31 := by omega
  unfold F32.value magUnits
  rw [F32.expField_pack neg h31, F32.fracField_pack neg h31, F32.sign_pack neg h31]
  rw [if_neg (by omega)]
  by_cases h : m < 2 ^ 23
  · rw [if_pos (by omega), if_pos h, Nat.mod_eq_of_lt h]
  · rw [if_neg (by omega), if_neg h]

theorem F32.value_infinity (neg : Bool) : (F32.infinity neg).value = .inf neg := by
  cases neg <;> decide

theorem F32.value_pack_nan (neg : Bool) {m : Nat} (h1 : 0x7F800000 < m) (h2 : m < 2 ^ 31) :
    (F32.pack neg m).value = .nan := by
  unfold F32.value
  rw [F32.expField_pack neg h2, F32.fracField_pack neg h2]
  rw [if_pos (by omega), if_neg (by omega)]

/-- A value is finite, an infinity, or a NaN. -/
theorem F32.forms (x : F32) :
    (∃ neg m, m < 0x7F800000 ∧ x = F32.pack neg m) ∨ (∃ neg, x = F32.infinity neg) ∨ x.value = .nan := by
  have hx := F32.pack_sign_mag x
  have hm := F32.mag_lt x
  rcases Nat.lt_trichotomy x.mag 0x7F800000 with h | h | h
  · exact Or.inl ⟨x.sign, x.mag, h, hx.symm⟩
  · refine Or.inr (Or.inl ⟨x.sign, ?_⟩)
    rw [F32.infinity, ← h, hx]
  · refine Or.inr (Or.inr ?_)
    rw [← hx]
    exact F32.value_pack_nan _ h hm

theorem F32.value_fin {x : F32} {neg : Bool} {u : Nat} (h : x.value = .fin neg u) :
    ∃ m, m < 0x7F800000 ∧ x = F32.pack neg m ∧ u = magUnits m := by
  rcases F32.forms x with ⟨n, m, hm, rfl⟩ | ⟨n, rfl⟩ | hn
  · rw [F32.value_pack n hm] at h
    cases h
    exact ⟨m, hm, rfl, rfl⟩
  · rw [F32.value_infinity] at h; cases h
  · rw [hn] at h; cases h

theorem F32.isFinite_pack (neg : Bool) {m : Nat} (hm : m < 0x7F800000) : (F32.pack neg m).isFinite = true := by
  simp only [F32.isFinite, F32.expField_pack neg (show m < 2 ^ 31 by omega), decide_eq_true_eq]
  omega

theorem F32.isFinite_iff (x : F32) : x.isFinite = true ↔ ∃ neg m, m < 0x7F800000 ∧ x = F32.pack neg m := by
  constructor
  · intro h
    rcases F32.forms x with h1 | ⟨n, rfl⟩ | hn
    · exact h1
    · cases n <;> revert h <;> decide
    · exfalso
      simp only [F32.isFinite, decide_eq_true_eq] at h
      unfold F32.value at hn
      rw [if_neg h] at hn
      split at hn <;> cases hn
  · rintro ⟨neg, m, hm, rfl⟩
    exact F32.isFinite_pack neg hm

theorem F32.isNaN_iff (x : F32) : x.isNaN = true ↔ x.value = .nan := by
  simp only [F32.isNaN, Bool.and_eq_true, decide_eq_true_eq, F32.value]
  constructor
  · rintro ⟨h1, h2⟩
    rw [if_pos h1, if_neg h2]
  · intro h
    split at h
    · rename_i h1
      split at h
      · cases h
      · exact ⟨h1, ‹_›⟩
    · split at h <;> cases h

/-- A NaN that an operation yields is a NaN. -/
theorem F32.value_nanOf (op : FOp) (a b : F32) : (F32.nanOf op a b).value = .nan := by
  unfold F32.nanOf
  split
  · rename_i h
    exact (F32.isNaN_iff _).mp h
  · decide

theorem F32.value_zero : F32.zero.value = .fin false 0 := by decide

theorem F32.value_one : F32.one.value = .fin false unitsPerOne := by decide +kernel

theorem unitsPerOne_pos : 0 < unitsPerOne := Nat.two_pow_pos 149

/-! The order. -/

/-- The order key of a magnitude up to the infinity. -/
def magKey (m : Nat) : Int := if m < 0x7F800000 then (magUnits m : Int) else 2 ^ 150 * 2 ^ 150

theorem magKey_nonneg (m : Nat) : 0 ≤ magKey m := by
  unfold magKey
  split
  · exact Int.natCast_nonneg _
  · positivity

theorem magKey_lt {m n : Nat} (h : m < n) (hn : n ≤ 0x7F800000) : magKey m < magKey n := by
  have hm : m < 0x7F800000 := by omega
  unfold magKey
  rw [if_pos hm]
  split
  · exact_mod_cast magUnits_lt_iff.mpr h
  · have h1 := magUnits_lt_infinity hm
    have h2 : (2 : Nat) ^ 128 * 2 ^ 149 < 2 ^ 150 * 2 ^ 150 := by norm_num
    calc (magUnits m : Int) < ((2 ^ 128 * 2 ^ 149 : Nat) : Int) := by exact_mod_cast h1
      _ < ((2 ^ 150 * 2 ^ 150 : Nat) : Int) := by exact_mod_cast h2
      _ = 2 ^ 150 * 2 ^ 150 := by push_cast

theorem magKey_le {m n : Nat} (h : m ≤ n) (hn : n ≤ 0x7F800000) : magKey m ≤ magKey n := by
  rcases Nat.eq_or_lt_of_le h with rfl | h
  · exact le_rfl
  · exact le_of_lt (magKey_lt h hn)

theorem F32.key_pack (neg : Bool) {m : Nat} (hm : m ≤ 0x7F800000) :
    (F32.pack neg m).key = some (if neg then -magKey m else magKey m) := by
  unfold F32.key
  rcases Nat.lt_or_eq_of_le hm with h | rfl
  · rw [F32.value_pack neg h]
    simp only [magKey, if_pos h, signedUnits]
  · have : F32.pack neg 0x7F800000 = F32.infinity neg := rfl
    rw [this, F32.value_infinity]
    simp only [magKey, signedUnits]
    cases neg <;> norm_num

theorem F32.key_pack_pos {m : Nat} (hm : m ≤ 0x7F800000) : (F32.pack false m).key = some (magKey m) := by
  rw [F32.key_pack false hm, if_neg (by decide)]

theorem F32.key_nan {x : F32} (h : x.value = .nan) : x.key = none := by
  unfold F32.key; rw [h]

/-- No NaN, by magnitude. -/
theorem F32.key_isSome {x : F32} {k : Int} (h : x.key = some k) :
    ∃ neg m, m ≤ 0x7F800000 ∧ x = F32.pack neg m ∧ k = if neg then -magKey m else magKey m := by
  rcases F32.forms x with ⟨n, m, hm, rfl⟩ | ⟨n, rfl⟩ | hn
  · have hm' : m ≤ 0x7F800000 := by omega
    rw [F32.key_pack n hm'] at h
    exact ⟨n, m, hm', rfl, (Option.some.inj h).symm⟩
  · have : F32.infinity n = F32.pack n 0x7F800000 := rfl
    rw [this, F32.key_pack n le_rfl] at h
    exact ⟨n, _, le_rfl, rfl, (Option.some.inj h).symm⟩
  · rw [F32.key_nan hn] at h; cases h

theorem F32.le_iff (a b : F32) : a.le b = true ↔ ∃ x y, a.key = some x ∧ b.key = some y ∧ x ≤ y := by
  unfold F32.le
  cases a.key <;> cases b.key <;> simp

theorem F32.lt_iff (a b : F32) : a.lt b = true ↔ ∃ x y, a.key = some x ∧ b.key = some y ∧ x < y := by
  unfold F32.lt
  cases a.key <;> cases b.key <;> simp

theorem F32.eqv_iff (a b : F32) : a.eqv b = true ↔ ∃ x, a.key = some x ∧ b.key = some x := by
  unfold F32.eqv
  cases a.key <;> cases b.key <;> simp [eq_comm]

theorem F32.le_trans {a b c : F32} (h1 : a.le b = true) (h2 : b.le c = true) : a.le c = true := by
  rw [F32.le_iff] at *
  obtain ⟨x, y, ha, hb, hxy⟩ := h1
  obtain ⟨y', z, hb', hc, hyz⟩ := h2
  rw [hb] at hb'
  cases hb'
  exact ⟨x, z, ha, hc, hxy.trans hyz⟩

theorem F32.le_refl_of_key {a : F32} {k : Int} (h : a.key = some k) : a.le a = true :=
  (F32.le_iff a a).mpr ⟨k, k, h, h, le_rfl⟩

theorem F32.le_self_left {a b : F32} (h : a.le b = true) : a.le a = true := by
  obtain ⟨x, _, ha, _, _⟩ := (F32.le_iff a b).mp h
  exact F32.le_refl_of_key ha

theorem F32.le_self_right {a b : F32} (h : a.le b = true) : b.le b = true := by
  obtain ⟨_, y, _, hb, _⟩ := (F32.le_iff a b).mp h
  exact F32.le_refl_of_key hb

theorem F32.le_of_lt {a b : F32} (h : a.lt b = true) : a.le b = true := by
  rw [F32.lt_iff] at h
  obtain ⟨x, y, ha, hb, h⟩ := h
  exact (F32.le_iff a b).mpr ⟨x, y, ha, hb, Int.le_of_lt h⟩

/-- Of two values that are no NaN, one is below the other or the other is at most the one. -/
theorem F32.le_or_lt {a b : F32} (ha : a.le a = true) (hb : b.le b = true) : a.le b = true ∨ b.lt a = true := by
  obtain ⟨x, _, hx, _, _⟩ := (F32.le_iff a a).mp ha
  obtain ⟨y, _, hy, _, _⟩ := (F32.le_iff b b).mp hb
  rcases (Int.lt_or_le y x).symm with h | h
  · exact Or.inl ((F32.le_iff a b).mpr ⟨x, y, hx, hy, h⟩)
  · exact Or.inr ((F32.lt_iff b a).mpr ⟨y, x, hy, hx, h⟩)

theorem F32.not_lt_of_le {a b : F32} (h : a.le b = true) : b.lt a = false := by
  by_contra c
  rw [Bool.not_eq_false, F32.lt_iff] at c
  rw [F32.le_iff] at h
  obtain ⟨x, y, ha, hb, h⟩ := h
  obtain ⟨y', x', hb', ha', c⟩ := c
  rw [ha] at ha'; rw [hb] at hb'
  cases ha'; cases hb'
  omega

/-! Clamping (R10). -/

/-- `clamp` answers a value of its range. -/
theorem F32.clamp_mem (x : F32) {lo hi : F32} (h : lo.le hi = true) :
    lo.le (x.clamp lo hi) = true ∧ (x.clamp lo hi).le hi = true := by
  unfold F32.clamp
  cases h1 : lo.le x
  · simp only [Bool.not_false, if_true]
    exact ⟨F32.le_self_left h, h⟩
  · simp only [Bool.not_true, Bool.false_eq_true, if_false]
    cases h2 : hi.lt x
    · simp only [Bool.false_eq_true, if_false]
      rcases F32.le_or_lt (F32.le_self_right h1) (F32.le_self_right h) with h3 | h3
      · exact ⟨h1, h3⟩
      · rw [h3] at h2; cases h2
    · simp only [if_true]
      exact ⟨h, F32.le_self_right h⟩

/-- `clamp` keeps a value of its range. -/
theorem F32.clamp_of_mem {lo hi x : F32} (h1 : lo.le x = true) (h2 : x.le hi = true) : x.clamp lo hi = x := by
  unfold F32.clamp
  rw [h1, F32.not_lt_of_le h2]
  rfl

theorem F32.clamp_of_nan {x : F32} (h : x.value = .nan) (lo hi : F32) : x.clamp lo hi = lo := by
  have : lo.le x = false := by
    by_contra c
    rw [Bool.not_eq_false, F32.le_iff] at c
    obtain ⟨_, y, _, hy, _⟩ := c
    rw [F32.key_nan h] at hy
    cases hy
  unfold F32.clamp
  rw [this]
  rfl

theorem F32.san_isFinite (x : F32) : x.san.isFinite = true := by
  unfold F32.san
  split
  · assumption
  · decide

end Sys2Proof
end

