-- ==== Sys2Proof/Laws/Arith.lean ====
section
/-! SUPPORT. Where the results of the binary32 operations lie (`00_scope.md` R7): signs and bounds of sums, differences, products
and quotients of values that are not negative, and values that are exact. -/

namespace Sys2Proof

/-- One subtraction wraps an index below twice the length (`42_granular_engine.md` R229, `20_memory.md` R106). -/
theorem wrap_eq_sub_once {i n : Nat} (h : i < 2 * n) : i % n = if n ≤ i then i - n else i := by
  split
  · rw [Nat.mod_eq_sub_mod ‹_›, Nat.mod_eq_of_lt (by omega)]
  · exact Nat.mod_eq_of_lt (by omega)

/-! Values that are not negative. -/

theorem magUnits_zero : magUnits 0 = 0 := by decide

theorem magKey_zero : magKey 0 = 0 := by decide

theorem F32.key_zero : F32.zero.key = some 0 := by decide

theorem F32.key_of_value {x : F32} {neg : Bool} {u : Nat} (h : x.value = .fin neg u) :
    x.key = some (signedUnits neg u) := by
  unfold F32.key; rw [h]

theorem F32.key_of_inf {x : F32} {neg : Bool} (h : x.value = .inf neg) :
    x.key = some (signedUnits neg (2 ^ 150 * 2 ^ 150)) := by
  unfold F32.key; rw [h]

/-- A value that is not negative: a finite one that is positive or a zero, or the positive infinity. -/
theorem F32.nonneg_cases {x : F32} (h : F32.zero.le x = true) :
    (∃ neg u, x.value = .fin neg u ∧ (neg = true → u = 0)) ∨ x.value = .inf false := by
  rw [F32.le_iff] at h
  obtain ⟨z, k, hz, hk, hzk⟩ := h
  rw [F32.key_zero] at hz
  cases hz
  cases hv : x.value with
  | nan => rw [F32.key_nan hv] at hk; cases hk
  | inf neg =>
    rw [F32.key_of_inf hv] at hk
    cases neg
    · exact Or.inr rfl
    · exfalso
      simp only [signedUnits, Option.some.injEq] at hk
      rw [← hk] at hzk
      norm_num at hzk
  | fin neg u =>
    refine Or.inl ⟨neg, u, rfl, ?_⟩
    rintro rfl
    rw [F32.key_of_value hv] at hk
    simp only [signedUnits, if_true, Option.some.injEq] at hk
    omega

theorem F32.nonneg_of_value {x : F32} {neg : Bool} {u : Nat} (h : x.value = .fin neg u) (hn : neg = true → u = 0) :
    F32.zero.le x = true := by
  refine (F32.le_iff _ _).mpr ⟨0, _, F32.key_zero, F32.key_of_value h, ?_⟩
  cases neg
  · simp [signedUnits]
  · simp [signedUnits, hn rfl]

theorem F32.nonneg_of_inf {x : F32} (h : x.value = .inf false) : F32.zero.le x = true := by
  refine (F32.le_iff _ _).mpr ⟨0, _, F32.key_zero, F32.key_of_inf h, ?_⟩
  simp [signedUnits]

/-- Below a finite value, a value that is not negative is finite, with no more units. -/
theorem F32.fin_of_le {x c : F32} {nc : Bool} {v : Nat} (h0 : F32.zero.le x = true) (h : x.le c = true)
    (hc : c.value = .fin nc v) : ∃ neg u, x.value = .fin neg u ∧ (neg = true → u = 0) ∧ u ≤ v := by
  rw [F32.le_iff] at h
  obtain ⟨k, l, hk, hl, hkl⟩ := h
  rw [F32.key_of_value hc] at hl
  cases hl
  obtain ⟨m, hm, _, rfl⟩ := F32.value_fin hc
  have hb := magUnits_lt_infinity hm
  rcases F32.nonneg_cases h0 with ⟨neg, u, hv, hz⟩ | hv
  · refine ⟨neg, u, hv, hz, ?_⟩
    rw [F32.key_of_value hv] at hk
    cases hk
    cases neg
    · cases nc <;> simp [signedUnits] at hkl <;> omega
    · have := hz rfl; omega
  · exfalso
    rw [F32.key_of_inf hv] at hk
    cases hk
    have : (2 : Nat) ^ 128 * 2 ^ 149 < 2 ^ 150 * 2 ^ 150 := by norm_num
    cases nc <;> simp [signedUnits] at hkl <;> omega

/-- `x <= c` for finite values that are not negative, by units. -/
theorem F32.le_of_units {x c : F32} {nx nc : Bool} {u v : Nat} (hx : x.value = .fin nx u) (hc : c.value = .fin nc v)
    (hn : nc = true → v = 0) (h : u ≤ v) : x.le c = true := by
  refine (F32.le_iff _ _).mpr ⟨_, _, F32.key_of_value hx, F32.key_of_value hc, ?_⟩
  cases nx <;> cases nc <;> simp [signedUnits] <;> simp at hn <;> omega

/-! Rounded ratios. -/

theorem F32.ofRatio_exact (neg : Bool) {m den : Nat} (hm : m < 0x7F800000) (hd : 0 < den) :
    F32.ofRatio neg (magUnits m * den) den = F32.pack neg m := by
  unfold F32.ofRatio; rw [roundMagnitude_exact hm hd]

theorem F32.ofRatio_zero (neg : Bool) {den : Nat} (hd : 0 < den) : F32.ofRatio neg 0 den = F32.pack neg 0 := by
  have := F32.ofRatio_exact neg (m := 0) (den := den) (by norm_num) hd
  rwa [magUnits_zero, Nat.zero_mul] at this

/-- The value of a rounded ratio, which is no NaN. -/
theorem F32.value_ofRatio (neg : Bool) (num den : Nat) :
    (F32.ofRatio neg num den).value = .fin neg (magUnits (roundMagnitude num den)) ∧ roundMagnitude num den < 0x7F800000 ∨
      (F32.ofRatio neg num den).value = .inf neg ∧ roundMagnitude num den = 0x7F800000 := by
  unfold F32.ofRatio
  rcases Nat.lt_or_eq_of_le (roundMagnitude_le_infinity num den) with h | h
  · exact Or.inl ⟨F32.value_pack neg h, h⟩
  · refine Or.inr ⟨?_, h⟩
    rw [h]
    exact F32.value_infinity neg

theorem F32.ofRatio_nonneg {neg : Bool} {num den : Nat} (hd : 0 < den) (h : neg = true → num = 0) :
    F32.zero.le (F32.ofRatio neg num den) = true := by
  cases neg
  · rcases F32.value_ofRatio false num den with ⟨hv, _⟩ | ⟨hv, _⟩
    · exact F32.nonneg_of_value hv (by simp)
    · exact F32.nonneg_of_inf hv
  · rw [h rfl, F32.ofRatio_zero true hd]
    decide

/-- A ratio that is at most a finite value rounds to at most that value. -/
theorem F32.ofRatio_le {neg nc : Bool} {num den u : Nat} {c : F32} (hd : 0 < den) (hc : c.value = .fin nc u)
    (hn : nc = true → u = 0) (h : num ≤ u * den) :
    (F32.ofRatio neg num den).le c = true ∧ (F32.ofRatio neg num den).isFinite = true := by
  obtain ⟨m, hm, rfl, rfl⟩ := F32.value_fin hc
  have h1 := roundMagnitude_le hm hd h
  have h2 : roundMagnitude num den < 0x7F800000 := by omega
  refine ⟨F32.le_of_units (F32.value_pack neg h2) hc hn (magUnits_le_iff.mpr h1), F32.isFinite_pack neg h2⟩

/-- A ratio that is at least a finite value rounds to at least that value. -/
theorem F32.le_ofRatio {nc : Bool} {num den u : Nat} {c : F32} (hd : 0 < den) (hc : c.value = .fin nc u)
    (h : u * den ≤ num) : c.le (F32.ofRatio false num den) = true := by
  obtain ⟨m, hm, rfl, rfl⟩ := F32.value_fin hc
  have h1 := le_roundMagnitude hm hd h
  refine (F32.le_iff _ _).mpr ⟨_, _, F32.key_pack nc (by omega), F32.key_pack false (roundMagnitude_le_infinity _ _), ?_⟩
  have h3 := magKey_le h1 (roundMagnitude_le_infinity _ _)
  have h4 := magKey_nonneg m
  cases nc
  · simpa using h3
  · simp only [if_true, Bool.false_eq_true, if_false]; omega

/-! Products. -/

theorem F32.mul_of_fin {a b : F32} {sa sb : Bool} {ua ub : Nat} (ha : a.value = .fin sa ua) (hb : b.value = .fin sb ub) :
    a.mul b = F32.ofRatio (sa ^^ sb) (ua * ub) unitsPerOne := by
  unfold F32.mul; rw [ha, hb]

/-- A product of finite values that are not negative is not negative. -/
theorem F32.mul_nonneg_of_fin {a b : F32} {sa sb : Bool} {ua ub : Nat} (ha : a.value = .fin sa ua)
    (hb : b.value = .fin sb ub) (za : sa = true → ua = 0) (zb : sb = true → ub = 0) :
    F32.zero.le (a.mul b) = true := by
  rw [F32.mul_of_fin ha hb]
  apply F32.ofRatio_nonneg unitsPerOne_pos
  cases sa <;> cases sb <;> simp_all

/-- A value of [0, 1] scales a finite value that is not negative down. -/
theorem F32.mul_le_right {a b : F32} {sb : Bool} {ub : Nat} (h0 : F32.zero.le a = true) (h1 : a.le F32.one = true)
    (hb : b.value = .fin sb ub) (zb : sb = true → ub = 0) :
    F32.zero.le (a.mul b) = true ∧ (a.mul b).le b = true := by
  obtain ⟨sa, ua, ha, za, hu⟩ := F32.fin_of_le h0 h1 F32.value_one
  refine ⟨F32.mul_nonneg_of_fin ha hb za zb, ?_⟩
  rw [F32.mul_of_fin ha hb]
  exact (F32.ofRatio_le unitsPerOne_pos hb zb (by nlinarith)).1

/-- A product of values of [0, 1] lies in [0, 1]. -/
theorem F32.mul_unit {a b : F32} (ha0 : F32.zero.le a = true) (ha1 : a.le F32.one = true) (hb0 : F32.zero.le b = true)
    (hb1 : b.le F32.one = true) : F32.zero.le (a.mul b) = true ∧ (a.mul b).le F32.one = true := by
  obtain ⟨sb, ub, hb, zb, _⟩ := F32.fin_of_le hb0 hb1 F32.value_one
  have h := F32.mul_le_right ha0 ha1 hb zb
  exact ⟨h.1, F32.le_trans h.2 hb1⟩

/-! Quotients. -/

theorem F32.div_of_fin {a b : F32} {sa sb : Bool} {ua ub : Nat} (ha : a.value = .fin sa ua) (hb : b.value = .fin sb ub)
    (h : ub ≠ 0) : a.div b = F32.ofRatio (sa ^^ sb) (ua * unitsPerOne) ub := by
  unfold F32.div; rw [ha, hb]; simp only; rw [if_neg h]

/-- A quotient of a finite value by a positive or infinite one, both not negative, is not negative. -/
theorem F32.div_nonneg {a b : F32} {sa : Bool} {ua : Nat} (ha : a.value = .fin sa ua) (za : sa = true → ua = 0)
    (hb : F32.zero.lt b = true) : F32.zero.le (a.div b) = true := by
  rcases F32.nonneg_cases (F32.le_of_lt hb) with ⟨sb, ub, hv, zb⟩ | hv
  · have hu : ub ≠ 0 := by
      rintro rfl
      rw [F32.lt_iff] at hb
      obtain ⟨x, y, hx, hy, hxy⟩ := hb
      rw [F32.key_zero] at hx
      rw [F32.key_of_value hv] at hy
      cases hx; cases hy
      cases sb <;> simp [signedUnits] at hxy
    rw [F32.div_of_fin ha hv hu]
    apply F32.ofRatio_nonneg (Nat.pos_of_ne_zero hu)
    cases sa <;> cases sb <;> simp_all
  · have : a.div b = F32.pack (sa ^^ false) 0 := by unfold F32.div; rw [ha, hv]
    rw [this]
    cases sa <;> decide

/-- 1 divided by a value that is not negative is not negative: an infinity, for a positive zero. -/
theorem F32.one_div_nonneg {b : F32} (hb : F32.zero.le b = true) (hz : b ≠ F32.pack true 0) :
    F32.zero.le (F32.one.div b) = true := by
  rcases F32.nonneg_cases hb with ⟨sb, ub, hv, zb⟩ | hv
  · rcases Nat.eq_zero_or_pos ub with rfl | h
    · obtain ⟨m, hm, rfl, hu⟩ := F32.value_fin hv
      have hm0 : m = 0 := by
        rcases Nat.eq_zero_or_pos m with h | h
        · exact h
        · have := magUnits_lt_iff.mpr h; omega
      subst hm0
      cases sb
      · decide +kernel
      · exact absurd rfl hz
    · have : sb = false := by cases sb; rfl; exact absurd (zb rfl) (by omega)
      subst this
      rw [F32.div_of_fin F32.value_one hv (by omega)]
      exact F32.ofRatio_nonneg h (by simp)
  · have : F32.one.div b = F32.pack (false ^^ false) 0 := by unfold F32.div; rw [F32.value_one, hv]
    rw [this]
    decide

/-- A quotient of values `0 <= a <= b`, `b` finite and positive, lies in [0, 1]. -/
theorem F32.div_unit {a b : F32} {sb : Bool} {ub : Nat} (h0 : F32.zero.le a = true) (h : a.le b = true)
    (hb : b.value = .fin sb ub) (hp : 0 < ub) :
    F32.zero.le (a.div b) = true ∧ (a.div b).le F32.one = true := by
  obtain ⟨sa, ua, ha, za, hu⟩ := F32.fin_of_le h0 h hb
  have hsb : sb = false := by
    have := F32.le_trans h0 h
    rcases F32.nonneg_cases this with ⟨s, u, hv, hz⟩ | hv
    · rw [hb] at hv; cases hv
      cases sb
      · rfl
      · exact absurd (hz rfl) (by omega)
    · rw [hb] at hv; cases hv
  subst hsb
  rw [F32.div_of_fin ha hb (by omega)]
  refine ⟨F32.ofRatio_nonneg hp ?_, (F32.ofRatio_le hp F32.value_one (by simp) ?_).1⟩
  · cases sa <;> simp_all
  · rw [Nat.mul_comm unitsPerOne ub]
    exact Nat.mul_le_mul_right unitsPerOne hu

/-! Sums and differences. -/

theorem F32.addAs_of_fin (op : FOp) {a b : F32} {sa sb flip : Bool} {ua ub : Nat} (ha : a.value = .fin sa ua)
    (hb : b.value = .fin sb ub) :
    F32.addAs op a b flip =
      if signedUnits sa ua + signedUnits (sb ^^ flip) ub = 0 then F32.pack (sa && (sb ^^ flip)) 0
      else F32.ofRatio (decide (signedUnits sa ua + signedUnits (sb ^^ flip) ub < 0))
        (signedUnits sa ua + signedUnits (sb ^^ flip) ub).natAbs 1 := by
  unfold F32.addAs; rw [ha, hb]

/-- A sum of a finite value and another, both not negative, is not negative. -/
theorem F32.add_nonneg {a b : F32} {sa : Bool} {ua : Nat} (ha : a.value = .fin sa ua) (za : sa = true → ua = 0)
    (hb : F32.zero.le b = true) : F32.zero.le (a.add b) = true := by
  rcases F32.nonneg_cases hb with ⟨sb, ub, hv, zb⟩ | hv
  · unfold F32.add
    rw [F32.addAs_of_fin .add ha hv]
    split
    · cases (sa && (sb ^^ false)) <;> decide
    · apply F32.ofRatio_nonneg (by norm_num)
      cases sa <;> cases sb <;> simp_all [signedUnits]
      omega
  · have : a.add b = F32.infinity false := by
      unfold F32.add F32.addAs; rw [ha, hv]; simp
    rw [this]
    decide

/-- The bounds of a difference of finite values: `a - b` is not negative if `b <= a`, and at most `a` if `b` is not negative. -/
theorem F32.sub_bounds {a b : F32} {sa sb : Bool} {ua ub : Nat} (ha : a.value = .fin sa ua) (hb : b.value = .fin sb ub)
    (za : sa = true → ua = 0) (zb : sb = true → ub = 0) :
    (ub ≤ ua → F32.zero.le (a.sub b) = true) ∧ (a.sub b).le a = true ∧ (a.sub b).isFinite = true := by
  have ha0 := F32.nonneg_of_value ha za
  have sA : signedUnits sa ua = ua := by cases sa <;> simp_all [signedUnits]
  have sB : signedUnits (sb ^^ true) ub = -(ub : Int) := by cases sb <;> simp_all [signedUnits]
  unfold F32.sub
  rw [F32.addAs_of_fin .sub ha hb, sA, sB]
  split
  · refine ⟨fun _ => ?_, ?_, ?_⟩
    · cases (sa && (sb ^^ true)) <;> decide
    · exact F32.le_of_units (F32.value_pack _ (by norm_num)) ha za (by rw [magUnits_zero]; omega)
    · exact F32.isFinite_pack _ (by norm_num)
  · rename_i hz
    rcases Nat.lt_or_ge ua ub with hlt | hge
    · have hneg : ((ua : Int) + -(ub : Int) < 0) := by omega
      rw [decide_eq_true hneg]
      refine ⟨fun h => absurd h (by omega), ?_, ?_⟩
      · obtain ⟨m, hm, _, rfl⟩ := F32.value_fin hb
        obtain ⟨h1, h2⟩ := F32.ofRatio_le (neg := true) (num := ((ua : Int) + -(magUnits m : Int)).natAbs) (den := 1)
          (by norm_num) (F32.value_pack false hm) (by simp) (by omega)
        obtain ⟨n, k, hk, he⟩ := (F32.isFinite_iff _).mp h2
        rcases F32.value_ofRatio true ((ua : Int) + -(magUnits m : Int)).natAbs 1 with ⟨hv, _⟩ | ⟨hv, _⟩
        · refine (F32.le_iff _ _).mpr ⟨_, _, F32.key_of_value hv, F32.key_of_value ha, ?_⟩
          rw [sA]; simp [signedUnits]
        · rw [he, F32.value_pack n hk] at hv; cases hv
      · obtain ⟨m, hm, _, rfl⟩ := F32.value_fin hb
        exact (F32.ofRatio_le (neg := true) (by norm_num) (F32.value_pack false hm) (by simp) (by omega)).2
    · have hpos : ¬ ((ua : Int) + -(ub : Int) < 0) := by omega
      rw [decide_eq_false hpos]
      obtain ⟨h1, h2⟩ := F32.ofRatio_le (neg := false) (num := ((ua : Int) + -(ub : Int)).natAbs) (den := 1)
        (by norm_num) ha za (by omega)
      exact ⟨fun _ => F32.ofRatio_nonneg (by norm_num) (by simp), h1, h2⟩

/-! Integers. -/

theorem F32.value_ofNat_le {n k : Nat} (h : n ≤ k) : (F32.ofNat n).le (F32.ofNat k) = true := by
  unfold F32.ofNat F32.ofRatio
  have h1 : roundMagnitude (n * unitsPerOne) 1 ≤ roundMagnitude (k * unitsPerOne) 1 :=
    roundMagnitude_mono Nat.one_pos Nat.one_pos (Nat.mul_le_mul_right 1 (Nat.mul_le_mul_right unitsPerOne h))
  exact (F32.le_iff _ _).mpr ⟨_, _, F32.key_pack_pos (roundMagnitude_le_infinity _ _),
    F32.key_pack_pos (roundMagnitude_le_infinity _ _), magKey_le h1 (roundMagnitude_le_infinity _ _)⟩

theorem F32.ofNat_zero : F32.ofNat 0 = F32.zero := by decide +kernel

theorem F32.ofNat_one : F32.ofNat 1 = F32.one := by decide +kernel

/-- The binary32 nearest to a 32-bit integer is finite, and positive if the integer is. -/
theorem F32.value_ofNat {n : Nat} (h : n ≤ 2 ^ 32) :
    ∃ u, (F32.ofNat n).value = .fin false u ∧ (0 < n → unitsPerOne ≤ u) := by
  have hfin : (F32.ofNat n).le (F32.ofNat (2 ^ 32)) = true := F32.value_ofNat_le h
  have h0 : F32.zero.le (F32.ofNat n) = true := by
    rw [← F32.ofNat_zero]; exact F32.value_ofNat_le (Nat.zero_le n)
  have hv : (F32.ofNat (2 ^ 32)).value = .fin false (2 ^ 32 * unitsPerOne) := by decide +kernel
  obtain ⟨s, u, hu, hs, _⟩ := F32.fin_of_le h0 hfin hv
  have hsf : s = false := by
    rcases F32.value_ofRatio false (n * unitsPerOne) 1 with ⟨hv', _⟩ | ⟨hv', _⟩
    · rw [show F32.ofRatio false (n * unitsPerOne) 1 = F32.ofNat n from rfl, hu] at hv'
      cases hv'; rfl
    · rw [show F32.ofRatio false (n * unitsPerOne) 1 = F32.ofNat n from rfl, hu] at hv'
      cases hv'
  subst hsf
  refine ⟨u, hu, fun hn => ?_⟩
  have h1 := F32.value_ofNat_le (show 1 ≤ n from hn)
  rw [F32.ofNat_one, F32.le_iff] at h1
  obtain ⟨x, y, hx, hy, hxy⟩ := h1
  rw [F32.key_of_value F32.value_one] at hx
  rw [F32.key_of_value hu] at hy
  cases hx; cases hy
  simpa [signedUnits] using hxy

/-- `int` of a value that is not negative, by its units (R11). -/
theorem F32.toInt_of_fin {x : F32} {neg : Bool} {u : Nat} (h : x.value = .fin neg u) (hn : neg = true → u = 0) :
    x.toInt = u / unitsPerOne := by
  unfold F32.toInt
  rw [h]
  cases neg
  · simp
  · simp [hn rfl]

end Sys2Proof
end

