-- ==== Sys2Proof/Machine/Configured.lean ====
section
/-! DEFINITION. The block with any parameters (`00_scope.md` R5: "The model takes the parameters of the table below as arguments";
log entry 1): one command and one step of it. With the default parameters these are `exec` and `step`
(`Laws/Configured.lean`). -/

namespace Sys2Proof.Machine

variable {cfg : Config.Params}

/-- Runs one command on a block with the parameters `cfg`: the meanings that `exec` calls. -/
def execAt (i : Instr) (s : State cfg) : Out cfg :=
  match i with
  | .nop vid arg ops => execNop vid arg ops s
  | .prepare vid arg ops => execPrepare vid arg ops s
  | .clrerr vid arg ops => execClrerr vid arg ops s
  | .peek vid arg ops => execPeek vid arg ops s
  | .wrparam vid arg ops => execWrparam vid arg ops s
  | .setglobal vid arg ops => execSetglobal vid arg ops s
  | .noteon vid arg ops => execNoteon vid arg ops s
  | .noteoff vid arg ops => execNoteoff vid arg ops s
  | .render vid arg ops => execRender vid arg ops s
  | .vStart vid arg ops => execVStart vid arg ops s
  | .vStop vid arg ops => execVStop vid arg ops s
  | .vRender vid arg ops => execVRender vid arg ops s
  | .vSetmode vid arg ops => execVSetmode vid arg ops s
  | .vSetrings vid arg ops => execVSetrings vid arg ops s
  | .vSetclouds vid arg ops => execVSetclouds vid arg ops s
  | .vSetwt vid arg ops => execVSetwt vid arg ops s
  | .vSetmix vid arg ops => execVSetmix vid arg ops s
  | .vSetenv vid arg ops => execVSetenv vid arg ops s
  | .vSetfilt vid arg ops => execVSetfilt vid arg ops s
  | .vSetosc vid arg ops => execVSetosc vid arg ops s
  | .mrSetparams vid arg ops => execMrSetparams vid arg ops s
  | .mrTrigger vid arg ops => execMrTrigger vid arg ops s
  | .mrProc vid arg ops => execMrProc vid arg ops s
  | .grWrite vid arg ops => execGrWrite vid arg ops s
  | .grProc vid arg ops => execGrProc vid arg ops s
  | .ksSetfreq vid arg ops => execKsSetfreq vid arg ops s
  | .ksTrigger vid arg ops => execKsTrigger vid arg ops s
  | .ksGet vid arg ops => execKsGet vid arg ops s
  | .wtGet vid arg ops => execWtGet vid arg ops s
  | .oscSetfreq vid arg ops => execOscSetfreq vid arg ops s
  | .oscSetwave vid arg ops => execOscSetwave vid arg ops s
  | .oscReset vid arg ops => execOscReset vid arg ops s
  | .oscNext vid arg ops => execOscNext vid arg ops s
  | .envSetparams vid arg ops => execEnvSetparams vid arg ops s
  | .envNoteon vid arg ops => execEnvNoteon vid arg ops s
  | .envNoteoff vid arg ops => execEnvNoteoff vid arg ops s
  | .envNext vid arg ops => execEnvNext vid arg ops s
  | .fltProc vid arg ops => execFltProc vid arg ops s
  | .fltReset vid arg ops => execFltReset vid arg ops s

/-- One step of a block with the parameters `cfg`. -/
def stepAt (s : State cfg) : Out cfg := stepBy execAt s

end Sys2Proof.Machine
end

