-- ==== Sys2Proof/Machine/HostPort.lean ====
section
/-! DEFINITION. The host side (`20_memory.md` R110 to R115, `70_reset_and_hazards.md` R452): what the host does to the block
between commands, one function per interface, and a run, which is a list of command words and host actions. A host access that
falls inside a command is an entry of `State.port` instead, which a step lands. -/

namespace Sys2Proof.Machine

variable {cfg : Config.Params}

/-- The host writes a word to the command queue (`10_state.md` R75, `20_memory.md` R110). -/
def State.hostQueue (s : State cfg) (w : Word) : State cfg := { s with cmd := s.cmd ++ [w] }

/-- The host sends command words over a byte-wide medium, least significant byte first (R102). DESIGN CHOICE (log entry 34): `bytes`
is a whole stream; a tail of fewer than four bytes is dropped and not kept for a later call. -/
def State.hostQueueBytes (s : State cfg) (bytes : List Byte) : State cfg := { s with cmd := s.cmd ++ wordsOfBytes bytes }

/-- The host removes the word at the front of the response queue (`10_state.md` R74); nothing if it is empty. -/
def State.hostPop (s : State cfg) : Option (Word × State cfg) :=
  match s.rsp with
  | [] => none
  | w :: ws => some (w, { s with rsp := ws })

/-- The host writes a parameter cell between commands (R111). -/
def State.hostWriteCell (s : State cfg) (c : Fin Config.NPARAM) (w : Word) : State cfg := s.land (.writeCell c w)

/-- The host writes a frame of the output buffer between commands (R112). -/
def State.hostWriteOut (s : State cfg) (ch : Channel) (f : Fin cfg.maxBlockCap) (w : Word) : State cfg :=
  s.land (.writeOut ch f w)

/-- The host reads a frame of the output buffer between commands (R112, R115 (c)). -/
def State.hostReadOut (s : State cfg) (ch : Channel) (f : Fin cfg.maxBlockCap) : Word := (s.out ch).read f

/-- The host zeroes the frames `0..n-1` of both channels (`30_encoding.md` R151: `.zero n`). -/
def State.hostZero (s : State cfg) (n : Nat) : State cfg :=
  { s with outL := s.outL.zeroBelow n, outR := s.outR.zeroBelow n }

/-- An access that the host makes while the next command is in progress (R111, R112). -/
def State.hostDuring (s : State cfg) (p : PortAccess cfg) : State cfg := { s with port := s.port ++ [p] }

/-- The host actions of a run (R113). -/
inductive HostMove (cfg : Config.Params) where
  /-- queues command words -/
  | words (ws : List Word)
  /-- writes a cell through its own port -/
  | cell (c : Fin Config.NPARAM) (w : Word)
  /-- writes a frame of the output buffer -/
  | frame (ch : Channel) (f : Fin cfg.maxBlockCap) (w : Word)
  /-- zeroes the first frames of the output buffer -/
  | zero (n : Nat)
  /-- removes the front response word -/
  | pop
  /-- accesses a port while the next command is in progress -/
  | during (p : PortAccess cfg)
deriving DecidableEq, Repr

/-- One host action (R113). -/
def State.hostMove (s : State cfg) (m : HostMove cfg) : State cfg :=
  match m with
  | .words ws => { s with cmd := s.cmd ++ ws }
  | .cell c w => s.hostWriteCell c w
  | .frame ch f w => s.hostWriteOut ch f w
  | .zero n => s.hostZero n
  | .pop => { s with rsp := s.rsp.tail }
  | .during p => s.hostDuring p

/-- The block executes the commands in its queue, at most `fuel` of them; it stops at a refusal. Every command takes at least its
header, so as many steps as there are words leave only an incomplete command (R452, R453). -/
def drain : Nat → State cfg → Out cfg
  | 0, s => .next s
  | fuel + 1, s =>
    match stepAt s with
    | .next t => drain fuel t
    | .fault f => .fault f
    | .refused r => .refused r

/-- A run (R452): the host acts, the block executes what is queued, and so on to the end of the list. -/
def runMoves : List (HostMove cfg) → State cfg → Out cfg
  | [], s => .next s
  | m :: ms, s =>
    match drain (s.hostMove m).cmd.length (s.hostMove m) with
    | .next t => runMoves ms t
    | .fault f => .fault f
    | .refused r => .refused r

end Sys2Proof.Machine
end

