-- ==== Sys2Proof/Machine/Assembler.lean ====
section
/-! DEFINITION. The assembler syntax (`30_encoding.md` R150, R151): one line of text to command words and host directives. It is no
part of the machine; it says what the written programs of the spec mean (log entry 23). -/

namespace Sys2Proof.Machine.Asm

/-! Text. -/

/-- The characters up to a comment (R150: "`;` starts a comment"). -/
def uncomment (l : List Char) : List Char := l.takeWhile fun c => c != ';'

def isBlank (c : Char) : Bool := c == ' ' || c == '\t' || c == '\r' || c == '\n'

/-- Blanks off both ends. -/
def trim (l : List Char) : List Char := ((l.dropWhile isBlank).reverse.dropWhile isBlank).reverse

/-- The parts between commas. -/
def splitCommas : List Char → List (List Char)
  | [] => [[]]
  | c :: l =>
    if c == ',' then [] :: splitCommas l
    else
      match splitCommas l with
      | [] => [[c]]
      | p :: ps => (c :: p) :: ps

/-- The operands of a line: none if nothing follows the mnemonic. -/
def operands (l : List Char) : List String :=
  if (trim l).isEmpty then [] else (splitCommas l).map fun p => String.ofList (trim p)

/-! Numbers. -/

/-- A decimal digit. -/
def digit (c : Char) : Option Nat :=
  if '0'.toNat ≤ c.toNat ∧ c.toNat ≤ '9'.toNat then some (c.toNat - '0'.toNat) else none

/-- A hexadecimal digit. -/
def hexDigit (c : Char) : Option Nat :=
  match digit c with
  | some d => some d
  | none =>
    if 'a'.toNat ≤ c.toNat ∧ c.toNat ≤ 'f'.toNat then some (c.toNat - 'a'.toNat + 10)
    else if 'A'.toNat ≤ c.toNat ∧ c.toNat ≤ 'F'.toNat then some (c.toNat - 'A'.toNat + 10)
    else none

/-- Digits in a base, most significant first, after the value `acc`. -/
def digits (base : Nat) (dig : Char → Option Nat) : Nat → List Char → Option Nat
  | acc, [] => some acc
  | acc, c :: l =>
    match dig c with
    | some d => digits base dig (acc * base + d) l
    | none => none

/-- One or more digits in a base. -/
def number (base : Nat) (dig : Char → Option Nat) (l : List Char) : Option Nat :=
  if l.isEmpty then none else digits base dig 0 l

/-- A `u` operand: a decimal or `0x` integer (R150). DESIGN CHOICE (log entry 30): a number of 2^32 or more, which R150 does not speak
of, is no operand. -/
def uNumber (t : String) : Option Word :=
  let n := match t.toList with
    | '0' :: 'x' :: l => number 16 hexDigit l
    | l => number 10 digit l
  match n with
  | some k => if k < 2 ^ 32 then some (BitVec.ofNat 32 k) else none
  | none => none

/-- A decimal literal without its sign, as the nearest binary32 (R150, `00_scope.md` R7): digits, at most one point among them.
DESIGN CHOICE (log entry 24): R150 does not say whether a decimal literal may carry an exponent or a plus sign; this assembler takes
neither, so the operand that a table of `95_test_vectors.md` writes as 1e9 is written 1000000000. -/
def decimal (l : List Char) : Option F32 :=
  let i := l.takeWhile fun c => c != '.'
  let f := (l.dropWhile fun c => c != '.').drop 1
  match number 10 digit (i ++ f) with
  | some k => some (F32.dec k (10 ^ f.length))
  | none => none

/-- An `f` operand: `0x` and 8 hexadecimal digits are the raw bits, else a decimal literal (R150). -/
def fNumber (t : String) : Option Word :=
  match t.toList with
  | '0' :: 'x' :: l => if l.length = 8 then (number 16 hexDigit l).map fun k => BitVec.ofNat 32 k else none
  | '-' :: l => (decimal l).map fun x => x.neg.bits
  | l => (decimal l).map fun x => x.bits

/-- The voice operand `v<number>` (R150). DESIGN CHOICE (log entry 30): a number of 256 or more, which the field `VID` does not hold and
R150 does not speak of, is no voice operand. DESIGN CHOICE (log entry 33): the
number is decimal; R150 gives a base for `u` operands only. -/
def voice (t : String) : Option Byte :=
  match t.toList with
  | 'v' :: l => (number 10 digit l).bind fun k => if k < 256 then some (BitVec.ofNat 8 k) else none
  | _ => none

/-! Names. -/

/-- The names of R37. -/
def modeNames : List String :=
  ["RINGS", "CLOUDS", "KARPLUS", "RINGS_INTO_CLOUDS", "HYBRID_ALL", "OSC", "OSC_RINGS", "OSC_CLOUDS", "FULL_HYBRID"]
/-- The names of R38. -/
def modelNames : List String := ["STRING", "MEMBRANE", "TUBE", "BELL"]
/-- The names of R39. -/
def waveNames : List String := ["SINE", "SAW", "SQUARE", "TRIANGLE", "PULSE"]
/-- The names of R40. -/
def typeNames : List String := ["LOWPASS", "BANDPASS", "HIGHPASS"]
/-- The names of `20_memory.md` R101. -/
def spaceNames : List String :=
  ["SYS", "PARAM", "VOICE", "MODEREG", "GRAINREG", "GBUF_L", "GBUF_R", "KSDL", "WT", "OUT_L", "OUT_R"]

/-- The cell names of `10_state.md` R35, in index order. -/
def cellNames : List String :=
  ["engineMode", "ringsBrightness", "ringsDamping", "ringsPosition", "ringsStructure", "ringsModel"] ++
  ["cloudsPosition", "cloudsSize", "cloudsDensity", "cloudsPitch", "cloudsTexture", "cloudsFreeze"] ++
  ["wtTableA", "wtTableB", "wtMorph", "wtWarp", "wtFold"] ++
  ["mixRings", "mixClouds", "mixKarplus", "mixWavetable", "mixOsc"] ++
  ["ampAttack", "ampDecay", "ampSustain", "ampRelease", "fltAttack", "fltDecay", "fltSustain", "fltRelease"] ++
  ["filterCutoff", "filterResonance", "filterEnvAmount", "filterType"] ++
  ["osc1Wave", "osc2Wave", "osc2Detune", "oscMix", "oscPulseWidth"]

/-- The position of a name in a list, the first being `k`. -/
def indexFrom (t : String) : Nat → List String → Option Nat
  | _, [] => none
  | k, n :: ns => if n == t then some k else indexFrom t (k + 1) ns

/-- A code by name or by number (R150). DESIGN CHOICE (log entry 33): the number is written as a `u` operand is, decimal or `0x`; R150
gives no base for it. DESIGN CHOICE (log entry 30): R150 does not say what a number too large for its field means, of
256 or more for `ARG`, of 16 or more for a packed waveform, of 2 or more for an instance; a number that is not below `limit` is no
code. -/
def code (names : List String) (limit : Nat) (t : String) : Option Nat :=
  match indexFrom t 0 names with
  | some k => some k
  | none => (uNumber t).bind fun w => if w.toNat < limit then some w.toNat else none

/-- The cells of type `u` (`10_state.md` R35); all others are of type `f`. DESIGN CHOICE (log entry 32): a number of 39 or more names no
cell and has no type in R35; it counts as type `f` here, so the value of a `WRPARAM` with such a number is written as an `f` operand. -/
def cellIsU (c : Nat) : Bool := [0, 5, 11, 12, 13, 33, 34, 35].contains c

/-! Commands. -/

/-- The mnemonics of R146 and the operations they name. -/
def mnemonics : List (String × (Byte → Byte → List Word → Instr)) :=
  [("NOP", .nop), ("PREPARE", .prepare), ("CLRERR", .clrerr), ("PEEK", .peek), ("WRPARAM", .wrparam)] ++
  [("SETGLOBAL", .setglobal), ("NOTEON", .noteon), ("NOTEOFF", .noteoff), ("RENDER", .render)] ++
  [("V.START", .vStart), ("V.STOP", .vStop), ("V.RENDER", .vRender), ("V.SETMODE", .vSetmode),
    ("V.SETRINGS", .vSetrings), ("V.SETCLOUDS", .vSetclouds), ("V.SETWT", .vSetwt), ("V.SETMIX", .vSetmix),
    ("V.SETENV", .vSetenv), ("V.SETFILT", .vSetfilt), ("V.SETOSC", .vSetosc)] ++
  [("MR.SETPARAMS", .mrSetparams), ("MR.TRIGGER", .mrTrigger), ("MR.PROC", .mrProc)] ++
  [("GR.WRITE", .grWrite), ("GR.PROC", .grProc)] ++
  [("KS.SETFREQ", .ksSetfreq), ("KS.TRIGGER", .ksTrigger), ("KS.GET", .ksGet), ("WT.GET", .wtGet)] ++
  [("OSC.SETFREQ", .oscSetfreq), ("OSC.SETWAVE", .oscSetwave), ("OSC.RESET", .oscReset), ("OSC.NEXT", .oscNext)] ++
  [("ENV.SETPARAMS", .envSetparams), ("ENV.NOTEON", .envNoteon), ("ENV.NOTEOFF", .envNoteoff),
    ("ENV.NEXT", .envNext), ("FLT.PROC", .fltProc), ("FLT.RESET", .fltReset)]

/-- The operation of a mnemonic. -/
def operation (t : String) : Option (Byte → Byte → List Word → Instr) :=
  (mnemonics.find? fun p => p.1 == t).map fun p => p.2

/-- Which operand words of a command are of type `u` (column "operands" of R146); the others are of type `f`. The word of
`WRPARAM` has the type of its cell. -/
def operandIsU (i : Instr) (k : Nat) : Bool :=
  match i with
  | .prepare .. => k == 1
  | .peek .. | .render .. | .vRender .. => true
  | .wrparam _ arg _ => cellIsU arg.toNat
  | .vSetwt .. => k < 2
  | .wtGet .. => k == 1 || k == 2
  | .nop .. | .clrerr .. | .setglobal .. | .noteon .. | .noteoff .. | .vStart .. | .vStop .. | .vSetmode .. |
    .vSetrings .. | .vSetclouds .. | .vSetmix .. | .vSetenv .. | .vSetfilt .. | .vSetosc .. | .mrSetparams .. |
    .mrTrigger .. | .mrProc .. | .grWrite .. | .grProc .. | .ksSetfreq .. | .ksTrigger .. | .ksGet .. |
    .oscSetfreq .. | .oscSetwave .. | .oscReset .. | .oscNext .. | .envSetparams .. | .envNoteon .. |
    .envNoteoff .. | .envNext .. | .fltProc .. | .fltReset .. => false

/-- A value of `ARG` (R150), by name or by number (log entries 30, 33). -/
def argOf (names : List String) (t : String) : Option Byte := (code names 256 t).map fun k => BitVec.ofNat 8 k

/-- The operand words from number `k` on. -/
def wordsFrom (i : Instr) : Nat → List String → Option (List Word)
  | _, [] => some []
  | k, t :: ts =>
    match (if operandIsU i k then uNumber t else fNumber t), wordsFrom i (k + 1) ts with
    | some w, some ws => some (w :: ws)
    | _, _ => none

/-- The words of a command of the operation of `i`, given its `VID`, `ARG` and operand texts; `LEN` is the required count. -/
def finishCommand (mk : Byte → Byte → List Word → Instr) (vid arg : Byte) (ts : List String) : Option (List Word) :=
  match wordsFrom (mk vid arg []) 0 ts with
  | some ws => if ws.length = (instrRow (mk vid arg [])).len then some (encode (mk vid arg ws)) else none
  | none => none

/-- `ARG` and the operand words that follow it, from the texts after the voice (R150). -/
def afterVoice (mk : Byte → Byte → List Word → Instr) (vid : Byte) (ts : List String) : Option (List Word) :=
  let one (names : List String) : Option (List Word) :=
    match ts with
    | t :: ts => (argOf names t).bind fun a => finishCommand mk vid a ts
    | [] => none
  match mk 0 0 [] with
  | .vSetmode .. => one modeNames
  | .vSetrings .. | .mrSetparams .. => one modelNames
  | .vSetfilt .. => one typeNames
  | .vSetclouds .. | .noteon .. | .noteoff .. | .vStart .. | .vStop .. | .wrparam .. | .oscSetfreq .. |
    .oscReset .. | .oscNext .. | .envSetparams .. | .envNoteon .. | .envNoteoff .. | .envNext .. => one []
  | .vSetosc .. =>
    match ts with
    | t0 :: t1 :: ts =>
      match code waveNames 16 t0, code waveNames 16 t1 with
      | some w0, some w1 => finishCommand mk vid (BitVec.ofNat 8 (16 * w1 + w0)) ts
      | _, _ => none
    | _ => none
  | .oscSetwave .. =>
    match ts with
    | t0 :: t1 :: ts =>
      match code [] 2 t0, code waveNames 16 t1 with
      | some k, some w => finishCommand mk vid (BitVec.ofNat 8 (16 * w + k)) ts
      | _, _ => none
    | _ => none
  | .nop .. | .prepare .. | .clrerr .. | .peek .. | .setglobal .. | .render .. | .vRender .. | .vSetwt .. |
    .vSetmix .. | .vSetenv .. | .mrTrigger .. | .mrProc .. | .grWrite .. | .grProc .. | .ksSetfreq .. |
    .ksTrigger .. | .ksGet .. | .wtGet .. | .fltProc .. | .fltReset .. => finishCommand mk vid 0 ts

/-- `PEEK space, v<number>, addr` or `PEEK space, addr` (R150). DESIGN CHOICE (log entry 25): R150 gives the first form to the
per-voice spaces and the second to the global ones and does not say what a line in the other kind's form means; this assembler takes
either form with either kind of space, with `VID` 0 where the line has no voice, and leaves the check of the words to the block. -/
def peekCommand (ts : List String) : Option (List Word) :=
  match ts with
  | [sp, a] => (argOf spaceNames sp).bind fun s => finishCommand .peek 0 s [a]
  | [sp, v, a] =>
    match argOf spaceNames sp, voice v with
    | some s, some vid => finishCommand .peek vid s [a]
    | _, _ => none
  | _ => none

/-- The words of a command by its mnemonic and operand texts (R150). -/
def command (t : String) (ts : List String) : Option (List Word) :=
  match operation t with
  | none => none
  | some mk =>
    match (instrRow (mk 0 0 [])).vidUse with
    | .global => afterVoice mk 0 ts
    | .bySpace => peekCommand ts
    | .perVoice =>
      match ts with
      | v :: ts => (voice v).bind fun vid => afterVoice mk vid ts
      | [] => none

/-- What a line stands for (R150, R151). -/
inductive Item where
  /-- command words -/
  | words (ws : List Word)
  /-- `.zero n` -/
  | zero (n : Nat)
  /-- `.rand x0, x1, ...`: fixes the draws of the program (`paramsFor`) -/
  | rand (xs : List Word)
  /-- `.expect ...`: states an expected value, no action -/
  | expect
deriving DecidableEq, Repr

/-- All of a list, or nothing. -/
def sequence {α : Type} : List (Option α) → Option (List α)
  | [] => some []
  | some a :: l => (sequence l).map fun as => a :: as
  | none :: _ => none

/-- `.rand x0, x1, ...` (R151). DESIGN CHOICE (log entry 31): R151 does not say how a value is written; it is written as an `f` operand is,
a decimal literal or `0x` and 8 hexadecimal digits. DESIGN CHOICE (log entry 31): a value outside [0, 1), which no `RAND_STREAM` has (`00_scope.md` R12),
makes the line none. -/
def randLine (ts : List String) : Option (List Item) :=
  (sequence (ts.map fNumber)).bind fun xs => if xs.all fun w => isDraw ⟨w⟩ then some [.rand xs] else none

/-- A line by its mnemonic and operand texts: a command, a pseudo-command or a directive (R151). -/
def lineItems (t : String) (ts : List String) : Option (List Item) :=
  if t == "V.KILL" then (command "V.STOP" (ts ++ ["0"])).map fun ws => [.words ws]
  else if t == "V.RELEASE" then (command "V.STOP" (ts ++ ["1"])).map fun ws => [.words ws]
  else if t == "SETP" then
    match ts with
    | [c, x] =>
      (indexFrom c 0 cellNames).bind fun k =>
        (finishCommand .wrparam 0 (BitVec.ofNat 8 k) [x]).map fun ws => [.words ws]
    | _ => none
  else if t == "BLOCK" then
    match ts, command "RENDER" ts with
    | [n], some ws =>
      (uNumber n).map fun k => [.words (encode (.setglobal 0 0 [])), .zero k.toNat, .words ws]
    | _, _ => none
  else if t == ".zero" then
    match ts with
    | [n] => (uNumber n).map fun k => [.zero k.toNat]
    | _ => none
  else if t == ".rand" then randLine ts
  else if t == ".expect" then some [.expect]
  else (command t ts).map fun ws => [.words ws]

/-- One line of text (R150, R151); an empty line or a comment stands for nothing. -/
def line (text : String) : Option (List Item) :=
  let l := trim (uncomment text.toList)
  if l.isEmpty then some []
  else
    lineItems (String.ofList (l.takeWhile fun c => !isBlank c)) (operands (l.dropWhile fun c => !isBlank c))

/-- A program of many lines: the items of all of them, if each is a line (R150). -/
def program (texts : List String) : Option (List Item) := (sequence (texts.map line)).map List.flatten

/-- The draws that a program fixes with `.rand` (R151): `RAND_STREAM(0)`, `RAND_STREAM(1)`, ... DESIGN CHOICE (log entry 31): of several
such lines, of which R151 does not speak, the last one holds. -/
def fixedDraws (items : List Item) : Option (List F32) :=
  items.foldl (fun xs i =>
    match i with
    | .rand ws => some (ws.map F32.mk)
    | .words _ | .zero _ | .expect => xs) none

/-- The parameters of the block that a program runs on (R151): `cfg`, with the stream that the program fixes, if it fixes one; what it
does not list is 0.5 (`drawOf`). -/
def paramsFor (cfg : Config.Params) (items : List Item) : Config.Params :=
  match fixedDraws items with
  | some xs => { cfg with draws := some xs }
  | none => cfg

/-- The host actions of an assembled program (R151): `.rand` is none, since it acts before the program through `paramsFor`, and
`.expect` is none. -/
def moves {cfg : Config.Params} (items : List Item) : List (HostMove cfg) :=
  items.filterMap fun
    | .words ws => some (.words ws)
    | .zero n => some (.zero n)
    | .rand _ => none
    | .expect => none

/-- A written program run from reset (R151): on the block whose draws its `.rand` fixes. -/
def run (cfg : Config.Params) (items : List Item) : Out (paramsFor cfg items) :=
  runMoves (moves items) (State.resetAt (paramsFor cfg items))

end Sys2Proof.Machine.Asm
end

