-- ==== Sys2Proof/Laws/Configured.lean ====
section
/-! SUPPORT. With the default parameters a configured command is the command, a configured step is the step (log entry 1), and the
draws are those of the open stream; where a program fixes its draws (`30_encoding.md` R151) they are the listed ones. -/

namespace Sys2Proof.Machine

theorem execAt_eq_exec (i : Instr) (s : State) : execAt i s = exec i s := by cases i <;> rfl

theorem stepAt_eq_step (s : State) : stepAt s = step s := by
  unfold stepAt step
  rw [show execAt = exec from funext fun i => funext (execAt_eq_exec i)]

/-! Draws (`00_scope.md` R12). -/

@[simp] theorem drawOf_std (k : Word) : drawOf Config.std k = randStream k := rfl

theorem unitRaw_of_isDraw {r : F32} (h : isDraw r = true) : unitRaw r = r := by simp [unitRaw, h]

theorem isDraw_unitRaw (r : F32) : isDraw (unitRaw r) = true := by
  unfold unitRaw
  split
  · assumption
  · decide +kernel

/-- Every draw of every block lies in [0, 1). -/
theorem isDraw_drawOf (cfg : Config.Params) (k : Word) : isDraw (drawOf cfg k) = true := by
  unfold drawOf
  split <;> exact isDraw_unitRaw _

/-- A program without `.rand` runs on the stream of the block (R151). -/
theorem paramsFor_of_none {cfg : Config.Params} {items : List Asm.Item} (h : Asm.fixedDraws items = none) :
    Asm.paramsFor cfg items = cfg := by
  simp [Asm.paramsFor, h]

/-- A program with `.rand` draws the listed values in their order, and 0.5 after them (R151). -/
theorem drawOf_paramsFor {cfg : Config.Params} {items : List Asm.Item} {xs : List F32} (h : Asm.fixedDraws items = some xs)
    (hx : ∀ x ∈ xs, isDraw x = true) (k : Word) :
    drawOf (Asm.paramsFor cfg items) k = xs.getD k.toNat Config.unlistedDraw := by
  simp only [Asm.paramsFor, h, drawOf]
  refine unitRaw_of_isDraw ?_
  rw [List.getD_eq_getElem?_getD]
  cases hk : xs[k.toNat]? with
  | none => decide +kernel
  | some x => exact hx x (List.mem_of_getElem? hk)

end Sys2Proof.Machine
end

