-- ==== Sys2Proof/Laws/Vec.lean ====
section
/-! SUPPORT. Banks iterated in index order (`00_scope.md` R14): what each element is afterwards. -/

namespace Sys2Proof.Machine

theorem getElem_listMapFrom {α β : Type} (f : Nat → α → β) (k : Nat) (l : List α) (i : Nat)
    (h : i < (listMapFrom f k l).length) :
    (listMapFrom f k l)[i] = f (k + i) (l[i]'(by simpa [length_listMapFrom] using h)) := by
  induction l generalizing k i with
  | nil => simp [listMapFrom] at h
  | cons a l ih =>
    cases i with
    | zero => rfl
    | succ i =>
      simp only [listMapFrom, List.getElem_cons_succ]
      rw [ih (k + 1) i (by simpa [listMapFrom] using h)]
      congr 1
      omega

@[simp] theorem getElem_vecMapIdx {α β : Type} {n : Nat} (f : Nat → α → β) (v : Vector α n) (i : Nat) (h : i < n) :
    (vecMapIdx f v)[i] = f i v[i] := by
  unfold vecMapIdx
  simp [getElem_listMapFrom]

@[simp] theorem getElem_vecMap {α β : Type} {n : Nat} (f : α → β) (v : Vector α n) (i : Nat) (h : i < n) :
    (vecMap f v)[i] = f v[i] := by
  simp [vecMap]

/-- A bank whose elements the function keeps is kept. -/
theorem vecMapIdx_eq_self {α : Type} {n : Nat} (f : Nat → α → α) (v : Vector α n)
    (h : ∀ (i : Nat) (hi : i < n), f i v[i] = v[i]) : vecMapIdx f v = v := by
  apply Vector.ext
  intro i hi
  rw [getElem_vecMapIdx, h i hi]

/-- The same, for a function of the element alone. -/
theorem vecMap_eq_self {α : Type} {n : Nat} (f : α → α) (v : Vector α n)
    (h : ∀ (i : Nat) (hi : i < n), f v[i] = v[i]) : vecMap f v = v := by
  apply Vector.ext
  intro i hi
  rw [getElem_vecMap, h i hi]

end Sys2Proof.Machine
end

