-- ==== Sys2Proof/Laws/State.lean ====
section
/-! SUPPORT. What each named update of the state does to each field, one lemma per field, and what each voice is afterwards. -/

namespace Sys2Proof.Machine

variable {cfg : Config.Params}

/-! `State.setVoice`. -/

@[simp] theorem State.setVoice_err (s : State cfg) (v : Fin cfg.nv) (x : Voice cfg) : (s.setVoice v x).err = s.err := rfl
@[simp] theorem State.setVoice_errInfo (s : State cfg) (v : Fin cfg.nv) (x : Voice cfg) :
    (s.setVoice v x).errInfo = s.errInfo := rfl
@[simp] theorem State.setVoice_errCnt (s : State cfg) (v : Fin cfg.nv) (x : Voice cfg) :
    (s.setVoice v x).errCnt = s.errCnt := rfl
@[simp] theorem State.setVoice_sr (s : State cfg) (v : Fin cfg.nv) (x : Voice cfg) : (s.setVoice v x).sr = s.sr := rfl
@[simp] theorem State.setVoice_maxBlock (s : State cfg) (v : Fin cfg.nv) (x : Voice cfg) :
    (s.setVoice v x).maxBlock = s.maxBlock := rfl
@[simp] theorem State.setVoice_fadeIn (s : State cfg) (v : Fin cfg.nv) (x : Voice cfg) :
    (s.setVoice v x).fadeIn = s.fadeIn := rfl
@[simp] theorem State.setVoice_fadeOut (s : State cfg) (v : Fin cfg.nv) (x : Voice cfg) :
    (s.setVoice v x).fadeOut = s.fadeOut := rfl
@[simp] theorem State.setVoice_bufLen (s : State cfg) (v : Fin cfg.nv) (x : Voice cfg) :
    (s.setVoice v x).bufLen = s.bufLen := rfl
@[simp] theorem State.setVoice_rngIdx (s : State cfg) (v : Fin cfg.nv) (x : Voice cfg) :
    (s.setVoice v x).rngIdx = s.rngIdx := rfl
@[simp] theorem State.setVoice_noteSeq (s : State cfg) (v : Fin cfg.nv) (x : Voice cfg) :
    (s.setVoice v x).noteSeq = s.noteSeq := rfl
@[simp] theorem State.setVoice_params (s : State cfg) (v : Fin cfg.nv) (x : Voice cfg) :
    (s.setVoice v x).params = s.params := rfl
@[simp] theorem State.setVoice_voices (s : State cfg) (v : Fin cfg.nv) (x : Voice cfg) :
    (s.setVoice v x).voices = s.voices.set v x := rfl
@[simp] theorem State.setVoice_outL (s : State cfg) (v : Fin cfg.nv) (x : Voice cfg) :
    (s.setVoice v x).outL = s.outL := rfl
@[simp] theorem State.setVoice_outR (s : State cfg) (v : Fin cfg.nv) (x : Voice cfg) :
    (s.setVoice v x).outR = s.outR := rfl
@[simp] theorem State.setVoice_cmd (s : State cfg) (v : Fin cfg.nv) (x : Voice cfg) : (s.setVoice v x).cmd = s.cmd := rfl
@[simp] theorem State.setVoice_rsp (s : State cfg) (v : Fin cfg.nv) (x : Voice cfg) : (s.setVoice v x).rsp = s.rsp := rfl
@[simp] theorem State.setVoice_port (s : State cfg) (v : Fin cfg.nv) (x : Voice cfg) :
    (s.setVoice v x).port = s.port := rfl

/-! `State.updVoice`. -/

@[simp] theorem State.updVoice_err (s : State cfg) (v : Fin cfg.nv) (f : Voice cfg → Voice cfg) :
    (s.updVoice v f).err = s.err := rfl
@[simp] theorem State.updVoice_errInfo (s : State cfg) (v : Fin cfg.nv) (f : Voice cfg → Voice cfg) :
    (s.updVoice v f).errInfo = s.errInfo := rfl
@[simp] theorem State.updVoice_errCnt (s : State cfg) (v : Fin cfg.nv) (f : Voice cfg → Voice cfg) :
    (s.updVoice v f).errCnt = s.errCnt := rfl
@[simp] theorem State.updVoice_sr (s : State cfg) (v : Fin cfg.nv) (f : Voice cfg → Voice cfg) :
    (s.updVoice v f).sr = s.sr := rfl
@[simp] theorem State.updVoice_maxBlock (s : State cfg) (v : Fin cfg.nv) (f : Voice cfg → Voice cfg) :
    (s.updVoice v f).maxBlock = s.maxBlock := rfl
@[simp] theorem State.updVoice_fadeIn (s : State cfg) (v : Fin cfg.nv) (f : Voice cfg → Voice cfg) :
    (s.updVoice v f).fadeIn = s.fadeIn := rfl
@[simp] theorem State.updVoice_fadeOut (s : State cfg) (v : Fin cfg.nv) (f : Voice cfg → Voice cfg) :
    (s.updVoice v f).fadeOut = s.fadeOut := rfl
@[simp] theorem State.updVoice_bufLen (s : State cfg) (v : Fin cfg.nv) (f : Voice cfg → Voice cfg) :
    (s.updVoice v f).bufLen = s.bufLen := rfl
@[simp] theorem State.updVoice_rngIdx (s : State cfg) (v : Fin cfg.nv) (f : Voice cfg → Voice cfg) :
    (s.updVoice v f).rngIdx = s.rngIdx := rfl
@[simp] theorem State.updVoice_noteSeq (s : State cfg) (v : Fin cfg.nv) (f : Voice cfg → Voice cfg) :
    (s.updVoice v f).noteSeq = s.noteSeq := rfl
@[simp] theorem State.updVoice_params (s : State cfg) (v : Fin cfg.nv) (f : Voice cfg → Voice cfg) :
    (s.updVoice v f).params = s.params := rfl
@[simp] theorem State.updVoice_voices (s : State cfg) (v : Fin cfg.nv) (f : Voice cfg → Voice cfg) :
    (s.updVoice v f).voices = s.voices.set v (f (s.voice v)) := rfl
@[simp] theorem State.updVoice_outL (s : State cfg) (v : Fin cfg.nv) (f : Voice cfg → Voice cfg) :
    (s.updVoice v f).outL = s.outL := rfl
@[simp] theorem State.updVoice_outR (s : State cfg) (v : Fin cfg.nv) (f : Voice cfg → Voice cfg) :
    (s.updVoice v f).outR = s.outR := rfl
@[simp] theorem State.updVoice_cmd (s : State cfg) (v : Fin cfg.nv) (f : Voice cfg → Voice cfg) :
    (s.updVoice v f).cmd = s.cmd := rfl
@[simp] theorem State.updVoice_rsp (s : State cfg) (v : Fin cfg.nv) (f : Voice cfg → Voice cfg) :
    (s.updVoice v f).rsp = s.rsp := rfl
@[simp] theorem State.updVoice_port (s : State cfg) (v : Fin cfg.nv) (f : Voice cfg → Voice cfg) :
    (s.updVoice v f).port = s.port := rfl

/-! `State.updVoices`. -/

@[simp] theorem State.updVoices_err (s : State cfg) (f : Voice cfg → Voice cfg) : (s.updVoices f).err = s.err := rfl
@[simp] theorem State.updVoices_errInfo (s : State cfg) (f : Voice cfg → Voice cfg) : (s.updVoices f).errInfo = s.errInfo := rfl
@[simp] theorem State.updVoices_errCnt (s : State cfg) (f : Voice cfg → Voice cfg) : (s.updVoices f).errCnt = s.errCnt := rfl
@[simp] theorem State.updVoices_sr (s : State cfg) (f : Voice cfg → Voice cfg) : (s.updVoices f).sr = s.sr := rfl
@[simp] theorem State.updVoices_maxBlock (s : State cfg) (f : Voice cfg → Voice cfg) :
    (s.updVoices f).maxBlock = s.maxBlock := rfl
@[simp] theorem State.updVoices_fadeIn (s : State cfg) (f : Voice cfg → Voice cfg) : (s.updVoices f).fadeIn = s.fadeIn := rfl
@[simp] theorem State.updVoices_fadeOut (s : State cfg) (f : Voice cfg → Voice cfg) : (s.updVoices f).fadeOut = s.fadeOut := rfl
@[simp] theorem State.updVoices_bufLen (s : State cfg) (f : Voice cfg → Voice cfg) : (s.updVoices f).bufLen = s.bufLen := rfl
@[simp] theorem State.updVoices_rngIdx (s : State cfg) (f : Voice cfg → Voice cfg) : (s.updVoices f).rngIdx = s.rngIdx := rfl
@[simp] theorem State.updVoices_noteSeq (s : State cfg) (f : Voice cfg → Voice cfg) : (s.updVoices f).noteSeq = s.noteSeq := rfl
@[simp] theorem State.updVoices_params (s : State cfg) (f : Voice cfg → Voice cfg) : (s.updVoices f).params = s.params := rfl
@[simp] theorem State.updVoices_voices (s : State cfg) (f : Voice cfg → Voice cfg) :
    (s.updVoices f).voices = vecMap f s.voices := rfl
@[simp] theorem State.updVoices_outL (s : State cfg) (f : Voice cfg → Voice cfg) : (s.updVoices f).outL = s.outL := rfl
@[simp] theorem State.updVoices_outR (s : State cfg) (f : Voice cfg → Voice cfg) : (s.updVoices f).outR = s.outR := rfl
@[simp] theorem State.updVoices_cmd (s : State cfg) (f : Voice cfg → Voice cfg) : (s.updVoices f).cmd = s.cmd := rfl
@[simp] theorem State.updVoices_rsp (s : State cfg) (f : Voice cfg → Voice cfg) : (s.updVoices f).rsp = s.rsp := rfl
@[simp] theorem State.updVoices_port (s : State cfg) (f : Voice cfg → Voice cfg) : (s.updVoices f).port = s.port := rfl

/-! `State.push`. -/

@[simp] theorem State.push_err (s : State cfg) (w : Word) : (s.push w).err = s.err := rfl
@[simp] theorem State.push_errInfo (s : State cfg) (w : Word) : (s.push w).errInfo = s.errInfo := rfl
@[simp] theorem State.push_errCnt (s : State cfg) (w : Word) : (s.push w).errCnt = s.errCnt := rfl
@[simp] theorem State.push_sr (s : State cfg) (w : Word) : (s.push w).sr = s.sr := rfl
@[simp] theorem State.push_maxBlock (s : State cfg) (w : Word) : (s.push w).maxBlock = s.maxBlock := rfl
@[simp] theorem State.push_fadeIn (s : State cfg) (w : Word) : (s.push w).fadeIn = s.fadeIn := rfl
@[simp] theorem State.push_fadeOut (s : State cfg) (w : Word) : (s.push w).fadeOut = s.fadeOut := rfl
@[simp] theorem State.push_bufLen (s : State cfg) (w : Word) : (s.push w).bufLen = s.bufLen := rfl
@[simp] theorem State.push_rngIdx (s : State cfg) (w : Word) : (s.push w).rngIdx = s.rngIdx := rfl
@[simp] theorem State.push_noteSeq (s : State cfg) (w : Word) : (s.push w).noteSeq = s.noteSeq := rfl
@[simp] theorem State.push_params (s : State cfg) (w : Word) : (s.push w).params = s.params := rfl
@[simp] theorem State.push_voices (s : State cfg) (w : Word) : (s.push w).voices = s.voices := rfl
@[simp] theorem State.push_outL (s : State cfg) (w : Word) : (s.push w).outL = s.outL := rfl
@[simp] theorem State.push_outR (s : State cfg) (w : Word) : (s.push w).outR = s.outR := rfl
@[simp] theorem State.push_cmd (s : State cfg) (w : Word) : (s.push w).cmd = s.cmd := rfl
@[simp] theorem State.push_rsp (s : State cfg) (w : Word) : (s.push w).rsp = s.rsp ++ [w] := rfl
@[simp] theorem State.push_port (s : State cfg) (w : Word) : (s.push w).port = s.port := rfl

/-! `State.pushF`. -/

@[simp] theorem State.pushF_err (s : State cfg) (x : F32) : (s.pushF x).err = s.err := rfl
@[simp] theorem State.pushF_errInfo (s : State cfg) (x : F32) : (s.pushF x).errInfo = s.errInfo := rfl
@[simp] theorem State.pushF_errCnt (s : State cfg) (x : F32) : (s.pushF x).errCnt = s.errCnt := rfl
@[simp] theorem State.pushF_sr (s : State cfg) (x : F32) : (s.pushF x).sr = s.sr := rfl
@[simp] theorem State.pushF_maxBlock (s : State cfg) (x : F32) : (s.pushF x).maxBlock = s.maxBlock := rfl
@[simp] theorem State.pushF_fadeIn (s : State cfg) (x : F32) : (s.pushF x).fadeIn = s.fadeIn := rfl
@[simp] theorem State.pushF_fadeOut (s : State cfg) (x : F32) : (s.pushF x).fadeOut = s.fadeOut := rfl
@[simp] theorem State.pushF_bufLen (s : State cfg) (x : F32) : (s.pushF x).bufLen = s.bufLen := rfl
@[simp] theorem State.pushF_rngIdx (s : State cfg) (x : F32) : (s.pushF x).rngIdx = s.rngIdx := rfl
@[simp] theorem State.pushF_noteSeq (s : State cfg) (x : F32) : (s.pushF x).noteSeq = s.noteSeq := rfl
@[simp] theorem State.pushF_params (s : State cfg) (x : F32) : (s.pushF x).params = s.params := rfl
@[simp] theorem State.pushF_voices (s : State cfg) (x : F32) : (s.pushF x).voices = s.voices := rfl
@[simp] theorem State.pushF_outL (s : State cfg) (x : F32) : (s.pushF x).outL = s.outL := rfl
@[simp] theorem State.pushF_outR (s : State cfg) (x : F32) : (s.pushF x).outR = s.outR := rfl
@[simp] theorem State.pushF_cmd (s : State cfg) (x : F32) : (s.pushF x).cmd = s.cmd := rfl
@[simp] theorem State.pushF_rsp (s : State cfg) (x : F32) : (s.pushF x).rsp = s.rsp ++ [x.bits] := rfl
@[simp] theorem State.pushF_port (s : State cfg) (x : F32) : (s.pushF x).port = s.port := rfl

/-! `State.setRng`. -/

@[simp] theorem State.setRng_err (s : State cfg) (k : Word) : (s.setRng k).err = s.err := rfl
@[simp] theorem State.setRng_errInfo (s : State cfg) (k : Word) : (s.setRng k).errInfo = s.errInfo := rfl
@[simp] theorem State.setRng_errCnt (s : State cfg) (k : Word) : (s.setRng k).errCnt = s.errCnt := rfl
@[simp] theorem State.setRng_sr (s : State cfg) (k : Word) : (s.setRng k).sr = s.sr := rfl
@[simp] theorem State.setRng_maxBlock (s : State cfg) (k : Word) : (s.setRng k).maxBlock = s.maxBlock := rfl
@[simp] theorem State.setRng_fadeIn (s : State cfg) (k : Word) : (s.setRng k).fadeIn = s.fadeIn := rfl
@[simp] theorem State.setRng_fadeOut (s : State cfg) (k : Word) : (s.setRng k).fadeOut = s.fadeOut := rfl
@[simp] theorem State.setRng_bufLen (s : State cfg) (k : Word) : (s.setRng k).bufLen = s.bufLen := rfl
@[simp] theorem State.setRng_rngIdx (s : State cfg) (k : Word) : (s.setRng k).rngIdx = k := rfl
@[simp] theorem State.setRng_noteSeq (s : State cfg) (k : Word) : (s.setRng k).noteSeq = s.noteSeq := rfl
@[simp] theorem State.setRng_params (s : State cfg) (k : Word) : (s.setRng k).params = s.params := rfl
@[simp] theorem State.setRng_voices (s : State cfg) (k : Word) : (s.setRng k).voices = s.voices := rfl
@[simp] theorem State.setRng_outL (s : State cfg) (k : Word) : (s.setRng k).outL = s.outL := rfl
@[simp] theorem State.setRng_outR (s : State cfg) (k : Word) : (s.setRng k).outR = s.outR := rfl
@[simp] theorem State.setRng_cmd (s : State cfg) (k : Word) : (s.setRng k).cmd = s.cmd := rfl
@[simp] theorem State.setRng_rsp (s : State cfg) (k : Word) : (s.setRng k).rsp = s.rsp := rfl
@[simp] theorem State.setRng_port (s : State cfg) (k : Word) : (s.setRng k).port = s.port := rfl

/-! `State.raise`. -/

@[simp] theorem State.raise_err (s : State cfg) (f : FaultCode) (h : Word) :
    (s.raise f h).err = if s.err = 0 then faultCode f else s.err := rfl
@[simp] theorem State.raise_errInfo (s : State cfg) (f : FaultCode) (h : Word) :
    (s.raise f h).errInfo = if s.err = 0 then h else s.errInfo := rfl
@[simp] theorem State.raise_errCnt (s : State cfg) (f : FaultCode) (h : Word) :
    (s.raise f h).errCnt = if s.errCnt = 0xFFFFFFFF then s.errCnt else s.errCnt + 1 := rfl
@[simp] theorem State.raise_sr (s : State cfg) (f : FaultCode) (h : Word) : (s.raise f h).sr = s.sr := rfl
@[simp] theorem State.raise_maxBlock (s : State cfg) (f : FaultCode) (h : Word) :
    (s.raise f h).maxBlock = s.maxBlock := rfl
@[simp] theorem State.raise_fadeIn (s : State cfg) (f : FaultCode) (h : Word) : (s.raise f h).fadeIn = s.fadeIn := rfl
@[simp] theorem State.raise_fadeOut (s : State cfg) (f : FaultCode) (h : Word) : (s.raise f h).fadeOut = s.fadeOut := rfl
@[simp] theorem State.raise_bufLen (s : State cfg) (f : FaultCode) (h : Word) : (s.raise f h).bufLen = s.bufLen := rfl
@[simp] theorem State.raise_rngIdx (s : State cfg) (f : FaultCode) (h : Word) : (s.raise f h).rngIdx = s.rngIdx := rfl
@[simp] theorem State.raise_noteSeq (s : State cfg) (f : FaultCode) (h : Word) : (s.raise f h).noteSeq = s.noteSeq := rfl
@[simp] theorem State.raise_params (s : State cfg) (f : FaultCode) (h : Word) : (s.raise f h).params = s.params := rfl
@[simp] theorem State.raise_voices (s : State cfg) (f : FaultCode) (h : Word) : (s.raise f h).voices = s.voices := rfl
@[simp] theorem State.raise_outL (s : State cfg) (f : FaultCode) (h : Word) : (s.raise f h).outL = s.outL := rfl
@[simp] theorem State.raise_outR (s : State cfg) (f : FaultCode) (h : Word) : (s.raise f h).outR = s.outR := rfl
@[simp] theorem State.raise_cmd (s : State cfg) (f : FaultCode) (h : Word) : (s.raise f h).cmd = s.cmd := rfl
@[simp] theorem State.raise_rsp (s : State cfg) (f : FaultCode) (h : Word) : (s.raise f h).rsp = s.rsp := rfl
@[simp] theorem State.raise_port (s : State cfg) (f : FaultCode) (h : Word) : (s.raise f h).port = s.port := rfl

/-! `State.clearFault`. -/

@[simp] theorem State.clearFault_err (s : State cfg) : (s.clearFault).err = 0 := rfl
@[simp] theorem State.clearFault_errInfo (s : State cfg) : (s.clearFault).errInfo = 0 := rfl
@[simp] theorem State.clearFault_errCnt (s : State cfg) : (s.clearFault).errCnt = 0 := rfl
@[simp] theorem State.clearFault_sr (s : State cfg) : (s.clearFault).sr = s.sr := rfl
@[simp] theorem State.clearFault_maxBlock (s : State cfg) : (s.clearFault).maxBlock = s.maxBlock := rfl
@[simp] theorem State.clearFault_fadeIn (s : State cfg) : (s.clearFault).fadeIn = s.fadeIn := rfl
@[simp] theorem State.clearFault_fadeOut (s : State cfg) : (s.clearFault).fadeOut = s.fadeOut := rfl
@[simp] theorem State.clearFault_bufLen (s : State cfg) : (s.clearFault).bufLen = s.bufLen := rfl
@[simp] theorem State.clearFault_rngIdx (s : State cfg) : (s.clearFault).rngIdx = s.rngIdx := rfl
@[simp] theorem State.clearFault_noteSeq (s : State cfg) : (s.clearFault).noteSeq = s.noteSeq := rfl
@[simp] theorem State.clearFault_params (s : State cfg) : (s.clearFault).params = s.params := rfl
@[simp] theorem State.clearFault_voices (s : State cfg) : (s.clearFault).voices = s.voices := rfl
@[simp] theorem State.clearFault_outL (s : State cfg) : (s.clearFault).outL = s.outL := rfl
@[simp] theorem State.clearFault_outR (s : State cfg) : (s.clearFault).outR = s.outR := rfl
@[simp] theorem State.clearFault_cmd (s : State cfg) : (s.clearFault).cmd = s.cmd := rfl
@[simp] theorem State.clearFault_rsp (s : State cfg) : (s.clearFault).rsp = s.rsp := rfl
@[simp] theorem State.clearFault_port (s : State cfg) : (s.clearFault).port = s.port := rfl

/-! `State.setCell`. -/

@[simp] theorem State.setCell_err (s : State cfg) (c : Nat) (w : Word) : (s.setCell c w).err = s.err := rfl
@[simp] theorem State.setCell_errInfo (s : State cfg) (c : Nat) (w : Word) : (s.setCell c w).errInfo = s.errInfo := rfl
@[simp] theorem State.setCell_errCnt (s : State cfg) (c : Nat) (w : Word) : (s.setCell c w).errCnt = s.errCnt := rfl
@[simp] theorem State.setCell_sr (s : State cfg) (c : Nat) (w : Word) : (s.setCell c w).sr = s.sr := rfl
@[simp] theorem State.setCell_maxBlock (s : State cfg) (c : Nat) (w : Word) : (s.setCell c w).maxBlock = s.maxBlock := rfl
@[simp] theorem State.setCell_fadeIn (s : State cfg) (c : Nat) (w : Word) : (s.setCell c w).fadeIn = s.fadeIn := rfl
@[simp] theorem State.setCell_fadeOut (s : State cfg) (c : Nat) (w : Word) : (s.setCell c w).fadeOut = s.fadeOut := rfl
@[simp] theorem State.setCell_bufLen (s : State cfg) (c : Nat) (w : Word) : (s.setCell c w).bufLen = s.bufLen := rfl
@[simp] theorem State.setCell_rngIdx (s : State cfg) (c : Nat) (w : Word) : (s.setCell c w).rngIdx = s.rngIdx := rfl
@[simp] theorem State.setCell_noteSeq (s : State cfg) (c : Nat) (w : Word) : (s.setCell c w).noteSeq = s.noteSeq := rfl
@[simp] theorem State.setCell_params (s : State cfg) (c : Nat) (w : Word) :
    (s.setCell c w).params = s.params.setIfInBounds c w := rfl
@[simp] theorem State.setCell_voices (s : State cfg) (c : Nat) (w : Word) : (s.setCell c w).voices = s.voices := rfl
@[simp] theorem State.setCell_outL (s : State cfg) (c : Nat) (w : Word) : (s.setCell c w).outL = s.outL := rfl
@[simp] theorem State.setCell_outR (s : State cfg) (c : Nat) (w : Word) : (s.setCell c w).outR = s.outR := rfl
@[simp] theorem State.setCell_cmd (s : State cfg) (c : Nat) (w : Word) : (s.setCell c w).cmd = s.cmd := rfl
@[simp] theorem State.setCell_rsp (s : State cfg) (c : Nat) (w : Word) : (s.setCell c w).rsp = s.rsp := rfl
@[simp] theorem State.setCell_port (s : State cfg) (c : Nat) (w : Word) : (s.setCell c w).port = s.port := rfl

/-! `State.prepare`. -/

@[simp] theorem State.prepare_err (s : State cfg) (r : F32) (n : Nat) : (s.prepare r n).err = s.err := rfl
@[simp] theorem State.prepare_errInfo (s : State cfg) (r : F32) (n : Nat) : (s.prepare r n).errInfo = s.errInfo := rfl
@[simp] theorem State.prepare_errCnt (s : State cfg) (r : F32) (n : Nat) : (s.prepare r n).errCnt = s.errCnt := rfl
@[simp] theorem State.prepare_sr (s : State cfg) (r : F32) (n : Nat) : (s.prepare r n).sr = clampRate cfg r := rfl
@[simp] theorem State.prepare_maxBlock (s : State cfg) (r : F32) (n : Nat) :
    (s.prepare r n).maxBlock = natWord (clampBlock cfg n) := rfl
@[simp] theorem State.prepare_fadeIn (s : State cfg) (r : F32) (n : Nat) :
    (s.prepare r n).fadeIn = fadeLength (F32.dec 10 1000) (clampRate cfg r) := rfl
@[simp] theorem State.prepare_fadeOut (s : State cfg) (r : F32) (n : Nat) :
    (s.prepare r n).fadeOut = fadeLength (F32.dec 2 1000) (clampRate cfg r) := rfl
@[simp] theorem State.prepare_bufLen (s : State cfg) (r : F32) (n : Nat) :
    (s.prepare r n).bufLen = natWord ((F32.ofNat 4).mul (clampRate cfg r)).toInt := rfl
@[simp] theorem State.prepare_rngIdx (s : State cfg) (r : F32) (n : Nat) : (s.prepare r n).rngIdx = s.rngIdx := rfl
@[simp] theorem State.prepare_noteSeq (s : State cfg) (r : F32) (n : Nat) : (s.prepare r n).noteSeq = 0 := rfl
@[simp] theorem State.prepare_params (s : State cfg) (r : F32) (n : Nat) : (s.prepare r n).params = s.params := rfl
@[simp] theorem State.prepare_voices (s : State cfg) (r : F32) (n : Nat) :
    (s.prepare r n).voices = Vector.replicate cfg.nv (preparedVoice cfg (clampRate cfg r)) := rfl
@[simp] theorem State.prepare_outL (s : State cfg) (r : F32) (n : Nat) : (s.prepare r n).outL = s.outL := rfl
@[simp] theorem State.prepare_outR (s : State cfg) (r : F32) (n : Nat) : (s.prepare r n).outR = s.outR := rfl
@[simp] theorem State.prepare_cmd (s : State cfg) (r : F32) (n : Nat) : (s.prepare r n).cmd = s.cmd := rfl
@[simp] theorem State.prepare_rsp (s : State cfg) (r : F32) (n : Nat) : (s.prepare r n).rsp = s.rsp := rfl
@[simp] theorem State.prepare_port (s : State cfg) (r : F32) (n : Nat) : (s.prepare r n).port = s.port := rfl

/-! `State.startVoice`. -/

@[simp] theorem State.startVoice_err (s : State cfg) (v : Fin cfg.nv) (n : Nat) (x : F32) :
    (s.startVoice v n x).err = s.err := rfl
@[simp] theorem State.startVoice_errInfo (s : State cfg) (v : Fin cfg.nv) (n : Nat) (x : F32) :
    (s.startVoice v n x).errInfo = s.errInfo := rfl
@[simp] theorem State.startVoice_errCnt (s : State cfg) (v : Fin cfg.nv) (n : Nat) (x : F32) :
    (s.startVoice v n x).errCnt = s.errCnt := rfl
@[simp] theorem State.startVoice_sr (s : State cfg) (v : Fin cfg.nv) (n : Nat) (x : F32) :
    (s.startVoice v n x).sr = s.sr := rfl
@[simp] theorem State.startVoice_maxBlock (s : State cfg) (v : Fin cfg.nv) (n : Nat) (x : F32) :
    (s.startVoice v n x).maxBlock = s.maxBlock := rfl
@[simp] theorem State.startVoice_fadeIn (s : State cfg) (v : Fin cfg.nv) (n : Nat) (x : F32) :
    (s.startVoice v n x).fadeIn = s.fadeIn := rfl
@[simp] theorem State.startVoice_fadeOut (s : State cfg) (v : Fin cfg.nv) (n : Nat) (x : F32) :
    (s.startVoice v n x).fadeOut = s.fadeOut := rfl
@[simp] theorem State.startVoice_bufLen (s : State cfg) (v : Fin cfg.nv) (n : Nat) (x : F32) :
    (s.startVoice v n x).bufLen = s.bufLen := rfl
@[simp] theorem State.startVoice_rngIdx (s : State cfg) (v : Fin cfg.nv) (n : Nat) (x : F32) :
    (s.startVoice v n x).rngIdx = s.rngIdx + (voiceStart s.sr (s.noteSeq + 1) s.rngIdx n x (s.voice v)).karplus.len := rfl
@[simp] theorem State.startVoice_noteSeq (s : State cfg) (v : Fin cfg.nv) (n : Nat) (x : F32) :
    (s.startVoice v n x).noteSeq = s.noteSeq + 1 := rfl
@[simp] theorem State.startVoice_params (s : State cfg) (v : Fin cfg.nv) (n : Nat) (x : F32) :
    (s.startVoice v n x).params = s.params := rfl
@[simp] theorem State.startVoice_voices (s : State cfg) (v : Fin cfg.nv) (n : Nat) (x : F32) :
    (s.startVoice v n x).voices = s.voices.set v (voiceStart s.sr (s.noteSeq + 1) s.rngIdx n x (s.voice v)) := rfl
@[simp] theorem State.startVoice_outL (s : State cfg) (v : Fin cfg.nv) (n : Nat) (x : F32) :
    (s.startVoice v n x).outL = s.outL := rfl
@[simp] theorem State.startVoice_outR (s : State cfg) (v : Fin cfg.nv) (n : Nat) (x : F32) :
    (s.startVoice v n x).outR = s.outR := rfl
@[simp] theorem State.startVoice_cmd (s : State cfg) (v : Fin cfg.nv) (n : Nat) (x : F32) :
    (s.startVoice v n x).cmd = s.cmd := rfl
@[simp] theorem State.startVoice_rsp (s : State cfg) (v : Fin cfg.nv) (n : Nat) (x : F32) :
    (s.startVoice v n x).rsp = s.rsp := rfl
@[simp] theorem State.startVoice_port (s : State cfg) (v : Fin cfg.nv) (n : Nat) (x : F32) :
    (s.startVoice v n x).port = s.port := rfl

/-! `State.renderFrame`. -/

@[simp] theorem State.renderFrame_err (s : State cfg) (v : Fin cfg.nv) (f : Nat) :
    (s.renderFrame v f).err = s.err := rfl
@[simp] theorem State.renderFrame_errInfo (s : State cfg) (v : Fin cfg.nv) (f : Nat) :
    (s.renderFrame v f).errInfo = s.errInfo := rfl
@[simp] theorem State.renderFrame_errCnt (s : State cfg) (v : Fin cfg.nv) (f : Nat) :
    (s.renderFrame v f).errCnt = s.errCnt := rfl
@[simp] theorem State.renderFrame_sr (s : State cfg) (v : Fin cfg.nv) (f : Nat) : (s.renderFrame v f).sr = s.sr := rfl
@[simp] theorem State.renderFrame_maxBlock (s : State cfg) (v : Fin cfg.nv) (f : Nat) :
    (s.renderFrame v f).maxBlock = s.maxBlock := rfl
@[simp] theorem State.renderFrame_fadeIn (s : State cfg) (v : Fin cfg.nv) (f : Nat) :
    (s.renderFrame v f).fadeIn = s.fadeIn := rfl
@[simp] theorem State.renderFrame_fadeOut (s : State cfg) (v : Fin cfg.nv) (f : Nat) :
    (s.renderFrame v f).fadeOut = s.fadeOut := rfl
@[simp] theorem State.renderFrame_bufLen (s : State cfg) (v : Fin cfg.nv) (f : Nat) :
    (s.renderFrame v f).bufLen = s.bufLen := rfl
@[simp] theorem State.renderFrame_rngIdx (s : State cfg) (v : Fin cfg.nv) (f : Nat) :
    (s.renderFrame v f).rngIdx = (voiceFrame s.sr s.fadeIn s.fadeOut s.bufLen s.rngIdx (s.voice v)).rng := rfl
@[simp] theorem State.renderFrame_noteSeq (s : State cfg) (v : Fin cfg.nv) (f : Nat) :
    (s.renderFrame v f).noteSeq = s.noteSeq := rfl
@[simp] theorem State.renderFrame_params (s : State cfg) (v : Fin cfg.nv) (f : Nat) :
    (s.renderFrame v f).params = s.params := rfl
@[simp] theorem State.renderFrame_voices (s : State cfg) (v : Fin cfg.nv) (f : Nat) :
    (s.renderFrame v f).voices = s.voices.set v (voiceFrame s.sr s.fadeIn s.fadeOut s.bufLen s.rngIdx (s.voice v)).voice := rfl
@[simp] theorem State.renderFrame_outL (s : State cfg) (v : Fin cfg.nv) (f : Nat) :
    (s.renderFrame v f).outL = s.outL.accumulate f (voiceFrame s.sr s.fadeIn s.fadeOut s.bufLen s.rngIdx (s.voice v)).left := rfl
@[simp] theorem State.renderFrame_outR (s : State cfg) (v : Fin cfg.nv) (f : Nat) :
    (s.renderFrame v f).outR = s.outR.accumulate f (voiceFrame s.sr s.fadeIn s.fadeOut s.bufLen s.rngIdx (s.voice v)).right := rfl
@[simp] theorem State.renderFrame_cmd (s : State cfg) (v : Fin cfg.nv) (f : Nat) :
    (s.renderFrame v f).cmd = s.cmd := rfl
@[simp] theorem State.renderFrame_rsp (s : State cfg) (v : Fin cfg.nv) (f : Nat) :
    (s.renderFrame v f).rsp = s.rsp := rfl
@[simp] theorem State.renderFrame_port (s : State cfg) (v : Fin cfg.nv) (f : Nat) :
    (s.renderFrame v f).port = s.port := rfl

/-! Voices. -/

theorem State.voice_eq (s : State cfg) (v : Fin cfg.nv) : s.voice v = s.voices[v] := rfl

/-- States with the same voices are the same at every voice. -/
theorem State.voice_congr {s t : State cfg} (h : s.voices = t.voices) (v : Fin cfg.nv) : s.voice v = t.voice v := by
  rw [State.voice_eq, State.voice_eq, h]

@[simp] theorem State.voice_setVoice_self (s : State cfg) (v : Fin cfg.nv) (x : Voice cfg) : (s.setVoice v x).voice v = x := by
  simp [State.voice_eq]

theorem State.voice_setVoice_ne (s : State cfg) (v : Fin cfg.nv) (x : Voice cfg) {w : Fin cfg.nv} (h : w ≠ v) :
    (s.setVoice v x).voice w = s.voice w := by
  have : (v : Nat) ≠ w := fun e => h (Fin.ext e.symm)
  simp [State.voice_eq, Vector.getElem_set_ne, this]

@[simp] theorem State.voice_updVoice_self (s : State cfg) (v : Fin cfg.nv) (f : Voice cfg → Voice cfg) : (s.updVoice v f).voice v = f (s.voice v) := by
  simp [State.voice_eq]

theorem State.voice_updVoice_ne (s : State cfg) (v : Fin cfg.nv) (f : Voice cfg → Voice cfg) {w : Fin cfg.nv} (h : w ≠ v) :
    (s.updVoice v f).voice w = s.voice w := by
  have : (v : Nat) ≠ w := fun e => h (Fin.ext e.symm)
  simp [State.voice_eq, Vector.getElem_set_ne, this]

@[simp] theorem State.voice_startVoice_self (s : State cfg) (v : Fin cfg.nv) (n : Nat) (x : F32) : (s.startVoice v n x).voice v = voiceStart s.sr (s.noteSeq + 1) s.rngIdx n x (s.voice v) := by
  simp [State.voice_eq]

theorem State.voice_startVoice_ne (s : State cfg) (v : Fin cfg.nv) (n : Nat) (x : F32) {w : Fin cfg.nv} (h : w ≠ v) :
    (s.startVoice v n x).voice w = s.voice w := by
  have : (v : Nat) ≠ w := fun e => h (Fin.ext e.symm)
  simp [State.voice_eq, Vector.getElem_set_ne, this]

@[simp] theorem State.voice_renderFrame_self (s : State cfg) (v : Fin cfg.nv) (f : Nat) : (s.renderFrame v f).voice v = (voiceFrame s.sr s.fadeIn s.fadeOut s.bufLen s.rngIdx (s.voice v)).voice := by
  simp [State.voice_eq]

theorem State.voice_renderFrame_ne (s : State cfg) (v : Fin cfg.nv) (f : Nat) {w : Fin cfg.nv} (h : w ≠ v) :
    (s.renderFrame v f).voice w = s.voice w := by
  have : (v : Nat) ≠ w := fun e => h (Fin.ext e.symm)
  simp [State.voice_eq, Vector.getElem_set_ne, this]

@[simp] theorem State.voice_push (s : State cfg) (w : Word) (v : Fin cfg.nv) : (s.push w).voice v = s.voice v := rfl
@[simp] theorem State.voice_pushF (s : State cfg) (x : F32) (v : Fin cfg.nv) : (s.pushF x).voice v = s.voice v := rfl
@[simp] theorem State.voice_setRng (s : State cfg) (k : Word) (v : Fin cfg.nv) : (s.setRng k).voice v = s.voice v := rfl
@[simp] theorem State.voice_raise (s : State cfg) (f : FaultCode) (h : Word) (v : Fin cfg.nv) : (s.raise f h).voice v = s.voice v := rfl
@[simp] theorem State.voice_clearFault (s : State cfg) (v : Fin cfg.nv) : (s.clearFault).voice v = s.voice v := rfl
@[simp] theorem State.voice_setCell (s : State cfg) (c : Nat) (x : Word) (v : Fin cfg.nv) : (s.setCell c x).voice v = s.voice v := rfl

@[simp] theorem State.voice_updVoices (s : State cfg) (f : Voice cfg → Voice cfg) (v : Fin cfg.nv) :
    (s.updVoices f).voice v = f (s.voice v) := by
  simp [State.voice_eq]

@[simp] theorem State.voice_prepare (s : State cfg) (r : F32) (n : Nat) (v : Fin cfg.nv) :
    (s.prepare r n).voice v = preparedVoice cfg (clampRate cfg r) := by
  simp [State.voice_eq]

/-! The output buffer. -/

@[simp] theorem State.setOut_left (s : State cfg) (m : Mem) : s.setOut .left m = { s with outL := m } := rfl
@[simp] theorem State.setOut_right (s : State cfg) (m : Mem) : s.setOut .right m = { s with outR := m } := rfl
@[simp] theorem State.out_left (s : State cfg) : s.out .left = s.outL := rfl
@[simp] theorem State.out_right (s : State cfg) : s.out .right = s.outR := rfl

end Sys2Proof.Machine
end

