-- ==== Sys2Proof/Laws/Ops.lean ====
section
/-! SUPPORT. What the shared operations around a command can do: the checks, the voice of a `VID`, a command on a voice, a render
guard, the landing of host accesses (`30_encoding.md` R148, `60_exceptions.md` R404, `20_memory.md` R115). -/

namespace Sys2Proof.Machine

variable {cfg : Config.Params}

/-! The voice of a `VID`. -/

theorem vidOf_toNat (v : Fin cfg.nv) : (vidOf v).toNat = v.val := by
  have h := cfg.nvBounds.2
  have h' := v.isLt
  rw [vidOf, BitVec.toNat_ofNat, Nat.mod_eq_of_lt (by omega)]

@[simp] theorem voiceOf_vidOf (v : Fin cfg.nv) : voiceOf (vidOf v) = some v := by
  unfold voiceOf
  simp only [vidOf_toNat, v.isLt, dite_true]

theorem voiceOf_eq_some {b : Byte} {v : Fin cfg.nv} : voiceOf b = some v ↔ b = vidOf v := by
  constructor
  · intro h
    unfold voiceOf at h
    split at h
    · rename_i hb
      cases h
      apply BitVec.eq_of_toNat_eq
      rw [vidOf_toNat]
    · cases h
  · rintro rfl
    exact voiceOf_vidOf v

/-! The checks. -/

/-- A command whose header passes its checks is admitted when the block is ready or the command needs no preparation. -/
theorem firstFault_eq_none {i : Instr} {s : State cfg} (h : headerFault cfg i = none)
    (hr : s.ready = true ∨ (instrRow i).early = true) : firstFault i s = none := by
  unfold firstFault
  rw [h]
  rcases hr with h | h <;> simp [h]

/-- An admitted command has passed the checks of its header, and is legal in the block's mode. -/
theorem of_admit {i : Instr} {s : State cfg} (h : firstFault i s = none) :
    headerFault cfg i = none ∧ (s.ready = true ∨ (instrRow i).early = true) := by
  unfold firstFault at h
  split at h
  · cases h
  · rename_i h'
    refine ⟨h', ?_⟩
    split at h
    · rename_i c
      simpa using c
    · cases h

/-- An admitted command has the operand words its row asks for. -/
theorem length_of_headerFault {i : Instr} (h : headerFault cfg i = none) : i.ops.length = (instrRow i).len := by
  unfold headerFault at h
  by_contra c
  simp only [ne_eq, c, not_false_eq_true, if_true] at h
  cases h

/-! Commands. -/

theorem runGlobal_of_firstFault {i : Instr} {s : State cfg} {e : Out cfg} (h : firstFault i s = none) : runGlobal i s e = e := by
  unfold runGlobal; rw [h]

theorem runVoice_of_firstFault {i : Instr} {s : State cfg} {e : Fin cfg.nv → Out cfg} {v : Fin cfg.nv} (h : firstFault i s = none)
    (hv : voiceOf i.vid = some v) : runVoice i s e = e v := by
  unfold runVoice; rw [h, hv]

/-- A command that answers a next state faulted, or was admitted and had its effect. -/
theorem runGlobal_next {i : Instr} {s t : State cfg} {e : Out cfg} (h : runGlobal i s e = .next t) :
    (∃ f, t = s.raise f (instrHeader i)) ∨ (firstFault i s = none ∧ e = .next t) := by
  unfold runGlobal at h
  split at h
  · rename_i f _
    simp only [faultOf, Host.Outcome.next.injEq] at h
    exact Or.inl ⟨f, h.symm⟩
  · exact Or.inr ⟨‹_›, h⟩

/-- The same for a command on a voice. -/
theorem runVoice_next {i : Instr} {s t : State cfg} {e : Fin cfg.nv → Out cfg} (h : runVoice i s e = .next t) :
    (∃ f, t = s.raise f (instrHeader i)) ∨ ∃ v, i.vid = vidOf v ∧ firstFault i s = none ∧ e v = .next t := by
  unfold runVoice at h
  split at h
  · rename_i f _
    simp only [faultOf, Host.Outcome.next.injEq] at h
    exact Or.inl ⟨f, h.symm⟩
  · split at h
    · rename_i v hv
      exact Or.inr ⟨v, voiceOf_eq_some.mp hv, ‹_›, h⟩
    · simp only [faultOf, Host.Outcome.next.injEq] at h
      exact Or.inl ⟨_, h.symm⟩

/-- A render command that answers a next state faulted, or the block was not too long, the host stayed away and it had its
effect. -/
theorem renderGuard_next {i : Instr} {s t : State cfg} {n : Word} {e : State cfg} (h : renderGuard i s n e = .next t) :
    (∃ f, t = s.raise f (instrHeader i)) ∨ (n.toNat ≤ s.maxBlock.toNat ∧ s.hostInOut n.toNat = false ∧ t = e) := by
  unfold renderGuard at h
  split at h
  · simp only [faultOf, Host.Outcome.next.injEq] at h
    exact Or.inl ⟨_, h.symm⟩
  · rename_i hn
    split at h
    · cases h
    · rename_i hh
      simp only [Host.Outcome.next.injEq] at h
      refine Or.inr ⟨by rw [BitVec.lt_def] at hn; omega, by simpa using hh, h.symm⟩

theorem renderGuard_of_le {i : Instr} {s : State cfg} {n : Word} {e : State cfg} (h : n.toNat ≤ s.maxBlock.toNat)
    (hh : s.hostInOut n.toNat = false) : renderGuard i s n e = .next e := by
  unfold renderGuard
  rw [if_neg (by rw [BitVec.lt_def]; omega), hh]
  rfl

/-! Host accesses. -/

theorem State.hostInOut_of_port_nil {s : State cfg} (h : s.port = []) (n : Nat) : s.hostInOut n = false := by
  unfold State.hostInOut; rw [h]; rfl

/-- With no host access pending, a command starts with its words taken and nothing else changed. -/
theorem State.begin_of_port_nil {s : State cfg} (h : s.port = []) (rest : List Word) :
    s.begin rest = { s with cmd := rest } := by
  unfold State.begin State.landBefore
  simp only [h, List.filter_nil]
  unfold State.landList
  simp only [List.foldl_nil]

theorem State.landAfter_of_port_nil {s : State cfg} (h : s.port = []) : s.landAfter = s := by
  unfold State.landAfter State.landList
  rw [h]
  simp only [List.foldl_nil]
  rw [← h]

theorem cellAfter_nil (cell : Fin Config.NPARAM) (slot : Nat) (w : Word) : cellAfter (cfg := cfg) cell slot w [] = w := rfl

theorem State.cellsRead_of_port_nil {s : State cfg} (h : s.port = []) : s.cellsRead = s.params := by
  unfold State.cellsRead
  apply vecMapIdx_eq_self
  intro i hi
  simp only [h, hi, dite_true, cellAfter_nil]

end Sys2Proof.Machine
end

