-- ==== Sys2Proof/Laws/Exec.lean ====
section
/-! SUPPORT. What each command can do: if it answers a next state, it faulted, or it was admitted and had this effect. One lemma
per meaning, which proofs cite instead of unfolding it. -/

namespace Sys2Proof.Machine

variable {cfg : Config.Params}

theorem execOscSetfreq_next {vid arg : Byte} {ops : List Word} {s t : State cfg}
    (h : execOscSetfreq vid arg ops s = .next t) :
    (∃ f, t = s.raise f (instrHeader (.oscSetfreq vid arg ops : Instr))) ∨
    ∃ v, vid = vidOf v ∧ firstFault (.oscSetfreq vid arg ops : Instr) s = none ∧
      t = s.updVoice v fun x =>
          updOsc x (argBit0 arg) fun o => { o with inc := clampInc ((clampFreq (opF32 ops 0)).div s.sr) } := by
  rcases runVoice_next h with h | ⟨v, hv, ha, h⟩
  · exact Or.inl h
  · exact Or.inr ⟨v, hv, ha, (Host.Outcome.next.inj h).symm⟩

theorem execOscSetwave_next {vid arg : Byte} {ops : List Word} {s t : State cfg}
    (h : execOscSetwave vid arg ops s = .next t) :
    (∃ f, t = s.raise f (instrHeader (.oscSetwave vid arg ops : Instr))) ∨
    ∃ v, vid = vidOf v ∧ firstFault (.oscSetwave vid arg ops : Instr) s = none ∧
      t = s.updVoice v fun x =>
          updOsc x (argBit0 arg) fun o => { o with wave := waveOfCode (argHigh arg) } := by
  rcases runVoice_next h with h | ⟨v, hv, ha, h⟩
  · exact Or.inl h
  · exact Or.inr ⟨v, hv, ha, (Host.Outcome.next.inj h).symm⟩

theorem execOscReset_next {vid arg : Byte} {ops : List Word} {s t : State cfg}
    (h : execOscReset vid arg ops s = .next t) :
    (∃ f, t = s.raise f (instrHeader (.oscReset vid arg ops : Instr))) ∨
    ∃ v, vid = vidOf v ∧ firstFault (.oscReset vid arg ops : Instr) s = none ∧
      t = s.updVoice v fun x =>
          updOsc x (argBit0 arg) fun o => { o with phase := F32.zero } := by
  rcases runVoice_next h with h | ⟨v, hv, ha, h⟩
  · exact Or.inl h
  · exact Or.inr ⟨v, hv, ha, (Host.Outcome.next.inj h).symm⟩

theorem execOscNext_next {vid arg : Byte} {ops : List Word} {s t : State cfg}
    (h : execOscNext vid arg ops s = .next t) :
    (∃ f, t = s.raise f (instrHeader (.oscNext vid arg ops : Instr))) ∨
    ∃ v, vid = vidOf v ∧ firstFault (.oscNext vid arg ops : Instr) s = none ∧
      t = (s.updVoice v fun x => { x with oscs := (oscNext x.oscs (argBit0 arg)).1 }).pushF
          (oscNext (s.voice v).oscs (argBit0 arg)).2 := by
  rcases runVoice_next h with h | ⟨v, hv, ha, h⟩
  · exact Or.inl h
  · exact Or.inr ⟨v, hv, ha, (Host.Outcome.next.inj h).symm⟩

theorem execVSetosc_next {vid arg : Byte} {ops : List Word} {s t : State cfg}
    (h : execVSetosc vid arg ops s = .next t) :
    (∃ f, t = s.raise f (instrHeader (.vSetosc vid arg ops : Instr))) ∨
    ∃ v, vid = vidOf v ∧ firstFault (.vSetosc vid arg ops : Instr) s = none ∧
      t = s.updVoice v fun x =>
          { x with
            oscs := oscSet s.sr x.freq (argLow arg) (argHigh arg) (opF32 ops 0) (opF32 ops 1) (opF32 ops 2) x.oscs } := by
  rcases runVoice_next h with h | ⟨v, hv, ha, h⟩
  · exact Or.inl h
  · exact Or.inr ⟨v, hv, ha, (Host.Outcome.next.inj h).symm⟩

theorem execMrSetparams_next {vid arg : Byte} {ops : List Word} {s t : State cfg}
    (h : execMrSetparams vid arg ops s = .next t) :
    (∃ f, t = s.raise f (instrHeader (.mrSetparams vid arg ops : Instr))) ∨
    ∃ v, vid = vidOf v ∧ firstFault (.mrSetparams vid arg ops : Instr) s = none ∧
      t = s.updVoice v fun x =>
          { x with
            rings := ringsSet cfg s.sr (opF32 ops 0) (opF32 ops 1) (opF32 ops 2) (opF32 ops 3) (opF32 ops 4)
              arg.toNat x.rings } := by
  rcases runVoice_next h with h | ⟨v, hv, ha, h⟩
  · exact Or.inl h
  · exact Or.inr ⟨v, hv, ha, (Host.Outcome.next.inj h).symm⟩

theorem execVSetrings_next {vid arg : Byte} {ops : List Word} {s t : State cfg}
    (h : execVSetrings vid arg ops s = .next t) :
    (∃ f, t = s.raise f (instrHeader (.vSetrings vid arg ops : Instr))) ∨
    ∃ v, vid = vidOf v ∧ firstFault (.vSetrings vid arg ops : Instr) s = none ∧
      t = s.updVoice v fun x =>
          { x with
            rings := ringsSet cfg s.sr x.freq (opF32 ops 0) (opF32 ops 1) (opF32 ops 2) (opF32 ops 3)
              arg.toNat x.rings } := by
  rcases runVoice_next h with h | ⟨v, hv, ha, h⟩
  · exact Or.inl h
  · exact Or.inr ⟨v, hv, ha, (Host.Outcome.next.inj h).symm⟩

theorem execMrTrigger_next {vid arg : Byte} {ops : List Word} {s t : State cfg}
    (h : execMrTrigger vid arg ops s = .next t) :
    (∃ f, t = s.raise f (instrHeader (.mrTrigger vid arg ops : Instr))) ∨
    ∃ v, vid = vidOf v ∧ firstFault (.mrTrigger vid arg ops : Instr) s = none ∧
      t = s.updVoice v fun x => { x with rings := ringsTrigger (opF32 ops 0) x.rings } := by
  rcases runVoice_next h with h | ⟨v, hv, ha, h⟩
  · exact Or.inl h
  · exact Or.inr ⟨v, hv, ha, (Host.Outcome.next.inj h).symm⟩

theorem execMrProc_next {vid arg : Byte} {ops : List Word} {s t : State cfg}
    (h : execMrProc vid arg ops s = .next t) :
    (∃ f, t = s.raise f (instrHeader (.mrProc vid arg ops : Instr))) ∨
    ∃ v, vid = vidOf v ∧ firstFault (.mrProc vid arg ops : Instr) s = none ∧
      t = (s.updVoice v fun x => { x with rings := (ringsProc (opF32 ops 0).san x.rings).1 }).pushF
          (ringsProc (opF32 ops 0).san (s.voice v).rings).2 := by
  rcases runVoice_next h with h | ⟨v, hv, ha, h⟩
  · exact Or.inl h
  · exact Or.inr ⟨v, hv, ha, (Host.Outcome.next.inj h).symm⟩

theorem execVSetclouds_next {vid arg : Byte} {ops : List Word} {s t : State cfg}
    (h : execVSetclouds vid arg ops s = .next t) :
    (∃ f, t = s.raise f (instrHeader (.vSetclouds vid arg ops : Instr))) ∨
    ∃ v, vid = vidOf v ∧ firstFault (.vSetclouds vid arg ops : Instr) s = none ∧
      t = s.updVoice v fun x =>
          { x with
            clouds := cloudsSet arg.toNat (opF32 ops 0) (opF32 ops 1) (opF32 ops 2) (opF32 ops 3) (opF32 ops 4)
              x.clouds } := by
  rcases runVoice_next h with h | ⟨v, hv, ha, h⟩
  · exact Or.inl h
  · exact Or.inr ⟨v, hv, ha, (Host.Outcome.next.inj h).symm⟩

theorem execGrWrite_next {vid arg : Byte} {ops : List Word} {s t : State cfg}
    (h : execGrWrite vid arg ops s = .next t) :
    (∃ f, t = s.raise f (instrHeader (.grWrite vid arg ops : Instr))) ∨
    ∃ v, vid = vidOf v ∧ firstFault (.grWrite vid arg ops : Instr) s = none ∧
      t = s.updVoice v fun x =>
          { x with
            clouds := cloudsWrite s.bufLen (opF32 ops 0).san (opF32 ops 1).san x.clouds } := by
  rcases runVoice_next h with h | ⟨v, hv, ha, h⟩
  · exact Or.inl h
  · exact Or.inr ⟨v, hv, ha, (Host.Outcome.next.inj h).symm⟩

theorem execGrProc_next {vid arg : Byte} {ops : List Word} {s t : State cfg}
    (h : execGrProc vid arg ops s = .next t) :
    (∃ f, t = s.raise f (instrHeader (.grProc vid arg ops : Instr))) ∨
    ∃ v, vid = vidOf v ∧ firstFault (.grProc vid arg ops : Instr) s = none ∧
      let r := cloudsProc s.sr s.bufLen s.rngIdx (s.voice v).clouds
      t = (((s.updVoice v fun x => { x with clouds := r.clouds }).setRng r.rng).pushF r.left).pushF r.right := by
  rcases runVoice_next h with h | ⟨v, hv, ha, h⟩
  · exact Or.inl h
  · exact Or.inr ⟨v, hv, ha, (Host.Outcome.next.inj h).symm⟩

theorem execKsSetfreq_next {vid arg : Byte} {ops : List Word} {s t : State cfg}
    (h : execKsSetfreq vid arg ops s = .next t) :
    (∃ f, t = s.raise f (instrHeader (.ksSetfreq vid arg ops : Instr))) ∨
    ∃ v, vid = vidOf v ∧ firstFault (.ksSetfreq vid arg ops : Instr) s = none ∧
      t = s.updVoice v fun x => { x with karplus := karplusSetFreq cfg s.sr (opF32 ops 0) x.karplus } := by
  rcases runVoice_next h with h | ⟨v, hv, ha, h⟩
  · exact Or.inl h
  · exact Or.inr ⟨v, hv, ha, (Host.Outcome.next.inj h).symm⟩

theorem execKsTrigger_next {vid arg : Byte} {ops : List Word} {s t : State cfg}
    (h : execKsTrigger vid arg ops s = .next t) :
    (∃ f, t = s.raise f (instrHeader (.ksTrigger vid arg ops : Instr))) ∨
    ∃ v, vid = vidOf v ∧ firstFault (.ksTrigger vid arg ops : Instr) s = none ∧
      t = (s.updVoice v fun x => { x with karplus := karplusTrigger cfg (opF32 ops 0) s.rngIdx x.karplus }).setRng
          (s.rngIdx + (s.voice v).karplus.len) := by
  rcases runVoice_next h with h | ⟨v, hv, ha, h⟩
  · exact Or.inl h
  · exact Or.inr ⟨v, hv, ha, (Host.Outcome.next.inj h).symm⟩

theorem execKsGet_next {vid arg : Byte} {ops : List Word} {s t : State cfg}
    (h : execKsGet vid arg ops s = .next t) :
    (∃ f, t = s.raise f (instrHeader (.ksGet vid arg ops : Instr))) ∨
    ∃ v, vid = vidOf v ∧ firstFault (.ksGet vid arg ops : Instr) s = none ∧
      t = (s.updVoice v fun x => { x with karplus := (karplusGet cfg x.karplus).1 }).pushF
          (karplusGet cfg (s.voice v).karplus).2 := by
  rcases runVoice_next h with h | ⟨v, hv, ha, h⟩
  · exact Or.inl h
  · exact Or.inr ⟨v, hv, ha, (Host.Outcome.next.inj h).symm⟩

theorem execWtGet_next {vid arg : Byte} {ops : List Word} {s t : State cfg}
    (h : execWtGet vid arg ops s = .next t) :
    (∃ f, t = s.raise f (instrHeader (.wtGet vid arg ops : Instr))) ∨
    (firstFault (.wtGet vid arg ops : Instr) s = none ∧ t = s.pushF (wtGet (opF32 ops 0) (tableOf (opWord ops 1).toNat) (tableOf (opWord ops 2).toNat)
          (opF32 ops 3) (opF32 ops 4) (opF32 ops 5))) := by
  rcases runGlobal_next h with h | ⟨ha, h⟩
  · exact Or.inl h
  · exact Or.inr ⟨ha, (Host.Outcome.next.inj h).symm⟩

theorem execVSetwt_next {vid arg : Byte} {ops : List Word} {s t : State cfg}
    (h : execVSetwt vid arg ops s = .next t) :
    (∃ f, t = s.raise f (instrHeader (.vSetwt vid arg ops : Instr))) ∨
    ∃ v, vid = vidOf v ∧ firstFault (.vSetwt vid arg ops : Instr) s = none ∧
      t = s.updVoice v fun x =>
          { x with
            wt := wtSet (opWord ops 0).toNat (opWord ops 1).toNat (opF32 ops 2) (opF32 ops 3) (opF32 ops 4) x.wt } := by
  rcases runVoice_next h with h | ⟨v, hv, ha, h⟩
  · exact Or.inl h
  · exact Or.inr ⟨v, hv, ha, (Host.Outcome.next.inj h).symm⟩

theorem execEnvSetparams_next {vid arg : Byte} {ops : List Word} {s t : State cfg}
    (h : execEnvSetparams vid arg ops s = .next t) :
    (∃ f, t = s.raise f (instrHeader (.envSetparams vid arg ops : Instr))) ∨
    ∃ v, vid = vidOf v ∧ firstFault (.envSetparams vid arg ops : Instr) s = none ∧
      t = s.updVoice v fun x =>
          setEnv x (argBit0 arg)
            (envSet (opF32 ops 0) (opF32 ops 1) (opF32 ops 2) (opF32 ops 3) (envOf x (argBit0 arg))) := by
  rcases runVoice_next h with h | ⟨v, hv, ha, h⟩
  · exact Or.inl h
  · exact Or.inr ⟨v, hv, ha, (Host.Outcome.next.inj h).symm⟩

theorem execEnvNoteon_next {vid arg : Byte} {ops : List Word} {s t : State cfg}
    (h : execEnvNoteon vid arg ops s = .next t) :
    (∃ f, t = s.raise f (instrHeader (.envNoteon vid arg ops : Instr))) ∨
    ∃ v, vid = vidOf v ∧ firstFault (.envNoteon vid arg ops : Instr) s = none ∧
      t = s.updVoice v fun x => setEnv x (argBit0 arg) (envNoteOn (envOf x (argBit0 arg))) := by
  rcases runVoice_next h with h | ⟨v, hv, ha, h⟩
  · exact Or.inl h
  · exact Or.inr ⟨v, hv, ha, (Host.Outcome.next.inj h).symm⟩

theorem execEnvNoteoff_next {vid arg : Byte} {ops : List Word} {s t : State cfg}
    (h : execEnvNoteoff vid arg ops s = .next t) :
    (∃ f, t = s.raise f (instrHeader (.envNoteoff vid arg ops : Instr))) ∨
    ∃ v, vid = vidOf v ∧ firstFault (.envNoteoff vid arg ops : Instr) s = none ∧
      t = s.updVoice v fun x => setEnv x (argBit0 arg) (envNoteOff s.sr (envOf x (argBit0 arg))) := by
  rcases runVoice_next h with h | ⟨v, hv, ha, h⟩
  · exact Or.inl h
  · exact Or.inr ⟨v, hv, ha, (Host.Outcome.next.inj h).symm⟩

theorem execEnvNext_next {vid arg : Byte} {ops : List Word} {s t : State cfg}
    (h : execEnvNext vid arg ops s = .next t) :
    (∃ f, t = s.raise f (instrHeader (.envNext vid arg ops : Instr))) ∨
    ∃ v, vid = vidOf v ∧ firstFault (.envNext vid arg ops : Instr) s = none ∧
      t = (s.updVoice v fun x => setEnv x (argBit0 arg) (envNext s.sr (envOf x (argBit0 arg)))).pushF
          (envNext s.sr (envOf (s.voice v) (argBit0 arg))).level := by
  rcases runVoice_next h with h | ⟨v, hv, ha, h⟩
  · exact Or.inl h
  · exact Or.inr ⟨v, hv, ha, (Host.Outcome.next.inj h).symm⟩

theorem execVSetenv_next {vid arg : Byte} {ops : List Word} {s t : State cfg}
    (h : execVSetenv vid arg ops s = .next t) :
    (∃ f, t = s.raise f (instrHeader (.vSetenv vid arg ops : Instr))) ∨
    ∃ v, vid = vidOf v ∧ firstFault (.vSetenv vid arg ops : Instr) s = none ∧
      t = s.updVoice v fun x =>
          { x with
            enva := envSet (opF32 ops 0) (opF32 ops 1) (opF32 ops 2) (opF32 ops 3) x.enva
            envf := envSet (opF32 ops 4) (opF32 ops 5) (opF32 ops 6) (opF32 ops 7) x.envf } := by
  rcases runVoice_next h with h | ⟨v, hv, ha, h⟩
  · exact Or.inl h
  · exact Or.inr ⟨v, hv, ha, (Host.Outcome.next.inj h).symm⟩

theorem execVSetfilt_next {vid arg : Byte} {ops : List Word} {s t : State cfg}
    (h : execVSetfilt vid arg ops s = .next t) :
    (∃ f, t = s.raise f (instrHeader (.vSetfilt vid arg ops : Instr))) ∨
    ∃ v, vid = vidOf v ∧ firstFault (.vSetfilt vid arg ops : Instr) s = none ∧
      t = s.updVoice v fun x =>
          { x with
            flt := filtSet arg.toNat (opF32 ops 0) (opF32 ops 1) (opF32 ops 2) x.flt } := by
  rcases runVoice_next h with h | ⟨v, hv, ha, h⟩
  · exact Or.inl h
  · exact Or.inr ⟨v, hv, ha, (Host.Outcome.next.inj h).symm⟩

theorem execFltProc_next {vid arg : Byte} {ops : List Word} {s t : State cfg}
    (h : execFltProc vid arg ops s = .next t) :
    (∃ f, t = s.raise f (instrHeader (.fltProc vid arg ops : Instr))) ∨
    ∃ v, vid = vidOf v ∧ firstFault (.fltProc vid arg ops : Instr) s = none ∧
      let r := filtProc s.sr (opF32 ops 0).san (opF32 ops 1).san (s.voice v).flt.cutoff (s.voice v).flt
      t = ((s.updVoice v fun x => { x with flt := r.filt }).pushF r.left).pushF r.right := by
  rcases runVoice_next h with h | ⟨v, hv, ha, h⟩
  · exact Or.inl h
  · exact Or.inr ⟨v, hv, ha, (Host.Outcome.next.inj h).symm⟩

theorem execFltReset_next {vid arg : Byte} {ops : List Word} {s t : State cfg}
    (h : execFltReset vid arg ops s = .next t) :
    (∃ f, t = s.raise f (instrHeader (.fltReset vid arg ops : Instr))) ∨
    ∃ v, vid = vidOf v ∧ firstFault (.fltReset vid arg ops : Instr) s = none ∧
      t = s.updVoice v fun x => { x with flt := filtClear x.flt } := by
  rcases runVoice_next h with h | ⟨v, hv, ha, h⟩
  · exact Or.inl h
  · exact Or.inr ⟨v, hv, ha, (Host.Outcome.next.inj h).symm⟩

theorem execVStart_next {vid arg : Byte} {ops : List Word} {s t : State cfg}
    (h : execVStart vid arg ops s = .next t) :
    (∃ f, t = s.raise f (instrHeader (.vStart vid arg ops : Instr))) ∨
    ∃ v, vid = vidOf v ∧ firstFault (.vStart vid arg ops : Instr) s = none ∧
      t = s.startVoice v (argNote arg) (opF32 ops 0) := by
  rcases runVoice_next h with h | ⟨v, hv, ha, h⟩
  · exact Or.inl h
  · exact Or.inr ⟨v, hv, ha, (Host.Outcome.next.inj h).symm⟩

theorem execVStop_next {vid arg : Byte} {ops : List Word} {s t : State cfg}
    (h : execVStop vid arg ops s = .next t) :
    (∃ f, t = s.raise f (instrHeader (.vStop vid arg ops : Instr))) ∨
    ∃ v, vid = vidOf v ∧ firstFault (.vStop vid arg ops : Instr) s = none ∧
      t = s.updVoice v (voiceStop s.sr (argBit0 arg)) := by
  rcases runVoice_next h with h | ⟨v, hv, ha, h⟩
  · exact Or.inl h
  · exact Or.inr ⟨v, hv, ha, (Host.Outcome.next.inj h).symm⟩

theorem execVRender_next {vid arg : Byte} {ops : List Word} {s t : State cfg}
    (h : execVRender vid arg ops s = .next t) :
    (∃ f, t = s.raise f (instrHeader (.vRender vid arg ops : Instr))) ∨
    ∃ v, vid = vidOf v ∧ firstFault (.vRender vid arg ops : Instr) s = none ∧
      (opWord ops 0).toNat ≤ s.maxBlock.toNat ∧ s.hostInOut (opWord ops 0).toNat = false ∧
      t = (s.renderVoice v (opWord ops 0).toNat) := by
  rcases runVoice_next h with h | ⟨v, hv, ha, h⟩
  · exact Or.inl h
  · rcases renderGuard_next h with h | h
    · exact Or.inl h
    · exact Or.inr ⟨v, hv, ha, h⟩

theorem execVSetmode_next {vid arg : Byte} {ops : List Word} {s t : State cfg}
    (h : execVSetmode vid arg ops s = .next t) :
    (∃ f, t = s.raise f (instrHeader (.vSetmode vid arg ops : Instr))) ∨
    ∃ v, vid = vidOf v ∧ firstFault (.vSetmode vid arg ops : Instr) s = none ∧
      t = s.updVoice v fun x => { x with mode := modeOfCode arg.toNat } := by
  rcases runVoice_next h with h | ⟨v, hv, ha, h⟩
  · exact Or.inl h
  · exact Or.inr ⟨v, hv, ha, (Host.Outcome.next.inj h).symm⟩

theorem execVSetmix_next {vid arg : Byte} {ops : List Word} {s t : State cfg}
    (h : execVSetmix vid arg ops s = .next t) :
    (∃ f, t = s.raise f (instrHeader (.vSetmix vid arg ops : Instr))) ∨
    ∃ v, vid = vidOf v ∧ firstFault (.vSetmix vid arg ops : Instr) s = none ∧
      t = s.updVoice v fun x =>
          { x with mix := mixSet (opF32 ops 0) (opF32 ops 1) (opF32 ops 2) (opF32 ops 3) (opF32 ops 4) } := by
  rcases runVoice_next h with h | ⟨v, hv, ha, h⟩
  · exact Or.inl h
  · exact Or.inr ⟨v, hv, ha, (Host.Outcome.next.inj h).symm⟩

theorem execSetglobal_next {vid arg : Byte} {ops : List Word} {s t : State cfg}
    (h : execSetglobal vid arg ops s = .next t) :
    (∃ f, t = s.raise f (instrHeader (.setglobal vid arg ops : Instr))) ∨
    (firstFault (.setglobal vid arg ops : Instr) s = none ∧ t = s.updVoices (voiceSetGlobal s.sr s.cellsRead)) := by
  rcases runGlobal_next h with h | ⟨ha, h⟩
  · exact Or.inl h
  · exact Or.inr ⟨ha, (Host.Outcome.next.inj h).symm⟩

theorem execNoteon_next {vid arg : Byte} {ops : List Word} {s t : State cfg}
    (h : execNoteon vid arg ops s = .next t) :
    (∃ f, t = s.raise f (instrHeader (.noteon vid arg ops : Instr))) ∨
    (firstFault (.noteon vid arg ops : Instr) s = none ∧ t = s.startVoice (s.allocate (argNote arg)) (argNote arg) (opF32 ops 0)) := by
  rcases runGlobal_next h with h | ⟨ha, h⟩
  · exact Or.inl h
  · exact Or.inr ⟨ha, (Host.Outcome.next.inj h).symm⟩

theorem execNoteoff_next {vid arg : Byte} {ops : List Word} {s t : State cfg}
    (h : execNoteoff vid arg ops s = .next t) :
    (∃ f, t = s.raise f (instrHeader (.noteoff vid arg ops : Instr))) ∨
    (firstFault (.noteoff vid arg ops : Instr) s = none ∧ t = s.updVoices (voiceNoteOff s.sr (argNote arg))) := by
  rcases runGlobal_next h with h | ⟨ha, h⟩
  · exact Or.inl h
  · exact Or.inr ⟨ha, (Host.Outcome.next.inj h).symm⟩

theorem execRender_next {vid arg : Byte} {ops : List Word} {s t : State cfg}
    (h : execRender vid arg ops s = .next t) :
    (∃ f, t = s.raise f (instrHeader (.render vid arg ops : Instr))) ∨
    (firstFault (.render vid arg ops : Instr) s = none ∧ (opWord ops 0).toNat ≤ s.maxBlock.toNat ∧ s.hostInOut (opWord ops 0).toNat = false ∧
      t = ((voiceNumbers cfg).foldl (fun t v => t.renderVoice v (opWord ops 0).toNat) s)) := by
  rcases runGlobal_next h with h | ⟨ha, h⟩
  · exact Or.inl h
  · rcases renderGuard_next h with h | h
    · exact Or.inl h
    · exact Or.inr ⟨ha, h⟩

theorem execNop_next {vid arg : Byte} {ops : List Word} {s t : State cfg}
    (h : execNop vid arg ops s = .next t) :
    (∃ f, t = s.raise f (instrHeader (.nop vid arg ops : Instr))) ∨
    (firstFault (.nop vid arg ops : Instr) s = none ∧ t = s) := by
  rcases runGlobal_next h with h | ⟨ha, h⟩
  · exact Or.inl h
  · exact Or.inr ⟨ha, (Host.Outcome.next.inj h).symm⟩

theorem execPrepare_next {vid arg : Byte} {ops : List Word} {s t : State cfg}
    (h : execPrepare vid arg ops s = .next t) :
    (∃ f, t = s.raise f (instrHeader (.prepare vid arg ops : Instr))) ∨
    (firstFault (.prepare vid arg ops : Instr) s = none ∧ t = s.prepare (opF32 ops 0) (opWord ops 1).toNat) := by
  rcases runGlobal_next h with h | ⟨ha, h⟩
  · exact Or.inl h
  · exact Or.inr ⟨ha, (Host.Outcome.next.inj h).symm⟩

theorem execClrerr_next {vid arg : Byte} {ops : List Word} {s t : State cfg}
    (h : execClrerr vid arg ops s = .next t) :
    (∃ f, t = s.raise f (instrHeader (.clrerr vid arg ops : Instr))) ∨
    (firstFault (.clrerr vid arg ops : Instr) s = none ∧ t = s.clearFault) := by
  rcases runGlobal_next h with h | ⟨ha, h⟩
  · exact Or.inl h
  · exact Or.inr ⟨ha, (Host.Outcome.next.inj h).symm⟩

theorem execPeek_next {vid arg : Byte} {ops : List Word} {s t : State cfg}
    (h : execPeek vid arg ops s = .next t) :
    (∃ f, t = s.raise f (instrHeader (.peek vid arg ops : Instr))) ∨
    (firstFault (.peek vid arg ops : Instr) s = none ∧ (opWord ops 0).toNat < s.spaceSize arg.toNat ∧
      t = s.push (s.peekWord arg.toNat vid (opWord ops 0).toNat)) := by
  rcases runGlobal_next h with h | ⟨ha, h⟩
  · exact Or.inl h
  · split at h
    · simp only [faultOf, Host.Outcome.next.injEq] at h
      exact Or.inl ⟨_, h.symm⟩
    · simp only [Host.Outcome.next.injEq] at h
      exact Or.inr ⟨ha, by omega, h.symm⟩

theorem execWrparam_next {vid arg : Byte} {ops : List Word} {s t : State cfg}
    (h : execWrparam vid arg ops s = .next t) :
    (∃ f, t = s.raise f (instrHeader (.wrparam vid arg ops : Instr))) ∨
    (firstFault (.wrparam vid arg ops : Instr) s = none ∧ t = s.setCell arg.toNat (opWord ops 0)) := by
  rcases runGlobal_next h with h | ⟨ha, h⟩
  · exact Or.inl h
  · exact Or.inr ⟨ha, (Host.Outcome.next.inj h).symm⟩

end Sys2Proof.Machine
end

