-- ==== Sys2Proof/Laws/Step.lean ====
section
/-! SUPPORT. A step (`10_state.md` R75): what every command keeps, and the landing of host accesses keeps, a step keeps. -/

namespace Sys2Proof.Machine

variable {cfg : Config.Params}

/-- What the landing of one host access keeps, the landing of a list keeps. -/
theorem State.landList_induction {P : State cfg → Prop} (hland : ∀ (s : State cfg) (a : PortAct cfg), P s → P (s.land a))
    {s : State cfg} (h : P s) (l : List (PortAccess cfg)) : P (s.landList l) := by
  unfold State.landList
  induction l generalizing s with
  | nil => exact h
  | cons p l ih => exact ih (hland s p.act h)

/-- A step, whatever executes its command, keeps what that, faults, landings and the queues keep. -/
theorem stepBy_induction {run : Instr → State cfg → Out cfg} {P : State cfg → Prop} (hland : ∀ (s : State cfg) (a : PortAct cfg), P s → P (s.land a))
    (hcmd : ∀ (s : State cfg) (q : List Word), P s → P { s with cmd := q })
    (hport : ∀ (s : State cfg) (l : List (PortAccess cfg)), P s → P { s with port := l })
    (hraise : ∀ (s : State cfg) (f : FaultCode) (w : Word), P s → P (s.raise f w))
    (hrun : ∀ (i : Instr) (s t : State cfg), run i s = .next t → P s → P t) {s t : State cfg}
    (h : stepBy run s = .next t) (h0 : P s) : P t := by
  have hafter : ∀ u : State cfg, P u → P u.landAfter := fun u hu =>
    hport _ _ (State.landList_induction hland hu _)
  have hbegin : ∀ rest, P (s.begin rest) := fun rest =>
    hport _ _ (State.landList_induction hland (hcmd s rest h0) _)
  unfold stepBy at h
  split at h
  · cases h; exact h0
  · simp only [finish, Host.Outcome.next.injEq] at h
    subst h
    exact hafter _ (hraise _ _ _ (hbegin _))
  · rename_i i rest _
    cases he : run i (s.begin rest) with
    | next u =>
      rw [he] at h
      simp only [finish, Host.Outcome.next.injEq] at h
      subst h
      exact hafter _ (hrun i _ u he (hbegin rest))
    | fault f => rw [he] at h; cases h
    | refused r => rw [he] at h; cases h

/-- The same for the step with the default parameters. -/
theorem step_induction {P : State → Prop} (hland : ∀ (s : State) (a : PortAct Config.std), P s → P (s.land a))
    (hcmd : ∀ (s : State) (q : List Word), P s → P { s with cmd := q })
    (hport : ∀ (s : State) (l : List (PortAccess Config.std)), P s → P { s with port := l })
    (hraise : ∀ (s : State) (f : FaultCode) (w : Word), P s → P (s.raise f w))
    (hexec : ∀ (i : Instr) (s t : State), exec i s = .next t → P s → P t) {s t : State} (h : step s = .next t) (h0 : P s) : P t :=
  stepBy_induction hland hcmd hport hraise hexec h h0

end Sys2Proof.Machine
end

