-- ==== Sys2Proof/Laws/Voice.lean ====
section
/-! SUPPORT. Voices (`46_voice.md`): which registers of a voice the graphs, the starts and stops leave alone, and how the sample loop
of a render command goes on. -/

namespace Sys2Proof.Machine

variable {cfg : Config.Params}

/-! What an engine graph leaves alone (R336, R337). -/

/-- A graph changes nothing of a voice but its five generators. -/
theorem engineSample_keeps (sr : F32) (bufLen rng : Word) (x : Voice cfg) :
    (engineSample sr bufLen rng x).voice =
      { x with
        rings := (engineSample sr bufLen rng x).voice.rings
        clouds := (engineSample sr bufLen rng x).voice.clouds
        karplus := (engineSample sr bufLen rng x).voice.karplus
        wt := (engineSample sr bufLen rng x).voice.wt
        oscs := (engineSample sr bufLen rng x).voice.oscs } := by
  unfold engineSample
  split <;> rfl

@[simp] theorem engineSample_active (sr : F32) (bufLen rng : Word) (x : Voice cfg) :
    (engineSample sr bufLen rng x).voice.active = x.active := by
  rw [engineSample_keeps]

@[simp] theorem engineSample_fading (sr : F32) (bufLen rng : Word) (x : Voice cfg) :
    (engineSample sr bufLen rng x).voice.fading = x.fading := by
  rw [engineSample_keeps]

@[simp] theorem engineSample_note (sr : F32) (bufLen rng : Word) (x : Voice cfg) :
    (engineSample sr bufLen rng x).voice.note = x.note := by
  rw [engineSample_keeps]

@[simp] theorem engineSample_age (sr : F32) (bufLen rng : Word) (x : Voice cfg) :
    (engineSample sr bufLen rng x).voice.age = x.age := by
  rw [engineSample_keeps]

@[simp] theorem engineSample_freq (sr : F32) (bufLen rng : Word) (x : Voice cfg) :
    (engineSample sr bufLen rng x).voice.freq = x.freq := by
  rw [engineSample_keeps]

@[simp] theorem engineSample_vel (sr : F32) (bufLen rng : Word) (x : Voice cfg) :
    (engineSample sr bufLen rng x).voice.vel = x.vel := by
  rw [engineSample_keeps]

@[simp] theorem engineSample_fadeinCnt (sr : F32) (bufLen rng : Word) (x : Voice cfg) :
    (engineSample sr bufLen rng x).voice.fadeinCnt = x.fadeinCnt := by
  rw [engineSample_keeps]

@[simp] theorem engineSample_fadeoutCnt (sr : F32) (bufLen rng : Word) (x : Voice cfg) :
    (engineSample sr bufLen rng x).voice.fadeoutCnt = x.fadeoutCnt := by
  rw [engineSample_keeps]

@[simp] theorem engineSample_mode (sr : F32) (bufLen rng : Word) (x : Voice cfg) :
    (engineSample sr bufLen rng x).voice.mode = x.mode := by
  rw [engineSample_keeps]

@[simp] theorem engineSample_mix (sr : F32) (bufLen rng : Word) (x : Voice cfg) :
    (engineSample sr bufLen rng x).voice.mix = x.mix := by
  rw [engineSample_keeps]

@[simp] theorem engineSample_enva (sr : F32) (bufLen rng : Word) (x : Voice cfg) :
    (engineSample sr bufLen rng x).voice.enva = x.enva := by
  rw [engineSample_keeps]

@[simp] theorem engineSample_envf (sr : F32) (bufLen rng : Word) (x : Voice cfg) :
    (engineSample sr bufLen rng x).voice.envf = x.envf := by
  rw [engineSample_keeps]

@[simp] theorem engineSample_flt (sr : F32) (bufLen rng : Word) (x : Voice cfg) :
    (engineSample sr bufLen rng x).voice.flt = x.flt := by
  rw [engineSample_keeps]

/-! `V_CLEAR` (R345). -/

@[simp] theorem voiceClear_active (x : Voice cfg) : (voiceClear x).active = false := rfl
@[simp] theorem voiceClear_fading (x : Voice cfg) : (voiceClear x).fading = false := rfl
@[simp] theorem voiceClear_note (x : Voice cfg) : (voiceClear x).note = 255 := rfl
@[simp] theorem voiceClear_age (x : Voice cfg) : (voiceClear x).age = x.age := rfl
@[simp] theorem voiceClear_freq (x : Voice cfg) : (voiceClear x).freq = x.freq := rfl
@[simp] theorem voiceClear_vel (x : Voice cfg) : (voiceClear x).vel = x.vel := rfl
@[simp] theorem voiceClear_fadeinCnt (x : Voice cfg) : (voiceClear x).fadeinCnt = x.fadeinCnt := rfl
@[simp] theorem voiceClear_fadeoutCnt (x : Voice cfg) : (voiceClear x).fadeoutCnt = 0 := rfl
@[simp] theorem voiceClear_mode (x : Voice cfg) : (voiceClear x).mode = x.mode := rfl
@[simp] theorem voiceClear_rings (x : Voice cfg) : (voiceClear x).rings = x.rings := rfl
@[simp] theorem voiceClear_clouds (x : Voice cfg) : (voiceClear x).clouds = x.clouds := rfl
@[simp] theorem voiceClear_karplus (x : Voice cfg) : (voiceClear x).karplus = x.karplus := rfl
@[simp] theorem voiceClear_wt (x : Voice cfg) : (voiceClear x).wt = x.wt := rfl
@[simp] theorem voiceClear_mix (x : Voice cfg) : (voiceClear x).mix = x.mix := rfl
@[simp] theorem voiceClear_oscs (x : Voice cfg) : (voiceClear x).oscs = x.oscs := rfl
@[simp] theorem voiceClear_enva (x : Voice cfg) : (voiceClear x).enva = { x.enva with stage := .idle, level := F32.zero } := rfl
@[simp] theorem voiceClear_envf (x : Voice cfg) : (voiceClear x).envf = { x.envf with stage := .idle, level := F32.zero } := rfl
@[simp] theorem voiceClear_flt (x : Voice cfg) : (voiceClear x).flt = x.flt := rfl

/-! `V_START` (R325). -/

@[simp] theorem voiceStart_active (sr : F32) (seq rng : Word) (n : Nat) (v : F32) (x : Voice cfg) : (voiceStart sr seq rng n v x).active = true := rfl
@[simp] theorem voiceStart_fading (sr : F32) (seq rng : Word) (n : Nat) (v : F32) (x : Voice cfg) : (voiceStart sr seq rng n v x).fading = false := rfl
@[simp] theorem voiceStart_note (sr : F32) (seq rng : Word) (n : Nat) (v : F32) (x : Voice cfg) : (voiceStart sr seq rng n v x).note = natWord n := rfl
@[simp] theorem voiceStart_age (sr : F32) (seq rng : Word) (n : Nat) (v : F32) (x : Voice cfg) : (voiceStart sr seq rng n v x).age = seq := rfl
@[simp] theorem voiceStart_freq (sr : F32) (seq rng : Word) (n : Nat) (v : F32) (x : Voice cfg) : (voiceStart sr seq rng n v x).freq = noteFreq n := rfl
@[simp] theorem voiceStart_vel (sr : F32) (seq rng : Word) (n : Nat) (v : F32) (x : Voice cfg) : (voiceStart sr seq rng n v x).vel = clampUnit v := rfl
@[simp] theorem voiceStart_fadeinCnt (sr : F32) (seq rng : Word) (n : Nat) (v : F32) (x : Voice cfg) : (voiceStart sr seq rng n v x).fadeinCnt = 0 := rfl
@[simp] theorem voiceStart_fadeoutCnt (sr : F32) (seq rng : Word) (n : Nat) (v : F32) (x : Voice cfg) : (voiceStart sr seq rng n v x).fadeoutCnt = 0 := rfl
@[simp] theorem voiceStart_mode (sr : F32) (seq rng : Word) (n : Nat) (v : F32) (x : Voice cfg) : (voiceStart sr seq rng n v x).mode = x.mode := rfl
@[simp] theorem voiceStart_clouds (sr : F32) (seq rng : Word) (n : Nat) (v : F32) (x : Voice cfg) : (voiceStart sr seq rng n v x).clouds = x.clouds := rfl
@[simp] theorem voiceStart_karplus (sr : F32) (seq rng : Word) (n : Nat) (v : F32) (x : Voice cfg) : (voiceStart sr seq rng n v x).karplus = karplusTrigger cfg (clampUnit v) rng (karplusSetFreq cfg sr (noteFreq n) x.karplus) := rfl
@[simp] theorem voiceStart_wt (sr : F32) (seq rng : Word) (n : Nat) (v : F32) (x : Voice cfg) : (voiceStart sr seq rng n v x).wt = { x.wt with phase := F32.zero } := rfl
@[simp] theorem voiceStart_mix (sr : F32) (seq rng : Word) (n : Nat) (v : F32) (x : Voice cfg) : (voiceStart sr seq rng n v x).mix = x.mix := rfl
@[simp] theorem voiceStart_oscs (sr : F32) (seq rng : Word) (n : Nat) (v : F32) (x : Voice cfg) : (voiceStart sr seq rng n v x).oscs = oscRetune sr (noteFreq n) x.oscs := rfl
@[simp] theorem voiceStart_enva (sr : F32) (seq rng : Word) (n : Nat) (v : F32) (x : Voice cfg) : (voiceStart sr seq rng n v x).enva = envNoteOn x.enva := rfl
@[simp] theorem voiceStart_envf (sr : F32) (seq rng : Word) (n : Nat) (v : F32) (x : Voice cfg) : (voiceStart sr seq rng n v x).envf = envNoteOn x.envf := rfl
@[simp] theorem voiceStart_flt (sr : F32) (seq rng : Word) (n : Nat) (v : F32) (x : Voice cfg) : (voiceStart sr seq rng n v x).flt = x.flt := rfl

/-! One rendered sample (R335). -/

@[simp] theorem voiceFrame_active (sr : F32) (fin fout bufLen rng : Word) (x : Voice cfg) :
    (voiceFrame sr fin fout bufLen rng x).voice.active = x.active := by
  simp [voiceFrame]

@[simp] theorem voiceFrame_fading (sr : F32) (fin fout bufLen rng : Word) (x : Voice cfg) :
    (voiceFrame sr fin fout bufLen rng x).voice.fading = x.fading := by
  simp [voiceFrame]

@[simp] theorem voiceFrame_note (sr : F32) (fin fout bufLen rng : Word) (x : Voice cfg) :
    (voiceFrame sr fin fout bufLen rng x).voice.note = x.note := by
  simp [voiceFrame]

@[simp] theorem voiceFrame_age (sr : F32) (fin fout bufLen rng : Word) (x : Voice cfg) :
    (voiceFrame sr fin fout bufLen rng x).voice.age = x.age := by
  simp [voiceFrame]

@[simp] theorem voiceFrame_freq (sr : F32) (fin fout bufLen rng : Word) (x : Voice cfg) :
    (voiceFrame sr fin fout bufLen rng x).voice.freq = x.freq := by
  simp [voiceFrame]

@[simp] theorem voiceFrame_vel (sr : F32) (fin fout bufLen rng : Word) (x : Voice cfg) :
    (voiceFrame sr fin fout bufLen rng x).voice.vel = x.vel := by
  simp [voiceFrame]

@[simp] theorem voiceFrame_fadeinCnt (sr : F32) (fin fout bufLen rng : Word) (x : Voice cfg) :
    (voiceFrame sr fin fout bufLen rng x).voice.fadeinCnt = fadeInCount fin x := by
  simp [voiceFrame, fadeInCount]

@[simp] theorem voiceFrame_fadeoutCnt (sr : F32) (fin fout bufLen rng : Word) (x : Voice cfg) :
    (voiceFrame sr fin fout bufLen rng x).voice.fadeoutCnt = fadeOutCount x := by
  simp [voiceFrame, fadeOutCount]

@[simp] theorem voiceFrame_mode (sr : F32) (fin fout bufLen rng : Word) (x : Voice cfg) :
    (voiceFrame sr fin fout bufLen rng x).voice.mode = x.mode := by
  simp [voiceFrame]

@[simp] theorem voiceFrame_rings (sr : F32) (fin fout bufLen rng : Word) (x : Voice cfg) :
    (voiceFrame sr fin fout bufLen rng x).voice.rings = (engineSample sr bufLen rng x).voice.rings := rfl

@[simp] theorem voiceFrame_clouds (sr : F32) (fin fout bufLen rng : Word) (x : Voice cfg) :
    (voiceFrame sr fin fout bufLen rng x).voice.clouds = (engineSample sr bufLen rng x).voice.clouds := rfl

@[simp] theorem voiceFrame_karplus (sr : F32) (fin fout bufLen rng : Word) (x : Voice cfg) :
    (voiceFrame sr fin fout bufLen rng x).voice.karplus = (engineSample sr bufLen rng x).voice.karplus := rfl

@[simp] theorem voiceFrame_wt (sr : F32) (fin fout bufLen rng : Word) (x : Voice cfg) :
    (voiceFrame sr fin fout bufLen rng x).voice.wt = (engineSample sr bufLen rng x).voice.wt := rfl

@[simp] theorem voiceFrame_mix (sr : F32) (fin fout bufLen rng : Word) (x : Voice cfg) :
    (voiceFrame sr fin fout bufLen rng x).voice.mix = x.mix := by
  simp [voiceFrame]

@[simp] theorem voiceFrame_oscs (sr : F32) (fin fout bufLen rng : Word) (x : Voice cfg) :
    (voiceFrame sr fin fout bufLen rng x).voice.oscs = (engineSample sr bufLen rng x).voice.oscs := rfl

@[simp] theorem voiceFrame_enva (sr : F32) (fin fout bufLen rng : Word) (x : Voice cfg) :
    (voiceFrame sr fin fout bufLen rng x).voice.enva = envNext sr x.enva := by
  simp [voiceFrame]

@[simp] theorem voiceFrame_envf (sr : F32) (fin fout bufLen rng : Word) (x : Voice cfg) :
    (voiceFrame sr fin fout bufLen rng x).voice.envf = envNext sr x.envf := by
  simp [voiceFrame]

@[simp] theorem voiceFrame_rng (sr : F32) (fin fout bufLen rng : Word) (x : Voice cfg) :
    (voiceFrame sr fin fout bufLen rng x).rng = (engineSample sr bufLen rng x).rng := rfl

/-! `V_STOP` (R330, R331). -/

/-- A stop leaves everything alone but the envelopes, or the fade-out. -/
theorem voiceStop_cases (sr : F32) (tailOff : Bool) (x : Voice cfg) :
    voiceStop sr tailOff x = x ∨
      (x.active = true ∧ tailOff = true ∧
        voiceStop sr tailOff x = { x with enva := envNoteOff sr x.enva, envf := envNoteOff sr x.envf }) ∨
      (x.active = true ∧ tailOff = false ∧ x.fading = false ∧
        voiceStop sr tailOff x = { x with fading := true, fadeoutCnt := 0 }) := by
  unfold voiceStop
  cases ha : x.active <;> cases tailOff <;> cases hf : x.fading <;> simp

/-! The sample loop (R335). -/

/-- The induction over the sample loop: what each rendered frame keeps and the clearing of the voice keeps, the loop keeps. The
frames are those from `f` on, below `f + n`. -/
theorem renderLoop_induction {P : State cfg → Prop} {v : Fin cfg.nv} {n f : Nat} {s : State cfg} (h0 : P s)
    (hframe : ∀ (t : State cfg) (k : Nat), f ≤ k → k < f + n → P t → P (t.renderFrame v k))
    (hclear : ∀ t : State cfg, P t → P (t.updVoice v voiceClear)) : P (State.renderLoop v n f s) := by
  induction n generalizing f s with
  | zero => exact h0
  | succ n ih =>
    have h1 := hframe s f le_rfl (by omega) h0
    unfold State.renderLoop
    simp only
    split
    · exact hclear _ h1
    · exact ih h1 fun t k hk hk' => hframe t k (by omega) (by omega)

/-- The same, where clearing a voice is asked to keep the property only right after a frame that ends it, and the next frame is
asked to keep it only after a frame that does not. -/
theorem renderLoop_induction_ends {P Q : State cfg → Prop} {v : Fin cfg.nv} {n f : Nat} {s : State cfg} (h0 : P s)
    (hframe : ∀ (t : State cfg) (k : Nat), f ≤ k → k < f + n → P t → Q (t.renderFrame v k))
    (hend : ∀ t : State cfg, Q t → voiceEnds t.fadeOut (t.voice v) = true → P (t.updVoice v voiceClear))
    (hgo : ∀ t : State cfg, Q t → voiceEnds t.fadeOut (t.voice v) = false → P t) : P (State.renderLoop v n f s) := by
  induction n generalizing f s with
  | zero => exact h0
  | succ n ih =>
    have h1 := hframe s f le_rfl (by omega) h0
    unfold State.renderLoop
    simp only
    split
    · exact hend _ h1 ‹_›
    · rename_i hc
      exact ih (hgo _ h1 (Bool.not_eq_true _ ▸ hc)) fun t k hk hk' => hframe t k (by omega) (by omega)

/-- A voice that renders: nothing if it is inactive, else the sample loop from frame 0. -/
theorem renderVoice_of_inactive {s : State cfg} {v : Fin cfg.nv} (h : (s.voice v).active = false) (n : Nat) :
    s.renderVoice v n = s := by
  unfold State.renderVoice; rw [h]; rfl

theorem renderVoice_of_active {s : State cfg} {v : Fin cfg.nv} (h : (s.voice v).active = true) (n : Nat) :
    s.renderVoice v n = State.renderLoop v n 0 s := by
  unfold State.renderVoice; rw [h]; rfl

/-- What the sample loop of any voice keeps, a render of all voices keeps. -/
theorem renderAll_induction {P : State cfg → Prop} {n : Nat} {s : State cfg} (h0 : P s)
    (hloop : ∀ (t : State cfg) (v : Fin cfg.nv), (t.voice v).active = true → P t → P (State.renderLoop v n 0 t))
    (l : List (Fin cfg.nv)) : P (l.foldl (fun t v => t.renderVoice v n) s) := by
  induction l generalizing s with
  | nil => exact h0
  | cons v l ih =>
    apply ih
    show P (s.renderVoice v n)
    cases ha : (s.voice v).active
    · rw [renderVoice_of_inactive ha]; exact h0
    · rw [renderVoice_of_active ha]; exact hloop s v ha h0

end Sys2Proof.Machine
end

