-- ==== Sys2Proof/Laws/Keeps.lean ====
section
/-! SUPPORT. What every command keeps of every voice (`10_state.md` R36, R42): a condition on a voice, given the registers that `PREPARE`
writes, that each update a command can make keeps. -/

namespace Sys2Proof.Machine

variable {cfg : Config.Params}

/-- The registers that `PREPARE` writes are the same in two states. -/
def sameConfig (s t : State cfg) : Prop :=
  t.sr = s.sr ∧ t.maxBlock = s.maxBlock ∧ t.fadeIn = s.fadeIn ∧ t.fadeOut = s.fadeOut ∧ t.bufLen = s.bufLen

theorem sameConfig.refl (s : State cfg) : sameConfig s s := ⟨rfl, rfl, rfl, rfl, rfl⟩

theorem sameConfig.trans {s t u : State cfg} (h : sameConfig s t) (k : sameConfig t u) : sameConfig s u :=
  ⟨k.1.trans h.1, k.2.1.trans h.2.1, k.2.2.1.trans h.2.2.1, k.2.2.2.1.trans h.2.2.2.1, k.2.2.2.2.trans h.2.2.2.2⟩

theorem sameConfig.ready {s t : State cfg} (h : sameConfig s t) : t.ready = s.ready := by
  unfold State.ready; rw [h.1]

/-- A condition `Q s x` on a voice `x` of the state `s`, and `R s x` after a frame and before the end tests: each field says that one
of the updates that a command makes keeps it. -/
structure VoiceKeeps (Q R : State cfg → Voice cfg → Prop) : Prop where
  config : ∀ (s t : State cfg) (x : Voice cfg), sameConfig s t → Q s x → Q t x
  prepare : ∀ (s : State cfg) (r : F32) (n : Nat), Q (s.prepare r n) (preparedVoice cfg (clampRate cfg r))
  osc : ∀ (s : State cfg) (x : Voice cfg) (k : Bool) (w : F32) (n : Nat), s.ready = true → Q s x →
    Q s (updOsc x k fun o => { o with inc := clampInc ((clampFreq w).div s.sr) }) ∧
    Q s (updOsc x k fun o => { o with wave := waveOfCode n }) ∧
    Q s (updOsc x k fun o => { o with phase := F32.zero }) ∧
    Q s { x with oscs := (oscNext x.oscs k).1 }
  setOscs : ∀ (s : State cfg) (x : Voice cfg) (m n : Nat) (a b c : F32), s.ready = true → Q s x →
    Q s { x with oscs := oscSet s.sr x.freq m n a b c x.oscs }
  setRings : ∀ (s : State cfg) (x : Voice cfg) (f a b c d : F32) (n : Nat), s.ready = true → Q s x →
    Q s { x with rings := ringsSet cfg s.sr f a b c d n x.rings }
  ringsRun : ∀ (s : State cfg) (x : Voice cfg) (w : F32), s.ready = true → Q s x →
    Q s { x with rings := ringsTrigger w x.rings } ∧ Q s { x with rings := (ringsProc w x.rings).1 }
  setClouds : ∀ (s : State cfg) (x : Voice cfg) (n : Nat) (a b c d e : F32), s.ready = true → Q s x →
    Q s { x with clouds := cloudsSet n a b c d e x.clouds }
  cloudsRun : ∀ (s : State cfg) (x : Voice cfg) (l r : F32) (rng : Word), s.ready = true → Q s x →
    Q s { x with clouds := cloudsWrite s.bufLen l r x.clouds } ∧
    Q s { x with clouds := (cloudsProc s.sr s.bufLen rng x.clouds).clouds }
  karplus : ∀ (s : State cfg) (x : Voice cfg) (w : F32) (rng : Word), s.ready = true → Q s x →
    Q s { x with karplus := karplusSetFreq cfg s.sr w x.karplus } ∧
    Q s { x with karplus := karplusTrigger cfg w rng x.karplus } ∧
    Q s { x with karplus := (karplusGet cfg x.karplus).1 }
  setWt : ∀ (s : State cfg) (x : Voice cfg) (m n : Nat) (a b c : F32), s.ready = true → Q s x →
    Q s { x with wt := wtSet m n a b c x.wt }
  env : ∀ (s : State cfg) (x : Voice cfg) (k : Bool) (a b c d : F32), s.ready = true → Q s x →
    Q s (setEnv x k (envSet a b c d (envOf x k))) ∧ Q s (setEnv x k (envNoteOn (envOf x k))) ∧
    Q s (setEnv x k (envNoteOff s.sr (envOf x k))) ∧ Q s (setEnv x k (envNext s.sr (envOf x k)))
  setFilt : ∀ (s : State cfg) (x : Voice cfg) (n : Nat) (a b c : F32), s.ready = true → Q s x →
    Q s { x with flt := filtSet n a b c x.flt }
  filtRun : ∀ (s : State cfg) (x : Voice cfg) (a b c : F32), s.ready = true → Q s x →
    Q s { x with flt := (filtProc s.sr a b c x.flt).filt } ∧ Q s { x with flt := filtClear x.flt }
  mode : ∀ (s : State cfg) (x : Voice cfg) (n : Nat) (a b c d e : F32), s.ready = true → Q s x →
    Q s { x with mode := modeOfCode n } ∧ Q s { x with mix := mixSet a b c d e }
  start : ∀ (s : State cfg) (x : Voice cfg) (n : Nat) (w : F32), s.ready = true → n ≤ 127 → Q s x →
    Q s (voiceStart s.sr (s.noteSeq + 1) s.rngIdx n w x)
  stop : ∀ (s : State cfg) (x : Voice cfg) (k : Bool), s.ready = true → Q s x → Q s (voiceStop s.sr k x)
  frame : ∀ (s : State cfg) (x : Voice cfg), s.ready = true → x.active = true → Q s x →
    R s (voiceFrame s.sr s.fadeIn s.fadeOut s.bufLen s.rngIdx x).voice
  ends : ∀ (s : State cfg) (x : Voice cfg), s.ready = true → R s x → voiceEnds s.fadeOut x = true → Q s (voiceClear x)
  goesOn : ∀ (s : State cfg) (x : Voice cfg), s.ready = true → R s x → voiceEnds s.fadeOut x = false → Q s x

/-- A change to one voice keeps a condition on every voice. -/
theorem State.updVoice_all {P : Voice cfg → Prop} {s : State cfg} {v : Fin cfg.nv} {f : Voice cfg → Voice cfg} (h : ∀ w, P (s.voice w))
    (hv : P (f (s.voice v))) (w : Fin cfg.nv) : P ((s.updVoice v f).voice w) := by
  by_cases e : w = v
  · subst e; rw [State.voice_updVoice_self]; exact hv
  · rw [State.voice_updVoice_ne s v f e]; exact h w

/-- An admitted command that needs `PREPARE` runs in a prepared block. -/
theorem ready_of_firstFault {i : Instr} {s : State cfg} (h : firstFault i s = none) (he : (instrRow i).early = false) :
    s.ready = true := by
  rcases (of_admit h).2 with h | h
  · exact h
  · rw [he] at h; cases h

/-- What the group setters keep, all of them together keep. -/
theorem VoiceKeeps.setAll {Q R : State cfg → Voice cfg → Prop} (k : VoiceKeeps Q R) (s : State cfg) (x : Voice cfg)
    (a0 a5 a11 a12 a13 a33 a34 a35 : Nat)
    (b1 b2 b3 b4 b6 b7 b8 b9 b10 b14 b15 b16 b17 b18 b19 b20 b21 b22 b23 b24 b25 b26 b27 b28 b29 b30 b31 b32 b36 b37 b38 : F32)
    (hr : s.ready = true) (h : Q s x) :
    Q s { x with
      mode := modeOfCode a0
      rings := ringsSet cfg s.sr x.freq b1 b2 b3 b4 a5 x.rings
      clouds := cloudsSet a11 b6 b7 b8 b9 b10 x.clouds
      wt := wtSet a12 a13 b14 b15 b16 x.wt
      mix := mixSet b17 b18 b19 b20 b21
      enva := envSet b22 b23 b24 b25 x.enva
      envf := envSet b26 b27 b28 b29 x.envf
      flt := filtSet a33 b30 b31 b32 x.flt
      oscs := oscSet s.sr x.freq a34 a35 b36 b37 b38 x.oscs } := by
  have h1 := (k.mode s x a0 F32.zero F32.zero F32.zero F32.zero F32.zero hr h).1
  have h2 := k.setRings s _ x.freq b1 b2 b3 b4 a5 hr h1
  have h3 := k.setClouds s _ a11 b6 b7 b8 b9 b10 hr h2
  have h4 := k.setWt s _ a12 a13 b14 b15 b16 hr h3
  have h5 := (k.mode s _ 0 b17 b18 b19 b20 b21 hr h4).2
  have h6 := (k.env s _ false b22 b23 b24 b25 hr h5).1
  have h7 := (k.env s _ true b26 b27 b28 b29 hr h6).1
  have h8 := k.setFilt s _ a33 b30 b31 b32 hr h7
  exact k.setOscs s _ a34 a35 b36 b37 b38 hr h8

/-- What `SETGLOBAL` does to a voice keeps what the group setters keep. -/
theorem VoiceKeeps.setGlobal {Q R : State cfg → Voice cfg → Prop} (k : VoiceKeeps Q R) (s : State cfg) (p : Vector Word Config.NPARAM)
    (x : Voice cfg) (hr : s.ready = true) (h : Q s x) : Q s (voiceSetGlobal s.sr p x) :=
  k.setAll s x _ _ _ _ _ _ _ _ _ _ _ _ _ _ _ _ _ _ _ _ _ _ _ _ _ _ _ _ _ _ _ _ _ _ _ _ _ _ _ hr h

/-- The sample loop of a voice that is active keeps the condition on every voice. -/
theorem VoiceKeeps.renderLoop {Q R : State cfg → Voice cfg → Prop} (k : VoiceKeeps Q R) (v : Fin cfg.nv) (n f : Nat) {s : State cfg}
    (hr : s.ready = true) (ha : (s.voice v).active = true) (h : ∀ w, Q s (s.voice w)) :
    sameConfig s (State.renderLoop v n f s) ∧ ∀ w, Q (State.renderLoop v n f s) ((State.renderLoop v n f s).voice w) := by
  induction n generalizing f s with
  | zero => exact ⟨sameConfig.refl s, h⟩
  | succ n ih =>
    have hc : sameConfig s (s.renderFrame v f) := ⟨rfl, rfl, rfl, rfl, rfl⟩
    have hR := k.frame s (s.voice v) hr ha (h v)
    have hne : ∀ w, w ≠ v → Q (s.renderFrame v f) ((s.renderFrame v f).voice w) := fun w e => by
      rw [State.voice_renderFrame_ne s v f e]; exact k.config _ _ _ hc (h w)
    unfold State.renderLoop
    simp only
    split
    · rename_i he
      rw [State.voice_renderFrame_self] at he
      have hQ := k.ends s _ hr hR he
      refine ⟨⟨rfl, rfl, rfl, rfl, rfl⟩, fun w => ?_⟩
      have hc' : sameConfig s ((s.renderFrame v f).updVoice v voiceClear) := ⟨rfl, rfl, rfl, rfl, rfl⟩
      by_cases e : w = v
      · subst e
        rw [State.voice_updVoice_self, State.voice_renderFrame_self]
        exact k.config _ _ _ hc' hQ
      · rw [State.voice_updVoice_ne _ v voiceClear e, State.voice_renderFrame_ne s v f e]
        exact k.config _ _ _ hc' (h w)
    · rename_i he
      rw [State.voice_renderFrame_self] at he
      have hQ := k.goesOn s _ hr hR (by simpa using he)
      obtain ⟨h1, h2⟩ := ih (f + 1) (s := s.renderFrame v f) (by rw [sameConfig.ready hc, hr])
        (by rw [State.voice_renderFrame_self]; simpa using ha)
        (fun w => if e : w = v then by rw [e, State.voice_renderFrame_self]; exact k.config _ _ _ hc hQ else hne w e)
      exact ⟨hc.trans h1, h2⟩

/-- A render of any voice keeps the condition on every voice. -/
theorem VoiceKeeps.renderVoice {Q R : State cfg → Voice cfg → Prop} (k : VoiceKeeps Q R) (v : Fin cfg.nv) (n : Nat) {s : State cfg}
    (hr : s.ready = true) (h : ∀ w, Q s (s.voice w)) :
    sameConfig s (s.renderVoice v n) ∧ ∀ w, Q (s.renderVoice v n) ((s.renderVoice v n).voice w) := by
  cases ha : (s.voice v).active
  · rw [renderVoice_of_inactive ha]; exact ⟨sameConfig.refl s, h⟩
  · rw [renderVoice_of_active ha]; exact k.renderLoop v n 0 hr ha h

/-- Every command keeps the condition on every voice. -/
theorem VoiceKeeps.execAt {Q R : State cfg → Voice cfg → Prop} (k : VoiceKeeps Q R) {i : Instr} {s t : State cfg}
    (h : Machine.execAt i s = .next t) (h0 : ∀ w, Q s (s.voice w)) (w : Fin cfg.nv) : Q t (t.voice w) := by
  have hraise : ∀ (f : FaultCode) (x : Word), Q (s.raise f x) ((s.raise f x).voice w) := fun f x => by
    rw [State.voice_raise]; exact k.config s _ _ ⟨rfl, rfl, rfl, rfl, rfl⟩ (h0 w)
  have hone : ∀ (v : Fin cfg.nv) (y : Voice cfg) (u : State cfg), u.voices = (s.setVoice v y).voices → sameConfig s u →
      Q s y → Q u (u.voice w) := fun v y u hu hc hq => by
    rw [State.voice_congr hu]
    exact k.config s u _ hc (State.updVoice_all (f := fun _ => y) h0 hq w)
  have hsame : ∀ u : State cfg, u.voices = s.voices → sameConfig s u → Q u (u.voice w) := fun u hu hc => by
    rw [State.voice_congr hu]; exact k.config s u _ hc (h0 w)
  have hstart : ∀ (v : Fin cfg.nv) (n : Nat) (x : F32), s.ready = true → n ≤ 127 →
      Q (s.startVoice v n x) ((s.startVoice v n x).voice w) := fun v n x hr hn => by
    have hc : sameConfig s (s.startVoice v n x) := ⟨rfl, rfl, rfl, rfl, rfl⟩
    by_cases e : w = v
    · subst e
      rw [State.voice_startVoice_self]
      exact k.config s _ _ hc (k.start s _ n x hr hn (h0 w))
    · rw [State.voice_startVoice_ne s v n x e]
      exact k.config s _ _ hc (h0 w)
  have hrender : ∀ (l : List (Fin cfg.nv)) (n : Nat), s.ready = true →
      sameConfig s (l.foldl (fun t v => t.renderVoice v n) s) ∧
      ∀ w, Q (l.foldl (fun t v => t.renderVoice v n) s) ((l.foldl (fun t v => t.renderVoice v n) s).voice w) := by
    intro l n hr
    have : ∀ u : State cfg, sameConfig s u → (∀ w, Q u (u.voice w)) →
        sameConfig s (l.foldl (fun t v => t.renderVoice v n) u) ∧
        ∀ w, Q (l.foldl (fun t v => t.renderVoice v n) u) ((l.foldl (fun t v => t.renderVoice v n) u).voice w) := by
      induction l with
      | nil => exact fun u hc hu => ⟨hc, hu⟩
      | cons v l ih =>
        intro u hc hu
        obtain ⟨h1, h2⟩ := k.renderVoice v n (s := u) (by rw [hc.ready, hr]) hu
        exact ih _ (hc.trans h1) h2
    exact this s (sameConfig.refl s) h0
  cases i with
  | vSetmode vid arg ops =>
    rcases execVSetmode_next h with ⟨f, rfl⟩ | ⟨v, _, ha, rfl⟩
    · exact hraise f _
    · refine hone v _ _ rfl ⟨rfl, rfl, rfl, rfl, rfl⟩ ?_
      exact (k.mode s _ _ F32.zero F32.zero F32.zero F32.zero F32.zero (ready_of_firstFault ha rfl) (h0 v)).1
  | vStop vid arg ops =>
    rcases execVStop_next h with ⟨f, rfl⟩ | ⟨v, _, ha, rfl⟩
    · exact hraise f _
    · refine hone v _ _ rfl ⟨rfl, rfl, rfl, rfl, rfl⟩ ?_
      exact k.stop s _ _ (ready_of_firstFault ha rfl) (h0 v)
  | vSetrings vid arg ops =>
    rcases execVSetrings_next h with ⟨f, rfl⟩ | ⟨v, _, ha, rfl⟩
    · exact hraise f _
    · refine hone v _ _ rfl ⟨rfl, rfl, rfl, rfl, rfl⟩ ?_
      exact k.setRings s _ _ _ _ _ _ _ (ready_of_firstFault ha rfl) (h0 v)
  | vSetclouds vid arg ops =>
    rcases execVSetclouds_next h with ⟨f, rfl⟩ | ⟨v, _, ha, rfl⟩
    · exact hraise f _
    · refine hone v _ _ rfl ⟨rfl, rfl, rfl, rfl, rfl⟩ ?_
      exact k.setClouds s _ _ _ _ _ _ _ (ready_of_firstFault ha rfl) (h0 v)
  | vSetwt vid arg ops =>
    rcases execVSetwt_next h with ⟨f, rfl⟩ | ⟨v, _, ha, rfl⟩
    · exact hraise f _
    · refine hone v _ _ rfl ⟨rfl, rfl, rfl, rfl, rfl⟩ ?_
      exact k.setWt s _ _ _ _ _ _ (ready_of_firstFault ha rfl) (h0 v)
  | vSetmix vid arg ops =>
    rcases execVSetmix_next h with ⟨f, rfl⟩ | ⟨v, _, ha, rfl⟩
    · exact hraise f _
    · refine hone v _ _ rfl ⟨rfl, rfl, rfl, rfl, rfl⟩ ?_
      exact (k.mode s _ 0 _ _ _ _ _ (ready_of_firstFault ha rfl) (h0 v)).2
  | vSetenv vid arg ops =>
    rcases execVSetenv_next h with ⟨f, rfl⟩ | ⟨v, _, ha, rfl⟩
    · exact hraise f _
    · refine hone v _ _ rfl ⟨rfl, rfl, rfl, rfl, rfl⟩ ?_
      exact (k.env s _ true _ _ _ _ (ready_of_firstFault ha rfl) (k.env s _ false _ _ _ _ (ready_of_firstFault ha rfl) (h0 v)).1).1
  | vSetfilt vid arg ops =>
    rcases execVSetfilt_next h with ⟨f, rfl⟩ | ⟨v, _, ha, rfl⟩
    · exact hraise f _
    · refine hone v _ _ rfl ⟨rfl, rfl, rfl, rfl, rfl⟩ ?_
      exact k.setFilt s _ _ _ _ _ (ready_of_firstFault ha rfl) (h0 v)
  | vSetosc vid arg ops =>
    rcases execVSetosc_next h with ⟨f, rfl⟩ | ⟨v, _, ha, rfl⟩
    · exact hraise f _
    · refine hone v _ _ rfl ⟨rfl, rfl, rfl, rfl, rfl⟩ ?_
      exact k.setOscs s _ _ _ _ _ _ (ready_of_firstFault ha rfl) (h0 v)
  | mrSetparams vid arg ops =>
    rcases execMrSetparams_next h with ⟨f, rfl⟩ | ⟨v, _, ha, rfl⟩
    · exact hraise f _
    · refine hone v _ _ rfl ⟨rfl, rfl, rfl, rfl, rfl⟩ ?_
      exact k.setRings s _ _ _ _ _ _ _ (ready_of_firstFault ha rfl) (h0 v)
  | mrTrigger vid arg ops =>
    rcases execMrTrigger_next h with ⟨f, rfl⟩ | ⟨v, _, ha, rfl⟩
    · exact hraise f _
    · refine hone v _ _ rfl ⟨rfl, rfl, rfl, rfl, rfl⟩ ?_
      exact (k.ringsRun s _ _ (ready_of_firstFault ha rfl) (h0 v)).1
  | mrProc vid arg ops =>
    rcases execMrProc_next h with ⟨f, rfl⟩ | ⟨v, _, ha, rfl⟩
    · exact hraise f _
    · refine hone v _ _ rfl ⟨rfl, rfl, rfl, rfl, rfl⟩ ?_
      exact (k.ringsRun s _ _ (ready_of_firstFault ha rfl) (h0 v)).2
  | grWrite vid arg ops =>
    rcases execGrWrite_next h with ⟨f, rfl⟩ | ⟨v, _, ha, rfl⟩
    · exact hraise f _
    · refine hone v _ _ rfl ⟨rfl, rfl, rfl, rfl, rfl⟩ ?_
      exact (k.cloudsRun s _ _ _ 0 (ready_of_firstFault ha rfl) (h0 v)).1
  | grProc vid arg ops =>
    rcases execGrProc_next h with ⟨f, rfl⟩ | ⟨v, _, ha, rfl⟩
    · exact hraise f _
    · refine hone v _ _ rfl ⟨rfl, rfl, rfl, rfl, rfl⟩ ?_
      exact (k.cloudsRun s _ F32.zero F32.zero _ (ready_of_firstFault ha rfl) (h0 v)).2
  | ksSetfreq vid arg ops =>
    rcases execKsSetfreq_next h with ⟨f, rfl⟩ | ⟨v, _, ha, rfl⟩
    · exact hraise f _
    · refine hone v _ _ rfl ⟨rfl, rfl, rfl, rfl, rfl⟩ ?_
      exact (k.karplus s _ _ 0 (ready_of_firstFault ha rfl) (h0 v)).1
  | ksTrigger vid arg ops =>
    rcases execKsTrigger_next h with ⟨f, rfl⟩ | ⟨v, _, ha, rfl⟩
    · exact hraise f _
    · refine hone v _ _ rfl ⟨rfl, rfl, rfl, rfl, rfl⟩ ?_
      exact (k.karplus s _ _ _ (ready_of_firstFault ha rfl) (h0 v)).2.1
  | ksGet vid arg ops =>
    rcases execKsGet_next h with ⟨f, rfl⟩ | ⟨v, _, ha, rfl⟩
    · exact hraise f _
    · refine hone v _ _ rfl ⟨rfl, rfl, rfl, rfl, rfl⟩ ?_
      exact (k.karplus s _ F32.zero 0 (ready_of_firstFault ha rfl) (h0 v)).2.2
  | oscSetfreq vid arg ops =>
    rcases execOscSetfreq_next h with ⟨f, rfl⟩ | ⟨v, _, ha, rfl⟩
    · exact hraise f _
    · refine hone v _ _ rfl ⟨rfl, rfl, rfl, rfl, rfl⟩ ?_
      exact (k.osc s _ _ _ 0 (ready_of_firstFault ha rfl) (h0 v)).1
  | oscSetwave vid arg ops =>
    rcases execOscSetwave_next h with ⟨f, rfl⟩ | ⟨v, _, ha, rfl⟩
    · exact hraise f _
    · refine hone v _ _ rfl ⟨rfl, rfl, rfl, rfl, rfl⟩ ?_
      exact (k.osc s _ _ F32.zero _ (ready_of_firstFault ha rfl) (h0 v)).2.1
  | oscReset vid arg ops =>
    rcases execOscReset_next h with ⟨f, rfl⟩ | ⟨v, _, ha, rfl⟩
    · exact hraise f _
    · refine hone v _ _ rfl ⟨rfl, rfl, rfl, rfl, rfl⟩ ?_
      exact (k.osc s _ _ F32.zero 0 (ready_of_firstFault ha rfl) (h0 v)).2.2.1
  | oscNext vid arg ops =>
    rcases execOscNext_next h with ⟨f, rfl⟩ | ⟨v, _, ha, rfl⟩
    · exact hraise f _
    · refine hone v _ _ rfl ⟨rfl, rfl, rfl, rfl, rfl⟩ ?_
      exact (k.osc s _ _ F32.zero 0 (ready_of_firstFault ha rfl) (h0 v)).2.2.2
  | envSetparams vid arg ops =>
    rcases execEnvSetparams_next h with ⟨f, rfl⟩ | ⟨v, _, ha, rfl⟩
    · exact hraise f _
    · refine hone v _ _ rfl ⟨rfl, rfl, rfl, rfl, rfl⟩ ?_
      exact (k.env s _ _ _ _ _ _ (ready_of_firstFault ha rfl) (h0 v)).1
  | envNoteon vid arg ops =>
    rcases execEnvNoteon_next h with ⟨f, rfl⟩ | ⟨v, _, ha, rfl⟩
    · exact hraise f _
    · refine hone v _ _ rfl ⟨rfl, rfl, rfl, rfl, rfl⟩ ?_
      exact (k.env s _ _ F32.zero F32.zero F32.zero F32.zero (ready_of_firstFault ha rfl) (h0 v)).2.1
  | envNoteoff vid arg ops =>
    rcases execEnvNoteoff_next h with ⟨f, rfl⟩ | ⟨v, _, ha, rfl⟩
    · exact hraise f _
    · refine hone v _ _ rfl ⟨rfl, rfl, rfl, rfl, rfl⟩ ?_
      exact (k.env s _ _ F32.zero F32.zero F32.zero F32.zero (ready_of_firstFault ha rfl) (h0 v)).2.2.1
  | envNext vid arg ops =>
    rcases execEnvNext_next h with ⟨f, rfl⟩ | ⟨v, _, ha, rfl⟩
    · exact hraise f _
    · refine hone v _ _ rfl ⟨rfl, rfl, rfl, rfl, rfl⟩ ?_
      exact (k.env s _ _ F32.zero F32.zero F32.zero F32.zero (ready_of_firstFault ha rfl) (h0 v)).2.2.2
  | fltProc vid arg ops =>
    rcases execFltProc_next h with ⟨f, rfl⟩ | ⟨v, _, ha, rfl⟩
    · exact hraise f _
    · refine hone v _ _ rfl ⟨rfl, rfl, rfl, rfl, rfl⟩ ?_
      exact (k.filtRun s _ _ _ _ (ready_of_firstFault ha rfl) (h0 v)).1
  | fltReset vid arg ops =>
    rcases execFltReset_next h with ⟨f, rfl⟩ | ⟨v, _, ha, rfl⟩
    · exact hraise f _
    · refine hone v _ _ rfl ⟨rfl, rfl, rfl, rfl, rfl⟩ ?_
      exact (k.filtRun s _ F32.zero F32.zero F32.zero (ready_of_firstFault ha rfl) (h0 v)).2
  | nop vid arg ops =>
    rcases execNop_next h with ⟨f, rfl⟩ | ⟨_, rfl⟩
    · exact hraise f _
    · exact h0 w
  | clrerr vid arg ops =>
    rcases execClrerr_next h with ⟨f, rfl⟩ | ⟨_, rfl⟩
    · exact hraise f _
    · exact hsame _ rfl ⟨rfl, rfl, rfl, rfl, rfl⟩
  | peek vid arg ops =>
    rcases execPeek_next h with ⟨f, rfl⟩ | ⟨_, _, rfl⟩
    · exact hraise f _
    · exact hsame _ rfl ⟨rfl, rfl, rfl, rfl, rfl⟩
  | wrparam vid arg ops =>
    rcases execWrparam_next h with ⟨f, rfl⟩ | ⟨_, rfl⟩
    · exact hraise f _
    · exact hsame _ rfl ⟨rfl, rfl, rfl, rfl, rfl⟩
  | wtGet vid arg ops =>
    rcases execWtGet_next h with ⟨f, rfl⟩ | ⟨_, rfl⟩
    · exact hraise f _
    · exact hsame _ rfl ⟨rfl, rfl, rfl, rfl, rfl⟩
  | prepare vid arg ops =>
    rcases execPrepare_next h with ⟨f, rfl⟩ | ⟨_, rfl⟩
    · exact hraise f _
    · rw [State.voice_prepare]; exact k.prepare s _ _
  | setglobal vid arg ops =>
    rcases execSetglobal_next h with ⟨f, rfl⟩ | ⟨ha, rfl⟩
    · exact hraise f _
    · rw [State.voice_updVoices]
      exact k.config s _ _ ⟨rfl, rfl, rfl, rfl, rfl⟩ (k.setGlobal s _ _ (ready_of_firstFault ha rfl) (h0 w))
  | noteoff vid arg ops =>
    rcases execNoteoff_next h with ⟨f, rfl⟩ | ⟨ha, rfl⟩
    · exact hraise f _
    · rw [State.voice_updVoices]
      refine k.config s _ _ ⟨rfl, rfl, rfl, rfl, rfl⟩ ?_
      unfold voiceNoteOff
      split
      · exact k.stop s _ true (ready_of_firstFault ha rfl) (h0 w)
      · exact h0 w
  | noteon vid arg ops =>
    rcases execNoteon_next h with ⟨f, rfl⟩ | ⟨ha, rfl⟩
    · exact hraise f _
    · exact hstart _ _ _ (ready_of_firstFault ha rfl) (Nat.min_le_right _ _)
  | vStart vid arg ops =>
    rcases execVStart_next h with ⟨f, rfl⟩ | ⟨v, _, ha, rfl⟩
    · exact hraise f _
    · exact hstart v _ _ (ready_of_firstFault ha rfl) (Nat.min_le_right _ _)
  | vRender vid arg ops =>
    rcases execVRender_next h with ⟨f, rfl⟩ | ⟨v, _, ha, _, _, rfl⟩
    · exact hraise f _
    · have hr : s.ready = true := ready_of_firstFault ha rfl
      have hv := (k.renderVoice v (opWord ops 0).toNat hr h0).2
      exact hv w
  | render vid arg ops =>
    rcases execRender_next h with ⟨f, rfl⟩ | ⟨ha, _, _, ht⟩
    · exact hraise f _
    · have hr : s.ready = true := ready_of_firstFault ha rfl
      generalize voiceNumbers cfg = l at ht
      rw [ht]
      exact (hrender l (opWord ops 0).toNat hr).2 w

/-- The same for the commands of the block with the default parameters. -/
theorem VoiceKeeps.exec {Q R : State → Voice Config.std → Prop} (k : VoiceKeeps Q R) {i : Instr} {s t : State}
    (h : Machine.exec i s = .next t) (h0 : ∀ w, Q s (s.voice w)) (w : Fin Config.NV) : Q t (t.voice w) :=
  k.execAt ((execAt_eq_exec i s).trans h) h0 w

end Sys2Proof.Machine
end

