-- ==== Sys2Proof/Laws/Memory.lean ====
section
/-! SUPPORT. The memory (`20_memory.md` R100): a read after a write, and that every operation keeps the canonical form. -/

namespace Sys2Proof.Machine

@[simp] theorem Mem.read_nil (a : Nat) : Mem.read [] a = 0 := rfl

/-- Nothing is listed below the first index. -/
theorem Mem.read_below {m : Mem} {lo a : Nat} (h : Mem.wfFrom lo m = true) (ha : a < lo) : m.read a = 0 := by
  induction m generalizing lo with
  | nil => rfl
  | cons c m ih =>
    obtain ⟨b, w⟩ := c
    simp only [Mem.wfFrom, Bool.and_eq_true, decide_eq_true_eq] at h
    rw [Mem.read, if_neg (by omega)]
    exact ih h.2 (by omega)

theorem Mem.wfFrom_mono {m : Mem} {lo lo' : Nat} (h : Mem.wfFrom lo m = true) (hl : lo' ≤ lo) :
    Mem.wfFrom lo' m = true := by
  cases m with
  | nil => rfl
  | cons c m =>
    obtain ⟨b, w⟩ := c
    simp only [Mem.wfFrom, Bool.and_eq_true, decide_eq_true_eq] at h ⊢
    exact ⟨⟨by omega, h.1.2⟩, h.2⟩

theorem Mem.wfFrom_cons {m : Mem} {a lo : Nat} {w : Word} (h : Mem.wfFrom (a + 1) m = true) (ha : lo ≤ a) :
    Mem.wfFrom lo (Mem.cons a w m) = true := by
  unfold Mem.cons
  split
  · exact Mem.wfFrom_mono h (by omega)
  · rename_i hw
    simp only [Mem.wfFrom, Bool.and_eq_true, decide_eq_true_eq]
    exact ⟨⟨ha, hw⟩, h⟩

theorem Mem.read_cons {m : Mem} {a : Nat} {w : Word} (h : Mem.wfFrom (a + 1) m = true) (b : Nat) :
    (Mem.cons a w m).read b = if b = a then w else m.read b := by
  unfold Mem.cons
  split
  · rename_i hw
    by_cases hb : b = a
    · rw [if_pos hb, hw, Mem.read_below h (by omega)]
    · rw [if_neg hb]
  · rw [Mem.read]

/-- A write keeps the canonical form from any index that it does not undercut. -/
theorem Mem.wfFrom_write {m : Mem} {lo a : Nat} {w : Word} (h : Mem.wfFrom lo m = true) (ha : lo ≤ a) :
    Mem.wfFrom lo (m.write a w) = true := by
  induction m generalizing lo with
  | nil => exact Mem.wfFrom_cons rfl ha
  | cons c m ih =>
    obtain ⟨b, x⟩ := c
    have h' := h
    simp only [Mem.wfFrom, Bool.and_eq_true, decide_eq_true_eq] at h
    unfold Mem.write
    split
    · rename_i hab
      apply Mem.wfFrom_cons _ ha
      simp only [Mem.wfFrom, Bool.and_eq_true, decide_eq_true_eq]
      exact ⟨⟨by omega, h.1.2⟩, h.2⟩
    · split
      · rename_i hab
        subst hab
        exact Mem.wfFrom_cons h.2 ha
      · simp only [Mem.wfFrom, Bool.and_eq_true, decide_eq_true_eq]
        exact ⟨h.1, ih h.2 (by omega)⟩

theorem Mem.read_writeFrom {m : Mem} {lo : Nat} (h : Mem.wfFrom lo m = true) (a : Nat) (w : Word) (b : Nat) :
    (m.write a w).read b = if b = a then w else m.read b := by
  induction m generalizing lo with
  | nil => rw [Mem.write, Mem.read_cons rfl]
  | cons c m ih =>
    obtain ⟨d, x⟩ := c
    simp only [Mem.wfFrom, Bool.and_eq_true, decide_eq_true_eq] at h
    unfold Mem.write
    split
    · rename_i had
      rw [Mem.read_cons]
      simp only [Mem.wfFrom, Bool.and_eq_true, decide_eq_true_eq]
      exact ⟨⟨by omega, h.1.2⟩, h.2⟩
    · split
      · rename_i had
        subst had
        rw [Mem.read_cons h.2, Mem.read]
        split <;> rfl
      · rename_i had
        rw [Mem.read, Mem.read, ih h.2]
        split
        · rename_i hbd
          rw [if_neg (by omega)]
        · rfl

/-! The canonical form of a whole memory. -/

theorem Mem.wf_nil : Mem.wf [] = true := rfl

theorem Mem.wf_write {m : Mem} (h : m.wf = true) (a : Nat) (w : Word) : (m.write a w).wf = true :=
  Mem.wfFrom_write h (Nat.zero_le a)

/-- A word is read back where it was written, and every other word as before. -/
theorem Mem.read_write {m : Mem} (h : m.wf = true) (a : Nat) (w : Word) (b : Nat) :
    (m.write a w).read b = if b = a then w else m.read b :=
  Mem.read_writeFrom h a w b

theorem Mem.wf_accumulate {m : Mem} (h : m.wf = true) (f : Nat) (y : F32) : (m.accumulate f y).wf = true :=
  Mem.wf_write h f _

theorem Mem.read_accumulate {m : Mem} (h : m.wf = true) (f : Nat) (y : F32) (b : Nat) :
    (m.accumulate f y).read b = if b = f then (F32.add ⟨m.read f⟩ y).bits else m.read b :=
  Mem.read_write h f _ b

theorem Mem.wfFrom_zeroBelow {m : Mem} {lo : Nat} (h : Mem.wfFrom lo m = true) (n : Nat) :
    Mem.wfFrom lo (m.zeroBelow n) = true := by
  unfold Mem.zeroBelow
  induction m generalizing lo with
  | nil => rfl
  | cons c m ih =>
    obtain ⟨b, w⟩ := c
    simp only [Mem.wfFrom, Bool.and_eq_true, decide_eq_true_eq] at h
    rw [List.filter_cons]
    split
    · simp only [Mem.wfFrom, Bool.and_eq_true, decide_eq_true_eq]
      exact ⟨h.1, ih h.2⟩
    · exact Mem.wfFrom_mono (ih h.2) (by omega)

theorem Mem.wf_zeroBelow {m : Mem} (h : m.wf = true) (n : Nat) : (m.zeroBelow n).wf = true :=
  Mem.wfFrom_zeroBelow h n

/-- `zeroBelow` reads as +0 below `n`, and as before from there on. -/
theorem Mem.read_zeroBelow (m : Mem) (n b : Nat) : (m.zeroBelow n).read b = if b < n then 0 else m.read b := by
  unfold Mem.zeroBelow
  induction m with
  | nil => simp
  | cons c m ih =>
    obtain ⟨d, w⟩ := c
    rw [List.filter_cons]
    split
    · rename_i hd
      simp only [decide_eq_true_eq] at hd
      rw [Mem.read, Mem.read, ih]
      split
      · rw [if_neg (by omega)]
      · rfl
    · rename_i hd
      simp only [decide_eq_true_eq, not_le] at hd
      rw [ih, Mem.read]
      split
      · rfl
      · rw [if_neg (by omega)]

/-- Canonical memories that read the same are the same. -/
theorem Mem.ext_from {m n : Mem} {lo : Nat} (hm : Mem.wfFrom lo m = true) (hn : Mem.wfFrom lo n = true)
    (h : ∀ a, m.read a = n.read a) : m = n := by
  induction m generalizing n lo with
  | nil =>
    cases n with
    | nil => rfl
    | cons c n =>
      obtain ⟨b, x⟩ := c
      simp only [Mem.wfFrom, Bool.and_eq_true, decide_eq_true_eq] at hn
      have := h b
      rw [Mem.read_nil, Mem.read, if_pos rfl] at this
      exact absurd this.symm hn.1.2
  | cons c m ih =>
    obtain ⟨a, w⟩ := c
    have hm' := hm
    simp only [Mem.wfFrom, Bool.and_eq_true, decide_eq_true_eq] at hm
    cases n with
    | nil =>
      have := h a
      rw [Mem.read_nil, Mem.read, if_pos rfl] at this
      exact absurd this hm.1.2
    | cons d n =>
      obtain ⟨b, x⟩ := d
      simp only [Mem.wfFrom, Bool.and_eq_true, decide_eq_true_eq] at hn
      have hab : a = b := by
        rcases Nat.lt_trichotomy a b with hlt | he | hgt
        · have := h a
          rw [Mem.read, if_pos rfl, Mem.read, if_neg (by omega), Mem.read_below hn.2 (by omega)] at this
          exact absurd this hm.1.2
        · exact he
        · have := h b
          rw [Mem.read, if_neg (by omega), Mem.read_below hm.2 (by omega), Mem.read, if_pos rfl] at this
          exact absurd this.symm hn.1.2
      subst hab
      have hw : w = x := by
        have := h a
        simpa [Mem.read] using this
      subst hw
      rw [ih hm.2 hn.2]
      intro e
      by_cases he : e = a
      · rw [he, Mem.read_below hm.2 (by omega), Mem.read_below hn.2 (by omega)]
      · have := h e
        simpa [Mem.read, he] using this

theorem Mem.ext {m n : Mem} (hm : m.wf = true) (hn : n.wf = true) (h : ∀ a, m.read a = n.read a) : m = n :=
  Mem.ext_from hm hn h

end Sys2Proof.Machine
end

