-- ==== Sys2Proof/Laws/PerInstr.lean ====
section
/-! SUPPORT. Per command: the header that the encoder writes gives back the operation, `VID` and `ARG` (`30_encoding.md` R140,
R146). -/

namespace Sys2Proof.Laws.Encoding

/-- The fields of the header of a command are read back from it. -/
def Statement (i : Instr) : Prop :=
  headerOpc (instrHeader i) = (instrRow i).opc ∧ headerVid (instrHeader i) = i.vid ∧
    headerArg (instrHeader i) = i.arg ∧
    (instrOfOpc (headerOpc (instrHeader i))).map (fun mk => mk i.vid i.arg i.ops) = some i

theorem headerOpc_headerWord (opc vid arg : Byte) (n : Nat) : headerOpc (headerWord opc vid arg n) = opc := by
  unfold headerOpc headerWord
  apply BitVec.eq_of_getLsbD_eq
  intro i hi
  simp only [BitVec.getLsbD_extractLsb', BitVec.getLsbD_append, hi, decide_true, Bool.true_and]
  rw [if_neg (by omega), if_neg (by omega), if_neg (by omega)]
  congr 1
  omega

theorem headerVid_headerWord (opc vid arg : Byte) (n : Nat) : headerVid (headerWord opc vid arg n) = vid := by
  unfold headerVid headerWord
  apply BitVec.eq_of_getLsbD_eq
  intro i hi
  simp only [BitVec.getLsbD_extractLsb', BitVec.getLsbD_append, hi, decide_true, Bool.true_and]
  rw [if_neg (by omega), if_neg (by omega), if_pos (by omega)]
  congr 1
  omega

theorem headerArg_headerWord (opc vid arg : Byte) (n : Nat) : headerArg (headerWord opc vid arg n) = arg := by
  unfold headerArg headerWord
  apply BitVec.eq_of_getLsbD_eq
  intro i hi
  simp only [BitVec.getLsbD_extractLsb', BitVec.getLsbD_append, hi, decide_true, Bool.true_and]
  rw [if_neg (by omega), if_pos (by omega)]
  congr 1
  omega

theorem headerLen_headerWord (opc vid arg : Byte) {n : Nat} (h : n < 256) : headerLen (headerWord opc vid arg n) = n := by
  unfold headerLen headerWord
  have : (opc ++ vid ++ arg ++ BitVec.ofNat 8 n).extractLsb' 0 8 = BitVec.ofNat 8 n := by
    apply BitVec.eq_of_getLsbD_eq
    intro i hi
    simp only [BitVec.getLsbD_extractLsb', hi, decide_true, Bool.true_and, Nat.zero_add]
    rw [BitVec.getLsbD_append, if_pos hi]
  rw [this]
  simpa using h

/-- The header fields of a command whose opcode its row gives. -/
theorem of_row {i : Instr} (h : (instrOfOpc (instrRow i).opc).map (fun mk => mk i.vid i.arg i.ops) = some i) :
    Statement i := by
  have e : headerOpc (instrHeader i) = (instrRow i).opc := headerOpc_headerWord _ _ _ _
  exact ⟨e, headerVid_headerWord _ _ _ _, headerArg_headerWord _ _ _ _, by rw [e]; exact h⟩

theorem nop (vid arg : Byte) (ops : List Word) : Statement (.nop vid arg ops) := of_row rfl
theorem prepare (vid arg : Byte) (ops : List Word) : Statement (.prepare vid arg ops) := of_row rfl
theorem clrerr (vid arg : Byte) (ops : List Word) : Statement (.clrerr vid arg ops) := of_row rfl
theorem peek (vid arg : Byte) (ops : List Word) : Statement (.peek vid arg ops) := of_row rfl
theorem wrparam (vid arg : Byte) (ops : List Word) : Statement (.wrparam vid arg ops) := of_row rfl
theorem setglobal (vid arg : Byte) (ops : List Word) : Statement (.setglobal vid arg ops) := of_row rfl
theorem noteon (vid arg : Byte) (ops : List Word) : Statement (.noteon vid arg ops) := of_row rfl
theorem noteoff (vid arg : Byte) (ops : List Word) : Statement (.noteoff vid arg ops) := of_row rfl
theorem render (vid arg : Byte) (ops : List Word) : Statement (.render vid arg ops) := of_row rfl
theorem vStart (vid arg : Byte) (ops : List Word) : Statement (.vStart vid arg ops) := of_row rfl
theorem vStop (vid arg : Byte) (ops : List Word) : Statement (.vStop vid arg ops) := of_row rfl
theorem vRender (vid arg : Byte) (ops : List Word) : Statement (.vRender vid arg ops) := of_row rfl
theorem vSetmode (vid arg : Byte) (ops : List Word) : Statement (.vSetmode vid arg ops) := of_row rfl
theorem vSetrings (vid arg : Byte) (ops : List Word) : Statement (.vSetrings vid arg ops) := of_row rfl
theorem vSetclouds (vid arg : Byte) (ops : List Word) : Statement (.vSetclouds vid arg ops) := of_row rfl
theorem vSetwt (vid arg : Byte) (ops : List Word) : Statement (.vSetwt vid arg ops) := of_row rfl
theorem vSetmix (vid arg : Byte) (ops : List Word) : Statement (.vSetmix vid arg ops) := of_row rfl
theorem vSetenv (vid arg : Byte) (ops : List Word) : Statement (.vSetenv vid arg ops) := of_row rfl
theorem vSetfilt (vid arg : Byte) (ops : List Word) : Statement (.vSetfilt vid arg ops) := of_row rfl
theorem vSetosc (vid arg : Byte) (ops : List Word) : Statement (.vSetosc vid arg ops) := of_row rfl
theorem mrSetparams (vid arg : Byte) (ops : List Word) : Statement (.mrSetparams vid arg ops) := of_row rfl
theorem mrTrigger (vid arg : Byte) (ops : List Word) : Statement (.mrTrigger vid arg ops) := of_row rfl
theorem mrProc (vid arg : Byte) (ops : List Word) : Statement (.mrProc vid arg ops) := of_row rfl
theorem grWrite (vid arg : Byte) (ops : List Word) : Statement (.grWrite vid arg ops) := of_row rfl
theorem grProc (vid arg : Byte) (ops : List Word) : Statement (.grProc vid arg ops) := of_row rfl
theorem ksSetfreq (vid arg : Byte) (ops : List Word) : Statement (.ksSetfreq vid arg ops) := of_row rfl
theorem ksTrigger (vid arg : Byte) (ops : List Word) : Statement (.ksTrigger vid arg ops) := of_row rfl
theorem ksGet (vid arg : Byte) (ops : List Word) : Statement (.ksGet vid arg ops) := of_row rfl
theorem wtGet (vid arg : Byte) (ops : List Word) : Statement (.wtGet vid arg ops) := of_row rfl
theorem oscSetfreq (vid arg : Byte) (ops : List Word) : Statement (.oscSetfreq vid arg ops) := of_row rfl
theorem oscSetwave (vid arg : Byte) (ops : List Word) : Statement (.oscSetwave vid arg ops) := of_row rfl
theorem oscReset (vid arg : Byte) (ops : List Word) : Statement (.oscReset vid arg ops) := of_row rfl
theorem oscNext (vid arg : Byte) (ops : List Word) : Statement (.oscNext vid arg ops) := of_row rfl
theorem envSetparams (vid arg : Byte) (ops : List Word) : Statement (.envSetparams vid arg ops) := of_row rfl
theorem envNoteon (vid arg : Byte) (ops : List Word) : Statement (.envNoteon vid arg ops) := of_row rfl
theorem envNoteoff (vid arg : Byte) (ops : List Word) : Statement (.envNoteoff vid arg ops) := of_row rfl
theorem envNext (vid arg : Byte) (ops : List Word) : Statement (.envNext vid arg ops) := of_row rfl
theorem fltProc (vid arg : Byte) (ops : List Word) : Statement (.fltProc vid arg ops) := of_row rfl
theorem fltReset (vid arg : Byte) (ops : List Word) : Statement (.fltReset vid arg ops) := of_row rfl

end Sys2Proof.Laws.Encoding
end

