-- ==== Sys2Proof/Tests/Slice0.lean ====
section
/-! SUPPORT. Tests. The expected values are those of `95_test_vectors.md` and of the examples beside the rules, or are worked out
by hand from a rule's pseudocode; each docstring says which. A test runs one command (one step) on a small state. -/

namespace Sys2Proof.Tests

open Sys2Proof Sys2Proof.Machine

-- One theorem after another: many small kernel evaluations at once ask for more threads than the memory limit of the check allows.
set_option Elab.async false

/-! Helpers. -/

/-- The state after one step on these command words; the state itself if the step does not answer a next state. -/
def sent (ws : List Word) (s : State) : State :=
  match step { s with cmd := ws } with
  | .next t => t
  | .fault _ => s
  | .refused _ => s

/-- The block after `PREPARE 48000.0, 512` from reset. -/
def prepared : State := State.reset.prepare ⟨0x473B8000⟩ 512

/-- The block after `PREPARE 1000.0, 64` from reset. -/
def slow : State := State.reset.prepare ⟨0x447A0000⟩ 64

/-- The fault record. -/
def record (s : State) : Word × Word × Word := (s.err, s.errInfo, s.errCnt)

/-- Changes oscillator 0 of voice 0. -/
def withOsc0 (o : Osc) (pw : F32) (s : State) : State :=
  s.updVoice 0 fun x => { x with oscs := { x.oscs with osc0 := o, pw := pw } }

/-- Changes the amplitude envelope of voice 0. -/
def withEnva (e : Env → Env) (s : State) : State := s.updVoice 0 fun x => { x with enva := e x.enva }

/-- Voice 0 sounds the note 69 in mode `OSC`. -/
def sounding (s : State) : State :=
  s.updVoice 0 fun x => { x with
    active := true, note := 69, mode := .osc, vel := F32.one, age := 1, enva := { x.enva with stage := .attack } }

/-- Voice 0 fades out and has one frame to go. -/
def fading (s : State) : State :=
  (sounding s).updVoice 0 fun x => { x with fading := true, fadeoutCnt := s.fadeOut - 1 }

/-- Voice 0 is frozen, with words in its buffers. -/
def frozen : State :=
  prepared.updVoice 0 fun x => { x with clouds := { x.clouds with freeze := true, bufL := [(0, 0x3F000000)], wc := 1 } }

theorem prepared_ready : prepared.ready = true := by decide +kernel
theorem slow_ready : slow.ready = true := by decide +kernel

/-! `WellFormed` refuses an ill-formed command, check by check (`30_encoding.md` R148). -/

/-- F3: `NOP` with one operand word fails check (2). -/
theorem test_wellFormed_length : (Instr.nop 0 0 [0x12345678]).wellFormed = false := by decide
/-- A missing operand word fails check (2). -/
theorem test_wellFormed_length_short : (Instr.vSetenv 0 0 [0, 0, 0, 0, 0, 0, 0]).wellFormed = false := by decide
/-- F4, F16, F17, F19: an `ARG` that must be 0, a cell index of 39, `V.STOP` with `ARG` 2, `OSC.SETWAVE` with bit 1 set. -/
theorem test_wellFormed_arg :
    (Instr.nop 0 1 []).wellFormed = false ∧ (Instr.wrparam 0 39 [0]).wellFormed = false ∧
      (Instr.vStop 0 2 []).wellFormed = false ∧ (Instr.oscSetwave 0 2 []).wellFormed = false := by decide
/-- F5, F13: `VID` 1 on a command that names no voice. -/
theorem test_wellFormed_vid_zero :
    (Instr.nop 1 0 []).wellFormed = false ∧ (Instr.peek 1 0 [0]).wellFormed = false := by decide
/-- F6, F14: voice 8 does not exist. -/
theorem test_wellFormed_vid_voice :
    (Instr.ksGet 8 0 []).wellFormed = false ∧ (Instr.peek 8 2 [0]).wellFormed = false := by decide
/-- F20, F11, R144: the last waveform code, a space that does not exist with any `VID`, cell 38 and voice 7 pass. -/
theorem test_wellFormed_passes :
    (Instr.oscSetwave 0 0xF1 []).wellFormed = true ∧ (Instr.peek 200 11 [0]).wellFormed = true ∧
      (Instr.wrparam 0 38 [0]).wellFormed = true ∧ (Instr.ksGet 7 0 []).wellFormed = true := by decide

/-! Decoding: a word of every opcode, written out from R146 as `OPC VID ARG LEN`. -/

theorem test_decode_nop : decode [0x00000000] = .command (.nop 0 0 []) [] := by decide
theorem test_decode_prepare :
    decode [0x01000002, 0x473B8000, 0x00000200] = .command (.prepare 0 0 [0x473B8000, 0x200]) [] := by decide
theorem test_decode_clrerr : decode [0x02000000] = .command (.clrerr 0 0 []) [] := by decide
theorem test_decode_peek : decode [0x03000301, 0x10] = .command (.peek 0 3 [0x10]) [] := by decide
theorem test_decode_wrparam : decode [0x04001E01, 0x447A0000] = .command (.wrparam 0 30 [0x447A0000]) [] := by decide
theorem test_decode_setglobal : decode [0x10000000] = .command (.setglobal 0 0 []) [] := by decide
theorem test_decode_noteon : decode [0x11003C01, 0x3F800000] = .command (.noteon 0 60 [0x3F800000]) [] := by decide
theorem test_decode_noteoff : decode [0x12003C00] = .command (.noteoff 0 60 []) [] := by decide
theorem test_decode_render : decode [0x13000001, 0x40] = .command (.render 0 0 [0x40]) [] := by decide
theorem test_decode_vStart : decode [0x20034501, 0x3F000000] = .command (.vStart 3 69 [0x3F000000]) [] := by decide
theorem test_decode_vStop : decode [0x21020100] = .command (.vStop 2 1 []) [] := by decide
theorem test_decode_vRender : decode [0x22000001, 0xC] = .command (.vRender 0 0 [0xC]) [] := by decide
theorem test_decode_vSetmode : decode [0x23010200, 9] = .command (.vSetmode 1 2 []) [9] := by decide
theorem test_decode_vSetrings : decode [0x24000304, 1, 2, 3, 4] = .command (.vSetrings 0 3 [1, 2, 3, 4]) [] := by decide
theorem test_decode_vSetclouds :
    decode [0x25000105, 1, 2, 3, 4, 5] = .command (.vSetclouds 0 1 [1, 2, 3, 4, 5]) [] := by decide
theorem test_decode_vSetwt : decode [0x26000005, 1, 2, 3, 4, 5] = .command (.vSetwt 0 0 [1, 2, 3, 4, 5]) [] := by decide
theorem test_decode_vSetmix : decode [0x27000005, 1, 2, 3, 4, 5] = .command (.vSetmix 0 0 [1, 2, 3, 4, 5]) [] := by decide
theorem test_decode_vSetenv :
    decode [0x28000008, 1, 2, 3, 4, 5, 6, 7, 8] = .command (.vSetenv 0 0 [1, 2, 3, 4, 5, 6, 7, 8]) [] := by decide
theorem test_decode_vSetfilt : decode [0x29000203, 1, 2, 3] = .command (.vSetfilt 0 2 [1, 2, 3]) [] := by decide
theorem test_decode_vSetosc :
    decode [0x2A004103, 0, 0x3F000000, 0x3E800000] = .command (.vSetosc 0 0x41 [0, 0x3F000000, 0x3E800000]) [] := by decide
theorem test_decode_mrSetparams :
    decode [0x30000005, 1, 2, 3, 4, 5] = .command (.mrSetparams 0 0 [1, 2, 3, 4, 5]) [] := by decide
theorem test_decode_mrTrigger : decode [0x31000001, 0x3F800000] = .command (.mrTrigger 0 0 [0x3F800000]) [] := by decide
theorem test_decode_mrProc : decode [0x32000001, 0] = .command (.mrProc 0 0 [0]) [] := by decide
theorem test_decode_grWrite : decode [0x38000002, 1, 2] = .command (.grWrite 0 0 [1, 2]) [] := by decide
theorem test_decode_grProc : decode [0x39000000] = .command (.grProc 0 0 []) [] := by decide
theorem test_decode_ksSetfreq : decode [0x40000001, 0x437A0000] = .command (.ksSetfreq 0 0 [0x437A0000]) [] := by decide
theorem test_decode_ksTrigger : decode [0x41000001, 0x3F800000] = .command (.ksTrigger 0 0 [0x3F800000]) [] := by decide
theorem test_decode_ksGet : decode [0x42070000] = .command (.ksGet 7 0 []) [] := by decide
theorem test_decode_wtGet :
    decode [0x48000006, 0x3E800000, 5, 5, 0, 0, 0] = .command (.wtGet 0 0 [0x3E800000, 5, 5, 0, 0, 0]) [] := by decide
theorem test_decode_oscSetfreq : decode [0x50000101, 0x43DC0000] = .command (.oscSetfreq 0 1 [0x43DC0000]) [] := by decide
theorem test_decode_oscSetwave : decode [0x51002100] = .command (.oscSetwave 0 0x21 []) [] := by decide
theorem test_decode_oscReset : decode [0x52000100] = .command (.oscReset 0 1 []) [] := by decide
theorem test_decode_oscNext : decode [0x53000000] = .command (.oscNext 0 0 []) [] := by decide
theorem test_decode_envSetparams : decode [0x58000104, 1, 2, 3, 4] = .command (.envSetparams 0 1 [1, 2, 3, 4]) [] := by decide
theorem test_decode_envNoteon : decode [0x59000000] = .command (.envNoteon 0 0 []) [] := by decide
theorem test_decode_envNoteoff : decode [0x5A050100] = .command (.envNoteoff 5 1 []) [] := by decide
theorem test_decode_envNext : decode [0x5B000100] = .command (.envNext 0 1 []) [] := by decide
theorem test_decode_fltProc : decode [0x60000002, 1, 2] = .command (.fltProc 0 0 [1, 2]) [] := by decide
theorem test_decode_fltReset : decode [0x61000000] = .command (.fltReset 0 0 []) [] := by decide

/-- R142: an incomplete command is no command yet; a reserved `OPC` takes its operand words. -/
theorem test_decode_waits_and_reserved :
    decode [0x01000002, 0x473B8000] = .waiting ∧ decode [0x05000001, 7, 0x02000000] = .illegal 0x05000001 [0x02000000] := by
  decide
/-- The words of the table for `V.SETMODE v1, KARPLUS`, and the operand words of a row that has bits for its header only. -/
theorem test_decodeTableWord :
    decodeTableWord 32 0x23010200 = some (.vSetmode 1 2 []) ∧
      decodeTableWord 64 (0x04001E01 + 2 ^ 32 * 0x447A0000) = some (.wrparam 0 30 [0x447A0000]) ∧
      decodeTableWord 32 0x13000001 = some (.render 0 0 [0]) ∧ decodeTableWord 32 0xFF000000 = none := by decide
/-- A word placed for the next step is the command that the next step runs (R364: `PEEK SYS, 0` after reset pushes 0). -/
theorem test_withFetchWord :
    (match step (State.reset.withFetchWord 64 0x03000001) with
      | .next t => t.rsp
      | _ => [1]) = [0] := by decide +kernel
/-- R102: a word travels least significant byte first. -/
theorem test_bytes : wordsOfBytes [0x00, 0x45, 0x00, 0x20, 0x00] = [0x20004500] := by decide

/-! Numbers (`00_scope.md` R7, R9 to R11): the constants are the decimals they stand for. -/

/-- The parameters of R5 are the binary32 nearest to their decimals. -/
theorem test_constants :
    Config.ksDamp = F32.dec 995 1000 ∧ Config.modalGain = F32.dec 3 10 ∧ Config.headroom = F32.dec 25 100 ∧
      Config.bwScale = F32.ofNat 100 ∧ Config.decayMin = F32.dec 1 1000 ∧ Config.grRateMax = F32.ofNat 200 ∧
      Config.grJitter = F32.dec 25 100 ∧ Config.grDetune = F32.dec 1 2 ∧ Config.srMin = F32.ofNat 1000 ∧
      Config.srMax = F32.ofNat 192000 := by decide +kernel
/-- Ties to even and the carry into the exponent: 2^24 + 1 and 2^24 + 3; half of the smallest subnormal is +0. -/
theorem test_rounding :
    F32.ofNat 16777217 = ⟨0x4B800000⟩ ∧ F32.ofNat 16777219 = ⟨0x4B800002⟩ ∧
      F32.mul ⟨1⟩ ⟨0x3F000000⟩ = ⟨0⟩ ∧ F32.mul ⟨3⟩ ⟨0x3F000000⟩ = ⟨2⟩ ∧
      F32.add ⟨0x7F7FFFFF⟩ ⟨0x73000000⟩ = ⟨0x7F800000⟩ := by decide +kernel
/-- E1: the amplitude envelope's accumulated tenths, 0.7 + 0.1 and so on, have inexact sums. -/
theorem test_add_inexact :
    F32.add ⟨0x3F333334⟩ ⟨0x3DCCCCCD⟩ = ⟨0x3F4CCCCE⟩ ∧ F32.div F32.one (F32.ofNat 10) = ⟨0x3DCCCCCD⟩ ∧
      F32.sqrt (F32.ofNat 2) = ⟨0x3FB504F3⟩ := by decide +kernel
/-- R11: `floor(-1.5) = -2`, `frac(-0.25) = 0.75`; R10: a NaN clamps to the low end. -/
theorem test_floor_frac_clamp :
    F32.floor ⟨0xBFC00000⟩ = ⟨0xC0000000⟩ ∧ F32.frac ⟨0xBE800000⟩ = ⟨0x3F400000⟩ ∧
      F32.clamp ⟨0x7FC00000⟩ F32.one (F32.ofNat 2) = F32.one := by decide +kernel

/-! Faults (vectors F1 to F24). -/

theorem test_F1 : record (sent [0x05000000] State.reset) = (1, 0x05000000, 1) := by decide +kernel
theorem test_F3 : record (sent [0x00000001, 0x12345678] State.reset) = (2, 0x00000001, 1) := by decide +kernel
theorem test_F6 : record (sent [0x42080000] State.reset) = (4, 0x42080000, 1) := by decide +kernel
theorem test_F7 :
    record (sent [0x42000000] State.reset) = (5, 0x42000000, 1) ∧ (sent [0x42000000] State.reset).rsp = [] := by
  decide +kernel
theorem test_F8_F9 :
    record (sent [0x13000001, 0x201] prepared) = (6, 0x13000001, 1) ∧
      record (sent [0x13000001, 0x200] prepared) = (0, 0, 0) := by decide +kernel
theorem test_F11 : record (sent [0x03C80B01, 0] State.reset) = (7, 0x03C80B01, 1) := by decide +kernel
theorem test_F15 : record (sent [0x03000501, 0] State.reset) = (7, 0x03000501, 1) := by decide +kernel
/-- F24: a second fault is counted only. -/
theorem test_F24 :
    record (sent [0x05000000] { State.reset with err := 4, errInfo := 0x42080000, errCnt := 1 }) = (4, 0x42080000, 2) := by
  decide +kernel
/-- R404: the count saturates. -/
theorem test_fault_count_saturates :
    (sent [0x05000000] { State.reset with errCnt := 0xFFFFFFFF }).errCnt = 0xFFFFFFFF := by decide +kernel

/-! Commands. -/

/-- R360: `NOP` takes its word and does nothing else. -/
theorem test_nop : sent [0x00000000] prepared = prepared := by
  rfl
/-- The `PREPARE` vectors of `95_test_vectors.md`: 44100.0, 0. -/
theorem test_prepare :
    let t := sent [0x01000002, 0x472C4400, 0] State.reset
    (t.maxBlock, t.fadeIn, t.fadeOut, t.bufLen, (t.voice 7).karplus.len, (t.voice 7).oscs.osc0.inc.bits) =
      (1, 441, 88, 176400, 101, 0x3C2377EE) := by decide +kernel
/-- The `PREPARE` vectors: NaN and 10.0 clamp to 1000, 100000 frames to 8192. -/
theorem test_prepare_clamps :
    (sent [0x01000002, 0x7FC00000, 64] State.reset).sr = F32.ofNat 1000 ∧
      (sent [0x01000002, 0x41200000, 100000] State.reset).maxBlock = 8192 := by decide +kernel
/-- P1, line 7. -/
theorem test_clrerr :
    record (sent [0x02000000] { State.reset with err := 5, errInfo := 0x20004501, errCnt := 2 }) = (0, 0, 0) := by
  decide +kernel
/-- F28 and F26: the constants, and `STATUS` of a prepared block. -/
theorem test_peek_sys :
    (sent [0x03000001, 11] State.reset).rsp = [8] ∧ (sent [0x03000001, 13] State.reset).rsp = [24576] ∧
      (sent [0x03000001, 0] prepared).rsp = [1] := by decide +kernel
/-- R42: `VOICE` 9 is `MODE`, 27 is the second table; R45: `MODEREG` 16 is the frequency of mode 1 (880 Hz at 440). -/
theorem test_peek_voice :
    (sent [0x03050201, 27] prepared).rsp = [8] ∧ (sent [0x03000301, 16] prepared).rsp = [0x445C0000] := by decide +kernel
/-- P7, line 3: the word is stored unclamped. -/
theorem test_wrparam : (sent [0x04001E01, 0x46EA6000] State.reset).params[30] = 0x46EA6000 := by decide +kernel
/-- P7, lines 6 to 11: every voice takes the cells, clamped; mode 1 of the bell at 440 Hz. -/
theorem test_setglobal :
    let s := { prepared with params := ((prepared.params.set 0 5).set 30 0x46EA6000).set 5 9 }
    let x := (sent [0x10000000] s).voice 7
    (x.mode, x.flt.cutoff.bits, x.rings.model, x.rings.modes[1].freq.bits) = (.osc, 0x469C4000, .bell, 0x4497CCCD) := by
  decide +kernel
/-- R115 (b): a host write that lands after 30 cell reads is not seen in cell 5, and is seen in cell 30. -/
theorem test_setglobal_race :
    let s := { prepared with port := [⟨30, .writeCell 5 2⟩, ⟨30, .writeCell 30 0x447A0000⟩] }
    let x := (sent [0x10000000] s).voice 0
    (x.rings.model, x.flt.cutoff.bits) = (.string, 0x447A0000) := by decide +kernel
/-- P5, line 3: the second note takes the first free voice. -/
theorem test_noteon :
    let t := sent [0x11003D01, 0x3F000000] (sounding prepared)
    ((t.voice 1).active, (t.voice 1).note, (t.voice 1).vel.bits, (t.voice 1).age, t.noteSeq) =
      (true, 61, 0x3F000000, 1, 1) := by decide +kernel
/-- R370: the voice that holds the note releases; another note does nothing. -/
theorem test_noteoff :
    ((sent [0x12004500] (sounding prepared)).voice 0).enva.stage = .release ∧
      ((sent [0x12004400] (sounding prepared)).voice 0).enva.stage = .attack := by decide +kernel
/-- R368: with no active voice nothing changes. -/
theorem test_render_silent : (sent [0x13000001, 4] prepared).outL = [] := by decide +kernel
/-- P3 B: the frame in which the fade-out ends has gain 0, and the voice is cleared. -/
theorem test_render_fade_end :
    let t := sent [0x13000001, 1] (fading slow)
    ((t.voice 0).active, (t.voice 0).note) = (false, 255) := by decide +kernel
/-- F21: the note is clamped to 127. -/
theorem test_vStart : ((sent [0x2000FF01, 0x3F800000] prepared).voice 0).note = 127 := by decide +kernel
/-- F23: a velocity of NaN is 0.0; both envelopes start. -/
theorem test_vStart_nan :
    let x := (sent [0x20000001, 0x7FC00000] prepared).voice 0
    (x.vel, x.enva.stage, x.envf.stage, x.active) = (F32.zero, .attack, .attack, true) := by decide +kernel
/-- R330, R331: with tail-off the voice releases, without it fades out. -/
theorem test_vStop :
    ((sent [0x21000100] (sounding prepared)).voice 0).fading = false ∧
      ((sent [0x21000000] (sounding prepared)).voice 0).fading = true := by decide +kernel
/-- P3, after line 4: the fade-in counter counts rendered frames. -/
theorem test_vRender :
    ((sent [0x22000001, 2] (sounding slow)).voice 0).fadeinCnt = 2 ∧
      ((sent [0x22000001, 2] (sounding slow)).voice 0).enva.level = ⟨0x3E4CCCCD⟩ := by decide +kernel
/-- F22. -/
theorem test_vSetmode : ((sent [0x2300FF00] prepared).voice 0).mode = .fullHybrid := by decide +kernel
/-- S1: the second mode of a string at the voice's 440 Hz. -/
theorem test_vSetrings :
    ((sent [0x24000004, 0x3F000000, 0x3F000000, 0x3E800000, 0] prepared).voice 0).rings.modes[1].freq = F32.ofNat 880 := by
  decide +kernel
/-- G2: freeze, and the ranges of R36 (pitch 13 is 12). -/
theorem test_vSetclouds :
    let c := ((sent [0x2500FF05, 0, 0, 0x3F800000, 0x41500000, 0x40000000] prepared).voice 0).clouds
    (c.freeze, c.dens, c.pitch, c.tex) = (true, F32.one, F32.ofNat 12, F32.one) := by decide +kernel
/-- R276, example: `V.SETWT v0, 40, 8, 0.5, 0.0, 2.0`. -/
theorem test_vSetwt :
    let w := ((sent [0x26000005, 40, 8, 0x3F000000, 0, 0x40000000] prepared).voice 0).wt
    (w.a, w.b, w.morph, w.fold) = (31, 8, ⟨0x3F000000⟩, F32.one) := by decide +kernel
/-- R322: five weights, clamped. -/
theorem test_vSetmix :
    ((sent [0x27000005, 0x3F800000, 0xBF800000, 0x40000000, 0x3E800000, 0x7FC00000] prepared).voice 0).mix =
      ⟨F32.one, F32.zero, F32.one, ⟨0x3E800000⟩, F32.zero⟩ := by decide +kernel
/-- R292: amplitude first, then filter. -/
theorem test_vSetenv :
    let x := (sent [0x28000008, 0, 0x3F800000, 0x40000000, 0x41A00000, 0x3F000000, 0, 0, 0] prepared).voice 0
    (x.enva.a, x.enva.d, x.enva.s, x.enva.r, x.envf.a) =
      (F32.dec 1 1000, F32.one, F32.one, F32.ofNat 10, ⟨0x3F000000⟩) := by decide +kernel
/-- R300: type code 9 is `HIGHPASS`; the ranges of the cutoff and of Q. -/
theorem test_vSetfilt :
    let f := ((sent [0x29000903, 0x46EA6000, 0, 0xC0000000] prepared).voice 0).flt
    (f.type, f.cutoff, f.q, f.envAmt) = (.highpass, F32.ofNat 20000, F32.dec 1 10, ⟨0xBF800000⟩) := by decide +kernel
/-- O6, with the frequency 440 at 48000: `OSC0_INC`; the waveforms of the example of R144 (f). -/
theorem test_vSetosc :
    let o := ((sent [0x2A004103, 0, 0x3F000000, 0x3E800000] prepared).voice 0).oscs
    (o.osc0.wave, o.osc1.wave, o.osc0.inc.bits, o.osc1.inc.bits, o.pw.bits) =
      (.saw, .pulse, 0x3C162FC9, 0x3C162FC9, 0x3E800000) := by decide +kernel
/-- M1: the bell at 100 Hz, structure 1, modes 1 and 7. -/
theorem test_mrSetparams :
    let r := ((sent [0x30000305, 0x42C80000, 0x3F000000, 0x3F000000, 0x3E800000, 0x3F800000] prepared).voice 0).rings
    (r.modes[1].freq.bits, r.modes[7].freq.bits) = (0x4397CCCD, 0x455B1B34) := by decide +kernel
/-- R205 with velocity 0: the excitation grows by a zero. -/
theorem test_mrTrigger : ((sent [0x31000001, 0] prepared).voice 0).rings.modes[0].c1 =
    (prepared.voice 0).rings.modes[0].c1 := by rfl
/-- M4: the first output after one pending excitation of 1 in mode 0 is `0.3 * (0.5 * 1)`, and the excitation is taken. -/
theorem test_mrProc :
    let m : Mode := ⟨F32.one, F32.one, F32.zero, F32.zero, F32.zero, F32.zero, F32.zero, F32.zero, F32.zero, F32.zero⟩
    let s := prepared.updVoice 0 fun x => { x with
      rings := { x.rings with modes := (Vector.replicate 8 m).set 0 { m with exc := F32.one } } }
    let t := sent [0x32000001, 0] s
    (t.rsp, (t.voice 0).rings.modes[0].exc, (t.voice 0).rings.modes[0].y1.bits, (t.voice 0).rings.modes[0].x1.bits) =
      ([0x3E19999A], F32.zero, 0x3F000000, 0x3F800000) := by decide +kernel
/-- G3: the first write goes to cell 0, -0.5 to the right buffer. -/
theorem test_grWrite :
    let c := ((sent [0x38000002, 0x3F000000, 0xBF000000] slow).voice 0).clouds
    (c.bufL, c.bufR, c.wc) = ([(0, 0x3F000000)], [(0, 0xBF000000)], 1) := by decide +kernel
/-- G3: the write cursor wraps at `BUFLEN = 4000`; while frozen nothing is written. -/
theorem test_grWrite_wrap_freeze :
    let s := slow.updVoice 0 fun x => { x with clouds := { x.clouds with wc := 3999 } }
    ((sent [0x38000002, 0x3F000000, 0] s).voice 0).clouds.wc = 0 ∧
      ((sent [0x38000002, 0x3F800000, 0x3F800000] frozen).voice 0).clouds = (frozen.voice 0).clouds := by decide +kernel
/-- G2, call 1: a grain at `PHASE` 0.1 of 10 samples moves on by `1/DUR`; G2, call 9: it ends. -/
theorem test_grain_advance :
    (grainAdvance ⟨true, F32.zero, ⟨0x3DCCCCCD⟩, F32.ofNat 10, F32.one, ⟨0x3F000000⟩, F32.one⟩).phase = ⟨0x3E4CCCCD⟩ ∧
      (grainAdvance ⟨true, F32.zero, ⟨0x3F666668⟩, F32.ofNat 10, F32.one, ⟨0x3F000000⟩, F32.one⟩).active = false := by
  decide +kernel
/-- R12: a draw is not negative, so nothing is below a probability of 0. -/
theorem draw_not_below_zero (cfg : Config.Params) (k : Word) : (drawOf cfg k).lt F32.zero = false :=
  F32.not_lt_of_le (Bool.and_eq_true _ _ ▸ isDraw_drawOf cfg k).1
/-- G6: density 0 spawns nothing and takes one draw. -/
theorem test_grProc_no_spawn (k : Word) :
    (cloudsSpawn ⟨0x473B8000⟩ k { resetClouds Config.std with dens := F32.zero }).2 = k + 1 := by
  have h : spawnProbability ⟨0x473B8000⟩ { resetClouds Config.std with dens := F32.zero } = F32.zero := by decide +kernel
  rw [cloudsSpawn, h, draw_not_below_zero]
  rfl
/-- K1: 1000/250 gives 5; R252: cursor and previous sample 0, the line silent. -/
theorem test_ksSetfreq :
    let s := slow.updVoice 0 fun x => { x with karplus := ⟨3, 2, F32.one, [(1, 0x3F800000)]⟩ }
    let k := ((sent [0x40000001, 0x437A0000] s).voice 0).karplus
    (k.len, k.wc, k.prev, k.line) = (5, 0, F32.zero, []) := by decide +kernel
/-- R254: as many draws as the line is long. -/
theorem test_ksTrigger : (sent [0x41000001, 0x3F800000] prepared).rngIdx = 110 := by decide +kernel
/-- K2, call 0: it returns cell 0 and writes back `((0.5 + 0) * 0.5) * 0.995`. -/
theorem test_ksGet :
    let s := slow.updVoice 0 fun x => { x with karplus := ⟨5, 0, F32.zero, [(0, 0x3F000000), (4, 0x3F7FFFFE)]⟩ }
    let t := sent [0x42000000] s
    (t.rsp, (t.voice 0).karplus) = ([0x3F000000], ⟨5, 1, ⟨0x3F000000⟩, [(0, 0x3E7EB852), (4, 0x3F7FFFFE)]⟩) := by
  decide +kernel
/-- F-vectors, P6: `WT.GET` before `PREPARE` is no fault and pushes one word; W1: `T[0][0] = 0`. -/
theorem test_wtGet :
    (sent [0x48000006, 0x3E800000, 5, 5, 0, 0, 0] State.reset).rsp.length = 1 ∧
      record (sent [0x48000006, 0x3E800000, 5, 5, 0, 0, 0] State.reset) = (0, 0, 0) ∧
      (sent [0x03000801, 0] State.reset).rsp = [0] := by decide +kernel
/-- O2: 12000 Hz at 48000 is an increment of 0.25. -/
theorem test_oscSetfreq :
    ((sent [0x50000001, 0x463B8000] prepared).voice 0).oscs.osc0.inc = ⟨0x3E800000⟩ := by decide +kernel
/-- O4: at or above `SR/2` the increment is 0.5. -/
theorem test_oscSetfreq_high : ((sent [0x50000101, 0x469C4000] slow).voice 0).oscs.osc1.inc = ⟨0x3F000000⟩ := by
  decide +kernel
/-- F20. -/
theorem test_oscSetwave : ((sent [0x5100F100] prepared).voice 0).oscs.osc1.wave = .pulse := by decide +kernel
/-- R184: the phase is +0, the increment stays. -/
theorem test_oscReset :
    ((sent [0x52000000] (withOsc0 ⟨⟨0x3F000000⟩, ⟨0x3E800000⟩, .saw⟩ F32.one prepared)).voice 0).oscs.osc0 =
      ⟨F32.zero, ⟨0x3E800000⟩, .saw⟩ := by decide +kernel
/-- O5: a saw at the inexact phase after ten steps of 0.1 is corrected at the wrap. -/
theorem test_oscNext_saw :
    (sent [0x53000000] (withOsc0 ⟨⟨0x3E800000⟩, ⟨0x3E800000⟩, .saw⟩ F32.one prepared)).rsp = [0xBF000000] ∧
      (sent [0x53000000] (withOsc0 ⟨F32.zero, ⟨0x3E800000⟩, .saw⟩ F32.one prepared)).rsp = [0] := by decide +kernel
/-- O2, O3: square at phase 0.25 with increment 0.25; pulse of width 0.25 at phase 0.125 with increment 0.125. -/
theorem test_oscNext_square_pulse :
    (sent [0x53000000] (withOsc0 ⟨⟨0x3E800000⟩, ⟨0x3E800000⟩, .square⟩ F32.one prepared)).rsp = [0x3F800000] ∧
      (sent [0x53000000] (withOsc0 ⟨⟨0x3E000000⟩, ⟨0x3E000000⟩, .pulse⟩ ⟨0x3E800000⟩ prepared)).rsp = [0x3F800000] := by
  decide +kernel
/-- R291, example: 0.0, 0.1, 2.0, 0.25. -/
theorem test_envSetparams :
    let e := ((sent [0x58000004, 0, 0x3DCCCCCD, 0x40000000, 0x3E800000] prepared).voice 0).enva
    (e.a, e.d, e.s, e.r) = (F32.dec 1 1000, F32.dec 1 10, F32.one, ⟨0x3E800000⟩) := by decide +kernel
/-- R293: the stage is `ATTACK`, the level stays. -/
theorem test_envNoteon :
    let e := ((sent [0x59000000] (withEnva (fun e => { e with level := F32.one }) slow)).voice 0).enva
    (e.stage, e.level) = (.attack, F32.one) := by decide +kernel
/-- E1: at level 0.75 the release decrement is 0.003; E2: in `IDLE` nothing happens. -/
theorem test_envNoteoff :
    ((sent [0x5A000000] (withEnva (fun e => { e with stage := .sustain, level := ⟨0x3F400000⟩ }) slow)).voice 0).enva.relRate =
        ⟨0x3B449BA6⟩ ∧
      ((sent [0x5A000000] slow).voice 0).enva.stage = .idle := by decide +kernel
/-- E1, call 0 and call 9: the attack ends at 1.0. -/
theorem test_envNext :
    (sent [0x5B000000] (withEnva (fun e => { e with stage := .attack }) slow)).rsp = [0x3DCCCCCD] ∧
      ((sent [0x5B000000] (withEnva (fun e => { e with stage := .attack, level := ⟨0x3F666668⟩ }) slow)).voice 0).enva.stage =
        .decay := by decide +kernel
/-- E1, call 10; and the release that passes 0 ends in `IDLE`. -/
theorem test_envNext_decay_release :
    (sent [0x5B000000] (withEnva (fun e => { e with stage := .decay, level := F32.one }) slow)).rsp = [0x3F7F5C29] ∧
      ((sent [0x5B000000] (withEnva (fun e => { e with stage := .release, level := F32.zero }) slow)).voice 0).enva.stage =
        .idle := by decide +kernel
/-- R301, R303 with silence: a filter at rest stays at rest. E4: the modulated cutoffs. -/
theorem test_fltProc_cutoff :
    filtModCut ⟨F32.ofNat 8000, F32.one, F32.one, .lowpass, F32.zero, F32.zero, F32.zero, F32.zero⟩ F32.one = F32.ofNat 20000 ∧
      filtModCut ⟨F32.ofNat 1000, F32.one, ⟨0x3F000000⟩, .lowpass, F32.zero, F32.zero, F32.zero, F32.zero⟩ ⟨0x3F000000⟩ =
        F32.ofNat 3500 := by decide +kernel
/-- R304: the four integrators are +0, the type stays. -/
theorem test_fltReset :
    let s := prepared.updVoice 0 fun x => { x with flt := { x.flt with s1l := F32.one, s2r := F32.one, type := .bandpass } }
    let f := ((sent [0x61000000] s).voice 0).flt
    (f.s1l, f.s2l, f.s1r, f.s2r, f.type) = (F32.zero, F32.zero, F32.zero, F32.zero, .bandpass) := by decide +kernel

/-! The step and the host. -/

/-- R453: an incomplete command changes nothing. -/
theorem test_step_waits : step { State.reset with cmd := [0x20004501] } = .next { State.reset with cmd := [0x20004501] } := rfl
/-- R111: a host write of slot 0 lands before the command: `PEEK PARAM, 30` reads it. -/
theorem test_port_before :
    (sent [0x03000101, 30] { State.reset with port := [⟨0, .writeCell 30 7⟩] }).rsp = [7] := by decide +kernel
/-- R112: the host reads a frame of a render in progress; the frame beyond the block is its own. -/
theorem test_port_render :
    step { prepared with cmd := [0x13000001, 4], port := [⟨1, .readOut .left 3⟩] } = .refused .hostTouchedOut ∧
      (sent [0x13000001, 4] { prepared with port := [⟨1, .writeOut .left 4 9⟩] }).outL = [(4, 9)] := by
  constructor
  · rfl
  · decide +kernel

/-! The assembler (R150, R151). -/

theorem test_asm_start : Asm.line "V.START v3, 69, 0.5" = some [.words [0x20034501, 0x3F000000]] := by decide +kernel
theorem test_asm_peek : Asm.line "PEEK MODEREG, v0, 16 ; comment" = some [.words [0x03000301, 0x10]] := by decide +kernel
theorem test_asm_setosc : Asm.line "V.SETOSC v0, SAW, PULSE, 0.0, 0.5, 0.25" =
    some [.words [0x2A004103, 0, 0x3F000000, 0x3E800000]] := by decide +kernel
theorem test_asm_setp : Asm.line "SETP filterCutoff, 1000.0" = some [.words [0x04001E01, 0x447A0000]] := by decide +kernel
theorem test_asm_block :
    Asm.line "BLOCK 64" = some [.words [0x10000000], .zero 64, .words [0x13000001, 64]] := by decide +kernel
/-- K2: the stream 0.75, 0.5, 0.25, 0.0, 1 - 2^-24 fills a line of 5 words; what is not listed is 0.5 (R151). -/
theorem test_asm_rand :
    Asm.program [".rand 0.75, 0.5, 0.25, 0.0, 0x3F7FFFFF"] =
        some [.rand [0x3F400000, 0x3F000000, 0x3E800000, 0, 0x3F7FFFFF]] ∧
      Asm.line ".rand 1.0" = none ∧
      (let cfg := Asm.paramsFor Config.std [.rand [0x3F400000, 0x3F000000, 0x3E800000, 0, 0x3F7FFFFF]]
       (karplusTrigger cfg F32.one 0 ⟨5, 0, F32.zero, []⟩).line =
          [(0, 0x3F000000), (2, 0xBF000000), (3, 0xBF800000), (4, 0x3F7FFFFE)] ∧
        drawOf cfg 5 = ⟨0x3F000000⟩) := by
  decide +kernel
theorem test_asm_kill : Asm.line "V.KILL v2" = some [.words [0x21020000]] := by decide +kernel

/-! Witnesses: for every statement of `Certificates/Slice0/Obligations.lean` that has hypotheses, a state and operands that meet them,
clause by clause. Each is named after its statement. -/

/-- The second hypothesis of `ReservedOpcodesFault` at the edges of its ranges. -/
theorem test_reserved_edges :
    [0x05, 0x0F, 0x14, 0x1F, 0x2B, 0x2F, 0x33, 0x37, 0x3A, 0x3F, 0x43, 0x47, 0x49, 0x4F, 0x54, 0x57, 0x5C, 0x5F, 0x62,
      0xFF].all (fun o => (instrOfOpc o).isNone) = true ∧
    [0x04, 0x10, 0x13, 0x20, 0x2A, 0x30, 0x32, 0x38, 0x39, 0x40, 0x42, 0x48, 0x50, 0x53, 0x58, 0x5B, 0x60,
      0x61].all (fun o => (instrOfOpc o).isSome) = true := by decide

theorem test_witness_EncodeDecode : (Instr.nop 0 0 (List.replicate 255 0)).ops.length ≤ 255 := by decide +kernel
theorem test_witness_DecodeEncode : decode [0x42070000, 9] = .command (.ksGet 7 0 []) [9] := by decide
theorem test_witness_ReservedOpcodesFault :
    let s : State := { State.reset with cmd := 0xFF0000FF :: List.replicate 255 7 }
    s.port = [] ∧ s.cmd = 0xFF0000FF :: List.replicate 255 7 ∧ headerLen 0xFF0000FF ≤ (List.replicate 255 (7 : Word)).length ∧
      0x62 ≤ headerOpc 0xFF0000FF ∧ 0x05 ≤ headerOpc 0x05000000 ∧ headerOpc 0x05000000 ≤ 0x0F := by
  refine ⟨rfl, rfl, ?_, ?_, ?_, ?_⟩ <;> decide +kernel
theorem test_witness_FirstFailingCheckFaults_length : (Instr.nop 0 1 [0]).ops.length ≠ (Instr.nop 0 1 [0]).lenRequired := by
  decide
theorem test_witness_FirstFailingCheckFaults_arg :
    (Instr.vStop 8 2 []).ops.length = (Instr.vStop 8 2 []).lenRequired ∧ (Instr.vStop 8 2 []).argOk = false ∧
      (Instr.peek 1 1 [0]).ops.length = (Instr.peek 1 1 [0]).lenRequired ∧ (Instr.peek 1 1 [0]).vidOk = false ∧
      usesVoice (.peek 1 1 [0]) = false := by decide
theorem test_witness_FirstFailingCheckFaults_voice :
    (Instr.peek 8 7 [0]).ops.length = (Instr.peek 8 7 [0]).lenRequired ∧ (Instr.peek 8 7 [0]).argOk = true ∧
      (Instr.peek 8 7 [0]).vidOk = false ∧ usesVoice (.peek 8 7 [0]) = true := by decide
theorem test_witness_FirstFailingCheckFaults_prepared :
    (Instr.ksGet 7 0 []).wellFormed = true ∧ State.reset.ready = false ∧ isEarly (.ksGet 7 0 []) = false := by decide +kernel
theorem test_witness_FirstFailingCheckFaults_block :
    (Instr.render 0 0 [513]).wellFormed = true ∧ prepared.ready = true ∧ operandsOk (.render 0 0 [513]) prepared = false ∧
      ∀ vid arg ops, Instr.render 0 0 [513] ≠ .peek vid arg ops := by
  refine ⟨?_, ?_, ?_, ?_⟩
  · decide
  · decide +kernel
  · decide +kernel
  · intros; simp
theorem test_witness_FirstFailingCheckFaults_address :
    (Instr.peek 0 8 [65536]).wellFormed = true ∧ operandsOk (.peek 0 8 [65536]) State.reset = false ∧
      (Instr.peek 200 11 [0]).wellFormed = true ∧ operandsOk (.peek 200 11 [0]) State.reset = false := by decide +kernel
theorem test_witness_PassedChecksCannotFault :
    ((Instr.render 0 0 [512]).wellFormed = true ∧ prepared.ready = true ∧ operandsOk (.render 0 0 [512]) prepared = true ∧
      hostAway (.render 0 0 [512]) prepared = true) ∧
    ((Instr.peek 0 8 [65535]).wellFormed = true ∧ isEarly (.peek 0 8 [65535]) = true ∧
      operandsOk (.peek 0 8 [65535]) State.reset = true ∧ hostAway (.peek 0 8 [65535]) State.reset = true) := by
  decide +kernel
theorem test_witness_ReadyEnteredByPrepareOnly :
    (exec (.nop 0 0 []) prepared = .next prepared ∧ prepared.ready = true) ∧
    (exec (.prepare 0 0 [0x473B8000, 512]) State.reset = .next prepared ∧ State.reset.ready = false) :=
  ⟨⟨rfl, by decide +kernel⟩, rfl, by decide +kernel⟩
theorem test_witness_StepRunsDecodedCommand :
    decode { prepared with cmd := [0x42070000, 9] }.cmd = .command (.ksGet 7 0 []) [9] ∧ prepared.port = [] := ⟨by decide, rfl⟩
theorem test_witness_StepWaitsForOperands :
    State.reset.cmd = [] ∧ { State.reset with cmd := 0xFF0000FF :: List.replicate 254 0 }.cmd =
      0xFF0000FF :: List.replicate 254 0 ∧ (List.replicate 254 (0 : Word)).length < headerLen 0xFF0000FF := by
  refine ⟨rfl, rfl, ?_⟩
  decide +kernel
theorem test_witness_RefusedOnlyWhenHostTouchesOut :
    let s : State := { prepared with port := [⟨1, .writeOut .right 511 9⟩, ⟨1, .readOut .left 0⟩] }
    s.ready = true ∧ (512 : Word).toNat ≤ s.maxBlock.toNat ∧ (511 : Fin Config.MAXBLOCK_CAP).val < (512 : Word).toNat ∧
      (0 : Fin Config.MAXBLOCK_CAP).val < (1 : Word).toNat ∧ exec (.render 0 0 [512]) s = .refused .hostTouchedOut := by
  refine ⟨?_, ?_, ?_, ?_, rfl⟩ <;> decide +kernel
theorem test_witness_CellReadsOldOrHostWritten :
    { prepared with port := [⟨38, .writeCell 38 7⟩] }.cellsRead[38] = 7 ∧
      { prepared with port := [⟨39, .writeCell 38 7⟩] }.cellsRead[38] = 0x3F000000 := by decide +kernel
theorem test_witness_NumAndDrawsAdmissible :
    (⟨0x42FE0000⟩ : F32).value = .fin false (127 * unitsPerOne) ∧ (⟨0xC2FC0000⟩ : F32).value = .fin true (126 * unitsPerOne) ∧
      (⟨0x80000000⟩ : F32).value = .fin true (0 * unitsPerOne) ∧ (⟨0xFF7FFFFF⟩ : F32).isFinite = true ∧
      (⟨0xFF800000⟩ : F32).le F32.zero = true := by decide +kernel
theorem test_witness_ClampAndSan :
    F32.zero.le F32.one = true ∧ F32.one.le F32.one = true ∧ (⟨0x7FC00000⟩ : F32).isNaN = true ∧
      (⟨0xFF800000⟩ : F32).lt F32.zero = true ∧ F32.between F32.zero F32.one F32.one = true ∧
      F32.one.lt ⟨0x3F800001⟩ = true := by decide +kernel
theorem test_witness_FloorAndFrac :
    (⟨0xB3000000⟩ : F32).isFinite = true ∧ F32.one.neg.value = .fin true (1 * unitsPerOne) ∧
      F32.one.neg.le ⟨0xB3000000⟩ = true := by decide +kernel
theorem test_witness_RoundsToNearestEven :
    (⟨0x7F7FFFFF⟩ : F32).value = .fin false ((2 ^ 24 - 1) * 2 ^ 253) ∧ (⟨0x80000001⟩ : F32).value = .fin true 1 ∧ 1 ≠ 0 := by
  decide +kernel
theorem test_witness_SqrtRoundsToNearest :
    (F32.ofNat 2).value = .fin false (2 * unitsPerOne) ∧ (⟨1⟩ : F32).value = .fin false 1 ∧
      F32.zero.value = .fin false 0 := by decide +kernel
theorem test_witness_OscillatorCommands : prepared.ready = true := prepared_ready
theorem test_witness_OscillatorSamples :
    (⟨0x3F7FFFFF⟩ : F32).inUnitOpen = true ∧ (⟨0x3F7FFFFF⟩ : F32) ≠ F32.zero.neg ∧ F32.zero.inUnitOpen = true ∧
      F32.zero ≠ F32.zero.neg := by decide +kernel
theorem test_witness_ResonatorSetCommands : prepared.ready = true := prepared_ready
theorem test_witness_ResonatorTriggerCommand : prepared.ready = true := prepared_ready
/-- A resonator at rest with finite coefficients. -/
theorem test_witness_ResonatorProcCommand :
    let m : Mode := ⟨F32.one, F32.one, F32.zero, F32.one, F32.one.neg, F32.zero, F32.zero, F32.zero, F32.zero, F32.zero⟩
    let s := prepared.updVoice 7 fun x => { x with rings := { x.rings with modes := Vector.replicate 8 m } }
    s.ready = true ∧ ∀ i : Fin Config.NMODES,
      let m := (s.voice 7).rings.modes[i]
      m.c1.isFinite = true ∧ m.c2.isFinite = true ∧ m.x1 = F32.zero ∧ m.x2 = F32.zero ∧ m.y1 = F32.zero ∧
        m.y2 = F32.zero ∧ m.exc = F32.zero := by decide +kernel
theorem frozen_memOk : frozen.memOk := by
  unfold State.memOk
  decide +kernel
theorem prepared_memOk : prepared.memOk := by
  unfold State.memOk
  decide +kernel
theorem test_witness_GranularWriteCommand :
    (frozen.ready = true ∧ frozen.memOk ∧ (frozen.voice 0).clouds.freeze = true) ∧
      (prepared.ready = true ∧ prepared.memOk ∧ (prepared.voice 0).clouds.freeze = false) :=
  ⟨⟨by decide +kernel, frozen_memOk, rfl⟩, prepared_ready, prepared_memOk, rfl⟩
/-- The clause on density +0, and both ends of the pool: no grain active, and all of them. -/
theorem test_witness_GranularProcCommand :
    let full := prepared.updVoice 0 fun x => { x with
      clouds := { x.clouds with grains := vecMap (fun g => { g with active := true }) x.clouds.grains, dens := F32.zero } }
    prepared.ready = true ∧ (prepared.voice 0).clouds.grains[0].active = false ∧ full.ready = true ∧
      (full.voice 0).clouds.dens = F32.zero ∧ F32.zero.lt full.sr = true ∧
      ∀ g : Fin Config.NG, (full.voice 0).clouds.grains[g].active = true := by decide +kernel
theorem test_witness_FreezeKeepsBuffers :
    exec (.grWrite 0 0 [0x3F800000, 0]) frozen = .next frozen ∧
      (∀ vid arg ops, Instr.grWrite 0 0 [0x3F800000, 0] ≠ .prepare vid arg ops) ∧ (frozen.voice 0).clouds.freeze = true :=
  ⟨by rfl, fun _ _ _ => by simp, rfl⟩
theorem test_witness_KarplusSetfreqCommand :
    prepared.ready = true ∧ prepared.memOk ∧ ksLength Config.std prepared.sr (F32.ofNat 440) = 110 :=
  ⟨prepared_ready, prepared_memOk, by decide +kernel⟩
theorem test_witness_KarplusTriggerCommand : prepared.ready = true ∧ prepared.memOk := ⟨prepared_ready, prepared_memOk⟩
theorem test_witness_KarplusGetCommand : prepared.ready = true ∧ prepared.memOk := ⟨prepared_ready, prepared_memOk⟩
theorem test_witness_WarpDiscardsMorph : (F32.mk 0x3E800000).eqv F32.zero = false ∧ (F32.mk 1).eqv F32.zero = false := by
  decide +kernel
theorem test_witness_WavetableRoundTrip : 2047 < 2048 := by decide
theorem test_witness_EnvelopeCommands : prepared.ready = true := prepared_ready
theorem test_witness_FilterCommands : prepared.ready = true := prepared_ready
theorem test_witness_GroupSetterCommands : prepared.ready = true := prepared_ready
theorem test_witness_StartCommands : (sounding prepared).ready = true ∧ (sounding prepared).allocate (min 69 127) = 0 ∧
    (sounding prepared).allocate (min 60 127) = 1 := by decide +kernel
/-- One state for each of the four steps of the search. -/
theorem test_witness_AllocationOrder :
    let all (st : Stage) := prepared.updVoices fun x => { x with active := true, note := 60, enva := { x.enva with stage := st } }
    ((sounding prepared).voice 0).note = 69 ∧ ((sounding prepared).voice 0).fading = false ∧
      ((sounding prepared).voice 1).active = false ∧
      (∀ v, ((all .release).voice v).active = true ∧ ((all .release).voice v).note ≠ 69) ∧
      ((all .release).voice 3).enva.stage = .release ∧
      (∀ v, ((all .attack).voice v).fading = false ∧ ((all .attack).voice v).enva.stage ≠ .release) := by decide +kernel
theorem test_witness_StopCommands : (sounding prepared).ready = true ∧ ((sounding prepared).voice 0).active = true := by
  decide +kernel
theorem test_witness_VoiceRenderCommand :
    (sounding prepared).ready = true ∧ (512 : Word).toNat ≤ (sounding prepared).maxBlock.toNat ∧
      (sounding prepared).hostInOut (512 : Word).toNat = false ∧ ((sounding prepared).voice 0).active = true := by
  decide +kernel
theorem sounding_memOk : (sounding slow).memOk := by
  unfold State.memOk
  decide +kernel
theorem test_witness_RenderFrame :
    (sounding slow).memOk ∧
      exec (.vRender (vidOf (0 : Fin Config.NV)) 0 [2]) (sounding slow) = .next ((sounding slow).renderVoice 0 2) ∧
      ((sounding slow).voice 1).active = false :=
  ⟨sounding_memOk, rfl, by decide +kernel⟩
theorem test_witness_RenderCommand :
    (slow.ready = true ∧ (64 : Word).toNat ≤ slow.maxBlock.toNat ∧ slow.hostInOut (64 : Word).toNat = false ∧
      ∀ v, (slow.voice v).active = false) ∧
    ((sounding slow).ready = true ∧ (64 : Word).toNat ≤ (sounding slow).maxBlock.toNat ∧
      (sounding slow).hostInOut (64 : Word).toNat = false ∧ ((sounding slow).voice 0).active = true ∧
      ∀ w, w ≠ 0 → ((sounding slow).voice w).active = false) := by decide +kernel
theorem fading_memOk : (fading slow).memOk := by
  unfold State.memOk
  decide +kernel
theorem test_witness_FadeOutEndsTheVoice :
    ((fading slow).ready = true ∧ (1 : Word).toNat ≤ (fading slow).maxBlock.toNat ∧
      (fading slow).hostInOut (1 : Word).toNat = false ∧ ((fading slow).voice 0).active = true ∧
      ((fading slow).voice 0).fading = true ∧ ((fading slow).voice 0).fadeoutCnt.toNat < (fading slow).fadeOut.toNat ∧
      (fading slow).fadeOut.toNat - ((fading slow).voice 0).fadeoutCnt.toNat ≤ (1 : Word).toNat) ∧ (fading slow).memOk :=
  ⟨by decide +kernel, fading_memOk⟩
theorem test_witness_FrameGainInRange :
    let x := (fading prepared).voice 0
    voiceLifeOk prepared.fadeIn prepared.fadeOut x = true ∧ x.vel.inUnit = true ∧ F32.one.inUnit = true ∧
      F32.zero.inUnit = true := by decide +kernel
theorem test_witness_OnlyNamedEnginesAdvance :
    ((resetVoice Config.std).mode = .rings ∧ modeCode .rings = 0) ∧ modeCode .fullHybrid = 8 ∧ prepared.ready = true := by
  decide +kernel
theorem test_witness_SetglobalCommand :
    prepared.ready = true ∧ prepared.port = [] := ⟨prepared_ready, rfl⟩
theorem test_witness_SetglobalAtDefaultsChangesNothing :
    State.reset.params = State.reset.params ∧ State.reset.port = [] ∧
      exec (.prepare 0 0 [0x473B8000, 512]) State.reset = .next prepared := ⟨rfl, rfl, rfl⟩
theorem test_witness_NopClrerrWrparamCommands : (38 : Fin Config.NPARAM).val < 39 := by decide
/-- The last address of each space. -/
theorem test_witness_PeekCommand :
    14 < 15 ∧ (38 : Fin Config.NPARAM).val = 38 ∧ 66 < 67 ∧ 127 = 16 * (7 : Fin Config.NMODES).val + (15 : Fin 16).val ∧
      511 = 8 * (63 : Fin Config.NG).val + (7 : Fin 8).val ∧ 191999 < prepared.bufLen.toNat := by decide +kernel
theorem test_witness_RegistersWrittenOnlyBy : exec (.nop 0 0 []) prepared = .next prepared := rfl
theorem test_witness_VoicesTouchedOnlyBy :
    ((Instr.ksGet 7 0 []).onVoice = true ∧ (Instr.ksGet 7 0 []).vid ≠ vidOf (0 : Fin Config.NV) ∧
      ∃ t, exec (.ksGet 7 0 []) prepared = .next t) ∧
    (1 ≠ (sounding prepared).allocate (min (69 : Byte).toNat 127) ∧
      ∃ t, exec (.noteon 0 69 [0x3F800000]) (sounding prepared) = .next t) ∧
    (((sounding prepared).voice 0).note ≠ BitVec.ofNat 32 (min (60 : Byte).toNat 127) ∧
      ∃ t, exec (.noteoff 0 60 []) (sounding prepared) = .next t) ∧
    ((prepared.voice 3).active = false ∧ exec (.render 0 0 [1]) prepared = .next prepared) ∧
    exec (.nop 0 0 []) prepared = .next prepared :=
  ⟨⟨by decide, by decide, _, rfl⟩, ⟨by decide +kernel, _, rfl⟩, ⟨by decide +kernel, _, rfl⟩, ⟨by decide +kernel, rfl⟩, rfl⟩
theorem test_witness_BytesCarryWords : [(1 : Byte), 2, 3].length < 4 := by decide

/-! Other parameters than the defaults (`00_scope.md` R5, `93_implementation_defined.md` U1). -/

/-- The parameters of R369's example: `NV = 2`; the coefficient of `43_karplus_strong.md` R257 (b): `KS_DAMP = 1.0`. -/
@[reducible] def twoVoices : Config.Params :=
  { Config.std with nv := 2, ksDamp := F32.one, nvBounds := by decide, ksDampBounds := by decide }

/-- Two voices at 1000 Hz; voices 0 and 1 sound notes 60 and 64, started in that order. -/
def twoSounding : State twoVoices :=
  let on (note age : Word) (x : Voice twoVoices) : Voice twoVoices :=
    { x with active := true, note := note, age := age, enva := { x.enva with stage := .sustain } }
  (((State.resetAt twoVoices).prepare ⟨0x447A0000⟩ 64).updVoice 0 (on 60 1)).updVoice 1 (on 64 2)

/-- R369, example: `NOTEON 67` steals voice 0, the oldest; `NOTEON 64` retriggers voice 1. -/
theorem test_configured_allocate : twoSounding.allocate 67 = 0 ∧ twoSounding.allocate 64 = 1 := by decide +kernel
/-- `PEEK SYS, 11` pushes `NV`; a voice that does not exist is `BAD_VOICE` (R148, check (4)). -/
theorem test_configured_voices :
    execAt (.peek 0 0 [11]) twoSounding = .next (twoSounding.push 2) ∧
      execAt (.ksGet 2 0 []) twoSounding = .next (twoSounding.raise .badVoice 0x42020000) := ⟨rfl, rfl⟩
/-- R256 with `KS_DAMP = 1.0`: `((1 + 1) * 0.5) * 1.0` is written back, the constant line of R257 (b). -/
theorem test_configured_damp :
    ((karplusAdvance twoVoices ⟨3, 1, F32.one, [(1, 0x3F800000)]⟩).line, Config.std.ksDamp) =
      ([(1, 0x3F800000)], F32.dec 995 1000) := by decide +kernel

/-! The invariants: `ENV.NOTEON v0, 0` in the prepared block, whose state meets every one of them. -/

/-- The prepared block with a command in its queue. -/
def queued : State := { prepared with cmd := [0x59000000] }

theorem queued_step : step queued = .next (sent [0x59000000] prepared) := rfl
theorem queued_configOk : queued.configOk := by
  unfold State.configOk
  decide +kernel
theorem queued_registersLegal : queued.registersLegal := by
  unfold State.registersLegal
  decide +kernel
theorem test_witness_StepKeepsMemories : step queued = .next (sent [0x59000000] prepared) ∧ queued.memOk :=
  ⟨queued_step, prepared_memOk⟩
theorem test_witness_StepKeepsLegalRegisters :
    step queued = .next (sent [0x59000000] prepared) ∧ queued.registersLegal ∧ queued.configOk ∧
      (queued.voice 7).freq.isFinite = true ∧ (queued.voice 7).wt.phase.inUnitOpen = true :=
  ⟨queued_step, queued_registersLegal, queued_configOk, by decide +kernel⟩
/-- Every coefficient is a function of registers that the calculation of the coefficients keeps. -/
theorem test_witness_StepKeepsModes : step queued = .next (sent [0x59000000] prepared) ∧ queued.modesDetermined := by
  refine ⟨queued_step, fun v => ⟨?_, fun _ i => ?_⟩⟩
  · unfold modesSet
    revert v
    decide +kernel
  · fin_cases v <;> fin_cases i <;> rfl
theorem test_witness_StepKeepsCursors : step queued = .next (sent [0x59000000] prepared) ∧ queued.cursorsOk := by
  refine ⟨queued_step, queued_configOk, ?_⟩
  decide +kernel
theorem test_witness_StepKeepsLives : step queued = .next (sent [0x59000000] prepared) ∧ queued.livesOk := by
  refine ⟨queued_step, queued_configOk, ?_⟩
  decide +kernel
theorem test_witness_StepKeepsLevels : step queued = .next (sent [0x59000000] prepared) ∧ queued.levelsOk := by
  refine ⟨queued_step, queued_configOk, queued_registersLegal, ?_⟩
  decide +kernel
/-- A voice that holds a note, and a `NOTEON` of the same note. -/
theorem test_witness_NotesHeldOnce :
    (∃ t, exec (.noteon 0 69 [0x3F800000]) (sounding prepared) = .next t) ∧
      (∀ vid arg ops, Instr.noteon 0 69 [0x3F800000] ≠ .vStart vid arg ops) ∧ (sounding prepared).notesHeldOnce := by
  refine ⟨⟨_, rfl⟩, fun _ _ _ => by simp, ?_⟩
  unfold State.notesHeldOnce
  decide +kernel

end Sys2Proof.Tests
end

/-! Rounding to nearest, ties to even (`00_scope.md` R7), by midpoints: a rounded magnitude lies on the near side of the midpoint to
every other magnitude. A tie is told by the parity: of two numbers `a` and `b`, `a + m % 2 ≤ b` says that `a` is at most `b`, and below
it if `m` is odd. -/

namespace Sys2Proof

/-! The nearest integer. -/

/-- The ratio is at most half a step above its nearest integer. -/
theorem nearestEven_upper {a b : Nat} (hb : 0 < b) : 2 * a + nearestEven a b % 2 ≤ (2 * nearestEven a b + 1) * b := by
  have ha := Nat.div_add_mod a b
  have hr := Nat.mod_lt a hb
  rcases nearestEven_cases a b with h | h
  · have hs := nearestEven_eq_self h
    rw [h]
    have e : (2 * (a / b) + 1) * b = 2 * (b * (a / b)) + b := by ring
    omega
  · rw [h]
    have e : (2 * (a / b + 1) + 1) * b = 2 * (b * (a / b)) + 3 * b := by ring
    omega

/-- The ratio is at most half a step below its nearest integer. -/
theorem nearestEven_lower {a b : Nat} : 2 * nearestEven a b * b + nearestEven a b % 2 ≤ 2 * a + b := by
  have ha := Nat.div_add_mod a b
  rcases nearestEven_cases a b with h | h
  · have hs := nearestEven_eq_self h
    rw [h]
    have e : 2 * (a / b) * b = 2 * (b * (a / b)) := by ring
    omega
  · have hs := nearestEven_eq_succ h
    rw [h]
    have e : 2 * (a / b + 1) * b = 2 * (b * (a / b)) + 2 * b := by ring
    omega

/-! The rounded magnitude. -/

/-- `magUnits_scaled` with the carry out of the 24 bits. -/
theorem magUnits_scaled_le {k q : Nat} (hq : q ≤ 2 ^ 24) (hk : k = 0 ∨ 2 ^ 23 ≤ q) :
    magUnits (k * 2 ^ 23 + q) = q * 2 ^ k := by
  rcases Nat.lt_or_eq_of_le hq with h | rfl
  · exact magUnits_scaled k q h hk
  · exact magUnits_carry k

theorem roundMagnitude_of_overflow {num den : Nat} (h : 2 ^ 128 * 2 ^ 149 ≤ num / den) :
    roundMagnitude num den = 0x7F800000 := by
  unfold roundMagnitude
  exact if_pos h

/-- The exponent step and the significant bits of a rounded magnitude, below the overflow. -/
theorem roundMagnitude_split {num den : Nat} (hd : 0 < den) (h : num / den < 2 ^ 128 * 2 ^ 149) :
    roundMagnitude num den =
      roundStep (num / den) * 2 ^ 23 + nearestEven num (den * 2 ^ roundStep (num / den)) := by
  rw [roundMagnitude_eq h]
  have hN := nearestEven_step_le (num := num) hd
  have hk : roundStep (num / den) ≤ 253 := by
    by_contra c
    have h1 := roundStep_le (n := num / den) (by omega)
    have h2 : 2 ^ 254 ≤ 2 ^ roundStep (num / den) := Nat.pow_le_pow_right (by norm_num) (by omega)
    omega
  exact Nat.min_eq_left (by omega)

/-- An exact result that rounds to a finite magnitude is at most the midpoint to the next one. -/
theorem roundMagnitude_upper_succ {num den : Nat} (hd : 0 < den) (h : roundMagnitude num den < 0x7F800000) :
    2 * num + roundMagnitude num den % 2 ≤
      (magUnits (roundMagnitude num den) + magUnits (roundMagnitude num den + 1)) * den := by
  have hov : num / den < 2 ^ 128 * 2 ^ 149 := by
    by_contra c
    exact h.ne (roundMagnitude_of_overflow (Nat.not_lt.mp c))
  have hlt := magUnits_succ_lt (roundMagnitude num den)
  have hs := roundMagnitude_split hd hov
  have hN := nearestEven_step_le (num := num) hd
  have hN' := nearestEven_step_ge (num := num) hd
  have hup := nearestEven_upper (a := num) (Nat.mul_pos hd (Nat.two_pow_pos (roundStep (num / den))))
  have hnum : num < 2 ^ 24 * 2 ^ roundStep (num / den) * den :=
    (Nat.div_lt_iff_lt_mul hd).mp (lt_roundStep (num / den))
  generalize roundStep (num / den) = k at *
  generalize nearestEven num (den * 2 ^ k) = q at *
  rw [hs] at hlt ⊢
  have hpar : (k * 2 ^ 23 + q) % 2 = q % 2 := by omega
  have hm : magUnits (k * 2 ^ 23 + q) = q * 2 ^ k := magUnits_scaled_le hN (by omega)
  rw [hm] at hlt ⊢
  rw [hpar]
  rcases Nat.lt_or_eq_of_le hN with hq | rfl
  · rw [Nat.add_assoc, magUnits_scaled_le hq (by omega)]
    calc 2 * num + q % 2 ≤ (2 * q + 1) * (den * 2 ^ k) := hup
      _ = (q * 2 ^ k + (q + 1) * 2 ^ k) * den := by ring
  · have hgap := Nat.mul_le_mul_right den hlt.le
    rw [Nat.add_mul]
    omega

/-- What is at least a magnitude is above the midpoint to the one before it. -/
theorem midpoint_lt_of_le {num den n : Nat} (hd : 0 < den) (h : magUnits (n + 1) * den ≤ num) :
    (magUnits n + magUnits (n + 1)) * den < 2 * num := by
  have hlt := Nat.mul_lt_mul_of_pos_right (magUnits_succ_lt n) hd
  rw [Nat.add_mul]
  omega

/-- An exact result that rounds to a magnitude is at least the midpoint to the one before it. -/
theorem roundMagnitude_lower_succ {num den n : Nat} (hd : 0 < den) (h : roundMagnitude num den = n + 1) :
    (magUnits n + magUnits (n + 1)) * den + (n + 1) % 2 ≤ 2 * num := by
  rcases Nat.lt_or_ge (num / den) (2 ^ 128 * 2 ^ 149) with hov | hov
  · have hs := roundMagnitude_split hd hov
    have hN := nearestEven_step_le (num := num) hd
    have hN' := nearestEven_step_ge (num := num) hd
    have hlo := nearestEven_lower (a := num) (b := den * 2 ^ roundStep (num / den))
    have hnum : roundStep (num / den) ≠ 0 → 2 ^ 23 * 2 ^ roundStep (num / den) * den ≤ num := fun h0 =>
      (Nat.le_div_iff_mul_le hd).mp (roundStep_le h0)
    generalize roundStep (num / den) = k at *
    generalize nearestEven num (den * 2 ^ k) = q at *
    have hn : n + 1 = k * 2 ^ 23 + q := by omega
    have hm : magUnits (n + 1) = q * 2 ^ k := by rw [hn]; exact magUnits_scaled_le hN (by omega)
    by_cases hb : k ≠ 0 ∧ q = 2 ^ 23
    · obtain ⟨h0, rfl⟩ := hb
      have hmid := midpoint_lt_of_le (num := num) (n := n) hd (by rw [hm]; exact hnum h0)
      omega
    · have hm0 : magUnits n = (q - 1) * 2 ^ k := by
        rw [show n = k * 2 ^ 23 + (q - 1) by omega]
        exact magUnits_scaled_le (by omega) (by omega)
      obtain ⟨p, rfl⟩ : ∃ p, q = p + 1 := ⟨q - 1, by omega⟩
      have hpar : (n + 1) % 2 = (p + 1) % 2 := by omega
      rw [hm0, hm, hpar]
      have e : (p * 2 ^ k + (p + 1) * 2 ^ k) * den + den * 2 ^ k = 2 * (p + 1) * (den * 2 ^ k) := by ring
      simp only [Nat.add_sub_cancel]
      omega
  · have hinf := roundMagnitude_of_overflow hov
    have hm : magUnits (n + 1) = 2 ^ 128 * 2 ^ 149 := by rw [← h, hinf, magUnits_infinity]
    have hmid := midpoint_lt_of_le (num := num) (n := n) hd (by rw [hm]; exact (Nat.le_div_iff_mul_le hd).mp hov)
    omega

/-- An exact result that rounds to a finite magnitude is at most the midpoint to every greater one. -/
theorem roundMagnitude_upper {num den n : Nat} (hd : 0 < den) (h : roundMagnitude num den < 0x7F800000)
    (hn : roundMagnitude num den < n) :
    2 * num + roundMagnitude num den % 2 ≤ (magUnits (roundMagnitude num den) + magUnits n) * den :=
  (roundMagnitude_upper_succ hd h).trans
    (Nat.mul_le_mul_right den (Nat.add_le_add_left (magUnits_le_iff.mpr hn) _))

/-- An exact result that rounds to a magnitude is at least the midpoint to every lesser one. -/
theorem roundMagnitude_lower {num den n : Nat} (hd : 0 < den) (hn : n < roundMagnitude num den) :
    (magUnits n + magUnits (roundMagnitude num den)) * den + roundMagnitude num den % 2 ≤ 2 * num := by
  obtain ⟨p, hp⟩ : ∃ p, roundMagnitude num den = p + 1 := ⟨roundMagnitude num den - 1, by omega⟩
  have hnp : magUnits n ≤ magUnits p := magUnits_le_iff.mpr (by omega)
  rw [hp]
  refine le_trans ?_ (roundMagnitude_lower_succ hd hp)
  exact Nat.add_le_add_right (Nat.mul_le_mul_right den (Nat.add_le_add_right hnp _)) _

/-! The overflow. -/

/-- The units of the largest finite magnitude and of the infinity, in halves of the last step. -/
theorem magUnits_largest_mul (den : Nat) :
    magUnits 0x7F7FFFFF * den = (2 ^ 25 - 2) * (2 ^ 252 * den) ∧ magUnits 0x7F800000 * den = 2 ^ 25 * (2 ^ 252 * den) := by
  constructor
  · have h := magUnits_scaled 253 (2 ^ 24 - 1) (by norm_num) (Or.inr (by norm_num))
    rw [show 253 * 2 ^ 23 + (2 ^ 24 - 1) = 0x7F7FFFFF by norm_num] at h
    rw [h, show 2 ^ 253 = 2 * 2 ^ 252 from pow_succ' 2 252]
    ring
  · rw [magUnits_infinity, ← pow_add, ← mul_assoc, ← pow_add]

/-- The overflow threshold is the midpoint from the largest finite value to 2^128. -/
theorem roundMagnitude_eq_infinity_iff {num den : Nat} (hd : 0 < den) :
    roundMagnitude num den = 0x7F800000 ↔ (2 ^ 25 - 1) * (2 ^ 252 * den) ≤ num := by
  obtain ⟨hmax, hinf⟩ := magUnits_largest_mul den
  constructor
  · intro h
    have hlo := roundMagnitude_lower (num := num) (n := 0x7F7FFFFF) hd (by omega)
    rw [h, Nat.add_mul, hmax, hinf] at hlo
    generalize 2 ^ 252 * den = t at *
    omega
  · intro h
    by_contra c
    have hlt : roundMagnitude num den < 0x7F800000 := lt_of_le_of_ne (roundMagnitude_le_infinity _ _) c
    have hup := roundMagnitude_upper hd hlt hlt
    rw [Nat.add_mul, hinf] at hup
    have hle : roundMagnitude num den ≤ 0x7F7FFFFF := by omega
    rcases Nat.lt_or_eq_of_le hle with hne | heq
    · have hmul := Nat.mul_lt_mul_of_pos_right (magUnits_lt_iff.mpr hne) hd
      rw [hmax] at hmul
      generalize 2 ^ 252 * den = t at *
      omega
    · rw [heq, hmax] at hup
      generalize 2 ^ 252 * den = t at *
      omega

/-- A point on the near side of the midpoint between `u` and `w` is no farther from `u`; `p` is positive if a tie is excluded. -/
theorem abs_sub_le_of_midpoint {x u w p : Int} (hp : 0 ≤ p) (h : u < w ∧ 2 * x + p ≤ u + w ∨ w < u ∧ w + u + p ≤ 2 * x) :
    |u - x| ≤ |w - x| ∧ (|u - x| = |w - x| → p = 0) := by
  simp only [abs_eq_max_neg]
  omega

/-- No finite magnitude is closer to the exact result than the rounded one, and of two equally close the rounded one is even. -/
theorem roundMagnitude_nearest {num den : Nat} (hd : 0 < den) (h : roundMagnitude num den < 0x7F800000) (n : Nat) :
    |(magUnits (roundMagnitude num den) * den : Int) - num| ≤ |(magUnits n * den : Int) - num| ∧
    (|(magUnits (roundMagnitude num den) * den : Int) - num| = |(magUnits n * den : Int) - num| →
      n = roundMagnitude num den ∨ roundMagnitude num den % 2 = 0) := by
  have hup := roundMagnitude_upper (n := n) hd h
  have hlo := roundMagnitude_lower (num := num) (n := n) hd
  generalize roundMagnitude num den = m at *
  rcases eq_or_ne n m with rfl | hne
  · exact ⟨le_rfl, fun _ => Or.inl rfl⟩
  · have hside : (magUnits m * den : Int) < magUnits n * den ∧
          2 * (num : Int) + (m % 2 : Nat) ≤ magUnits m * den + magUnits n * den ∨
        (magUnits n * den : Int) < magUnits m * den ∧
          (magUnits n * den + magUnits m * den : Int) + (m % 2 : Nat) ≤ 2 * num := by
      rcases Nat.lt_or_gt_of_ne hne with hn | hn
      · refine Or.inr ⟨?_, ?_⟩
        · exact_mod_cast Nat.mul_lt_mul_of_pos_right (magUnits_lt_iff.mpr hn) hd
        · rw [← Int.add_mul]
          exact_mod_cast hlo hn
      · refine Or.inl ⟨?_, ?_⟩
        · exact_mod_cast Nat.mul_lt_mul_of_pos_right (magUnits_lt_iff.mpr hn) hd
        · rw [← Int.add_mul]
          exact_mod_cast hup hn
    obtain ⟨hle, htie⟩ := abs_sub_le_of_midpoint (Int.natCast_nonneg _) hside
    exact ⟨hle, fun heq => Or.inr (by exact_mod_cast htie heq)⟩

end Sys2Proof

/-! The four operations: each answers the exact result, rounded (`00_scope.md` R7). -/

namespace Sys2Proof

/-! Signed units. -/

@[simp] theorem signedUnits_zero (neg : Bool) : signedUnits neg 0 = 0 := by cases neg <;> rfl

@[simp] theorem signedUnits_false (u : Nat) : signedUnits false u = u := rfl

@[simp] theorem signedUnits_true (u : Nat) : signedUnits true u = -(u : Int) := rfl

@[simp] theorem abs_signedUnits (neg : Bool) (u : Nat) : |signedUnits neg u| = u := by cases neg <;> simp

theorem signedUnits_xor_true (neg : Bool) (u : Nat) : signedUnits (neg ^^ true) u = -signedUnits neg u := by cases neg <;> simp

theorem signedUnits_mul (s t : Bool) (u v : Nat) : signedUnits s u * signedUnits t v = signedUnits (s ^^ t) (u * v) := by
  cases s <;> cases t <;> simp

theorem ite_neg_signedUnits_mul (s t : Bool) (u n : Nat) :
    (if t then -signedUnits s u else signedUnits s u) * (n : Int) = signedUnits (s ^^ t) (u * n) := by
  cases s <;> cases t <;> simp

theorem signedUnits_natAbs (z : Int) : signedUnits (decide (z < 0)) z.natAbs = z := by
  by_cases h : z < 0
  · rw [decide_eq_true h, signedUnits_true]
    omega
  · rw [decide_eq_false h, signedUnits_false]
    omega

/-- The last bit of a binary32 is that of its magnitude. -/
theorem F32.getLsbD_zero_pack (neg : Bool) {m : Nat} (h : m % 2 = 0) : (F32.pack neg m).bits.getLsbD 0 = false := by
  simp only [F32.pack, BitVec.getLsbD_ofNat, Nat.testBit_zero]
  cases neg <;> simp <;> omega

/-! The rounding of a signed ratio. -/

/-- `y` is the exact result of `num / den` units, rounded: what `Obligations.RoundsToNearestEven` says of each operation. -/
def F32.RoundsTo (y : F32) (num : Int) (den : Nat) : Prop :=
  (∀ neg u, y.value = .fin neg u →
    (num < 0 → neg = true) ∧ (0 < num → neg = false) ∧
    ∀ (z : F32) (nz : Bool) (w : Nat), z.value = .fin nz w →
      |signedUnits neg u * den - num| ≤ |signedUnits nz w * den - num| ∧
      (|signedUnits neg u * den - num| = |signedUnits nz w * den - num| →
        signedUnits nz w = signedUnits neg u ∨ y.bits.getLsbD 0 = false)) ∧
  (∀ neg, y.value = .inf neg ↔
    (neg = decide (num < 0) ∧ (2 ^ 277 - 2 ^ 252) * (den : Int) ≤ |num|)) ∧
  y.value ≠ .nan

/-- Between values of the same sign, distances are those of the magnitudes. -/
theorem abs_signedUnits_sub (neg : Bool) (u a den : Nat) :
    |signedUnits neg u * den - signedUnits neg a| = |(u * den : Int) - a| := by
  cases neg
  · rfl
  · rw [signedUnits_true, signedUnits_true, ← abs_neg]
    congr 1
    ring

/-- A value of the other sign is at least as far from the exact result as zero is. -/
theorem abs_signedUnits_sub_not (neg : Bool) (w a den : Nat) :
    |signedUnits (!neg) w * den - signedUnits neg a| = w * den + a := by
  cases neg
  · rw [Bool.not_false, signedUnits_true, signedUnits_false, neg_mul, ← neg_add', abs_neg, abs_of_nonneg (by positivity)]
  · rw [Bool.not_true, signedUnits_true, signedUnits_false, sub_neg_eq_add, abs_of_nonneg (by positivity)]

/-- No finite value is closer to the exact result than the rounded one, and of two equally close the rounded one has last bit 0. -/
theorem F32.ofRatio_nearest {neg : Bool} {a den : Nat} (hd : 0 < den) (h : roundMagnitude a den < 0x7F800000) {z : F32}
    {nz : Bool} {w : Nat} (hz : z.value = .fin nz w) :
    |signedUnits neg (magUnits (roundMagnitude a den)) * den - signedUnits neg a| ≤
      |signedUnits nz w * den - signedUnits neg a| ∧
    (|signedUnits neg (magUnits (roundMagnitude a den)) * den - signedUnits neg a| =
        |signedUnits nz w * den - signedUnits neg a| →
      signedUnits nz w = signedUnits neg (magUnits (roundMagnitude a den)) ∨ roundMagnitude a den % 2 = 0) := by
  rw [abs_signedUnits_sub]
  obtain ⟨n, _, _, rfl⟩ := F32.value_fin hz
  rcases Bool.eq_or_eq_not nz neg with rfl | rfl
  · rw [abs_signedUnits_sub]
    obtain ⟨hle, htie⟩ := roundMagnitude_nearest hd h n
    exact ⟨hle, fun heq => (htie heq).imp_left fun e => by rw [e]⟩
  · rw [abs_signedUnits_sub_not]
    obtain ⟨hle, htie⟩ := roundMagnitude_nearest hd h 0
    have h0 : |((magUnits 0 * den : Nat) : Int) - a| = a := by simp [magUnits_zero]
    push_cast at h0
    rw [h0] at hle htie
    have hpos : (0 : Int) ≤ magUnits n * den := by positivity
    refine ⟨by omega, fun heq => (htie (by omega)).imp_left fun e => ?_⟩
    have hw : magUnits n * den = 0 := by
      have : (magUnits n * den : Int) = 0 := by omega
      exact_mod_cast this
    rw [← e, magUnits_zero, (Nat.mul_eq_zero.mp hw).resolve_right hd.ne']
    simp

/-- `ofRatio` rounds. -/
theorem F32.roundsTo_ofRatio (neg : Bool) {a den : Nat} (hd : 0 < den) :
    (F32.ofRatio neg a den).RoundsTo (signedUnits neg a) den := by
  have hinf : roundMagnitude a den = 0x7F800000 ↔ (2 ^ 277 - 2 ^ 252) * (den : Int) ≤ |signedUnits neg a| := by
    have hhalf : (2 : Int) ^ 277 - 2 ^ 252 = (2 ^ 25 - 1 : Nat) * (2 ^ 252 : Nat) := by
      rw [show (277 : Nat) = 25 + 252 from rfl, pow_add]
      push_cast
    rw [roundMagnitude_eq_infinity_iff hd, abs_signedUnits, hhalf, mul_assoc]
    exact_mod_cast Iff.rfl
  have hneg : a ≠ 0 → neg = decide (signedUnits neg a < 0) := by
    intro ha
    cases neg
    · exact (decide_eq_false (by simp)).symm
    · exact (decide_eq_true (by simpa using Nat.pos_of_ne_zero ha)).symm
  have hsign : (signedUnits neg a < 0 → neg = true) ∧ (0 < signedUnits neg a → neg = false) := by
    cases neg <;> simp
  rcases F32.value_ofRatio neg a den with ⟨hv, hlt⟩ | ⟨hv, hov⟩
  · refine ⟨fun s u hs => ?_, fun s => ?_, by rw [hv]; simp⟩
    · rw [hv] at hs
      cases hs
      refine ⟨hsign.1, hsign.2, fun z nz w hz => ?_⟩
      obtain ⟨hle, htie⟩ := F32.ofRatio_nearest (neg := neg) hd hlt hz
      exact ⟨hle, fun heq => (htie heq).imp_right (F32.getLsbD_zero_pack neg)⟩
    · rw [hv, ← hinf]
      constructor
      · intro h
        cases h
      · rintro ⟨_, h⟩
        omega
  · refine ⟨fun s u hs => (by rw [hv] at hs; cases hs), fun s => ?_, by rw [hv]; simp⟩
    have ha : a ≠ 0 := by
      rintro rfl
      have : roundMagnitude 0 den ≤ 0 := roundMagnitude_le (by norm_num) hd (by simp)
      omega
    rw [hv, ← hinf, ← hneg ha]
    simp [hov, eq_comm]

/-! The operations. -/

theorem F32.roundsTo_addAs (op : FOp) {a b : F32} {sa sb flip : Bool} {ua ub : Nat} (ha : a.value = .fin sa ua)
    (hb : b.value = .fin sb ub) :
    (F32.addAs op a b flip).RoundsTo (signedUnits sa ua + signedUnits (sb ^^ flip) ub) 1 := by
  rw [F32.addAs_of_fin op ha hb]
  split
  · rename_i hz
    rw [hz, ← F32.ofRatio_zero _ Nat.one_pos, ← signedUnits_zero (sa && (sb ^^ flip))]
    exact F32.roundsTo_ofRatio _ Nat.one_pos
  · have h := F32.roundsTo_ofRatio (decide (signedUnits sa ua + signedUnits (sb ^^ flip) ub < 0))
      (a := (signedUnits sa ua + signedUnits (sb ^^ flip) ub).natAbs) Nat.one_pos
    rwa [signedUnits_natAbs] at h

theorem F32.roundsTo_add {a b : F32} {sa sb : Bool} {ua ub : Nat} (ha : a.value = .fin sa ua) (hb : b.value = .fin sb ub) :
    (a.add b).RoundsTo (signedUnits sa ua + signedUnits sb ub) 1 := by
  simpa [F32.add] using F32.roundsTo_addAs .add (flip := false) ha hb

theorem F32.roundsTo_sub {a b : F32} {sa sb : Bool} {ua ub : Nat} (ha : a.value = .fin sa ua) (hb : b.value = .fin sb ub) :
    (a.sub b).RoundsTo (signedUnits sa ua - signedUnits sb ub) 1 := by
  have h := F32.roundsTo_addAs .sub (flip := true) ha hb
  rwa [signedUnits_xor_true, ← sub_eq_add_neg] at h

theorem F32.roundsTo_mul {a b : F32} {sa sb : Bool} {ua ub : Nat} (ha : a.value = .fin sa ua) (hb : b.value = .fin sb ub) :
    (a.mul b).RoundsTo (signedUnits sa ua * signedUnits sb ub) (2 ^ 149) := by
  rw [F32.mul_of_fin ha hb, signedUnits_mul]
  exact F32.roundsTo_ofRatio _ unitsPerOne_pos

theorem F32.roundsTo_div {a b : F32} {sa sb : Bool} {ua ub : Nat} (ha : a.value = .fin sa ua) (hb : b.value = .fin sb ub)
    (h0 : ub ≠ 0) : (a.div b).RoundsTo ((if sb then -signedUnits sa ua else signedUnits sa ua) * unitsPerOne) ub := by
  rw [F32.div_of_fin ha hb h0, ite_neg_signedUnits_mul]
  exact F32.roundsTo_ofRatio _ (Nat.pos_of_ne_zero h0)

theorem unitsPerOne_cast : (unitsPerOne : Int) = 2 ^ 149 := by rw [unitsPerOne, Nat.cast_pow, Nat.cast_ofNat]

/-- Settles O18: every operation on finite values is an `ofRatio` of its exact result, and `ofRatio` rounds. -/
theorem roundsToNearestEven : Obligations.RoundsToNearestEven := by
  intro a b na nb ua ub ha hb
  have hdiv := F32.roundsTo_div ha hb
  rw [unitsPerOne_cast] at hdiv
  exact ⟨F32.roundsTo_add ha hb, F32.roundsTo_sub ha hb, F32.roundsTo_mul ha hb, hdiv⟩

end Sys2Proof

/-! The square root (`00_scope.md` R7). -/

namespace Sys2Proof

/-! The integer square root. -/

theorem isqrtFrom_eq_sqrt {n : Nat} (k : Nat) {r : Nat} (hr : r * r ≤ n) (hn : n < (r + 2 ^ k) * (r + 2 ^ k)) :
    isqrtFrom n k r = n.sqrt := by
  induction k generalizing r with
  | zero => exact Nat.eq_sqrt.mpr ⟨hr, hn⟩
  | succ k ih =>
    unfold isqrtFrom
    split
    · rename_i h
      exact ih h (by rwa [add_assoc, ← two_mul, ← pow_succ'])
    · rename_i h
      exact ih hr (by omega)

/-- The bits that `sqrtTwice` starts from are enough. -/
theorem isqrtFrom_zero (n : Nat) : isqrtFrom n (n.log2 / 2 + 1) 0 = n.sqrt := by
  refine isqrtFrom_eq_sqrt _ (Nat.zero_le n) ?_
  rw [Nat.zero_add, ← pow_add]
  exact lt_of_lt_of_le Nat.lt_log2_self (Nat.pow_le_pow_right (by norm_num) (by omega))

theorem sqrtTwice_eq (u : Nat) :
    sqrtTwice u = if (u * unitsPerOne).sqrt * (u * unitsPerOne).sqrt = u * unitsPerOne then 2 * (u * unitsPerOne).sqrt
      else 2 * (u * unitsPerOne).sqrt + 1 := by
  unfold sqrtTwice
  simp only
  rw [isqrtFrom_zero]

/-- What an even number is to `sqrtTwice u`, its square is to four times the radicand. -/
theorem sqrtTwice_le_iff {u s : Nat} (hs : s % 2 = 0) : sqrtTwice u ≤ s ↔ 4 * (u * unitsPerOne) ≤ s * s := by
  obtain ⟨t, rfl⟩ : ∃ t, s = 2 * t := ⟨s / 2, by omega⟩
  rw [show 2 * t * (2 * t) = 4 * (t * t) by ring, Nat.mul_le_mul_left_iff (by norm_num), sqrtTwice_eq]
  split
  · rename_i hexact
    have hle : (u * unitsPerOne).sqrt ≤ t ↔ u * unitsPerOne ≤ t * t := by
      rw [← Nat.mul_self_le_mul_self_iff, hexact]
    omega
  · rename_i hexact
    have hne : u * unitsPerOne ≠ t * t := by
      intro h
      rw [h, Nat.sqrt_eq] at hexact
      exact hexact rfl
    have hlt : (u * unitsPerOne).sqrt < t ↔ u * unitsPerOne < t * t := Nat.sqrt_lt
    omega

theorem le_sqrtTwice_iff {u s : Nat} (hs : s % 2 = 0) : s ≤ sqrtTwice u ↔ s * s ≤ 4 * (u * unitsPerOne) := by
  obtain ⟨t, rfl⟩ : ∃ t, s = 2 * t := ⟨s / 2, by omega⟩
  rw [show 2 * t * (2 * t) = 4 * (t * t) by ring, Nat.mul_le_mul_left_iff (by norm_num), ← Nat.le_sqrt, sqrtTwice_eq]
  split <;> omega

/-! Rounding the root. -/

/-- Magnitudes of two exponent steps and more stand for an even number of units. -/
theorem magUnits_even {m : Nat} (h : 2 ^ 24 ≤ m) : magUnits m % 2 = 0 := by
  obtain ⟨k, q, rfl, hq, hk⟩ := mag_split m
  obtain ⟨j, rfl⟩ : ∃ j, k = j + 1 := ⟨k - 1, by omega⟩
  rw [magUnits_scaled _ q hq hk, pow_succ, ← mul_assoc, Nat.mul_mod_left]

/-- The root of a positive finite value is far from both ends of the magnitudes. -/
theorem roundMagnitude_sqrtTwice_bounds {u : Nat} (h0 : 0 < u) (h : u < 2 ^ 128 * 2 ^ 149) :
    2 ^ 24 < roundMagnitude (sqrtTwice u) 2 ∧ roundMagnitude (sqrtTwice u) 2 < 0x7F800000 := by
  have hlow : magUnits (2 * 2 ^ 23 + 2 ^ 24) * 2 ≤ sqrtTwice u := by
    rw [magUnits_carry, le_sqrtTwice_iff (Nat.mul_mod_left _ _)]
    unfold unitsPerOne
    omega
  have hhigh : sqrtTwice u ≤ magUnits (189 * 2 ^ 23 + 2 ^ 24) * 2 := by
    rw [magUnits_carry, sqrtTwice_le_iff (Nat.mul_mod_left _ _)]
    calc 4 * (u * unitsPerOne) ≤ 4 * (2 ^ 128 * 2 ^ 149 * 2 ^ 149) := by
          exact Nat.mul_le_mul_left 4 (Nat.mul_le_mul_right _ h.le)
      _ ≤ 2 ^ 24 * 2 ^ 189 * 2 * (2 ^ 24 * 2 ^ 189 * 2) := by norm_num
  have h1 := le_roundMagnitude (by norm_num) (by norm_num) hlow
  have h2 := roundMagnitude_le (by norm_num) (by norm_num) hhigh
  omega

/-- No magnitude lies on the exact root's side of the midpoint to the rounded one. The midpoints in question are whole numbers of units,
which is why `sqrtTwice` is enough to round from. -/
theorem roundMagnitude_sqrtTwice_nearest {u : Nat} (h0 : 0 < u) (h : u < 2 ^ 128 * 2 ^ 149) (n : Nat) :
    let r := magUnits (roundMagnitude (sqrtTwice u) 2)
    (r < magUnits n → 4 * (u * unitsPerOne) ≤ (r + magUnits n) * (r + magUnits n)) ∧
    (magUnits n < r → (r + magUnits n) * (r + magUnits n) ≤ 4 * (u * unitsPerOne)) := by
  obtain ⟨hlow, hhigh⟩ := roundMagnitude_sqrtTwice_bounds h0 h
  have hup := roundMagnitude_upper (num := sqrtTwice u) (n := n) two_pos hhigh
  have hlo := roundMagnitude_lower (num := sqrtTwice u) (n := roundMagnitude (sqrtTwice u) 2 - 1) two_pos (by omega)
  intro r
  have hr : r % 2 = 0 := magUnits_even hlow.le
  refine ⟨fun hn => ?_, fun hn => ?_⟩
  · have hmn := magUnits_lt_iff.mp hn
    have hw : magUnits n % 2 = 0 := magUnits_even (by omega)
    have hmid := hup hmn
    exact (sqrtTwice_le_iff (by omega)).mp (by omega)
  · have hw := magUnits_even (m := roundMagnitude (sqrtTwice u) 2 - 1) (by omega)
    have hmn : magUnits n ≤ magUnits (roundMagnitude (sqrtTwice u) 2 - 1) := by
      have := magUnits_lt_iff.mp hn
      exact magUnits_le_iff.mpr (by omega)
    refine le_trans (Nat.mul_self_le_mul_self (Nat.add_le_add_left hmn r)) ?_
    exact (le_sqrtTwice_iff (by omega)).mp (by omega)

theorem F32.sqrt_of_fin {a : F32} {u : Nat} (ha : a.value = .fin false u) :
    a.sqrt = if u = 0 then a else F32.ofRatio false (sqrtTwice u) 2 := by
  unfold F32.sqrt
  rw [ha]
  rfl

/-- Settles O19: the root of a zero is that zero, and any other is rounded from `sqrtTwice`. -/
theorem sqrtRoundsToNearest : Obligations.SqrtRoundsToNearest := by
  intro a u ha
  rw [F32.sqrt_of_fin ha]
  rcases Nat.eq_zero_or_pos u with rfl | h0
  · exact ⟨0, ha, fun z w _ => ⟨fun _ => by simp, fun h => absurd h (Nat.not_lt_zero w)⟩⟩
  · obtain ⟨m, hm, _, rfl⟩ := F32.value_fin ha
    have hu := magUnits_lt_infinity hm
    rw [if_neg h0.ne']
    refine ⟨_, F32.value_pack false (roundMagnitude_sqrtTwice_bounds h0 hu).2, fun z w hz => ?_⟩
    obtain ⟨n, _, _, rfl⟩ := F32.value_fin hz
    exact roundMagnitude_sqrtTwice_nearest h0 hu n

end Sys2Proof

/-! `floor` and `frac` (`00_scope.md` R11). -/

namespace Sys2Proof

/-! Integer-valued magnitudes. -/

/-- Up to 2^24, every multiple of an exponent step is a magnitude. -/
theorem exists_magUnits_eq (k : Nat) {q : Nat} (hq : q ≤ 2 ^ 24) : ∃ m, m ≤ (k + 2) * 2 ^ 23 ∧ magUnits m = q * 2 ^ k := by
  induction k generalizing q with
  | zero => exact ⟨q, by omega, by simpa using magUnits_scaled_le (k := 0) hq (Or.inl rfl)⟩
  | succ k ih =>
    rcases Nat.lt_or_ge q (2 ^ 23) with h | h
    · obtain ⟨m, hm, he⟩ := ih (q := q * 2) (by omega)
      exact ⟨m, hm.trans (Nat.mul_le_mul_right _ (Nat.le_succ _)), by rw [he, mul_assoc, ← pow_succ']⟩
    · exact ⟨(k + 1) * 2 ^ 23 + q, by omega, magUnits_scaled_le hq (Or.inr h)⟩

/-- A magnitude with its 24 significant bits above an exponent step is a multiple of that step. -/
theorem dvd_magUnits {k m : Nat} (h : 2 ^ 24 * 2 ^ k ≤ magUnits m) : 2 ^ k ∣ magUnits m := by
  obtain ⟨j, q, rfl, hq, hj⟩ := mag_split m
  rw [magUnits_scaled j q hq hj] at h ⊢
  have hkj : 2 ^ k < 2 ^ j := by
    by_contra c
    have := Nat.mul_le_mul hq.le (Nat.not_lt.mp c)
    have := Nat.mul_lt_mul_of_pos_right hq (Nat.two_pow_pos j)
    omega
  exact Dvd.dvd.mul_left (pow_dvd_pow 2 ((Nat.pow_lt_pow_iff_right (by norm_num)).mp hkj).le) q

/-- The integers next to a finite magnitude are finite magnitudes. -/
theorem exists_magUnits_integral {m c : Nat} (hm : m < 0x7F800000) (h1 : c * unitsPerOne < magUnits m + unitsPerOne)
    (h2 : magUnits m < c * unitsPerOne + unitsPerOne) : ∃ n, n < 0x7F800000 ∧ magUnits n = c * unitsPerOne := by
  have hpos := unitsPerOne_pos
  rcases Nat.lt_or_ge (magUnits m) (2 ^ 24 * unitsPerOne) with hlt | hge
  · have hc : c ≤ 2 ^ 24 := by
      have : c * unitsPerOne < (2 ^ 24 + 1) * unitsPerOne := by rw [add_one_mul]; omega
      exact Nat.lt_succ_iff.mp (Nat.lt_of_mul_lt_mul_right this)
    obtain ⟨n, hn, he⟩ := exists_magUnits_eq 149 hc
    exact ⟨n, by omega, he⟩
  · obtain ⟨d, hd⟩ := dvd_magUnits (k := 149) hge
    change magUnits m = unitsPerOne * d at hd
    rw [mul_comm] at hd
    rw [hd, ← add_one_mul] at h1 h2
    have hcd : c = d := le_antisymm (Nat.lt_succ_iff.mp (Nat.lt_of_mul_lt_mul_right h1))
      (Nat.lt_succ_iff.mp (Nat.lt_of_mul_lt_mul_right h2))
    exact ⟨m, hm, by rw [hd, hcd]⟩

/-- Rounding is exact on the integers next to a finite magnitude. -/
theorem F32.value_ofRatio_integral (neg : Bool) {m c : Nat} (hm : m < 0x7F800000)
    (h1 : c * unitsPerOne < magUnits m + unitsPerOne) (h2 : magUnits m < c * unitsPerOne + unitsPerOne) :
    (F32.ofRatio neg (c * unitsPerOne) 1).value = .fin neg (c * unitsPerOne) := by
  obtain ⟨n, hn, he⟩ := exists_magUnits_integral hm h1 h2
  have hexact := F32.ofRatio_exact neg hn Nat.one_pos
  rw [Nat.mul_one, he] at hexact
  rw [hexact, F32.value_pack neg hn, he]

/-! The floor. -/

/-- The least multiple of `p` that is not below `u`. -/
theorem ceil_mul_bounds {p : Nat} (hp : 0 < p) (u : Nat) : u ≤ (u + (p - 1)) / p * p ∧ (u + (p - 1)) / p * p < u + p := by
  have h1 := Nat.div_mul_le_self (u + (p - 1)) p
  have h2 := Nat.lt_div_mul_add hp (a := u + (p - 1))
  omega

theorem signedUnits_false_bounds {u w p : Nat} (h1 : w ≤ u) (h2 : u < w + p) :
    signedUnits false w ≤ signedUnits false u ∧ signedUnits false u < signedUnits false w + p := by
  simp only [signedUnits_false]
  omega

theorem signedUnits_true_bounds {u w p : Nat} (h1 : u ≤ w) (h2 : w < u + p) :
    signedUnits true w ≤ signedUnits true u ∧ signedUnits true u < signedUnits true w + p := by
  simp only [signedUnits_true]
  omega

/-- Zero is its own floor, with either sign. -/
theorem signedUnits_zero_mul_bounds (s : Bool) {p : Nat} (hp : 0 < p) :
    signedUnits s (0 * p) ≤ signedUnits true 0 ∧ signedUnits true 0 < signedUnits s (0 * p) + p := by
  simpa using hp

/-- Of two multiples of `p`, one that is less than `p` above the other is at most the other. -/
theorem signedUnits_mul_le_of_lt {s t : Bool} {c d p : Nat} (h : signedUnits s (c * p) < signedUnits t (d * p) + p) :
    signedUnits s (c * p) ≤ signedUnits t (d * p) := by
  have hmul (b : Bool) (n : Nat) : signedUnits b (n * p) = signedUnits b n * p := by cases b <;> simp
  rw [hmul, hmul] at *
  rw [← add_one_mul] at h
  have := lt_of_mul_lt_mul_right h (Int.natCast_nonneg p)
  exact mul_le_mul_of_nonneg_right (Int.lt_add_one_iff.mp this) (Int.natCast_nonneg p)

/-- The floor of a finite value is the integer `c` with `c <= x < c + 1`. -/
theorem F32.value_floor {x : F32} {neg : Bool} {u : Nat} (h : x.value = .fin neg u) :
    ∃ s c, x.floor.value = .fin s (c * unitsPerOne) ∧ signedUnits s (c * unitsPerOne) ≤ signedUnits neg u ∧
      signedUnits neg u < signedUnits s (c * unitsPerOne) + unitsPerOne := by
  obtain ⟨m, hm, _, rfl⟩ := F32.value_fin h
  have hpos := unitsPerOne_pos
  unfold F32.floor
  rw [h]
  cases neg
  · have h1 := Nat.div_mul_le_self (magUnits m) unitsPerOne
    have h2 := Nat.lt_div_mul_add hpos (a := magUnits m)
    exact ⟨false, _, F32.value_ofRatio_integral false hm (lt_add_of_le_of_pos h1 hpos) h2, signedUnits_false_bounds h1 h2⟩
  · simp only
    split
    · rename_i h0
      rw [h0] at h ⊢
      cases Config.floorKeepsNegZero
      · exact ⟨false, 0, by simp [F32.value_zero], signedUnits_zero_mul_bounds false hpos⟩
      · exact ⟨true, 0, by simp [h], signedUnits_zero_mul_bounds true hpos⟩
    · obtain ⟨h1, h2⟩ := ceil_mul_bounds hpos (magUnits m)
      exact ⟨true, _, F32.value_ofRatio_integral true hm h2 (lt_add_of_le_of_pos h1 hpos), signedUnits_true_bounds h1 h2⟩

/-- No other integer lies between the floor and its argument. -/
theorem F32.le_floor {x y : F32} {neg s : Bool} {u c : Nat} (hx : x.value = .fin neg u) (hy : y.value = .fin s (c * unitsPerOne))
    (h : y.le x = true) : y.le x.floor = true := by
  obtain ⟨t, d, hf, _, hlt⟩ := F32.value_floor hx
  obtain ⟨k, l, hk, hl, hkl⟩ := (F32.le_iff _ _).mp h
  rw [F32.key_of_value hy] at hk
  rw [F32.key_of_value hx] at hl
  cases hk
  cases hl
  exact (F32.le_iff _ _).mpr ⟨_, _, F32.key_of_value hy, F32.key_of_value hf, signedUnits_mul_le_of_lt (hkl.trans_lt hlt)⟩

/-! The fraction. -/

/-- A difference of finite values that lies in [0, 1] stays there when it is rounded. -/
theorem F32.sub_inUnit {a b : F32} {sa sb : Bool} {ua ub : Nat} (ha : a.value = .fin sa ua) (hb : b.value = .fin sb ub)
    (h0 : signedUnits sb ub ≤ signedUnits sa ua) (h1 : signedUnits sa ua ≤ signedUnits sb ub + unitsPerOne) :
    F32.zero.le (a.sub b) = true ∧ (a.sub b).le F32.one = true := by
  unfold F32.sub
  rw [F32.addAs_of_fin .sub ha hb, signedUnits_xor_true]
  split
  · cases (sa && (sb ^^ true)) <;> decide +kernel
  · rw [decide_eq_false (by omega)]
    exact ⟨F32.ofRatio_nonneg Nat.one_pos (by simp), (F32.ofRatio_le Nat.one_pos F32.value_one (by simp) (by omega)).1⟩

/-- 1 is the only value that is neither above nor below it. -/
theorem F32.eq_one_of_le {y : F32} (h0 : F32.zero.le y = true) (h1 : y.le F32.one = true) (h2 : F32.one.le y = true) :
    y = F32.one := by
  obtain ⟨s, u, hv, hs, hu⟩ := F32.fin_of_le h0 h1 F32.value_one
  have hpos := unitsPerOne_pos
  obtain ⟨k, l, hk, hl, hkl⟩ := (F32.le_iff _ _).mp h2
  rw [F32.key_of_value F32.value_one] at hk
  rw [F32.key_of_value hv] at hl
  cases hk
  cases hl
  cases s
  · obtain ⟨m, hm, rfl, rfl⟩ := F32.value_fin hv
    have hone : magUnits 0x3F800000 = unitsPerOne := by decide +kernel
    have : magUnits m = magUnits 0x3F800000 := by
      rw [hone]
      exact le_antisymm hu (Int.ofNat_le.mp hkl)
    rw [magUnits_strictMono.injective this]
    rfl
  · rw [hs rfl] at hkl
    simp only [signedUnits_false, signedUnits_zero] at hkl
    omega

theorem F32.frac_inUnitOpen {x : F32} {neg : Bool} {u : Nat} (h : x.value = .fin neg u) : x.frac.inUnitOpen = true := by
  obtain ⟨s, c, hf, hle, hlt⟩ := F32.value_floor h
  obtain ⟨h0, h1⟩ := F32.sub_inUnit h hf hle hlt.le
  unfold F32.frac
  split
  · decide +kernel
  · rename_i hne
    have hlt1 : (x.sub x.floor).lt F32.one = true :=
      (F32.le_or_lt (F32.le_self_right h1) (F32.le_self_left h1)).resolve_left fun h2 => hne (F32.eq_one_of_le h0 h1 h2)
    rw [F32.inUnitOpen, h0, hlt1]
    rfl

theorem F32.value_of_isFinite {x : F32} (h : x.isFinite = true) : ∃ neg u, x.value = .fin neg u := by
  obtain ⟨neg, m, hm, rfl⟩ := (F32.isFinite_iff x).mp h
  exact ⟨neg, _, F32.value_pack neg hm⟩

/-- Settles O17: a finite value lies less than 1 above its floor, which is an integer. -/
theorem floorAndFrac : Obligations.FloorAndFrac := by
  intro x hx
  obtain ⟨neg, u, h⟩ := F32.value_of_isFinite hx
  obtain ⟨s, c, hf, hle, _⟩ := F32.value_floor h
  exact ⟨(F32.le_iff _ _).mpr ⟨_, _, F32.key_of_value hf, F32.key_of_value h, hle⟩, ⟨s, c, hf⟩,
    fun y t n hy hyx => F32.le_floor h hy hyx, F32.frac_inUnitOpen h⟩

end Sys2Proof

/-! The clamps (`00_scope.md` R10), the numerics record and the draws (R8, R12). -/

namespace Sys2Proof

theorem F32.not_le_of_lt {a b : F32} (h : a.lt b = true) : b.le a = false := by
  by_contra c
  rw [Bool.not_eq_false] at c
  rw [F32.not_lt_of_le c] at h
  cases h

theorem F32.clamp_of_lt_low {x lo : F32} (h : x.lt lo = true) (hi : F32) : x.clamp lo hi = lo := by
  unfold F32.clamp
  rw [F32.not_le_of_lt h]
  rfl

theorem F32.clamp_of_high_lt {x lo hi : F32} (hlo : lo.le hi = true) (h : hi.lt x = true) : x.clamp lo hi = hi := by
  unfold F32.clamp
  rw [F32.le_trans hlo (F32.le_of_lt h), h]
  rfl

theorem F32.between_iff (lo hi x : F32) : F32.between lo hi x = true ↔ lo.le x = true ∧ x.le hi = true := by
  rw [F32.between, Bool.and_eq_true]

/-- Settles O16, by the position of the value among the bounds. -/
theorem clampAndSan : Obligations.ClampAndSan := by
  refine ⟨fun x lo hi h => ⟨(F32.between_iff _ _ _).mpr (F32.clamp_mem x h), fun hn => ?_, fun hl => ?_, fun hb => ?_, fun hg => ?_⟩,
    fun _ => rfl, fun n hi => ?_⟩
  · exact F32.clamp_of_nan ((F32.isNaN_iff x).mp hn) lo hi
  · exact F32.clamp_of_lt_low hl hi
  · obtain ⟨h1, h2⟩ := (F32.between_iff _ _ _).mp hb
    exact F32.clamp_of_mem h1 h2
  · exact F32.clamp_of_high_lt h hg
  · exact Nat.min_def

/-! What the free values are forced into. -/

theorem boundedRaw_bounded {x : F32} (hx : x.isFinite = true) (r : F32) :
    (boundedRaw x r).isFinite = true ∧ (boundedRaw x r).abs.le F32.one = true := by
  unfold boundedRaw
  split
  · rename_i h
    simpa [hx] using h
  · decide +kernel

theorem nonNegRaw_nonneg {x : F32} (hx : x.isFinite = true) (r : F32) :
    (nonNegRaw x r).isFinite = true ∧ F32.zero.le (nonNegRaw x r) = true := by
  unfold nonNegRaw
  split
  · rename_i h
    simpa [hx] using h
  · decide +kernel

theorem Num.sin_bounded {x : F32} (hx : x.isFinite = true) :
    (Num.sin x).isFinite = true ∧ (Num.sin x).abs.le F32.one = true := by
  unfold Num.sin
  split
  · decide +kernel
  · exact boundedRaw_bounded hx _

theorem Num.cos_bounded {x : F32} (hx : x.isFinite = true) :
    (Num.cos x).isFinite = true ∧ (Num.cos x).abs.le F32.one = true := by
  unfold Num.cos
  split
  · decide +kernel
  · exact boundedRaw_bounded hx _

theorem Num.tan_isFinite {x : F32} (hx : x.isFinite = true) : (Num.tan x).isFinite = true := by
  unfold Num.tan
  split
  · decide +kernel
  · split
    · rename_i h
      simpa [hx] using h
    · decide +kernel

theorem Num.exp_nonneg {x : F32} (hx : x.isFinite = true) : (Num.exp x).isFinite = true ∧ F32.zero.le (Num.exp x) = true := by
  unfold Num.exp
  split
  · decide +kernel
  · split
    · decide +kernel
    · exact nonNegRaw_nonneg hx _

/-- P7, for minus infinity too. -/
theorem Num.exp_le_one {x : F32} (h : x.le F32.zero = true) : (Num.exp x).le F32.one = true := by
  unfold Num.exp
  split
  · decide +kernel
  · split
    · decide +kernel
    · rename_i hc
      simpa [h] using hc

/-! The exact powers of two (P4). -/

theorem exactPower_of_integral {x : F32} {neg : Bool} {n : Nat} (hx : x.value = .fin neg (n * unitsPerOne))
    (hn : if neg then n ≤ 126 else n ≤ 127) : exactPower x = some (if neg then 127 - n else 127 + n) := by
  unfold exactPower
  rw [hx]
  simp only [Nat.mul_mod_left, if_true, Nat.mul_div_cancel n unitsPerOne_pos]
  cases neg <;> simpa using hn

theorem exactPower_bounds {x : F32} {e : Nat} (h : exactPower x = some e) : 1 ≤ e ∧ e ≤ 254 := by
  unfold exactPower at h
  split at h
  · rename_i neg u _
    generalize u / unitsPerOne = n at h
    cases neg <;> simp at h <;> omega
  · cases h

/-- A magnitude with fraction 0 is a power of two. -/
theorem F32.value_pack_power {e : Nat} (h1 : 1 ≤ e) (h2 : e ≤ 254) :
    (F32.pack false (e * 2 ^ 23)).value = .fin false (2 ^ (22 + e)) := by
  obtain ⟨k, rfl⟩ : ∃ k, e = k + 1 := ⟨e - 1, by omega⟩
  rw [F32.value_pack false (by omega), add_one_mul, magUnits_scaled k (2 ^ 23) (by norm_num) (Or.inr le_rfl), ← pow_add]
  congr 2
  omega

theorem Num.exp2_of_exactPower {x : F32} {e : Nat} (h : exactPower x = some e) : Num.exp2 x = F32.pack false (e * 2 ^ 23) := by
  unfold Num.exp2
  rw [h]

theorem Num.exp2_of_integral {x : F32} {neg : Bool} {n : Nat} (hx : x.value = .fin neg (n * unitsPerOne))
    (hn : if neg then n ≤ 126 else n ≤ 127) :
    (Num.exp2 x).value = .fin false (if neg then 2 ^ (149 - n) else 2 ^ (149 + n)) := by
  rw [Num.exp2_of_exactPower (exactPower_of_integral hx hn)]
  cases neg
  · have hn' : n ≤ 127 := by simpa using hn
    simp only [Bool.false_eq_true, if_false]
    rw [F32.value_pack_power (by omega) (by omega)]
    congr 2
    omega
  · have hn' : n ≤ 126 := by simpa using hn
    simp only [if_true]
    rw [F32.value_pack_power (by omega) (by omega)]
    congr 2
    omega

theorem Num.exp2_nonneg {x : F32} (hx : x.isFinite = true) : (Num.exp2 x).isFinite = true ∧ F32.zero.le (Num.exp2 x) = true := by
  cases h : exactPower x with
  | some e =>
    obtain ⟨h1, h2⟩ := exactPower_bounds h
    rw [Num.exp2_of_exactPower h]
    exact ⟨F32.isFinite_pack false (by omega), F32.nonneg_of_value (F32.value_pack_power h1 h2) (by simp)⟩
  | none =>
    unfold Num.exp2
    rw [h]
    exact nonNegRaw_nonneg hx _

/-- Settles O15: each function of `NUM` is forced into its properties, and each draw into [0, 1). -/
theorem numAndDrawsAdmissible : Obligations.NumAndDrawsAdmissible := by
  refine ⟨⟨if_pos rfl, if_pos rfl, if_pos (by decide +kernel), if_pos (by decide +kernel), if_pos rfl⟩,
    fun x neg n hx hn => Num.exp2_of_integral hx hn, fun x hx => ?_, fun x h => Num.exp_le_one h,
    fun k => Machine.isDraw_unitRaw (Config.randRaw k)⟩
  obtain ⟨hsin, hsin1⟩ := Num.sin_bounded hx
  obtain ⟨hcos, hcos1⟩ := Num.cos_bounded hx
  obtain ⟨hexp, hexp0⟩ := Num.exp_nonneg hx
  obtain ⟨hexp2, hexp20⟩ := Num.exp2_nonneg hx
  exact ⟨hsin, hcos, Num.tan_isFinite hx, hexp, hexp2, hsin1, hcos1, hexp0, hexp20⟩

end Sys2Proof

/-! The header checks (`30_encoding.md` R144, R145, R146, R148): the table `instrRow` against the columns of `WellFormed.lean`. -/

namespace Sys2Proof

/-- The header checks pass exactly if none of them finds a fault. -/
theorem headerFault_eq_none_iff (cfg : Config.Params) (i : Instr) :
    headerFault cfg i = none ↔ i.ops.length = (instrRow i).len ∧ argAccepted (instrRow i).argUse i.arg = true ∧
      vidZeroAccepted (instrRow i).vidUse i.vid i.arg = true ∧ vidVoiceAccepted cfg (instrRow i).vidUse i.vid i.arg = true := by
  simp only [headerFault]
  split
  · rename_i hlen
    simp [hlen]
  · rename_i hlen
    rw [ne_eq, not_not] at hlen
    split
    · rename_i harg
      rw [Bool.not_eq_true', Bool.and_eq_false_iff] at harg
      rcases harg with h | h <;> simp [h]
    · rename_i harg
      rw [Bool.not_eq_true', Bool.not_eq_false, Bool.and_eq_true] at harg
      obtain ⟨h1, h2⟩ := harg
      cases h3 : vidVoiceAccepted cfg (instrRow i).vidUse i.vid i.arg <;> simp [hlen, h1, h2]

theorem instrRow_len (i : Instr) : (instrRow i).len = i.lenRequired := by cases i <;> rfl

/-- Bits 7:1 of `ARG` are 0. -/
theorem bit0_accepted : ∀ arg : Byte, (arg &&& 0xFE == 0) = decide (arg.toNat < 2) := by decide +kernel

/-- Bits 3:1 of `ARG` are 0. -/
theorem oscWave_accepted : ∀ arg : Byte, (arg &&& 0x0E == 0) = decide (arg.toNat % 16 < 2) := by decide +kernel

theorem argAccepted_instrRow (i : Instr) : argAccepted (instrRow i).argUse i.arg = i.argOk := by
  cases i
  case vStop | oscSetfreq | oscReset | oscNext | envSetparams | envNoteon | envNoteoff | envNext => exact bit0_accepted _
  case oscSetwave => exact oscWave_accepted _
  all_goals rfl

/-- The use of `VID` by a command that is not `PEEK`. -/
theorem vidUse_instrRow {i : Instr} (h : ∀ vid arg ops, i ≠ .peek vid arg ops) :
    (instrRow i).vidUse = if i.onVoice then .perVoice else .global := by
  cases i
  case peek vid arg ops => exact absurd rfl (h vid arg ops)
  all_goals rfl

theorem vidOk_of_ne_peek (cfg : Config.Params) {i : Instr} (h : ∀ vid arg ops, i ≠ .peek vid arg ops) :
    i.vidOk cfg = if i.onVoice then decide (i.vid.toNat < cfg.nv) else i.vid == 0 := by
  cases i
  case peek vid arg ops => exact absurd rfl (h vid arg ops)
  all_goals rfl


/-- The two checks on `VID` together. -/
theorem vidAccepted_instrRow (cfg : Config.Params) (i : Instr) :
    (vidZeroAccepted (instrRow i).vidUse i.vid i.arg && vidVoiceAccepted cfg (instrRow i).vidUse i.vid i.arg) = i.vidOk cfg := by
  by_cases h : ∃ vid arg ops, i = .peek vid arg ops
  · obtain ⟨vid, arg, ops, rfl⟩ := h
    simp only [instrRow, vidZeroAccepted, vidVoiceAccepted, Instr.vidOk, Instr.vid, Instr.arg]
    cases spacePerVoice arg.toNat
    · rw [Bool.false_or, Bool.not_false, Bool.true_or, Bool.and_true]
      rfl
    · rw [Bool.true_or, Bool.true_or, Bool.true_and]
      rfl
  · have hne : ∀ vid arg ops, i ≠ .peek vid arg ops := fun vid arg ops e => h ⟨vid, arg, ops, e⟩
    rw [vidUse_instrRow hne, vidOk_of_ne_peek cfg hne]
    cases i.onVoice <;> simp [vidZeroAccepted, vidVoiceAccepted]

/-- Settles O5: the table asks for the same `LEN`, and its checks on `ARG` and on `VID` are those of `WellFormed.lean`. -/
theorem wellFormedIffChecksPass : Obligations.WellFormedIffChecksPass := by
  intro cfg i
  rw [headerFault_eq_none_iff, instrRow_len, argAccepted_instrRow, ← Bool.and_eq_true, vidAccepted_instrRow, Instr.wellFormed]
  simp only [Bool.and_eq_true, decide_eq_true_eq, and_assoc]

end Sys2Proof

/-! What a command can do, over all commands at once (`10_state.md` R32, R34, R63, `20_memory.md` R101): one case per group of commands
that write the same registers. -/

namespace Sys2Proof.Machine

variable {cfg : Config.Params}

/-- The commands that start a voice. -/
def startsVoice (i : Instr) : Prop := (∃ vid arg ops, i = .vStart vid arg ops) ∨ ∃ vid arg ops, i = .noteon vid arg ops

/-- The commands that render. -/
def rendersVoice (i : Instr) : Prop := (∃ vid arg ops, i = .vRender vid arg ops) ∨ ∃ vid arg ops, i = .render vid arg ops

/-- The commands on one unit that draw. -/
def drawsInUnit (i : Instr) : Prop := (∃ vid arg ops, i = .ksTrigger vid arg ops) ∨ ∃ vid arg ops, i = .grProc vid arg ops

/-- `t` is `s` but for its voices, whose wavetable phases are the same, its draws, and response words after those of `s`. -/
structure UnitsRan (s t : State cfg) : Prop where
  phase : ∀ w, (t.voice w).wt.phase = (s.voice w).wt.phase
  rest : ∃ vs k r, t = { s with voices := vs, rngIdx := k, rsp := r }
  rsp : ∃ l, t.rsp = s.rsp ++ l

theorem UnitsRan.refl (s : State cfg) : UnitsRan s s := ⟨fun _ => rfl, ⟨_, _, _, rfl⟩, [], (List.append_nil _).symm⟩

theorem UnitsRan.updVoice {s : State cfg} {v : Fin cfg.nv} {f : Voice cfg → Voice cfg} (hf : ∀ x, (f x).wt.phase = x.wt.phase) :
    UnitsRan s (s.updVoice v f) := by
  refine ⟨fun w => ?_, ⟨_, _, _, rfl⟩, [], (List.append_nil _).symm⟩
  by_cases e : w = v
  · rw [e, State.voice_updVoice_self, hf]
  · rw [State.voice_updVoice_ne s v f e]

theorem UnitsRan.updVoices {s : State cfg} {f : Voice cfg → Voice cfg} (hf : ∀ x, (f x).wt.phase = x.wt.phase) :
    UnitsRan s (s.updVoices f) :=
  ⟨fun w => by rw [State.voice_updVoices, hf], ⟨_, _, _, rfl⟩, [], (List.append_nil _).symm⟩

theorem UnitsRan.setRng {s t : State cfg} (h : UnitsRan s t) {k : Word} : UnitsRan s (t.setRng k) := by
  obtain ⟨hp, ⟨vs, j, r, rfl⟩, hr⟩ := h
  exact ⟨hp, ⟨_, _, _, rfl⟩, hr⟩

theorem UnitsRan.push {s t : State cfg} (h : UnitsRan s t) {w : Word} : UnitsRan s (t.push w) := by
  obtain ⟨hp, ⟨vs, j, r, rfl⟩, l, hl⟩ := h
  exact ⟨hp, ⟨_, _, _, rfl⟩, l ++ [w], by rw [State.push_rsp, hl, List.append_assoc]⟩

theorem UnitsRan.pushF {s t : State cfg} (h : UnitsRan s t) {x : F32} : UnitsRan s (t.pushF x) := h.push

/-- The state after a command `i` that ran in `s` and answers a next state. -/
inductive Effect (i : Instr) (s : State cfg) : State cfg → Prop
  | fault (f : FaultCode) : Effect i s (s.raise f (instrHeader i))
  | clear (hi : ∃ vid arg ops, i = .clrerr vid arg ops) : Effect i s s.clearFault
  | prepare (hi : ∃ vid arg ops, i = .prepare vid arg ops) (r : F32) (n : Nat) : Effect i s (s.prepare r n)
  | cell (hi : ∃ vid arg ops, i = .wrparam vid arg ops) (c : Nat) (w : Word) : Effect i s (s.setCell c w)
  | start (hi : startsVoice i) (v : Fin cfg.nv) (n : Nat) (x : F32) : Effect i s (s.startVoice v n x)
  | render (hi : rendersVoice i) (hr : s.ready = true) (l : List (Fin cfg.nv)) (n : Nat) :
      Effect i s (l.foldl (fun t v => t.renderVoice v n) s)
  | draws (hi : drawsInUnit i) {t : State cfg} (h : UnitsRan s t) : Effect i s t
  | units {t : State cfg} (h : UnitsRan s t) (hk : t.rngIdx = s.rngIdx) : Effect i s t

/-- What a lemma of `Laws/Exec.lean` says of a command on a voice. -/
theorem Effect.of_voice {i : Instr} {s t : State cfg} {vid : Byte} {g : Fin cfg.nv → State cfg}
    (h : (∃ f, t = s.raise f (instrHeader i)) ∨ ∃ v, vid = vidOf v ∧ firstFault i s = none ∧ t = g v)
    (hg : ∀ v, Effect i s (g v)) : Effect i s t := by
  rcases h with ⟨f, rfl⟩ | ⟨v, _, _, rfl⟩
  · exact .fault f
  · exact hg v

/-- The same of a command that names no voice. -/
theorem Effect.of_global {i : Instr} {s t u : State cfg} (h : (∃ f, t = s.raise f (instrHeader i)) ∨ firstFault i s = none ∧ t = u)
    (hu : Effect i s u) : Effect i s t := by
  rcases h with ⟨f, rfl⟩ | ⟨_, rfl⟩
  · exact .fault f
  · exact hu

/-! Updates of a voice that leave the wavetable registers alone. -/

theorem setEnv_wt (x : Voice cfg) (k : Bool) (e : Env) : (setEnv x k e).wt = x.wt := by cases k <;> rfl

theorem voiceStop_wt (sr : F32) (k : Bool) (x : Voice cfg) : (voiceStop sr k x).wt = x.wt := by
  rcases voiceStop_cases sr k x with h | ⟨_, _, h⟩ | ⟨_, _, _, h⟩ <;> rw [h]

theorem voiceNoteOff_wt (sr : F32) (n : Nat) (x : Voice cfg) : (voiceNoteOff sr n x).wt = x.wt := by
  unfold voiceNoteOff
  split
  · exact voiceStop_wt sr true x
  · rfl

/-- Every command has one of the effects. -/
theorem execAt_effect {i : Instr} {s t : State cfg} (h : execAt i s = .next t) : Effect i s t := by
  cases i with
  | nop vid arg ops => exact .of_global (execNop_next h) (.units (.refl s) rfl)
  | prepare vid arg ops => exact .of_global (execPrepare_next h) (.prepare ⟨vid, arg, ops, rfl⟩ _ _)
  | clrerr vid arg ops => exact .of_global (execClrerr_next h) (.clear ⟨vid, arg, ops, rfl⟩)
  | peek vid arg ops =>
    rcases execPeek_next h with ⟨f, rfl⟩ | ⟨_, _, rfl⟩
    · exact .fault f
    · exact .units (.push (.refl s)) rfl
  | wrparam vid arg ops => exact .of_global (execWrparam_next h) (.cell ⟨vid, arg, ops, rfl⟩ _ _)
  | setglobal vid arg ops => exact .of_global (execSetglobal_next h) (.units (.updVoices fun _ => rfl) rfl)
  | noteon vid arg ops => exact .of_global (execNoteon_next h) (.start (.inr ⟨vid, arg, ops, rfl⟩) _ _ _)
  | noteoff vid arg ops =>
    exact .of_global (execNoteoff_next h) (.units (.updVoices fun x => congrArg _ (voiceNoteOff_wt _ _ x)) rfl)
  | render vid arg ops =>
    rcases execRender_next h with ⟨f, rfl⟩ | ⟨ha, _, _, rfl⟩
    · exact .fault f
    · exact .render (.inr ⟨vid, arg, ops, rfl⟩) (ready_of_firstFault ha rfl) _ _
  | vStart vid arg ops => exact .of_voice (execVStart_next h) fun v => .start (.inl ⟨vid, arg, ops, rfl⟩) v _ _
  | vStop vid arg ops =>
    exact .of_voice (execVStop_next h) fun v => .units (.updVoice fun x => congrArg _ (voiceStop_wt _ _ x)) rfl
  | vRender vid arg ops =>
    rcases execVRender_next h with ⟨f, rfl⟩ | ⟨v, _, ha, _, _, rfl⟩
    · exact .fault f
    · exact .render (.inl ⟨vid, arg, ops, rfl⟩) (ready_of_firstFault ha rfl) [v] _
  | vSetmode vid arg ops => exact .of_voice (execVSetmode_next h) fun v => .units (.updVoice fun _ => rfl) rfl
  | vSetrings vid arg ops => exact .of_voice (execVSetrings_next h) fun v => .units (.updVoice fun _ => rfl) rfl
  | vSetclouds vid arg ops => exact .of_voice (execVSetclouds_next h) fun v => .units (.updVoice fun _ => rfl) rfl
  | vSetwt vid arg ops => exact .of_voice (execVSetwt_next h) fun v => .units (.updVoice fun _ => rfl) rfl
  | vSetmix vid arg ops => exact .of_voice (execVSetmix_next h) fun v => .units (.updVoice fun _ => rfl) rfl
  | vSetenv vid arg ops => exact .of_voice (execVSetenv_next h) fun v => .units (.updVoice fun _ => rfl) rfl
  | vSetfilt vid arg ops => exact .of_voice (execVSetfilt_next h) fun v => .units (.updVoice fun _ => rfl) rfl
  | vSetosc vid arg ops => exact .of_voice (execVSetosc_next h) fun v => .units (.updVoice fun _ => rfl) rfl
  | mrSetparams vid arg ops => exact .of_voice (execMrSetparams_next h) fun v => .units (.updVoice fun _ => rfl) rfl
  | mrTrigger vid arg ops => exact .of_voice (execMrTrigger_next h) fun v => .units (.updVoice fun _ => rfl) rfl
  | mrProc vid arg ops =>
    exact .of_voice (execMrProc_next h) fun v => .units (.pushF (.updVoice fun _ => by rfl)) rfl
  | grWrite vid arg ops => exact .of_voice (execGrWrite_next h) fun v => .units (.updVoice fun _ => rfl) rfl
  | grProc vid arg ops =>
    rcases execGrProc_next h with ⟨f, rfl⟩ | ⟨v, _, _, rfl⟩
    · exact .fault f
    · exact .draws (.inr ⟨vid, arg, ops, rfl⟩) (.pushF (.pushF (.setRng (.updVoice fun _ => by rfl))))
  | ksSetfreq vid arg ops => exact .of_voice (execKsSetfreq_next h) fun v => .units (.updVoice fun _ => rfl) rfl
  | ksTrigger vid arg ops =>
    exact .of_voice (execKsTrigger_next h) fun v =>
      .draws (.inl ⟨vid, arg, ops, rfl⟩) (.setRng (.updVoice fun _ => by rfl))
  | ksGet vid arg ops =>
    exact .of_voice (execKsGet_next h) fun v => .units (.pushF (.updVoice fun _ => by rfl)) rfl
  | wtGet vid arg ops => exact .of_global (execWtGet_next h) (.units (.pushF (.refl s)) rfl)
  | oscSetfreq vid arg ops => exact .of_voice (execOscSetfreq_next h) fun v => .units (.updVoice fun _ => rfl) rfl
  | oscSetwave vid arg ops => exact .of_voice (execOscSetwave_next h) fun v => .units (.updVoice fun _ => rfl) rfl
  | oscReset vid arg ops => exact .of_voice (execOscReset_next h) fun v => .units (.updVoice fun _ => rfl) rfl
  | oscNext vid arg ops =>
    exact .of_voice (execOscNext_next h) fun v => .units (.pushF (.updVoice fun _ => by rfl)) rfl
  | envSetparams vid arg ops =>
    exact .of_voice (execEnvSetparams_next h) fun v => .units (.updVoice fun x => congrArg _ (setEnv_wt x _ _)) rfl
  | envNoteon vid arg ops =>
    exact .of_voice (execEnvNoteon_next h) fun v => .units (.updVoice fun x => congrArg _ (setEnv_wt x _ _)) rfl
  | envNoteoff vid arg ops =>
    exact .of_voice (execEnvNoteoff_next h) fun v => .units (.updVoice fun x => congrArg _ (setEnv_wt x _ _)) rfl
  | envNext vid arg ops =>
    exact .of_voice (execEnvNext_next h) fun v =>
      .units (.pushF (.updVoice fun x => congrArg _ (setEnv_wt x _ _))) rfl
  | fltProc vid arg ops =>
    exact .of_voice (execFltProc_next h) fun v => .units (.pushF (.pushF (.updVoice fun _ => by rfl))) rfl
  | fltReset vid arg ops => exact .of_voice (execFltReset_next h) fun v => .units (.updVoice fun _ => rfl) rfl

theorem exec_effect {i : Instr} {s t : State} (h : exec i s = .next t) : Effect i s t :=
  execAt_effect ((execAt_eq_exec i s).trans h)

/-- `t` is `s` but for its voices, its draws and the output buffer. -/
def Rendered (s t : State cfg) : Prop := ∃ vs k L R, t = { s with voices := vs, rngIdx := k, outL := L, outR := R }

theorem rendered_renderAll (l : List (Fin cfg.nv)) (n : Nat) (s : State cfg) :
    Rendered s (l.foldl (fun t v => t.renderVoice v n) s) := by
  refine renderAll_induction (P := Rendered s) ⟨_, _, _, _, rfl⟩ (fun t v _ ht => renderLoop_induction (P := Rendered s) ht ?_ ?_) l
  · rintro _ k _ _ ⟨vs, m, L, R, rfl⟩
    exact ⟨_, _, _, _, rfl⟩
  · rintro _ ⟨vs, m, L, R, rfl⟩
    exact ⟨_, _, _, _, rfl⟩

/-! Which effects write a register, one register or group after the other. -/

theorem Effect.faultRecord {i : Instr} {s t : State cfg} (e : Effect i s t) :
    (t.err = s.err ∧ t.errInfo = s.errInfo ∧ t.errCnt = s.errCnt) ∨ (∃ vid arg ops, i = .clrerr vid arg ops) ∨
      ∃ code, t = s.faulted code (instrHeader i) := by
  cases e with
  | fault f => exact .inr (.inr ⟨faultCode f, rfl⟩)
  | clear hi => exact .inr (.inl hi)
  | render _ _ l n =>
    obtain ⟨_, _, _, _, e⟩ := rendered_renderAll l n s
    rw [e]
    exact .inl ⟨rfl, rfl, rfl⟩
  | draws _ h | units h =>
    obtain ⟨_, _, _, rfl⟩ := h.rest
    exact .inl ⟨rfl, rfl, rfl⟩
  | prepare | cell | start => exact .inl ⟨rfl, rfl, rfl⟩

theorem UnitsRan.sameConfig {s t : State cfg} (h : UnitsRan s t) : sameConfig s t := by
  obtain ⟨_, _, _, rfl⟩ := h.rest
  exact .refl s

theorem Effect.sameConfig {i : Instr} {s t : State cfg} (e : Effect i s t) (hi : ¬∃ vid arg ops, i = .prepare vid arg ops) :
    sameConfig s t := by
  cases e with
  | prepare h => exact absurd h hi
  | render _ _ l n =>
    obtain ⟨_, _, _, _, e⟩ := rendered_renderAll l n s
    rw [e]
    exact .refl s
  | draws _ h | units h => exact h.sameConfig
  | fault | clear | cell | start => exact .refl s

theorem Effect.noteSeq {i : Instr} {s t : State cfg} (e : Effect i s t) (hi : ¬∃ vid arg ops, i = .prepare vid arg ops)
    (hs : ¬startsVoice i) : t.noteSeq = s.noteSeq := by
  cases e with
  | prepare h => exact absurd h hi
  | start h => exact absurd h hs
  | render _ _ l n =>
    obtain ⟨_, _, _, _, e⟩ := rendered_renderAll l n s
    rw [e]
  | draws _ h | units h =>
    obtain ⟨_, _, _, rfl⟩ := h.rest
    rfl
  | fault | clear | cell => rfl

theorem Effect.rngIdx {i : Instr} {s t : State cfg} (e : Effect i s t) (hs : ¬startsVoice i) (hr : ¬rendersVoice i)
    (hd : ¬drawsInUnit i) : t.rngIdx = s.rngIdx := by
  cases e with
  | start h => exact absurd h hs
  | render h => exact absurd h hr
  | draws h => exact absurd h hd
  | units _ hk => exact hk
  | fault | clear | prepare | cell => rfl

theorem Effect.params {i : Instr} {s t : State cfg} (e : Effect i s t) (hi : ∀ vid arg ops, i ≠ .wrparam vid arg ops) :
    t.params = s.params := by
  cases e with
  | cell h =>
    obtain ⟨vid, arg, ops, h⟩ := h
    exact absurd h (hi vid arg ops)
  | render _ _ l n =>
    obtain ⟨_, _, _, _, e⟩ := rendered_renderAll l n s
    rw [e]
  | draws _ h | units h =>
    obtain ⟨_, _, _, rfl⟩ := h.rest
    rfl
  | fault | clear | prepare | start => rfl

theorem Effect.out {i : Instr} {s t : State cfg} (e : Effect i s t) (hr : ¬rendersVoice i) :
    t.outL = s.outL ∧ t.outR = s.outR := by
  cases e with
  | render h => exact absurd h hr
  | draws _ h | units h =>
    obtain ⟨_, _, _, rfl⟩ := h.rest
    exact ⟨rfl, rfl⟩
  | fault | clear | prepare | cell | start => exact ⟨rfl, rfl⟩

theorem Effect.cmd_port {i : Instr} {s t : State cfg} (e : Effect i s t) : t.cmd = s.cmd ∧ t.port = s.port := by
  cases e with
  | render _ _ l n =>
    obtain ⟨_, _, _, _, e⟩ := rendered_renderAll l n s
    rw [e]
    exact ⟨rfl, rfl⟩
  | draws _ h | units h =>
    obtain ⟨_, _, _, rfl⟩ := h.rest
    exact ⟨rfl, rfl⟩
  | fault | clear | prepare | cell | start => exact ⟨rfl, rfl⟩

theorem Effect.rsp {i : Instr} {s t : State cfg} (e : Effect i s t) : ∃ l, t.rsp = s.rsp ++ l := by
  cases e with
  | render _ _ l n =>
    obtain ⟨_, _, _, _, e⟩ := rendered_renderAll l n s
    rw [e]
    exact ⟨[], (List.append_nil _).symm⟩
  | draws _ h | units h => exact h.rsp
  | fault | clear | prepare | cell | start => exact ⟨[], (List.append_nil _).symm⟩

/-- Settles O51: every command has one of eight effects, and each clause excludes those that write its register. -/
theorem registersWrittenOnlyBy : Obligations.RegistersWrittenOnlyBy := by
  intro i s t h
  have e := exec_effect h
  intro isPrepare isStart isRender draws
  refine ⟨e.faultRecord, e.sameConfig, e.noteSeq, fun hd => e.rngIdx (fun hs => hd (.inl hs)) (fun hr => hd (.inr (.inl hr)))
    fun hu => hd (.inr (.inr hu)), e.params, e.out, e.cmd_port.1, e.cmd_port.2, e.rsp⟩

end Sys2Proof.Machine

/-! The step (`10_state.md` R75). -/

namespace Sys2Proof.Machine

variable {cfg : Config.Params}

/-- A command that leaves no host access pending ends as it is. -/
theorem finish_of_port_nil {o : Out cfg} (h : ∀ t, o = .next t → t.port = []) : finish o = o := by
  cases o with
  | next t => exact congrArg Host.Outcome.next (State.landAfter_of_port_nil (h t rfl))
  | fault f => rfl
  | refused r => rfl

theorem step_of_command {s : State} {i : Instr} {rest : List Word} (h : decode s.cmd = .command i rest) :
    step s = finish (exec i (s.begin rest)) := by
  unfold step stepBy
  rw [h]

/-- Settles O9: no command adds a host access, so with none pending nothing lands before the command or after it. -/
theorem stepRunsDecodedCommand : Obligations.StepRunsDecodedCommand := by
  intro s i rest h
  have hstep := step_of_command h
  refine ⟨hstep, fun hp => ?_⟩
  rw [hstep, State.begin_of_port_nil hp]
  exact finish_of_port_nil fun t ht => (exec_effect ht).cmd_port.2.trans hp

end Sys2Proof.Machine

/-! Phase accumulators (`40_basic_oscillator.md` R185, `44_wavetable_engine.md` R277): a phase plus a finite increment that is far from
the overflow has its fraction in [0, 1). -/

namespace Sys2Proof

/-- A ratio that is at most a finite magnitude rounds to at most that magnitude, whatever its sign. -/
theorem F32.value_ofRatio_le (neg : Bool) {num den m : Nat} (hm : m < 0x7F800000) (hd : 0 < den) (h : num ≤ magUnits m * den) :
    ∃ u, (F32.ofRatio neg num den).value = .fin neg u ∧ u ≤ magUnits m := by
  have hr := roundMagnitude_le hm hd h
  exact ⟨_, F32.value_pack neg (hr.trans_lt hm), magUnits_le_iff.mpr hr⟩

theorem F32.add_isFinite {a b : F32} {sa sb : Bool} {ua ub m : Nat} (ha : a.value = .fin sa ua) (hb : b.value = .fin sb ub)
    (hm : m < 0x7F800000) (h : ua + ub ≤ magUnits m) : (a.add b).isFinite = true := by
  unfold F32.add
  rw [F32.addAs_of_fin .add ha hb]
  split
  · exact F32.isFinite_pack _ (by norm_num)
  · refine (F32.ofRatio_le Nat.one_pos (F32.value_pack false hm) (by simp) ?_).2
    cases sa <;> cases sb <;> simp only [signedUnits] <;> simp <;> omega

/-- 2^126 and 2^127 as magnitudes. -/
theorem magUnits_quarter : magUnits (253 * 2 ^ 23) = 2 ^ 126 * 2 ^ 149 := by decide +kernel

theorem magUnits_half : magUnits (254 * 2 ^ 23) = 2 ^ 127 * 2 ^ 149 := by decide +kernel

theorem F32.fin_of_inUnitOpen {p : F32} (h : p.inUnitOpen = true) : ∃ s u, p.value = .fin s u ∧ u ≤ unitsPerOne := by
  rw [F32.inUnitOpen, Bool.and_eq_true] at h
  obtain ⟨s, u, hv, _, hu⟩ := F32.fin_of_le h.1 (F32.le_of_lt h.2) F32.value_one
  exact ⟨s, u, hv, hu⟩

/-- The advance of a phase by an increment of at most 2^126. -/
theorem F32.frac_add_inUnitOpen {p d : F32} {s : Bool} {u : Nat} (hp : p.inUnitOpen = true) (hd : d.value = .fin s u)
    (hu : u ≤ 2 ^ 126 * 2 ^ 149) : (p.add d).frac.inUnitOpen = true := by
  obtain ⟨t, w, hw, hw1⟩ := F32.fin_of_inUnitOpen hp
  have hsum : w + u ≤ magUnits (254 * 2 ^ 23) := by
    rw [magUnits_half]
    rw [unitsPerOne] at hw1
    omega
  obtain ⟨n, k, hk⟩ := F32.value_of_isFinite (F32.add_isFinite hw hd (by norm_num) hsum)
  exact F32.frac_inUnitOpen hk

/-- A value at least as large as one that is not negative has at least its units. -/
theorem F32.units_le {c x : F32} {s : Bool} {v u : Nat} (hc : c.value = .fin false v) (hx : x.value = .fin s u)
    (h : c.le x = true) : v ≤ u := by
  obtain ⟨k, l, hk, hl, hkl⟩ := (F32.le_iff _ _).mp h
  rw [F32.key_of_value hc] at hk
  rw [F32.key_of_value hx] at hl
  cases hk
  cases hl
  cases s <;> simp [signedUnits] at hkl <;> omega

/-- A finite value divided by a sample rate that is legal by default is at most 2^126. -/
theorem F32.div_rate_le {f sr : F32} (hf : f.isFinite = true) (hsr : F32.between Config.srMin Config.srMax sr = true) :
    ∃ s u, (f.div sr).value = .fin s u ∧ u ≤ 2 ^ 126 * 2 ^ 149 := by
  obtain ⟨hlo, hhi⟩ := (F32.between_iff _ _ _).mp hsr
  obtain ⟨sf, m, hm, rfl⟩ := (F32.isFinite_iff f).mp hf
  have hmin : Config.srMin.value = .fin false (1000 * unitsPerOne) := by decide +kernel
  have hmax : Config.srMax.value = .fin false (192000 * unitsPerOne) := by decide +kernel
  obtain ⟨t, w, hw, _, _⟩ := F32.fin_of_le (F32.le_trans (F32.nonneg_of_value hmin (by simp)) hlo) hhi hmax
  have hw0 : 1000 * unitsPerOne ≤ w := F32.units_le hmin hw hlo
  have hpos := unitsPerOne_pos
  rw [F32.div_of_fin (F32.value_pack sf hm) hw (by omega), ← magUnits_quarter]
  refine ⟨_, F32.value_ofRatio_le _ (by norm_num) (by omega) ?_⟩
  calc magUnits m * unitsPerOne ≤ 2 ^ 128 * 2 ^ 149 * unitsPerOne :=
        Nat.mul_le_mul_right _ (magUnits_lt_infinity hm).le
    _ = 2 ^ 126 * 2 ^ 149 * (4 * unitsPerOne) := by ring
    _ ≤ magUnits (253 * 2 ^ 23) * w := by
        rw [magUnits_quarter]
        exact Nat.mul_le_mul_left _ (by omega)

end Sys2Proof

/-! The shadow registers (`10_state.md` R35, R36): each setter clamps, and everything else leaves them alone. -/

namespace Sys2Proof.Machine

variable {cfg : Config.Params}

/-! The ranges. -/

theorem between_clamp {lo hi : F32} (h : lo.le hi = true) (x : F32) : F32.between lo hi (x.clamp lo hi) = true :=
  (F32.between_iff _ _ _).mpr (F32.clamp_mem x h)

@[simp] theorem clampUnit_inUnit (x : F32) : (clampUnit x).inUnit = true := between_clamp (by decide +kernel) x

@[simp] theorem clampBipolar_between (x : F32) : F32.between F32.one.neg F32.one (clampBipolar x) = true :=
  between_clamp (by decide +kernel) x

@[simp] theorem clampPitch_between (x : F32) : F32.between (F32.ofNat 12).neg (F32.ofNat 12) (clampPitch x) = true :=
  between_clamp (by decide +kernel) x

@[simp] theorem clampDetune_between (x : F32) : F32.between (F32.ofNat 24).neg (F32.ofNat 24) (clampDetune x) = true :=
  between_clamp (by decide +kernel) x

@[simp] theorem clampWidth_between (x : F32) : F32.between (F32.dec 5 100) (F32.dec 95 100) (clampWidth x) = true :=
  between_clamp (by decide +kernel) x

@[simp] theorem clampTime_between (x : F32) : F32.between (F32.dec 1 1000) (F32.ofNat 10) (clampTime x) = true :=
  between_clamp (by decide +kernel) x

@[simp] theorem clampCutoff_between (x : F32) : F32.between (F32.ofNat 20) (F32.ofNat 20000) (clampCutoff x) = true :=
  between_clamp (by decide +kernel) x

@[simp] theorem clampQ_between (x : F32) : F32.between (F32.dec 1 10) (F32.ofNat 10) (clampQ x) = true :=
  between_clamp (by decide +kernel) x

@[simp] theorem clampFreq_between (x : F32) : F32.between F32.one (F32.ofNat 20000) (clampFreq x) = true :=
  between_clamp (by decide +kernel) x

@[simp] theorem clampInc_between (x : F32) : F32.between F32.zero (F32.dec 1 2) (clampInc x) = true :=
  between_clamp (by decide +kernel) x

/-! The units that a setter writes. -/

theorem ringsLegal_ringsSet (sr f a b c d : F32) (n : Nat) (r : Rings) : ringsLegal (ringsSet cfg sr f a b c d n r) = true := by
  simp [ringsLegal, ringsSet]

theorem cloudsLegal_cloudsSet (n : Nat) (a b d e f : F32) (c : Clouds cfg) : cloudsLegal (cloudsSet n a b d e f c) = true := by
  simp [cloudsLegal, cloudsSet]

theorem wtLegal_wtSet (m n : Nat) (a b c : F32) (t : WtRegs) : wtLegal (wtSet m n a b c t) = true := by
  simp [wtLegal, wtSet]

theorem mixLegal_mixSet (a b c d e : F32) : mixLegal (mixSet a b c d e) = true := by
  simp [mixLegal, mixSet]

theorem envLegal_envSet (a b c d : F32) (e : Env) : envLegal (envSet a b c d e) = true := by
  simp [envLegal, envSet]

theorem filtLegal_filtSet (n : Nat) (a b c : F32) (f : Filt) : filtLegal (filtSet n a b c f) = true := by
  simp [filtLegal, filtSet]

/-! What runs without a setter. -/

theorem ringsLegal_modes (r : Rings) (m : Vector Mode Config.NMODES) : ringsLegal { r with modes := m } = ringsLegal r := rfl

theorem ringsLegal_ringsTrigger (w : F32) (r : Rings) : ringsLegal (ringsTrigger w r) = ringsLegal r := rfl

theorem cloudsLegal_cloudsWrite (bufLen : Word) (l r : F32) (c : Clouds cfg) :
    cloudsLegal (cloudsWrite bufLen l r c) = cloudsLegal c := by
  unfold cloudsWrite
  split <;> rfl

theorem cloudsLegal_cloudsSpawn (sr : F32) (rng : Word) (c : Clouds cfg) :
    cloudsLegal (cloudsSpawn sr rng c).1 = cloudsLegal c := by
  unfold cloudsSpawn
  split
  · split <;> rfl
  · rfl

theorem cloudsLegal_cloudsProc (sr : F32) (bufLen rng : Word) (c : Clouds cfg) :
    cloudsLegal (cloudsProc sr bufLen rng c).clouds = cloudsLegal c :=
  cloudsLegal_cloudsSpawn sr rng c

theorem envLegal_envNoteOff (sr : F32) (e : Env) : envLegal (envNoteOff sr e) = envLegal e := by
  unfold envNoteOff
  split <;> rfl

theorem envLegal_envNext (sr : F32) (e : Env) : envLegal (envNext sr e) = envLegal e := by
  unfold envNext
  cases e.stage with
  | idle | sustain => rfl
  | attack | decay | release =>
    dsimp only
    split <;> rfl

theorem filtLegal_filtGuard (f : Filt) : filtLegal (filtGuard f) = filtLegal f := by
  unfold filtGuard
  split <;> rfl

/-! The oscillators. -/

/-- The increment of an oscillator is in [0, 0.5], its phase in [0, 1). -/
structure OscLegal (o : Osc) : Prop where
  inc : F32.between F32.zero (F32.dec 1 2) o.inc = true
  phase : o.phase.inUnitOpen = true

/-- The oscillators of a voice and their shadow registers. -/
structure OscsLegal (o : Oscs) : Prop where
  detune : F32.between (F32.ofNat 24).neg (F32.ofNat 24) o.detune = true
  mix : o.mix.inUnit = true
  pw : F32.between (F32.dec 5 100) (F32.dec 95 100) o.pw = true
  osc0 : OscLegal o.osc0
  osc1 : OscLegal o.osc1

theorem zero_inUnitOpen : F32.zero.inUnitOpen = true := by decide +kernel

theorem OscLegal.advance {o : Osc} (h : OscLegal o) : OscLegal (oscAdvance o) := by
  obtain ⟨h0, h1⟩ := (F32.between_iff _ _ _).mp h.inc
  have hv : (F32.dec 1 2).value = .fin false (2 ^ 148) := by decide +kernel
  obtain ⟨s, u, hu, _, hle⟩ := F32.fin_of_le h0 h1 hv
  exact ⟨h.inc, F32.frac_add_inUnitOpen h.phase hu (hle.trans (by norm_num))⟩

theorem OscsLegal.oscOf {o : Oscs} (h : OscsLegal o) (k : Bool) : OscLegal (oscOf o k) := by
  cases k
  · exact h.osc0
  · exact h.osc1

theorem OscsLegal.setOsc {o : Oscs} (h : OscsLegal o) (k : Bool) {x : Osc} (hx : OscLegal x) : OscsLegal (setOsc o k x) := by
  cases k
  · exact { h with osc0 := hx }
  · exact { h with osc1 := hx }

theorem OscsLegal.next {o : Oscs} (h : OscsLegal o) (k : Bool) : OscsLegal (oscNext o k).1 := h.setOsc k (h.oscOf k).advance

theorem OscsLegal.sample {o : Oscs} (h : OscsLegal o) : OscsLegal (oscSample o).1 := (h.next false).next true

theorem OscsLegal.retune {o : Oscs} (h : OscsLegal o) (sr f : F32) : OscsLegal (oscRetune sr f o) :=
  { h with osc0 := ⟨clampInc_between _, h.osc0.phase⟩, osc1 := ⟨clampInc_between _, h.osc1.phase⟩ }

theorem OscsLegal.set {o : Oscs} (h : OscsLegal o) (sr f : F32) (m n : Nat) (a b c : F32) :
    OscsLegal (oscSet sr f m n a b c o) := by
  refine OscsLegal.retune ?_ sr f
  exact ⟨clampDetune_between a, clampUnit_inUnit b, clampWidth_between c, ⟨h.osc0.inc, h.osc0.phase⟩, ⟨h.osc1.inc, h.osc1.phase⟩⟩

/-! The voice. -/

/-- The shadow registers and the oscillators of a voice hold legal values, unit by unit. -/
structure VoiceLegal (x : Voice cfg) : Prop where
  vel : x.vel.inUnit = true
  rings : ringsLegal x.rings = true
  clouds : cloudsLegal x.clouds = true
  wt : wtLegal x.wt = true
  mix : mixLegal x.mix = true
  oscs : OscsLegal x.oscs
  enva : envLegal x.enva = true
  envf : envLegal x.envf = true
  flt : filtLegal x.flt = true

theorem voiceLegal_iff (x : Voice cfg) : (voiceLegal x && voicePhasesOk x) = true ↔ VoiceLegal x := by
  simp only [voiceLegal, voicePhasesOk, oscsLegal, Bool.and_eq_true]
  constructor
  · rintro ⟨⟨⟨⟨⟨⟨⟨⟨⟨hv, hr⟩, hc⟩, hw⟩, hm⟩, ⟨⟨⟨⟨hd, hx⟩, hp⟩, i0⟩, i1⟩⟩, ha⟩, hf⟩, hl⟩, p0, p1⟩
    exact ⟨hv, hr, hc, hw, hm, ⟨hd, hx, hp, ⟨i0, p0⟩, ⟨i1, p1⟩⟩, ha, hf, hl⟩
  · rintro ⟨hv, hr, hc, hw, hm, ⟨hd, hx, hp, ⟨i0, p0⟩, ⟨i1, p1⟩⟩, ha, hf, hl⟩
    exact ⟨⟨⟨⟨⟨⟨⟨⟨⟨hv, hr⟩, hc⟩, hw⟩, hm⟩, ⟨⟨⟨⟨hd, hx⟩, hp⟩, i0⟩, i1⟩⟩, ha⟩, hf⟩, hl⟩, p0, p1⟩

theorem VoiceLegal.updOsc {x : Voice cfg} (h : VoiceLegal x) (k : Bool) {f : Osc → Osc} (hf : ∀ o, OscLegal o → OscLegal (f o)) :
    VoiceLegal (updOsc x k f) :=
  { h with oscs := h.oscs.setOsc k (hf _ (h.oscs.oscOf k)) }

theorem VoiceLegal.setEnv {x : Voice cfg} (h : VoiceLegal x) (k : Bool) {e : Env} (he : envLegal e = true) :
    VoiceLegal (setEnv x k e) := by
  cases k
  · exact { h with enva := he }
  · exact { h with envf := he }

theorem VoiceLegal.envOf {x : Voice cfg} (h : VoiceLegal x) (k : Bool) : envLegal (envOf x k) = true := by
  cases k
  · exact h.enva
  · exact h.envf

theorem resetOscs_legal : OscsLegal resetOscs := by
  refine ⟨?_, ?_, ?_, ⟨?_, ?_⟩, ⟨?_, ?_⟩⟩ <;> decide +kernel

theorem cloudsLegal_resetClouds : cloudsLegal (resetClouds cfg) = true := by
  simp only [cloudsLegal, resetClouds]
  decide +kernel

/-- `PREPARE` leaves the shadow registers at their defaults, which are in range. -/
theorem preparedVoice_legal (sr : F32) : VoiceLegal (preparedVoice cfg sr) where
  vel := show F32.zero.inUnit = true by decide +kernel
  rings := (ringsLegal_modes resetRings _).trans (by decide +kernel)
  clouds := cloudsLegal_resetClouds
  wt := show wtLegal resetWt = true by decide +kernel
  mix := show mixLegal resetMix = true by decide +kernel
  oscs := resetOscs_legal.retune sr _
  enva := show envLegal resetEnvA = true by decide +kernel
  envf := show envLegal resetEnvF = true by decide +kernel
  flt := show filtLegal resetFilt = true by decide +kernel

theorem VoiceLegal.start {x : Voice cfg} (h : VoiceLegal x) (sr : F32) (seq rng : Word) (n : Nat) (w : F32) :
    VoiceLegal (voiceStart sr seq rng n w x) :=
  { h with
    vel := clampUnit_inUnit w
    rings := (ringsLegal_ringsTrigger _ _).trans (ringsLegal_ringsSet _ _ _ _ _ _ _ _)
    oscs := h.oscs.retune sr _ }

theorem VoiceLegal.stop {x : Voice cfg} (h : VoiceLegal x) (sr : F32) (k : Bool) : VoiceLegal (voiceStop sr k x) := by
  rcases voiceStop_cases sr k x with e | ⟨_, _, e⟩ | ⟨_, _, _, e⟩
  · rw [e]
    exact h
  · rw [e]
    exact { h with enva := (envLegal_envNoteOff sr _).trans h.enva, envf := (envLegal_envNoteOff sr _).trans h.envf }
  · rw [e]
    exact { h with }

/-! The engine graphs (`46_voice.md` R337). -/

/-- What every generator keeps of a voice, every graph keeps. -/
theorem engineSample_induction {P : Voice cfg → Prop} {sr : F32} {bufLen rng : Word} {x : Voice cfg} (h : P x)
    (hr : ∀ x, P x → P (genRings x).1) (hk : ∀ x, P x → P (genKarplus x).1) (hw : ∀ x, P x → P (genWt sr x).1)
    (ho : ∀ x, P x → P (genOsc x).1) (hc : ∀ (m : F32) (x : Voice cfg), P x → P (genCloud sr bufLen rng m x).voice) :
    P (engineSample sr bufLen rng x).voice := by
  unfold engineSample
  cases x.mode with
  | rings => exact hr _ h
  | clouds => exact hc _ _ (hw _ h)
  | karplus => exact hk _ h
  | ringsIntoClouds => exact hc _ _ (hr _ h)
  | hybridAll => exact hc _ _ (hw _ (hk _ (hr _ h)))
  | osc => exact ho _ h
  | oscRings => exact hr _ (ho _ h)
  | oscClouds => exact hc _ _ (ho _ h)
  | fullHybrid => exact hc _ _ (ho _ (hw _ (hk _ (hr _ h))))

theorem VoiceLegal.engineSample {x : Voice cfg} (h : VoiceLegal x) (sr : F32) (bufLen rng : Word) :
    VoiceLegal (engineSample sr bufLen rng x).voice := by
  refine engineSample_induction h (fun x h => { h with }) (fun x h => { h with }) (fun x h => { h with })
    (fun x h => { h with oscs := h.oscs.sample }) fun m x h => { h with clouds := ?_ }
  exact (cloudsLegal_cloudsProc sr bufLen rng _).trans ((cloudsLegal_cloudsWrite _ _ _ _).trans h.clouds)

theorem VoiceLegal.frame {x : Voice cfg} (h : VoiceLegal x) (sr : F32) (fin fout bufLen rng : Word) :
    VoiceLegal (voiceFrame sr fin fout bufLen rng x).voice := by
  have hy := h.engineSample sr bufLen rng
  exact { hy with
    enva := (envLegal_envNext sr _).trans hy.enva
    envf := (envLegal_envNext sr _).trans hy.envf
    flt := (filtLegal_filtGuard _).trans hy.flt }

/-- Every update that a command makes keeps a voice legal. -/
theorem voiceLegal_keeps : VoiceKeeps (cfg := cfg) (fun _ x => VoiceLegal x) (fun _ x => VoiceLegal x) where
  config _ _ _ _ h := h
  prepare _ _ _ := preparedVoice_legal _
  osc _ _ k _ _ _ h :=
    ⟨h.updOsc k fun _ ho => ⟨clampInc_between _, ho.phase⟩, h.updOsc k fun _ ho => ⟨ho.inc, ho.phase⟩,
      h.updOsc k fun _ ho => ⟨ho.inc, zero_inUnitOpen⟩, { h with oscs := h.oscs.next k }⟩
  setOscs _ _ _ _ _ _ _ _ h := { h with oscs := h.oscs.set _ _ _ _ _ _ _ }
  setRings _ _ _ _ _ _ _ _ _ h := { h with rings := ringsLegal_ringsSet _ _ _ _ _ _ _ _ }
  ringsRun _ _ _ _ h := ⟨{ h with }, { h with }⟩
  setClouds _ _ _ _ _ _ _ _ _ h := { h with clouds := cloudsLegal_cloudsSet _ _ _ _ _ _ _ }
  cloudsRun s _ _ _ rng _ h :=
    ⟨{ h with clouds := (cloudsLegal_cloudsWrite _ _ _ _).trans h.clouds },
      { h with clouds := (cloudsLegal_cloudsProc s.sr s.bufLen rng _).trans h.clouds }⟩
  karplus _ _ _ _ _ h := ⟨{ h with }, { h with }, { h with }⟩
  setWt _ _ _ _ _ _ _ _ h := { h with wt := wtLegal_wtSet _ _ _ _ _ _ }
  env _ _ k _ _ _ _ _ h :=
    ⟨h.setEnv k (envLegal_envSet _ _ _ _ _), h.setEnv k (h.envOf k), h.setEnv k ((envLegal_envNoteOff _ _).trans (h.envOf k)),
      h.setEnv k ((envLegal_envNext _ _).trans (h.envOf k))⟩
  setFilt _ _ _ _ _ _ _ h := { h with flt := filtLegal_filtSet _ _ _ _ _ }
  filtRun _ _ _ _ _ _ h := ⟨{ h with }, { h with }⟩
  mode _ _ _ _ _ _ _ _ _ h := ⟨{ h with }, { h with mix := mixLegal_mixSet _ _ _ _ _ }⟩
  start _ _ _ _ _ _ h := h.start _ _ _ _ _
  stop _ _ _ _ h := h.stop _ _
  frame _ _ _ _ h := h.frame _ _ _ _ _
  ends _ _ _ h _ := { h with }
  goesOn _ _ _ h _ := h

end Sys2Proof.Machine

/-! The step, taken apart (`10_state.md` R75): the host accesses that land write neither voices nor configuration. -/

namespace Sys2Proof.Machine

variable {cfg : Config.Params}

/-- A step waits, takes a reserved `OPC`, or runs a command. -/
theorem step_next {s t : State} (h : step s = .next t) :
    t = s ∨ ∃ rest u, t = u.landAfter ∧ ((∃ w, u = (s.begin rest).raise .illegalOpcode w) ∨ ∃ i, exec i (s.begin rest) = .next u) := by
  unfold step stepBy at h
  split at h
  · exact .inl (Host.Outcome.next.inj h).symm
  · rename_i w rest _
    exact .inr ⟨rest, _, (Host.Outcome.next.inj h).symm, .inl ⟨w, rfl⟩⟩
  · rename_i i rest _
    cases he : exec i (s.begin rest) with
    | next u =>
      rw [he] at h
      exact .inr ⟨rest, u, (Host.Outcome.next.inj h).symm, .inr ⟨i, he⟩⟩
    | fault f =>
      rw [he] at h
      cases h
    | refused r =>
      rw [he] at h
      cases h

theorem State.land_voices_config (s : State cfg) (a : PortAct cfg) : (s.land a).voices = s.voices ∧ sameConfig s (s.land a) := by
  cases a with
  | writeCell c w => exact ⟨rfl, .refl s⟩
  | writeOut ch f w => cases ch <;> exact ⟨rfl, .refl s⟩
  | readOut ch f => exact ⟨rfl, .refl s⟩

theorem State.landList_voices_config (s : State cfg) (l : List (PortAccess cfg)) :
    (s.landList l).voices = s.voices ∧ sameConfig s (s.landList l) := by
  refine State.landList_induction (P := fun u => u.voices = s.voices ∧ sameConfig s u) (fun u a hu => ?_) ⟨rfl, .refl s⟩ l
  obtain ⟨hv, hc⟩ := State.land_voices_config u a
  exact ⟨hv.trans hu.1, hu.2.trans hc⟩

theorem State.voice_begin (s : State cfg) (rest : List Word) (v : Fin cfg.nv) : (s.begin rest).voice v = s.voice v :=
  State.voice_congr (State.landList_voices_config { s with cmd := rest } _).1 v

theorem State.sameConfig_begin (s : State cfg) (rest : List Word) : sameConfig s (s.begin rest) :=
  (State.landList_voices_config { s with cmd := rest } _).2

theorem State.voice_landAfter (s : State cfg) (v : Fin cfg.nv) : s.landAfter.voice v = s.voice v :=
  State.voice_congr (State.landList_voices_config s _).1 v

/-- A prepared block in a legal configuration has a legal sample rate. -/
theorem State.rate_of_ready {s : State cfg} (h : s.configOk) (hr : s.ready = true) : F32.between cfg.srMin cfg.srMax s.sr = true := by
  rcases h with ⟨h0, _⟩ | ⟨h, _⟩
  · rw [State.ready, h0] at hr
    cases hr
  · exact h

theorem sameConfig.configOk {s t : State cfg} (h : sameConfig s t) (hs : s.configOk) : t.configOk := by
  obtain ⟨h1, h2, h3, h4, h5⟩ := h
  unfold State.configOk
  rw [h1, h2, h3, h4, h5]
  exact hs

end Sys2Proof.Machine

/-! The wavetable phase (`44_wavetable_engine.md` R277). -/

namespace Sys2Proof.Machine

/-- The frequency is `f`, and the wavetable phase is in [0, 1). -/
def phaseAt (f : F32) (x : Voice Config.std) : Prop := x.freq = f ∧ x.wt.phase.inUnitOpen = true

/-- A graph advances the phase by `FREQ / SR` or not at all. -/
theorem phaseAt_engineSample {f sr : F32} (hf : f.isFinite = true) (hsr : F32.between Config.srMin Config.srMax sr = true)
    (bufLen rng : Word) {x : Voice Config.std} (h : phaseAt f x) : phaseAt f (engineSample sr bufLen rng x).voice := by
  refine engineSample_induction h (fun _ h => h) (fun _ h => h) ?_ (fun _ h => h) fun _ _ h => h
  rintro x ⟨rfl, hp⟩
  obtain ⟨s, u, hd, hu⟩ := F32.div_rate_le hf hsr
  exact ⟨rfl, F32.frac_add_inUnitOpen hp hd hu⟩

theorem phaseAt_voiceFrame {f sr : F32} (hf : f.isFinite = true) (hsr : F32.between Config.srMin Config.srMax sr = true)
    (fin fout bufLen rng : Word) {x : Voice Config.std} (h : phaseAt f x) :
    phaseAt f (voiceFrame sr fin fout bufLen rng x).voice := phaseAt_engineSample hf hsr bufLen rng h

/-- What holds of voice `w` all through a render at the sample rate `sr`. -/
def phaseKept (sr f : F32) (w : Fin Config.NV) (t : State) : Prop := t.sr = sr ∧ phaseAt f (t.voice w)

section
variable {sr f : F32} {w : Fin Config.NV}

theorem phaseKept.renderFrame (hf : f.isFinite = true) (hsr : F32.between Config.srMin Config.srMax sr = true) {t : State}
    (h : phaseKept sr f w t) (v : Fin Config.NV) (k : Nat) : phaseKept sr f w (t.renderFrame v k) := by
  obtain ⟨rfl, hp⟩ := h
  refine ⟨rfl, ?_⟩
  by_cases e : w = v
  · subst e
    rw [State.voice_renderFrame_self]
    exact phaseAt_voiceFrame hf hsr _ _ _ _ hp
  · rw [State.voice_renderFrame_ne t v k e]
    exact hp

theorem phaseKept.clear {t : State} (h : phaseKept sr f w t) (v : Fin Config.NV) : phaseKept sr f w (t.updVoice v voiceClear) := by
  refine ⟨h.1, ?_⟩
  by_cases e : w = v
  · subst e
    rw [State.voice_updVoice_self]
    exact h.2
  · rw [State.voice_updVoice_ne t v _ e]
    exact h.2

/-- A render keeps the phase of a voice in [0, 1), whether it renders this voice or others. -/
theorem phaseKept.renderAll (hf : f.isFinite = true) (hsr : F32.between Config.srMin Config.srMax sr = true) {s : State}
    (h : phaseKept sr f w s) (l : List (Fin Config.NV)) (n : Nat) :
    phaseKept sr f w (l.foldl (fun t v => t.renderVoice v n) s) :=
  renderAll_induction (P := phaseKept sr f w) h (fun _ v _ ht =>
    renderLoop_induction (P := phaseKept sr f w) ht (fun _ k _ _ hu => hu.renderFrame hf hsr v k) fun _ hu => hu.clear v) l

end

/-- A command keeps the wavetable phase of a voice whose frequency is finite: only a start, `PREPARE` and a render write it. -/
theorem exec_wtPhase {i : Instr} {s t : State} (h : exec i s = .next t) (hc : s.configOk) {v : Fin Config.NV}
    (hf : (s.voice v).freq.isFinite = true) (hp : (s.voice v).wt.phase.inUnitOpen = true) :
    (t.voice v).wt.phase.inUnitOpen = true := by
  cases exec_effect h with
  | fault | clear | cell => exact hp
  | prepare _ r n =>
    rw [State.voice_prepare]
    exact zero_inUnitOpen
  | start _ w n x =>
    by_cases e : v = w
    · rw [e, State.voice_startVoice_self]
      exact zero_inUnitOpen
    · rw [State.voice_startVoice_ne s w n x e]
      exact hp
  | render _ hr l n =>
    have hk : phaseKept s.sr _ v s := ⟨rfl, rfl, hp⟩
    exact (hk.renderAll hf (State.rate_of_ready hc hr) l n).2.2
  | draws _ h | units h =>
    rw [h.phase]
    exact hp

theorem step_wtPhase {s t : State} (h : step s = .next t) (hc : s.configOk) {v : Fin Config.NV}
    (hf : (s.voice v).freq.isFinite = true) (hp : (s.voice v).wt.phase.inUnitOpen = true) :
    (t.voice v).wt.phase.inUnitOpen = true := by
  rcases step_next h with rfl | ⟨rest, u, rfl, hu⟩
  · exact hp
  · have hv := State.voice_begin s rest v
    rw [State.voice_landAfter]
    rcases hu with ⟨w, rfl⟩ | ⟨i, hu⟩
    · rw [State.voice_raise, hv]
      exact hp
    · exact exec_wtPhase hu ((State.sameConfig_begin s rest).configOk hc) (hv ▸ hf) (hv ▸ hp)

theorem step_voiceLegal {s t : State} (h : step s = .next t) (h0 : ∀ v, VoiceLegal (s.voice v)) (v : Fin Config.NV) :
    VoiceLegal (t.voice v) := by
  refine step_induction (P := fun u => ∀ v, VoiceLegal (u.voice v)) (fun u a hu v => ?_) (fun _ _ hu => hu) (fun _ _ hu => hu)
    (fun _ _ _ hu => hu) (fun _ _ _ he hu => voiceLegal_keeps.exec he hu) h h0 v
  rw [State.voice_congr (State.land_voices_config u a).1]
  exact hu v

/-- Settles O55: every setter clamps, and a phase only advances by a finite increment and its fraction. -/
theorem stepKeepsLegalRegisters : Obligations.StepKeepsLegalRegisters := by
  intro s t h
  exact ⟨fun h0 v => (voiceLegal_iff _).mpr (step_voiceLegal h (fun w => (voiceLegal_iff _).mp (h0 w)) v),
    fun hc v hf hp => step_wtPhase h hc hf hp⟩

end Sys2Proof.Machine

/-! The memories (`20_memory.md` R100, log entry 12): every write, fill and clearing keeps the canonical form. -/

namespace Sys2Proof.Machine

variable {cfg : Config.Params}

/-! The granular buffers and the delay lines. -/

/-- Both granular buffers are in canonical form. -/
def cloudsWf (c : Clouds cfg) : Prop := c.bufL.wf = true ∧ c.bufR.wf = true

theorem cloudsWf_write {c : Clouds cfg} (h : cloudsWf c) (bufLen : Word) (l r : F32) : cloudsWf (cloudsWrite bufLen l r c) := by
  unfold cloudsWrite
  split
  · exact h
  · exact ⟨Mem.wf_write h.1 _ _, Mem.wf_write h.2 _ _⟩

/-- A spawn writes a grain and no buffer. -/
theorem cloudsWf_spawn {c : Clouds cfg} (h : cloudsWf c) (sr : F32) (rng : Word) : cloudsWf (cloudsSpawn sr rng c).1 := by
  unfold cloudsSpawn
  split
  · split <;> exact h
  · exact h

theorem cloudsWf_proc {c : Clouds cfg} (h : cloudsWf c) (sr : F32) (bufLen rng : Word) :
    cloudsWf (cloudsProc sr bufLen rng c).clouds := cloudsWf_spawn h sr rng

theorem wf_karplusFill {m : Mem} (h : m.wf = true) (vel : F32) (rng : Word) (n : Nat) : (karplusFill cfg vel rng n m).wf = true := by
  induction n with
  | zero => exact h
  | succ n ih => exact Mem.wf_write ih _ _

/-! The voice. -/

/-- The memories of a voice are in canonical form, unit by unit. -/
structure VoiceWf (x : Voice cfg) : Prop where
  clouds : cloudsWf x.clouds
  line : x.karplus.line.wf = true

theorem voiceMemOk_iff (x : Voice cfg) : voiceMemOk x = true ↔ VoiceWf x := by
  rw [voiceMemOk, Bool.and_eq_true, Bool.and_eq_true]
  exact ⟨fun ⟨hc, hk⟩ => ⟨hc, hk⟩, fun ⟨hc, hk⟩ => ⟨hc, hk⟩⟩

theorem preparedVoice_wf (sr : F32) : VoiceWf (preparedVoice cfg sr) := ⟨⟨Mem.wf_nil, Mem.wf_nil⟩, Mem.wf_nil⟩

theorem VoiceWf.setEnv {x : Voice cfg} (h : VoiceWf x) (k : Bool) (e : Env) : VoiceWf (setEnv x k e) := by
  cases k <;> exact { h with }

theorem VoiceWf.start {x : Voice cfg} (h : VoiceWf x) (sr : F32) (seq rng : Word) (n : Nat) (w : F32) :
    VoiceWf (voiceStart sr seq rng n w x) :=
  { h with line := wf_karplusFill (Mem.wf_zeroBelow h.line _) _ _ _ }

theorem VoiceWf.stop {x : Voice cfg} (h : VoiceWf x) (sr : F32) (k : Bool) : VoiceWf (voiceStop sr k x) := by
  rcases voiceStop_cases sr k x with e | ⟨_, _, e⟩ | ⟨_, _, _, e⟩
  · rw [e]
    exact h
  · rw [e]
    exact { h with }
  · rw [e]
    exact { h with }

theorem VoiceWf.engineSample {x : Voice cfg} (h : VoiceWf x) (sr : F32) (bufLen rng : Word) :
    VoiceWf (engineSample sr bufLen rng x).voice :=
  engineSample_induction h (fun _ h => { h with }) (fun _ h => { h with line := Mem.wf_write h.line _ _ }) (fun _ h => { h with })
    (fun _ h => { h with }) fun _ _ h => { h with clouds := cloudsWf_proc (cloudsWf_write h.clouds _ _ _) sr bufLen rng }

theorem VoiceWf.frame {x : Voice cfg} (h : VoiceWf x) (sr : F32) (fin fout bufLen rng : Word) :
    VoiceWf (voiceFrame sr fin fout bufLen rng x).voice :=
  { h.engineSample sr bufLen rng with }

/-- Every update that a command makes keeps the memories of a voice canonical. -/
theorem voiceWf_keeps : VoiceKeeps (cfg := cfg) (fun _ x => VoiceWf x) (fun _ x => VoiceWf x) where
  config _ _ _ _ h := h
  prepare _ _ _ := preparedVoice_wf _
  osc _ _ _ _ _ _ h := ⟨{ h with }, { h with }, { h with }, { h with }⟩
  setOscs _ _ _ _ _ _ _ _ h := { h with }
  setRings _ _ _ _ _ _ _ _ _ h := { h with }
  ringsRun _ _ _ _ h := ⟨{ h with }, { h with }⟩
  setClouds _ _ _ _ _ _ _ _ _ h := { h with clouds := h.clouds }
  cloudsRun s _ _ _ rng _ h :=
    ⟨{ h with clouds := cloudsWf_write h.clouds _ _ _ }, { h with clouds := cloudsWf_proc h.clouds s.sr s.bufLen rng }⟩
  karplus _ _ _ _ _ h :=
    ⟨{ h with line := Mem.wf_zeroBelow h.line _ }, { h with line := wf_karplusFill h.line _ _ _ },
      { h with line := Mem.wf_write h.line _ _ }⟩
  setWt _ _ _ _ _ _ _ _ h := { h with }
  env _ _ k _ _ _ _ _ h := ⟨h.setEnv k _, h.setEnv k _, h.setEnv k _, h.setEnv k _⟩
  setFilt _ _ _ _ _ _ _ h := { h with }
  filtRun _ _ _ _ _ _ h := ⟨{ h with }, { h with }⟩
  mode _ _ _ _ _ _ _ _ _ h := ⟨{ h with }, { h with }⟩
  start _ _ _ _ _ _ h := h.start _ _ _ _ _
  stop _ _ _ _ h := h.stop _ _
  frame _ _ _ _ h := h.frame _ _ _ _ _
  ends _ _ _ h _ := { h with }
  goesOn _ _ _ h _ := h

/-! The output buffer. -/

/-- Both channels of the output buffer are in canonical form. -/
def State.outWf (s : State cfg) : Prop := s.outL.wf = true ∧ s.outR.wf = true

/-- The only effect that writes the output buffer is a render, which accumulates into its frames. -/
theorem Effect.outWf {i : Instr} {s t : State cfg} (e : Effect i s t) (h : s.outWf) : t.outWf := by
  cases e with
  | render _ _ l n =>
    refine renderAll_induction (P := State.outWf) h (fun _ _ _ ht => renderLoop_induction (P := State.outWf) ht ?_ ?_) l
    · exact fun _ _ _ _ hu => ⟨Mem.wf_accumulate hu.1 _ _, Mem.wf_accumulate hu.2 _ _⟩
    · exact fun _ hu => hu
  | draws _ hu | units hu =>
    obtain ⟨_, _, _, rfl⟩ := hu.rest
    exact h
  | fault | clear | prepare | cell | start => exact h

theorem State.outWf_land {s : State cfg} (h : s.outWf) (a : PortAct cfg) : (s.land a).outWf := by
  cases a with
  | writeCell c w => exact h
  | writeOut ch f w =>
    cases ch with
    | left => exact ⟨Mem.wf_write h.1 _ _, h.2⟩
    | right => exact ⟨h.1, Mem.wf_write h.2 _ _⟩
  | readOut ch f => exact h

theorem State.memOk_iff (s : State cfg) : s.memOk ↔ s.outWf ∧ ∀ v, VoiceWf (s.voice v) := by
  simp only [State.memOk, State.outWf, voiceMemOk_iff, and_assoc]

theorem exec_memOk {i : Instr} {s t : State} (he : exec i s = .next t) (h : s.memOk) : t.memOk := by
  rw [State.memOk_iff] at h ⊢
  exact ⟨(exec_effect he).outWf h.1, voiceWf_keeps.exec he h.2⟩

theorem State.memOk_land {s : State cfg} (h : s.memOk) (a : PortAct cfg) : (s.land a).memOk := by
  rw [State.memOk_iff] at h ⊢
  refine ⟨State.outWf_land h.1 a, fun v => ?_⟩
  rw [State.voice_congr (State.land_voices_config s a).1]
  exact h.2 v

/-- Settles O54: a memory is written word by word or cleared, by the unit that owns it, by a render or by the host. -/
theorem stepKeepsMemories : Obligations.StepKeepsMemories := fun _ _ h h0 =>
  step_induction (P := State.memOk) (fun _ a hu => State.memOk_land hu a) (fun _ _ hu => hu) (fun _ _ hu => hu) (fun _ _ _ hu => hu)
    (fun _ _ _ he hu => exec_memOk he hu) h h0

end Sys2Proof.Machine

/-! Words on a byte-wide medium (`20_memory.md` R102). -/

namespace Sys2Proof

/-- The four bytes of a word, put together again. -/
theorem append_wordBytes (w : Word) :
    (w.extractLsb' 24 8 ++ w.extractLsb' 16 8 ++ w.extractLsb' 8 8 ++ w.extractLsb' 0 8 : Word) = w := by
  rw [BitVec.extractLsb'_append_extractLsb'_eq_extractLsb', BitVec.extractLsb'_append_extractLsb'_eq_extractLsb',
    BitVec.extractLsb'_append_extractLsb'_eq_extractLsb'] <;> simp

theorem wordsOfBytes_wordBytes (w : Word) (bs : List Byte) : wordsOfBytes (wordBytes w ++ bs) = w :: wordsOfBytes bs :=
  congrArg (· :: wordsOfBytes bs) (append_wordBytes w)

/-- Fewer than four bytes carry no word. -/
theorem wordsOfBytes_of_short {bs : List Byte} (h : bs.length < 4) : wordsOfBytes bs = [] := by
  unfold wordsOfBytes
  split
  · simp only [List.length_cons] at h
    omega
  · rfl

theorem wordsOfBytes_flatMap (ws : List Word) (bs : List Byte) :
    wordsOfBytes (ws.flatMap wordBytes ++ bs) = ws ++ wordsOfBytes bs := by
  induction ws with
  | nil => rfl
  | cons w ws ih => rw [List.flatMap_cons, List.append_assoc, wordsOfBytes_wordBytes, ih, List.cons_append]

theorem wordBytes_toNat (w : Word) : (wordBytes w).map BitVec.toNat =
    [w.toNat % 256, w.toNat / 256 % 256, w.toNat / 65536 % 256, w.toNat / 16777216] := by
  have h : w.toNat / 16777216 % 256 = w.toNat / 16777216 := Nat.mod_eq_of_lt (by have := w.isLt; omega)
  simp only [wordBytes, List.map_cons, List.map_nil, BitVec.extractLsb'_toNat, Nat.shiftRight_eq_div_pow,
    Nat.reducePow, Nat.div_one, h]

/-- Settles O53, by induction on the words. -/
theorem bytesCarryWords : Obligations.BytesCarryWords := by
  have hshort : ∀ (ws : List Word) (bs : List Byte), bs.length < 4 → wordsOfBytes (ws.flatMap wordBytes ++ bs) = ws :=
    fun ws bs h => by rw [wordsOfBytes_flatMap, wordsOfBytes_of_short h, List.append_nil]
  exact ⟨fun ws => by simpa using hshort ws [] (by simp), hshort, wordBytes_toNat⟩

end Sys2Proof

/-! What stops a run (`20_memory.md` R112, `60_exceptions.md` R402, R404). -/

namespace Sys2Proof.Machine

variable {cfg : Config.Params}

/-- The command `i` in `s` answers a next state, or the refusal of a host access to the frames that it renders. -/
inductive Answer (i : Instr) (s : State cfg) : Out cfg → Prop
  | next (t : State cfg) : Answer i s (.next t)
  | refused (h : hostAway i s = false) : Answer i s (.refused .hostTouchedOut)

theorem Answer.runGlobal {i : Instr} {s : State cfg} {e : Out cfg} (h : Answer i s e) : Answer i s (runGlobal i s e) := by
  unfold Machine.runGlobal
  split
  · exact .next _
  · exact h

theorem Answer.runVoice {i : Instr} {s : State cfg} {e : Fin cfg.nv → Out cfg} (h : ∀ v, Answer i s (e v)) :
    Answer i s (runVoice i s e) := by
  unfold Machine.runVoice
  split
  · exact .next _
  · split
    · exact h _
    · exact .next _

theorem Answer.renderGuard {i : Instr} {s : State cfg} {n : Word} {e : State cfg} (h : hostAway i s = !s.hostInOut n.toNat) :
    Answer i s (renderGuard i s n e) := by
  unfold Machine.renderGuard
  split
  · exact .next _
  · split
    · rename_i hin
      exact .refused (by rw [h, hin]; rfl)
    · exact .next _

theorem exec_answer (i : Instr) (s : State) : Answer i s (exec i s) := by
  cases i with
  | nop | prepare | clrerr | wrparam | setglobal | noteon | noteoff | wtGet => exact .runGlobal (.next _)
  | peek vid arg ops =>
    refine .runGlobal ?_
    split <;> exact .next _
  | render => exact .runGlobal (.renderGuard rfl)
  | vRender => exact .runVoice fun _ => .renderGuard rfl
  | vStart | vStop | vSetmode | vSetrings | vSetclouds | vSetwt | vSetmix | vSetenv | vSetfilt | vSetosc | mrSetparams | mrTrigger
  | mrProc | grWrite | grProc | ksSetfreq | ksTrigger | ksGet | oscSetfreq | oscSetwave | oscReset | oscNext | envSetparams
  | envNoteon | envNoteoff | envNext | fltProc | fltReset => exact .runVoice fun _ => .next _

theorem State.hostInOut_of_access {s : State cfg} {p : PortAccess cfg} {n : Nat} (hp : p ∈ s.port) (hslot : p.slot ≠ 0)
    {ch : Channel} {f : Fin cfg.maxBlockCap} {w : Word} (hf : f.val < n) (ha : p.act = .writeOut ch f w ∨ p.act = .readOut ch f) :
    s.hostInOut n = true := by
  refine List.any_eq_true.mpr ⟨p, hp, ?_⟩
  rcases ha with ha | ha <;> simp [touchesOut, ha, hslot, hf]

theorem renderGuard_refused {i : Instr} {s : State cfg} {n : Word} {e : State cfg} (hn : n.toNat ≤ s.maxBlock.toNat)
    (h : s.hostInOut n.toNat = true) : renderGuard i s n e = .refused .hostTouchedOut := by
  unfold renderGuard
  rw [if_neg (by rw [BitVec.lt_def]; omega), h]
  rfl

/-- A `V.RENDER` of a voice that exists passes the checks of its header. -/
theorem headerFault_vRender (v : Fin cfg.nv) (n : Word) : headerFault cfg (.vRender (vidOf v) 0 [n]) = none := by
  have hv : decide ((vidOf v).toNat < cfg.nv) = true := by rw [vidOf_toNat, decide_eq_true v.isLt]
  exact (headerFault_eq_none_iff cfg _).mpr ⟨rfl, rfl, rfl, hv⟩

/-- Settles O11: every command answers a next state or `renderGuard` refuses it. -/
theorem refusedOnlyWhenHostTouchesOut : Obligations.RefusedOnlyWhenHostTouchesOut := by
  refine ⟨fun i s f h => ?_, fun i s r h => ?_, ?_⟩
  · have ha := exec_answer i s
    rw [h] at ha
    cases ha
  · have ha := exec_answer i s
    rw [h] at ha
    cases ha with
    | refused hh => exact ⟨rfl, hh⟩
  · rintro s v n hr hn ⟨p, hp, hslot, ch, f, w, hf, ha⟩
    have hin := State.hostInOut_of_access hp hslot hf ha
    have hrender : firstFault (.render 0 0 [n]) s = none := firstFault_eq_none rfl (.inl hr)
    have hvRender : firstFault (.vRender (vidOf v) 0 [n]) s = none :=
      firstFault_eq_none (headerFault_vRender (cfg := Config.std) v n) (.inl hr)
    exact ⟨(runGlobal_of_firstFault hrender).trans (renderGuard_refused hn hin),
      (runVoice_of_firstFault hvRender (voiceOf_vidOf (cfg := Config.std) v)).trans (renderGuard_refused hn hin)⟩

end Sys2Proof.Machine

/-! Cell reads of `SETGLOBAL` (`20_memory.md` R115). -/

namespace Sys2Proof.Machine

variable {cfg : Config.Params}

/-- A write to the cell that has landed by the read is seen by it. -/
theorem cellAfter_writeCell (cell : Fin Config.NPARAM) (slot : Nat) (w : Word) (k : Nat) (c : Fin Config.NPARAM) (x : Word)
    (l : List (PortAccess cfg)) :
    cellAfter cell slot w (⟨k, .writeCell c x⟩ :: l) = cellAfter cell slot (if c = cell ∧ k ≤ slot then x else w) l := rfl

/-- A read returns the cell's value or one that a pending access writes to the cell. -/
theorem cellAfter_eq_or_written (cell : Fin Config.NPARAM) (slot : Nat) (w : Word) (l : List (PortAccess cfg)) :
    cellAfter cell slot w l = w ∨ ∃ p ∈ l, p.act = .writeCell cell (cellAfter cell slot w l) := by
  induction l generalizing w with
  | nil => exact .inl rfl
  | cons p l ih =>
    have hlater : ∀ x, (∃ q ∈ l, q.act = .writeCell cell x) → ∃ q ∈ p :: l, q.act = .writeCell cell x :=
      fun x ⟨q, hq, hx⟩ => ⟨q, List.mem_cons_of_mem p hq, hx⟩
    obtain ⟨k, act⟩ := p
    cases act with
    | writeCell c x =>
      rw [cellAfter_writeCell]
      split
      · rename_i hseen
        rcases ih x with h | h
        · rw [h, hseen.1]
          exact .inr ⟨_, List.mem_cons_self, rfl⟩
        · exact .inr (hlater _ h)
      · exact (ih w).imp_right (hlater _)
    | writeOut | readOut => exact (ih w).imp_right (hlater _)

theorem State.cellsRead_getElem (s : State cfg) (c : Fin Config.NPARAM) :
    s.cellsRead[c] = cellAfter c c.val s.params[c] s.port := by
  simp [State.cellsRead]

/-- Settles O12: each read is `cellAfter` over the pending accesses, by induction on them. -/
theorem cellReadsOldOrHostWritten : Obligations.CellReadsOldOrHostWritten := by
  refine ⟨fun s c => ?_, fun s c d w k h => ?_⟩
  · rw [State.cellsRead_getElem]
    exact cellAfter_eq_or_written c c.val _ s.port
  · rw [State.cellsRead_getElem, h, cellAfter_writeCell, cellAfter_nil]
    simp only [eq_comm]

end Sys2Proof.Machine

/-! Which voices a command touches (`20_memory.md` R101, `47_voice_pool_and_system.md` R368 to R370). -/

namespace Sys2Proof.Machine

variable {cfg : Config.Params}

/-- The effect of a command on voice `v` leaves every other voice alone, and so does the command when its `VID` names another. -/
theorem runVoice_voice_ne {i : Instr} {s t : State cfg} {e : Fin cfg.nv → Out cfg} {w : Fin cfg.nv}
    (h : runVoice i s e = .next t) (hw : i.vid ≠ vidOf w) (he : ∀ v u, w ≠ v → e v = .next u → u.voice w = s.voice w) : t.voice w = s.voice w := by
  rcases runVoice_next h with ⟨f, rfl⟩ | ⟨v, hv, _, hu⟩
  · exact State.voice_raise s f _ w
  · exact he v t (fun e => hw (e ▸ hv)) hu

/-- The same where the effect is a next state whose voices are those of an update of voice `v`. -/
theorem runVoice_updVoice_ne {i : Instr} {s t : State cfg} {g : Fin cfg.nv → State cfg} {y : Fin cfg.nv → Voice cfg} {w : Fin cfg.nv}
    (h : runVoice i s (fun v => .next (g v)) = .next t) (hg : ∀ v, (g v).voices = s.voices.set v (y v)) (hw : i.vid ≠ vidOf w) :
    t.voice w = s.voice w := by
  refine runVoice_voice_ne h hw fun v u e hu => ?_
  obtain rfl := Host.Outcome.next.inj hu
  rw [State.voice_congr (t := s.setVoice v (y v)) (hg v), State.voice_setVoice_ne s v (y v) e]

/-- A voice that renders leaves every other voice alone. -/
theorem voice_renderLoop_ne {v w : Fin cfg.nv} (e : w ≠ v) (n f : Nat) (s : State cfg) :
    (State.renderLoop v n f s).voice w = s.voice w := by
  refine renderLoop_induction (P := fun t => t.voice w = s.voice w) rfl (fun t k _ _ ht => ?_) fun t ht => ?_
  · rw [State.voice_renderFrame_ne t v k e, ht]
  · rw [State.voice_updVoice_ne t v _ e, ht]

theorem voice_renderVoice_ne {v w : Fin cfg.nv} (e : w ≠ v) (s : State cfg) (n : Nat) :
    (s.renderVoice v n).voice w = s.voice w := by
  unfold State.renderVoice
  split
  · exact voice_renderLoop_ne e n 0 s
  · rfl

/-- A render of all voices leaves an inactive one alone. -/
theorem voice_renderAll_of_inactive {s : State cfg} {w : Fin cfg.nv} (h : (s.voice w).active = false)
    (l : List (Fin cfg.nv)) (n : Nat) :
    (l.foldl (fun t v => t.renderVoice v n) s).voice w = s.voice w := by
  refine renderAll_induction (P := fun t => t.voice w = s.voice w) rfl (fun t v ha ht => ?_) l
  have e : w ≠ v := by
    rintro rfl
    rw [ht, h] at ha
    cases ha
  exact (voice_renderLoop_ne e n 0 t).trans ht

theorem voiceNoteOff_of_note_ne {sr : F32} {n : Nat} {x : Voice cfg} (h : x.note ≠ natWord n) : voiceNoteOff sr n x = x := by
  simp [voiceNoteOff, holdsNote, h]

theorem exec_onVoice {i : Instr} {s t : State} {w : Fin Config.NV} (h : exec i s = .next t) (hi : i.onVoice = true)
    (hw : i.vid ≠ vidOf w) : t.voice w = s.voice w := by
  cases i with
  | nop | prepare | clrerr | peek | wrparam | setglobal | noteon | noteoff | render | wtGet => cases hi
  | vRender vid arg ops =>
    refine runVoice_voice_ne h hw fun v u e hu => ?_
    rcases renderGuard_next hu with ⟨f, rfl⟩ | ⟨_, _, rfl⟩
    · rfl
    · exact voice_renderVoice_ne e s _
  | vStart | vStop | vSetmode | vSetrings | vSetclouds | vSetwt | vSetmix | vSetenv | vSetfilt | vSetosc | mrSetparams | mrTrigger
  | mrProc | grWrite | grProc | ksSetfreq | ksTrigger | ksGet | oscSetfreq | oscSetwave | oscReset | oscNext | envSetparams
  | envNoteon | envNoteoff | envNext | fltProc | fltReset => exact runVoice_updVoice_ne h (fun _ => rfl) hw

theorem exec_noteon_ne {vid arg : Byte} {ops : List Word} {s t : State} {w : Fin Config.NV}
    (h : exec (.noteon vid arg ops) s = .next t) (hw : w ≠ s.allocate (argNote arg)) : t.voice w = s.voice w := by
  rcases execNoteon_next h with ⟨f, rfl⟩ | ⟨_, rfl⟩
  · rfl
  · exact State.voice_startVoice_ne s _ _ _ hw

theorem exec_noteoff_ne {vid arg : Byte} {ops : List Word} {s t : State} {w : Fin Config.NV}
    (h : exec (.noteoff vid arg ops) s = .next t) (hn : (s.voice w).note ≠ natWord (argNote arg)) : t.voice w = s.voice w := by
  rcases execNoteoff_next h with ⟨f, rfl⟩ | ⟨_, rfl⟩
  · rfl
  · rw [State.voice_updVoices, voiceNoteOff_of_note_ne hn]

theorem exec_render_of_inactive {vid arg : Byte} {ops : List Word} {s t : State} {w : Fin Config.NV}
    (h : exec (.render vid arg ops) s = .next t) (ha : (s.voice w).active = false) : t.voice w = s.voice w := by
  rcases execRender_next h with ⟨f, rfl⟩ | ⟨_, _, _, ht⟩
  · rfl
  · rw [ht]
    exact voice_renderAll_of_inactive ha (voiceNumbers Config.std) _

theorem exec_touches_no_voice {i : Instr} {s t : State} (h : exec i s = .next t)
    (hi : ∃ vid arg ops, i = .nop vid arg ops ∨ i = .clrerr vid arg ops ∨ i = .peek vid arg ops ∨
      i = .wrparam vid arg ops ∨ i = .wtGet vid arg ops) (w : Fin Config.NV) : t.voice w = s.voice w := by
  obtain ⟨vid, arg, ops, rfl | rfl | rfl | rfl | rfl⟩ := hi
  · rcases execNop_next h with ⟨f, rfl⟩ | ⟨_, rfl⟩ <;> rfl
  · rcases execClrerr_next h with ⟨f, rfl⟩ | ⟨_, rfl⟩ <;> rfl
  · rcases execPeek_next h with ⟨f, rfl⟩ | ⟨_, _, rfl⟩ <;> rfl
  · rcases execWrparam_next h with ⟨f, rfl⟩ | ⟨_, rfl⟩ <;> rfl
  · rcases execWtGet_next h with ⟨f, rfl⟩ | ⟨_, rfl⟩ <;> rfl

/-- Settles O52: the effect of a command updates the voice of its `VID`, the one it starts, or those its update does not fix. -/
theorem voicesTouchedOnlyBy : Obligations.VoicesTouchedOnlyBy := by
  intro i s t w h
  refine ⟨exec_onVoice h, ?_, ?_, ?_, fun hi => exec_touches_no_voice h hi w⟩
  · rintro vid arg ops rfl hw
    exact exec_noteon_ne h hw
  · rintro vid arg ops rfl hn
    exact exec_noteoff_ne h hn
  · rintro vid arg ops rfl ha
    exact exec_render_of_inactive h ha

end Sys2Proof.Machine

/-! Commands and their words (`30_encoding.md` R140 to R142, R146): the opcode map and the rows of R146 name the same operations, and
a header is its four fields. -/

namespace Sys2Proof

/-- What the front of a queue is when it decodes to a command. -/
theorem decode_eq_command_iff {q : List Word} {i : Instr} {rest : List Word} :
    decode q = .command i rest ↔
      ∃ h t mk, q = h :: t ∧ headerLen h ≤ t.length ∧ instrOfOpc (headerOpc h) = some mk ∧
        i = mk (headerVid h) (headerArg h) (t.take (headerLen h)) ∧ rest = t.drop (headerLen h) := by
  constructor
  · intro hq
    unfold decode at hq
    split at hq
    · cases hq
    · rename_i h t
      split at hq
      · cases hq
      · split at hq
        · cases hq
        · rename_i mk hmk
          cases hq
          exact ⟨h, t, mk, rfl, by omega, hmk, rfl, rfl⟩
  · rintro ⟨h, t, mk, rfl, hlen, hmk, rfl, rfl⟩
    simp only [decode, hmk, if_neg (Nat.not_lt.mpr hlen)]

/-- The fields of the header of any command are read back from it. -/
theorem headerFields (i : Instr) : Laws.Encoding.Statement i := by
  cases i <;> exact Laws.Encoding.of_row rfl

/-- Settles O1: the header gives back the operation, `VID`, `ARG` and `LEN`, and `LEN` words are taken. -/
theorem encodeDecode : Obligations.EncodeDecode := by
  intro i rest hlen
  obtain ⟨-, hvid, harg, hmap⟩ := headerFields i
  obtain ⟨mk, hmk, hi⟩ := Option.map_eq_some_iff.mp hmap
  have hl : headerLen (instrHeader i) = i.ops.length := Laws.Encoding.headerLen_headerWord _ _ _ (by omega)
  refine decode_eq_command_iff.mpr ⟨instrHeader i, i.ops ++ rest, mk, rfl, ?_, hmk, ?_, ?_⟩
  · rw [hl, List.length_append]
    omega
  · rw [hl, hvid, harg, List.take_left, hi]
  · rw [hl, List.drop_left]

/-- An operation that the opcode map selects has that opcode in its row, and keeps its fields as they are given. -/
theorem fields_of_instrOfOpc {o : Byte} {mk : Byte → Byte → List Word → Instr} (h : instrOfOpc o = some mk) (vid arg : Byte)
    (ops : List Word) : (instrRow (mk vid arg ops)).opc = o ∧ (mk vid arg ops).vid = vid ∧ (mk vid arg ops).arg = arg ∧
      (mk vid arg ops).ops = ops := by
  unfold instrOfOpc at h
  split at h
  all_goals cases h
  all_goals exact ⟨BitVec.eq_of_toNat_eq (Eq.symm ‹o.toNat = _›), rfl, rfl, rfl⟩

/-- A header is the word of its fields. -/
theorem headerWord_fields (h : Word) : headerWord (headerOpc h) (headerVid h) (headerArg h) (headerLen h) = h := by
  unfold headerWord headerLen
  rw [BitVec.ofNat_toNat, BitVec.setWidth_eq]
  exact append_wordBytes h

theorem headerLen_le (h : Word) : headerLen h ≤ 255 := by
  have := (h.extractLsb' 0 8).isLt
  unfold headerLen
  omega

/-- Settles O2: a header is the word of its fields, and its `LEN` is the number of the words taken. -/
theorem decodeEncode : Obligations.DecodeEncode := by
  intro q i rest hq
  obtain ⟨h, t, mk, rfl, hlen, hmk, hi, rfl⟩ := decode_eq_command_iff.mp hq
  obtain ⟨hopc, hvid, harg, hops⟩ := fields_of_instrOfOpc hmk (headerVid h) (headerArg h) (t.take (headerLen h))
  rw [← hi] at hopc hvid harg hops
  have hl : i.ops.length = headerLen h := by rw [hops, List.length_take_of_le hlen]
  have hheader : instrHeader i = h := by
    unfold instrHeader
    rw [hopc, hvid, harg, hl, headerWord_fields]
  refine ⟨?_, hl.trans_le (headerLen_le h)⟩
  rw [encode, hheader, hops, List.cons_append, List.take_append_drop]

theorem decode_of_encode {i : Instr} {ws : List Word} (hlen : i.ops.length ≤ 255) (h : encode i = ws) :
    decode ws = .command i [] := by
  rw [← h, ← List.append_nil (encode i)]
  exact encodeDecode i [] hlen

/-- Settles O3: the words of each example are those that the command beside it encodes to. -/
theorem decodesSpecWords : Obligations.DecodesSpecWords := by
  refine ⟨?_, ?_, ?_, ?_, ?_, ?_, ?_, ?_, ?_, ?_, ?_, ?_, ?_⟩ <;> exact decode_of_encode (by decide) rfl

end Sys2Proof

/-! Reserved opcodes (`30_encoding.md` R149). -/

namespace Sys2Proof.Machine

theorem decode_of_instrOfOpc_none {h : Word} {t : List Word} (hlen : headerLen h ≤ t.length)
    (ho : instrOfOpc (headerOpc h) = none) : decode (h :: t) = .illegal h (t.drop (headerLen h)) := by
  simp only [decode, ho, if_neg (Nat.not_lt.mpr hlen)]

theorem step_of_illegal {s : State} {h : Word} {rest : List Word} (hd : decode s.cmd = .illegal h rest) :
    step s = finish (.next ((s.begin rest).raise .illegalOpcode h)) := by
  unfold step stepBy
  rw [hd]

/-- Settles O4: the opcode map is none exactly at the reserved ranges, and a step with such an opcode raises the fault. -/
theorem reservedOpcodesFault : Obligations.ReservedOpcodesFault := by
  unfold Obligations.ReservedOpcodesFault
  intro reserved
  have hreserved : ∀ o, reserved o ↔ instrOfOpc o = none := by
    unfold reserved
    decide +kernel
  refine ⟨hreserved, fun s h q hport hcmd hlen ho => ?_⟩
  have hdecode : decode s.cmd = .illegal h (q.drop (headerLen h)) := by
    rw [hcmd]
    exact decode_of_instrOfOpc_none hlen ((hreserved _).mp ho)
  rw [step_of_illegal hdecode, State.begin_of_port_nil hport]
  refine finish_of_port_nil fun t ht => ?_
  cases ht
  exact hport

end Sys2Proof.Machine

/-! The checks of a command (`30_encoding.md` R148) in the columns of `WellFormed.lean`, and the fault of the first that fails
(`60_exceptions.md` R401, R404). -/

namespace Sys2Proof.Machine

variable {cfg : Config.Params}

theorem instrRow_early (i : Instr) : (instrRow i).early = isEarly i := by cases i <;> rfl

theorem usesVoice_of_ne_peek {i : Instr} (h : ∀ vid arg ops, i ≠ .peek vid arg ops) : usesVoice i = i.onVoice := by
  cases i
  case peek vid arg ops => exact absurd rfl (h vid arg ops)
  all_goals rfl

/-- A `VID` that names a voice need not be 0. -/
theorem vidZeroAccepted_of_usesVoice {i : Instr} (h : usesVoice i = true) :
    vidZeroAccepted (instrRow i).vidUse i.vid i.arg = true := by
  by_cases hp : ∃ vid arg ops, i = .peek vid arg ops
  · obtain ⟨vid, arg, ops, rfl⟩ := hp
    have hspace : spacePerVoice arg.toNat = true := h
    simp [instrRow, vidZeroAccepted, Instr.arg, hspace]
  · have hne : ∀ vid arg ops, i ≠ .peek vid arg ops := fun vid arg ops e => hp ⟨vid, arg, ops, e⟩
    rw [usesVoice_of_ne_peek hne] at h
    rw [vidUse_instrRow hne, h]
    rfl

/-- A `VID` that names no voice need not be below `NV`. -/
theorem vidVoiceAccepted_of_not_usesVoice {i : Instr} (h : usesVoice i = false) :
    vidVoiceAccepted cfg (instrRow i).vidUse i.vid i.arg = true := by
  by_cases hp : ∃ vid arg ops, i = .peek vid arg ops
  · obtain ⟨vid, arg, ops, rfl⟩ := hp
    have hspace : spacePerVoice arg.toNat = false := h
    simp [instrRow, vidVoiceAccepted, Instr.arg, hspace]
  · have hne : ∀ vid arg ops, i ≠ .peek vid arg ops := fun vid arg ops e => hp ⟨vid, arg, ops, e⟩
    rw [usesVoice_of_ne_peek hne] at h
    rw [vidUse_instrRow hne, h]
    rfl

/-- The checks (2), (3) and (4): an illegal `VID` is check (4) where it names a voice, and check (3) where it does not. -/
theorem headerFault_eq (cfg : Config.Params) (i : Instr) :
    headerFault cfg i =
      if i.ops.length ≠ i.lenRequired then some .badLength
      else if i.argOk = false ∨ (i.vidOk cfg = false ∧ usesVoice i = false) then some .badArg
      else if i.vidOk cfg = false then some .badVoice
      else none := by
  have hvid := vidAccepted_instrRow cfg i
  simp only [headerFault, instrRow_len, argAccepted_instrRow]
  cases hu : usesVoice i
  · rw [vidVoiceAccepted_of_not_usesVoice hu, Bool.and_true] at hvid
    rw [vidVoiceAccepted_of_not_usesVoice hu, hvid]
    cases i.argOk <;> cases i.vidOk cfg <;> rfl
  · rw [vidZeroAccepted_of_usesVoice hu, Bool.true_and] at hvid
    rw [vidZeroAccepted_of_usesVoice hu, hvid]
    cases i.argOk <;> cases i.vidOk cfg <;> rfl

theorem firstFault_of_headerFault {i : Instr} {s : State cfg} {f : FaultCode} (h : headerFault cfg i = some f) :
    firstFault i s = some f := by
  unfold firstFault
  rw [h]

/-- Check (5). -/
theorem firstFault_notPrepared {i : Instr} {s : State cfg} (hw : i.wellFormed cfg = true) (hr : s.ready = false)
    (he : isEarly i = false) : firstFault i s = some .notPrepared := by
  simp [firstFault, (wellFormedIffChecksPass cfg i).mp hw, hr, instrRow_early, he]

/-- A command that passes the checks (2) to (5) is admitted. -/
theorem firstFault_of_wellFormed {i : Instr} {s : State cfg} (hw : i.wellFormed cfg = true)
    (hr : s.ready = true ∨ isEarly i = true) : firstFault i s = none :=
  firstFault_eq_none ((wellFormedIffChecksPass cfg i).mp hw) (instrRow_early i ▸ hr)

theorem runGlobal_of_fault {i : Instr} {s : State cfg} {e : Out cfg} {f : FaultCode} (h : firstFault i s = some f) :
    runGlobal i s e = faultOf i s f := by
  unfold runGlobal
  rw [h]

theorem runVoice_of_fault {i : Instr} {s : State cfg} {e : Fin cfg.nv → Out cfg} {f : FaultCode} (h : firstFault i s = some f) :
    runVoice i s e = faultOf i s f := by
  unfold runVoice
  rw [h]

/-- A command that fails one of the checks (2) to (5) takes the fault of the first, and nothing else happens. -/
theorem exec_of_fault {i : Instr} {s : State} {f : FaultCode} (h : firstFault i s = some f) : exec i s = faultOf i s f := by
  cases i with
  | nop | prepare | clrerr | peek | wrparam | setglobal | noteon | noteoff | render | wtGet => exact runGlobal_of_fault h
  | vStart | vStop | vRender | vSetmode | vSetrings | vSetclouds | vSetwt | vSetmix | vSetenv | vSetfilt | vSetosc | mrSetparams
  | mrTrigger | mrProc | grWrite | grProc | ksSetfreq | ksTrigger | ksGet | oscSetfreq | oscSetwave | oscReset | oscNext
  | envSetparams | envNoteon | envNoteoff | envNext | fltProc | fltReset => exact runVoice_of_fault h

/-- A well-formed command on a voice names one that exists. -/
theorem exists_voiceOf {i : Instr} (hw : i.wellFormed cfg = true) (hv : i.onVoice = true) :
    ∃ v : Fin cfg.nv, voiceOf i.vid = some v := by
  have hne : ∀ vid arg ops, i ≠ .peek vid arg ops := by
    rintro vid arg ops rfl
    cases hv
  simp only [Instr.wellFormed, Bool.and_eq_true, vidOk_of_ne_peek cfg hne, hv, if_true, decide_eq_true_eq] at hw
  exact ⟨⟨i.vid.toNat, hw.2⟩, dif_pos hw.2⟩

theorem renderGuard_of_not_le {i : Instr} {s : State cfg} {n : Word} {e : State cfg} (h : ¬n.toNat ≤ s.maxBlock.toNat) :
    renderGuard i s n e = faultOf i s .blockTooLong :=
  if_pos (BitVec.lt_def.mpr (Nat.lt_of_not_le h))

/-- Check (6) of the render commands. -/
theorem exec_blockTooLong {i : Instr} {s : State} (hw : i.wellFormed = true) (hr : s.ready = true ∨ isEarly i = true)
    (ho : operandsOk i s = false) (hne : ∀ vid arg ops, i ≠ .peek vid arg ops) : exec i s = faultOf i s .blockTooLong := by
  have ha := firstFault_of_wellFormed hw hr
  cases i with
  | peek vid arg ops => exact absurd rfl (hne vid arg ops)
  | render vid arg ops => exact (runGlobal_of_firstFault ha).trans (renderGuard_of_not_le (of_decide_eq_false ho))
  | vRender vid arg ops =>
    obtain ⟨v, hv⟩ := exists_voiceOf hw rfl
    exact (runVoice_of_firstFault ha hv).trans (renderGuard_of_not_le (of_decide_eq_false ho))
  | _ => cases ho

/-- Check (6) of `PEEK`. -/
theorem exec_badAddress {vid arg : Byte} {ops : List Word} {s : State} (hw : (Instr.peek vid arg ops).wellFormed = true)
    (ho : operandsOk (.peek vid arg ops) s = false) : exec (.peek vid arg ops) s = faultOf (.peek vid arg ops) s .badAddress := by
  have hsize := Nat.le_of_not_lt (of_decide_eq_false ho)
  exact (runGlobal_of_firstFault (firstFault_of_wellFormed hw (.inr rfl))).trans (if_pos hsize)

/-- Settles O6: the header's fault is an `if` over the checks in their order, and each later check is met only when those before it
pass. -/
theorem firstFailingCheckFaults : Obligations.FirstFailingCheckFaults := by
  intro i s
  have hheader : ∀ {f}, headerFault Config.std i = some f → exec i s = faultOf i s f :=
    fun h => exec_of_fault (firstFault_of_headerFault h)
  refine ⟨fun hlen => ?_, fun hlen hbad => ?_, fun hlen harg hvid hu => ?_, fun hw hr he => ?_, fun hw hr ho hne => ?_,
    fun hw ho hp => ?_⟩
  · exact hheader (by rw [headerFault_eq, if_pos hlen])
  · exact hheader (by rw [headerFault_eq, if_neg (not_not.mpr hlen), if_pos hbad])
  · exact hheader (f := .badVoice) (by simp [headerFault_eq, hlen, harg, hvid, hu])
  · exact exec_of_fault (firstFault_notPrepared hw hr he)
  · exact exec_blockTooLong hw hr ho hne
  · obtain ⟨vid, arg, ops, rfl⟩ := hp
    exact exec_badAddress hw ho

end Sys2Proof.Machine

/-! Completion (`30_encoding.md` R146, R148; `60_exceptions.md` R402): an admitted command answers its effect. -/

namespace Sys2Proof.Machine

variable {cfg : Config.Params}

/-- `o` is a next state with the response words that the row of `i` asks for, and the fault record of `s` unless `i` is `CLRERR`. -/
def Completes (i : Instr) (s : State cfg) (o : Out cfg) : Prop :=
  ∃ t, o = .next t ∧ (∃ l, t.rsp = s.rsp ++ l ∧ l.length = (instrRow i).rsp) ∧
    ((∀ vid arg ops, i ≠ .clrerr vid arg ops) → t.err = s.err ∧ t.errInfo = s.errInfo ∧ t.errCnt = s.errCnt)

/-- An effect that pushes the words `l` and leaves the fault record alone. -/
theorem Completes.pushing {i : Instr} {s t : State cfg} (l : List Word) (hl : l.length = (instrRow i).rsp)
    (hrsp : t.rsp = s.rsp ++ l) (herr : t.err = s.err) (hinfo : t.errInfo = s.errInfo) (hcnt : t.errCnt = s.errCnt) :
    Completes i s (.next t) :=
  ⟨t, rfl, ⟨l, hrsp, hl⟩, fun _ => ⟨herr, hinfo, hcnt⟩⟩

/-- An effect that pushes nothing and leaves the fault record alone. -/
theorem Completes.silent {i : Instr} {s t : State cfg} (hl : (instrRow i).rsp = 0) (hrsp : t.rsp = s.rsp) (herr : t.err = s.err)
    (hinfo : t.errInfo = s.errInfo) (hcnt : t.errCnt = s.errCnt) : Completes i s (.next t) :=
  .pushing [] hl.symm (hrsp.trans (List.append_nil _).symm) herr hinfo hcnt

/-- A render writes voices, draws and the output buffer only. -/
theorem Completes.rendered {i : Instr} {s t : State cfg} (hl : (instrRow i).rsp = 0) (h : Rendered s t) :
    Completes i s (.next t) := by
  obtain ⟨_, _, _, _, rfl⟩ := h
  exact .silent hl rfl rfl rfl rfl

theorem Completes.runGlobal {i : Instr} {s : State cfg} {e : Out cfg} (ha : firstFault i s = none) (h : Completes i s e) :
    Completes i s (runGlobal i s e) := by
  rw [runGlobal_of_firstFault ha]
  exact h

theorem Completes.runVoice {i : Instr} {s : State cfg} {e : Fin cfg.nv → Out cfg} (ha : firstFault i s = none)
    (hw : i.wellFormed cfg = true) (hv : i.onVoice = true) (h : ∀ v, Completes i s (e v)) : Completes i s (runVoice i s e) := by
  obtain ⟨v, hv⟩ := exists_voiceOf hw hv
  rw [runVoice_of_firstFault ha hv]
  exact h v

theorem Completes.renderGuard {i : Instr} {s t : State cfg} {n : Word} (hl : (instrRow i).rsp = 0)
    (ho : decide (n.toNat ≤ s.maxBlock.toNat) = true) (hh : (!s.hostInOut n.toNat) = true) (h : Rendered s t) :
    Completes i s (renderGuard i s n t) := by
  rw [renderGuard_of_le (of_decide_eq_true ho) (by simpa using hh)]
  exact .rendered hl h

/-- Settles O7: an admitted command is its effect, which pushes the words of its row; renders are not refused while the host is
away. -/
theorem passedChecksCannotFault : Obligations.PassedChecksCannotFault := by
  intro i s hw hr ho hh
  have ha := firstFault_of_wellFormed hw hr
  show Completes i s (exec i s)
  cases i with
  | clrerr vid arg ops =>
    exact .runGlobal ha ⟨_, rfl, ⟨[], (List.append_nil _).symm, rfl⟩, fun hne => absurd rfl (hne vid arg ops)⟩
  | nop | prepare | wrparam | setglobal | noteon | noteoff => exact .runGlobal ha (.silent rfl rfl rfl rfl rfl)
  | peek =>
    refine .runGlobal ha ?_
    rw [if_neg (Nat.not_le.mpr (of_decide_eq_true ho))]
    exact .pushing [_] rfl rfl rfl rfl rfl
  | wtGet => exact .runGlobal ha (.pushing [_] rfl rfl rfl rfl rfl)
  | render => exact .runGlobal ha (.renderGuard rfl ho hh (rendered_renderAll _ _ s))
  | vRender => exact .runVoice ha hw rfl fun v => .renderGuard rfl ho hh (rendered_renderAll [v] _ s)
  | mrProc | ksGet | oscNext | envNext => exact .runVoice ha hw rfl fun _ => .pushing [_] rfl rfl rfl rfl rfl
  | grProc | fltProc =>
    exact .runVoice ha hw rfl fun _ => .pushing [_, _] rfl (List.append_assoc _ [_] [_]) rfl rfl rfl
  | vStart | vStop | vSetmode | vSetrings | vSetclouds | vSetwt | vSetmix | vSetenv | vSetfilt | vSetosc | mrSetparams | mrTrigger
  | grWrite | ksSetfreq | ksTrigger | oscSetfreq | oscSetwave | oscReset | envSetparams | envNoteon | envNoteoff | fltReset =>
    exact .runVoice ha hw rfl fun _ => .silent rfl rfl rfl rfl rfl

end Sys2Proof.Machine

/-! The commands of one oscillator (`40_basic_oscillator.md` R182 to R185). -/

namespace Sys2Proof.Machine

variable {cfg : Config.Params}

/-- In a prepared block, a command on a voice that exists, with its number of operand words and a legal `ARG`, is its effect on that
voice. -/
theorem runVoice_vidOf {i : Instr} {s : State cfg} {e : Fin cfg.nv → Out cfg} {v : Fin cfg.nv} (hv : i.onVoice = true)
    (hvid : i.vid = vidOf v) (hlen : i.ops.length = i.lenRequired) (harg : i.argOk = true) (hr : s.ready = true) :
    runVoice i s e = e v := by
  have hne : ∀ vid arg ops, i ≠ .peek vid arg ops := by
    rintro vid arg ops rfl
    cases hv
  have hvidOk : i.vidOk cfg = true := by
    rw [vidOk_of_ne_peek cfg hne, if_pos hv, hvid, vidOf_toNat]
    exact decide_eq_true v.isLt
  have hw : i.wellFormed cfg = true := by simp [Instr.wellFormed, hlen, harg, hvidOk]
  exact runVoice_of_firstFault (firstFault_of_wellFormed hw (.inl hr)) (hvid ▸ voiceOf_vidOf v)

/-- An `ARG` that names an instance, in bit 0, is legal and names it (R144, R180). -/
theorem instanceArg_legal : ∀ k : Bool, decide ((BitVec.ofNat 8 (if k then 1 else 0)).toNat < 2) = true := by decide

theorem argBit0_instanceArg : ∀ k : Bool, argBit0 (BitVec.ofNat 8 (if k then 1 else 0)) = k := by decide

/-- The `ARG` of `OSC.SETWAVE`, a waveform code in bits 7:4 and an instance in bit 0 (R144, R183). -/
theorem waveArg_legal : ∀ (n : Fin 16) (k : Bool),
    decide ((BitVec.ofNat 8 (16 * n + if k then 1 else 0)).toNat % 16 < 2) = true := by decide

theorem argBit0_waveArg : ∀ (n : Fin 16) (k : Bool), argBit0 (BitVec.ofNat 8 (16 * n + if k then 1 else 0)) = k := by decide

theorem argHigh_waveArg : ∀ (n : Fin 16) (k : Bool), argHigh (BitVec.ofNat 8 (16 * n + if k then 1 else 0)) = n := by decide

/-- The waveform codes above 3 all name `PULSE` (R39). -/
theorem waveOfCode_fin : ∀ n : Fin 16, waveOfCode n =
    if n = 0 then .sine else if n = 1 then .saw else if n = 2 then .square else if n = 3 then .triangle else .pulse := by
  decide

/-- Settles O20: each command passes its checks, and `updOsc` or `oscNext` writes one register of the instance that `ARG` names. -/
theorem oscillatorCommands : Obligations.OscillatorCommands := by
  intro s v k hr put get sel
  refine ⟨fun w => ?_, fun n => ?_, ?_, ?_⟩
  · refine Eq.trans (runVoice_vidOf rfl rfl rfl (instanceArg_legal k) hr) ?_
    rw [argBit0_instanceArg]
    rfl
  · refine Eq.trans (runVoice_vidOf rfl rfl rfl (waveArg_legal n k) hr) ?_
    rw [argBit0_waveArg, argHigh_waveArg, waveOfCode_fin]
    rfl
  · refine Eq.trans (runVoice_vidOf rfl rfl rfl (instanceArg_legal k) hr) ?_
    rw [argBit0_instanceArg]
    rfl
  · refine Eq.trans (runVoice_vidOf rfl rfl rfl (instanceArg_legal k) hr) ?_
    rw [argBit0_instanceArg]
    rfl

end Sys2Proof.Machine

/-! The advance of a phase by 0 (`40_basic_oscillator.md` R188). -/

namespace Sys2Proof

/-- A finite value other than -0 stays when +0 is added or subtracted. -/
theorem F32.addAs_zero (op : FOp) (flip : Bool) {x : F32} {u : Nat} (h : x.value = .fin false u) :
    F32.addAs op x F32.zero flip = x := by
  obtain ⟨m, hm, rfl, rfl⟩ := F32.value_fin h
  rw [F32.addAs_of_fin op h F32.value_zero]
  simp only [signedUnits_zero, signedUnits_false, add_zero, Int.natCast_eq_zero, Bool.false_and, Int.natAbs_natCast]
  split
  · rename_i h0
    rw [← magUnits_zero] at h0
    rw [magUnits_strictMono.injective h0]
  · rw [decide_eq_false (by omega), ← Nat.mul_one (magUnits m), F32.ofRatio_exact false hm Nat.one_pos]

/-- A value of [0, 1) other than -0 has the sign of +0 and fewer units than 1. -/
theorem F32.value_of_inUnitOpen {x : F32} (h : x.inUnitOpen = true) (hz : x ≠ F32.zero.neg) :
    ∃ u, x.value = .fin false u ∧ u < unitsPerOne := by
  rw [F32.inUnitOpen, Bool.and_eq_true] at h
  obtain ⟨h0, h1⟩ := h
  obtain ⟨s, u, hv, hs, _⟩ := F32.fin_of_le h0 (F32.le_of_lt h1) F32.value_one
  cases s with
  | false =>
    obtain ⟨k, l, hk, hl, hkl⟩ := (F32.lt_iff _ _).mp h1
    rw [F32.key_of_value hv] at hk
    rw [F32.key_of_value F32.value_one] at hl
    cases hk
    cases hl
    exact ⟨u, hv, Int.ofNat_lt.mp hkl⟩
  | true =>
    obtain ⟨m, _, rfl, hm⟩ := F32.value_fin hv
    rw [hs rfl, ← magUnits_zero] at hm
    rw [← magUnits_strictMono.injective hm] at hz
    exact absurd rfl hz

theorem F32.floor_of_lt_one {x : F32} {u : Nat} (h : x.value = .fin false u) (hu : u < unitsPerOne) : x.floor = F32.zero := by
  unfold F32.floor
  rw [h]
  simp only
  rw [Nat.div_eq_of_lt hu, Nat.zero_mul, F32.ofRatio_zero false Nat.one_pos]
  rfl

theorem F32.frac_of_lt_one {x : F32} {u : Nat} (h : x.value = .fin false u) (hu : u < unitsPerOne) : x.frac = x := by
  have hsub : x.sub x.floor = x := by
    rw [F32.floor_of_lt_one h hu]
    exact F32.addAs_zero .sub true h
  have hne : x ≠ F32.one := by
    rintro rfl
    rw [F32.value_one] at h
    cases h
    exact Nat.lt_irrefl _ hu
  rw [F32.frac, hsub, if_neg hne]

/-- An increment of 0 leaves a phase where it is. -/
theorem F32.frac_add_zero {t : F32} (h : t.inUnitOpen = true) (hz : t ≠ F32.zero.neg) : (t.add F32.zero).frac = t := by
  obtain ⟨u, hv, hu⟩ := F32.value_of_inUnitOpen h hz
  have hadd : t.add F32.zero = t := F32.addAs_zero .add false hv
  rw [hadd, F32.frac_of_lt_one hv hu]

end Sys2Proof

/-! The samples (`40_basic_oscillator.md` R181, R185). -/

namespace Sys2Proof.Machine

/-- There is no correction at an increment of 0. -/
theorem stepCorrection_zero (t : F32) : stepCorrection t F32.zero = F32.zero := by
  have h : F32.zero.lt F32.zero = false := by decide
  simp [stepCorrection, h]

/-- `PULSE` of width 0.5 is `SQUARE`, since 1 - 0.5 is 0.5 exactly. -/
theorem oscValue_pulse_half (t dt pw : F32) : oscValue ⟨t, dt, .pulse⟩ half = oscValue ⟨t, dt, .square⟩ pw := by
  have h : F32.one.sub half = half := by decide +kernel
  simp only [oscValue, h]

/-- Settles O21: `PB` is `stepCorrection`, each sample is its arm of `oscValue`, and `frac` keeps a phase plus 0. -/
theorem oscillatorSamples : Obligations.OscillatorSamples := by
  unfold Obligations.OscillatorSamples
  extract_lets pb
  have hpb : stepCorrection = pb := by
    funext t dt
    simp only [stepCorrection, Bool.and_eq_true]
    rfl
  rw [← hpb]
  exact ⟨fun t dt pw => ⟨rfl, rfl, rfl, rfl, rfl, stepCorrection_zero t, oscValue_pulse_half t dt pw⟩,
    fun t => F32.frac_add_zero⟩

end Sys2Proof.Machine

/-! What a step keeps of every voice: a step is host accesses around a command. -/

namespace Sys2Proof.Machine

/-- What every command keeps of every voice, every step keeps. -/
theorem VoiceKeeps.step {Q R : State → Voice Config.std → Prop} (k : VoiceKeeps Q R) {s t : State} (h : Machine.step s = .next t)
    (h0 : ∀ v, Q s (s.voice v)) : ∀ v, Q t (t.voice v) := by
  have hsame : ∀ u u' : State, u'.voices = u.voices → sameConfig u u' → (∀ v, Q u (u.voice v)) → ∀ v, Q u' (u'.voice v) :=
    fun u u' hv hc hu v => by
      rw [State.voice_congr hv]
      exact k.config u u' _ hc (hu v)
  refine step_induction (P := fun u => ∀ v, Q u (u.voice v)) (fun u a => ?_) (fun u _ => ?_) (fun u _ => ?_) (fun u f w => ?_)
    (fun _ _ _ he hu => k.exec he hu) h h0
  · obtain ⟨hv, hc⟩ := State.land_voices_config u a
    exact hsame u _ hv hc
  · exact hsame u _ rfl ⟨rfl, rfl, rfl, rfl, rfl⟩
  · exact hsame u _ rfl ⟨rfl, rfl, rfl, rfl, rfl⟩
  · exact hsame u _ rfl ⟨rfl, rfl, rfl, rfl, rfl⟩

end Sys2Proof.Machine

/-! The resonator's operations mode by mode (`41_modal_resonator.md` R202, R205, R207). -/

namespace Sys2Proof.Machine

variable {cfg : Config.Params}

theorem ringsSet_modes (sr f a b c d : F32) (n : Nat) (r : Rings) (i : Fin Config.NMODES) :
    (ringsSet cfg sr f a b c d n r).modes[i] = modeCoef cfg sr { r.modes[i] with
      freq := modeFreq (modelOfCode n) (clampFreq f) (clampUnit d) i
      decay := (clampUnit b).mul two
      bri := clampUnit a } := by
  simp [ringsSet]

theorem ringsTrigger_modes (w : F32) (r : Rings) (i : Fin Config.NMODES) :
    (ringsTrigger w r).modes[i] =
      { r.modes[i] with exc := r.modes[i].exc.add (triggerImpulse (clampUnit w) r.pos i) } := by
  simp [ringsTrigger]

theorem ringsProc_modes (x : F32) (r : Rings) (i : Fin Config.NMODES) :
    (ringsProc x r).1.modes[i] = modeAdvance x r.modes[i] := by
  simp [ringsProc]

/-- Updates that agree at the voice as it is are the same. -/
theorem State.updVoice_congr {s : State cfg} {v : Fin cfg.nv} {f g : Voice cfg → Voice cfg} (h : f (s.voice v) = g (s.voice v)) :
    s.updVoice v f = s.updVoice v g := congrArg (s.setVoice v) h

/-- An update that fixes the voice as it is changes nothing. -/
theorem State.updVoice_eq_self {s : State cfg} {v : Fin cfg.nv} {f : Voice cfg → Voice cfg} (h : f (s.voice v) = s.voice v) :
    s.updVoice v f = s := by
  have hset : s.voices.set v (s.voice v) = s.voices := Vector.set_getElem_self v.isLt
  rw [State.updVoice, State.setVoice, h, hset]

end Sys2Proof.Machine

/-! The tuning of the modes (`41_modal_resonator.md` R200, R202, R204): `MR_SET` and `PREPARE` write it, triggers and samples write taps
and excitations only. -/

namespace Sys2Proof.Machine

variable {cfg : Config.Params}

/-- Mode `i` of the resonator `r` is `m`, tuned to the registers of `r`, and at a sample rate that is not +0 so are its coefficients. -/
structure ModeTuned (cfg : Config.Params) (sr : F32) (r : Rings) (i : Nat) (m : Mode) : Prop where
  freq : m.freq = modeFreq r.model r.freq r.struct i
  decay : m.decay = r.damp.mul two
  bri : m.bri = r.bri
  coef : (sr != F32.zero) = true → modeCoef cfg sr m = m

/-- Every mode of a resonator is tuned to its registers. -/
def RingsTuned (cfg : Config.Params) (sr : F32) (r : Rings) : Prop := ∀ i : Fin Config.NMODES, ModeTuned cfg sr r i r.modes[i]

theorem State.modesDetermined_iff (s : State cfg) : s.modesDetermined ↔ ∀ v, RingsTuned cfg s.sr (s.voice v).rings := by
  refine forall_congr' fun v => ⟨fun ⟨hset, hcoef⟩ i => ?_, fun h => ⟨fun i => ?_, fun hr i => (h i).coef hr⟩⟩
  · obtain ⟨hf, hd, hb⟩ := hset i
    exact ⟨hf, hd, hb, fun hr => hcoef hr i⟩
  · exact ⟨(h i).freq, (h i).decay, (h i).bri⟩

/-- `n` is the mode `m` but for its taps and its excitation. -/
def sameTuning (m n : Mode) : Prop := ∃ x1 x2 y1 y2 exc, n = { m with x1 := x1, x2 := x2, y1 := y1, y2 := y2, exc := exc }

theorem ModeTuned.of_sameTuning {sr : F32} {r : Rings} {i : Nat} {m n : Mode} (h : ModeTuned cfg sr r i m) (e : sameTuning m n)
    (ms : Vector Mode Config.NMODES) : ModeTuned cfg sr { r with modes := ms } i n := by
  obtain ⟨x1, x2, y1, y2, exc, rfl⟩ := e
  exact ⟨h.freq, h.decay, h.bri,
    fun hr => congrArg (fun m : Mode => { m with x1 := x1, x2 := x2, y1 := y1, y2 := y2, exc := exc }) (h.coef hr)⟩

/-- Taps and excitations may change. -/
theorem RingsTuned.mapModes {sr : F32} {r : Rings} (h : RingsTuned cfg sr r) {f : Nat → Mode → Mode}
    (hf : ∀ i m, sameTuning m (f i m)) : RingsTuned cfg sr { r with modes := vecMapIdx f r.modes } := fun i => by
  rw [Fin.getElem_fin, getElem_vecMapIdx]
  exact (h i).of_sameTuning (hf i _) _

theorem RingsTuned.trigger {sr : F32} {r : Rings} (h : RingsTuned cfg sr r) (w : F32) : RingsTuned cfg sr (ringsTrigger w r) :=
  h.mapModes fun _ _ => ⟨_, _, _, _, _, rfl⟩

theorem RingsTuned.proc {sr : F32} {r : Rings} (h : RingsTuned cfg sr r) (x : F32) : RingsTuned cfg sr (ringsProc x r).1 :=
  h.mapModes fun _ _ => ⟨_, _, _, _, _, rfl⟩

theorem ringsTuned_ringsSet (sr f a b c d : F32) (n : Nat) (r : Rings) : RingsTuned cfg sr (ringsSet cfg sr f a b c d n r) :=
  fun i => by
    rw [ringsSet_modes]
    exact ⟨rfl, rfl, rfl, fun _ => rfl⟩

theorem modesSet_resetRings : modesSet resetRings := by
  unfold modesSet
  decide +kernel

/-- `PREPARE` computes the coefficients of the reset modes. -/
theorem ringsTuned_preparedVoice (sr : F32) : RingsTuned cfg sr (preparedVoice cfg sr).rings := fun i => by
  obtain ⟨hf, hd, hb⟩ := modesSet_resetRings i
  rw [Fin.getElem_fin, preparedVoice, getElem_vecMap]
  exact ⟨hf, hd, hb, fun _ => rfl⟩

/-- A graph runs the resonator for a sample or not at all. -/
theorem RingsTuned.engineSample {sr : F32} {x : Voice cfg} (h : RingsTuned cfg sr x.rings) (bufLen rng : Word) :
    RingsTuned cfg sr (engineSample sr bufLen rng x).voice.rings :=
  engineSample_induction (P := fun x => RingsTuned cfg sr x.rings) h (fun _ h => h.proc _) (fun _ h => h) (fun _ h => h) (fun _ h => h)
    fun _ _ h => h

theorem setEnv_rings (x : Voice cfg) (k : Bool) (e : Env) : (setEnv x k e).rings = x.rings := by cases k <;> rfl

theorem voiceStop_rings (sr : F32) (k : Bool) (x : Voice cfg) : (voiceStop sr k x).rings = x.rings := by
  rcases voiceStop_cases sr k x with h | ⟨_, _, h⟩ | ⟨_, _, _, h⟩ <;> rw [h]

/-- Every update that a command makes keeps the modes of a voice tuned. -/
theorem ringsTuned_keeps :
    VoiceKeeps (cfg := cfg) (fun s x => RingsTuned cfg s.sr x.rings) (fun s x => RingsTuned cfg s.sr x.rings) where
  config _ _ _ hc h := hc.1.symm ▸ h
  prepare _ _ _ := ringsTuned_preparedVoice _
  osc _ _ _ _ _ _ h := ⟨h, h, h, h⟩
  setOscs _ _ _ _ _ _ _ _ h := h
  setRings _ _ _ _ _ _ _ _ _ _ := ringsTuned_ringsSet _ _ _ _ _ _ _ _
  ringsRun _ _ w _ h := ⟨h.trigger w, h.proc w⟩
  setClouds _ _ _ _ _ _ _ _ _ h := h
  cloudsRun _ _ _ _ _ _ h := ⟨h, h⟩
  karplus _ _ _ _ _ h := ⟨h, h, h⟩
  setWt _ _ _ _ _ _ _ _ h := h
  env _ x k _ _ _ _ _ h := by
    simp only [setEnv_rings]
    exact ⟨h, h, h, h⟩
  setFilt _ _ _ _ _ _ _ h := h
  filtRun _ _ _ _ _ _ h := ⟨h, h⟩
  mode _ _ _ _ _ _ _ _ _ h := ⟨h, h⟩
  start _ _ _ _ _ _ _ := (ringsTuned_ringsSet _ _ _ _ _ _ _ _).trigger _
  stop _ x k _ h := (voiceStop_rings _ k x).symm ▸ h
  frame _ _ _ _ h := h.engineSample _ _
  ends _ _ _ h _ := h
  goesOn _ _ _ h _ := h

/-- Settles O56: whatever writes the tuning of a mode writes all of it from the resonator's registers. -/
theorem stepKeepsModes : Obligations.StepKeepsModes := by
  intro s t h h0
  rw [State.modesDetermined_iff] at h0 ⊢
  exact ringsTuned_keeps.step h h0

end Sys2Proof.Machine

/-! The commands of the resonator in a prepared block (`41_modal_resonator.md` R201 to R207). -/

namespace Sys2Proof.Machine

theorem modelCode_modelOfCode (n : Nat) : modelCode (modelOfCode n) = min n 3 := by
  have h : clampu n 3 ≤ 3 := Nat.min_le_right n 3
  show modelCode (modelOfCode n) = clampu n 3
  unfold modelOfCode
  generalize clampu n 3 = k at h
  interval_cases k <;> rfl

theorem bwScale_eq : Config.bwScale = F32.ofNat 100 := by decide +kernel

theorem decayMin_eq : Config.decayMin = F32.dec 1 1000 := by decide +kernel

theorem modalGain_eq : Config.modalGain = F32.dec 3 10 := by decide +kernel

/-- Settles O22: both commands are `ringsSet` at their frequency, which writes every mode by `modeFreq` and `modeCoef`. -/
theorem resonatorSetCommands : Obligations.ResonatorSetCommands := by
  unfold Obligations.ResonatorSetCommands
  extract_lets bell law unit written
  have hlaw : ∀ model f st i, modeFreq model f st i = law (modelCode model) f st i := fun model _ _ _ => by cases model <;> rfl
  have hset : ∀ (s : State) (v : Fin Config.NV) (model : Nat) (f b d p st : F32) (g : Voice Config.std → Voice Config.std),
      g (s.voice v) = { s.voice v with rings := ringsSet Config.std s.sr f b d p st model (s.voice v).rings } →
      written s (s.updVoice v g) v model f b d p st := by
    intro s v model f b d p st g hg
    unfold written
    rw [State.voice_updVoice_self, hg]
    refine ⟨State.updVoice_congr hg, ⟨rfl, rfl, rfl, rfl, rfl, modelCode_modelOfCode model⟩, fun i => ?_⟩
    rw [ringsSet_modes, ← decayMin_eq, ← bwScale_eq, ← modelCode_modelOfCode, ← hlaw]
    exact ⟨rfl, rfl, rfl, ⟨rfl, rfl⟩, rfl, rfl, rfl, rfl, rfl⟩
  intro s v arg f b d p st hr
  exact ⟨⟨_, runVoice_vidOf rfl rfl rfl rfl hr, hset s v _ _ _ _ _ _ _ rfl⟩,
    ⟨_, runVoice_vidOf rfl rfl rfl rfl hr, hset s v _ _ _ _ _ _ _ rfl⟩⟩

/-- Settles O23: the command is `ringsTrigger`, which adds `triggerImpulse` to the excitation of every mode. -/
theorem resonatorTriggerCommand : Obligations.ResonatorTriggerCommand := by
  intro s v w hr
  refine ⟨_, runVoice_vidOf rfl rfl rfl rfl hr, ?_, fun i => ?_⟩
  · rw [State.voice_updVoice_self]
    exact State.updVoice_congr rfl
  · rw [State.voice_updVoice_self]
    exact ringsTrigger_modes _ _ i

end Sys2Proof.Machine

/-! A resonator at rest (`41_modal_resonator.md` R207, R208 (d)). -/

namespace Sys2Proof

/-- Adding or subtracting the product of a finite coefficient and +0, a zero of either sign, leaves +0. -/
theorem F32.zero_add_mul_zero {c : F32} (h : c.isFinite = true) :
    F32.zero.add (c.mul F32.zero) = F32.zero ∧ F32.zero.sub (c.mul F32.zero) = F32.zero := by
  obtain ⟨neg, u, hc⟩ := F32.value_of_isFinite h
  rw [F32.mul_of_fin hc F32.value_zero, Nat.mul_zero, F32.ofRatio_zero _ unitsPerOne_pos]
  cases neg <;> decide +kernel

end Sys2Proof

namespace Sys2Proof.Machine

/-- Taps and excitation are +0, and the coefficients are finite. -/
structure ModeResting (m : Mode) : Prop where
  c1 : m.c1.isFinite = true
  c2 : m.c2.isFinite = true
  x1 : m.x1 = F32.zero
  x2 : m.x2 = F32.zero
  y1 : m.y1 = F32.zero
  y2 : m.y2 = F32.zero
  exc : m.exc = F32.zero

theorem ModeResting.output {m : Mode} (h : ModeResting m) : modeOutput F32.zero m = F32.zero := by
  have hhalf : half.mul ((F32.zero.add F32.zero).sub F32.zero) = F32.zero := by decide +kernel
  rw [modeOutput, h.exc, h.x2, h.y1, h.y2, hhalf, (F32.zero_add_mul_zero h.c1).1, (F32.zero_add_mul_zero h.c2).2]

theorem ModeResting.advance {m : Mode} (h : ModeResting m) : modeAdvance F32.zero m = m := by
  have hadd : F32.zero.add F32.zero = F32.zero := by decide +kernel
  rw [modeAdvance, h.output, h.exc, hadd, h.x1, h.y1]
  obtain ⟨⟩ := m
  obtain ⟨-, -, rfl, rfl, rfl, rfl, rfl⟩ := h
  rfl

/-- A resonator at rest stays as it is and gives +0 for an input of +0. -/
theorem ringsProc_resting {r : Rings} (h : ∀ m ∈ r.modes, ModeResting m) : ringsProc F32.zero r = (r, F32.zero) := by
  have hmodes : vecMap (modeAdvance F32.zero) r.modes = r.modes :=
    vecMap_eq_self _ _ fun i hi => (h _ (Vector.getElem_mem hi)).advance
  have hsum : r.modes.toList.foldl (fun sum m => sum.add (modeOutput F32.zero m)) F32.zero = F32.zero := by
    refine List.foldlRecOn (motive := fun y => y = F32.zero) _ _ rfl fun y hy m hm => ?_
    rw [hy, (h m (Vector.mem_toList_iff.mp hm)).output]
    decide +kernel
  have hgain : F32.zero.mul Config.modalGain = F32.zero := by decide +kernel
  rw [ringsProc, hmodes, hsum, hgain]

/-- Settles O24: the command is `ringsProc`, which advances every mode and sums the outputs. -/
theorem resonatorProcCommand : Obligations.ResonatorProcCommand := by
  intro s v w hr x y
  refine ⟨_, runVoice_vidOf rfl rfl rfl rfl hr, ?_, fun i => ?_, ?_⟩
  · rw [State.voice_pushF, State.voice_updVoice_self, ← modalGain_eq, List.foldl_map]
    exact congrArg (State.push · _) (State.updVoice_congr rfl)
  · rw [State.voice_pushF, State.voice_updVoice_self]
    exact ringsProc_modes _ _ i
  · rintro rfl hrest
    have hmodes : ∀ m ∈ (s.voice v).rings.modes, ModeResting m := fun m hm => by
      obtain ⟨i, hi, rfl⟩ := Vector.getElem_of_mem hm
      obtain ⟨hc1, hc2, hx1, hx2, hy1, hy2, hexc⟩ := hrest ⟨i, hi⟩
      exact ⟨hc1, hc2, hx1, hx2, hy1, hy2, hexc⟩
    have hproc : ringsProc (opF32 [0] 0).san (s.voice v).rings = ((s.voice v).rings, F32.zero) := ringsProc_resting hmodes
    rw [hproc, State.updVoice_eq_self (by rw [hproc])]
    rfl

end Sys2Proof.Machine

/-! The granular engine (`42_granular_engine.md` R223 to R234): what its two sample operations write. -/

namespace Sys2Proof.Machine

variable {cfg : Config.Params}

theorem Voice.congr_clouds (x : Voice cfg) {c d : Clouds cfg} (h : c = d) : { x with clouds := c } = { x with clouds := d } :=
  h ▸ rfl

/-! The write (R223). -/

theorem cloudsWrite_of_frozen {c : Clouds cfg} (h : c.freeze = true) (bufLen : Word) (l r : F32) : cloudsWrite bufLen l r c = c :=
  if_pos h

theorem cloudsWrite_of_unfrozen {c : Clouds cfg} (h : c.freeze = false) (bufLen : Word) (l r : F32) :
    cloudsWrite bufLen l r c =
      { c with
        bufL := c.bufL.write c.wc.toNat l.bits
        bufR := c.bufR.write c.wc.toNat r.bits
        wc := (c.wc + 1) % bufLen } :=
  if_neg (Bool.eq_false_iff.mp h)

/-- A write changes nothing but the buffers and the write cursor. -/
theorem cloudsWrite_frame (bufLen : Word) (l r : F32) (c : Clouds cfg) :
    cloudsWrite bufLen l r c =
      { c with
        bufL := (cloudsWrite bufLen l r c).bufL
        bufR := (cloudsWrite bufLen l r c).bufR
        wc := (cloudsWrite bufLen l r c).wc } := by
  unfold cloudsWrite
  split <;> rfl

/-- Settles O25: the command is `cloudsWrite`, and a word is read back where it was written. -/
theorem granularWriteCommand : Obligations.GranularWriteCommand := by
  intro s v l r hr hmem
  have hwf : VoiceWf (s.voice v) := ((State.memOk_iff s).mp hmem).2 v
  obtain ⟨hL, hR⟩ := hwf.clouds
  refine ⟨_, runVoice_vidOf rfl rfl rfl rfl hr, ?_, fun hf => ?_, fun hf => ?_⟩
  · rw [State.voice_updVoice_self]
    exact State.updVoice_congr (Voice.congr_clouds _ (cloudsWrite_frame _ _ _ _))
  · exact State.updVoice_eq_self (Voice.congr_clouds _ (cloudsWrite_of_frozen hf _ _ _))
  · rw [State.voice_updVoice_self, cloudsWrite_of_unfrozen hf]
    exact ⟨rfl, fun a => ⟨Mem.read_write hL _ _ a, Mem.read_write hR _ _ a⟩⟩

/-! The spawn (R226, R227). -/

/-- Slot `g` is the first one with no active grain (R226). -/
def FirstFree (c : Clouds cfg) (g : Fin cfg.ng) : Prop := c.grains[g].active = false ∧ ∀ k < g, c.grains[k].active = true

/-- The draw at `RNG_IDX` decides for a spawn (R226). -/
def SpawnDrawn (sr : F32) (rng : Word) (c : Clouds cfg) : Prop := (drawOf cfg rng).lt (spawnProbability sr c) = true

theorem firstInactive_eq_findIdx? (k : Nat) (l : List Grain) :
    firstInactive k l = (l.findIdx? fun g => !g.active).map (· + k) := by
  induction l generalizing k with
  | nil => rfl
  | cons g l ih =>
    rw [firstInactive, List.findIdx?_cons]
    cases g.active with
    | false => simp
    | true => simp [ih, Function.comp_def, Nat.add_assoc, Nat.add_comm 1 k]

theorem firstInactive_eq_some {c : Clouds cfg} {i : Nat} :
    firstInactive 0 c.grains.toList = some i ↔ ∃ g : Fin cfg.ng, FirstFree c g ∧ g.val = i := by
  simp only [firstInactive_eq_findIdx?, Nat.add_zero, Option.map_id', List.findIdx?_eq_some_iff_getElem, FirstFree]
  constructor
  · rintro ⟨hi, hfree, hbefore⟩
    exact ⟨⟨i, by simpa using hi⟩, ⟨by simpa using hfree, fun k hk => by simpa using hbefore k hk⟩, rfl⟩
  · rintro ⟨g, ⟨hfree, hbefore⟩, rfl⟩
    exact ⟨by simp, by simpa using hfree, fun j hj => by simpa using hbefore ⟨j, by omega⟩ hj⟩

theorem cloudsSpawn_of_firstFree {sr : F32} {rng : Word} {c : Clouds cfg} {g : Fin cfg.ng} (hs : SpawnDrawn sr rng c)
    (hg : FirstFree c g) :
    cloudsSpawn sr rng c =
      ({ c with
          grains := c.grains.setIfInBounds g
            (grainInit sr c (drawOf cfg (rng + 1)) (drawOf cfg (rng + 2)) (drawOf cfg (rng + 3))) }, rng + 4) := by
  unfold SpawnDrawn at hs
  rw [cloudsSpawn, if_pos hs, firstInactive_eq_some.mpr ⟨g, hg, rfl⟩]

theorem cloudsSpawn_of_none {sr : F32} {rng : Word} {c : Clouds cfg} (h : ¬(SpawnDrawn sr rng c ∧ ∃ g, FirstFree c g)) :
    cloudsSpawn sr rng c = (c, rng + 1) := by
  unfold cloudsSpawn
  split
  · rename_i hs
    have hi : firstInactive 0 c.grains.toList = none := Option.eq_none_iff_forall_ne_some.mpr fun i hi =>
      h ⟨hs, (firstInactive_eq_some.mp hi).imp fun _ hg => hg.1⟩
    rw [hi]
  · rfl

/-- A spawn changes nothing of the engine but a grain. -/
theorem cloudsSpawn_frame (sr : F32) (rng : Word) (c : Clouds cfg) :
    (cloudsSpawn sr rng c).1 = { c with grains := (cloudsSpawn sr rng c).1.grains } := by
  unfold cloudsSpawn
  split
  · split <;> rfl
  · rfl

theorem cloudsProc_clouds (sr : F32) (bufLen rng : Word) (c : Clouds cfg) :
    (cloudsProc sr bufLen rng c).clouds = { c with grains := vecMap grainAdvance (cloudsSpawn sr rng c).1.grains } :=
  congrArg (fun d : Clouds cfg => { d with grains := vecMap grainAdvance (cloudsSpawn sr rng c).1.grains })
    (cloudsSpawn_frame sr rng c)

/-- The spawned grain takes the first free slot. -/
theorem cloudsSpawn_grains_of_firstFree {sr : F32} {rng : Word} {c : Clouds cfg} {g : Fin cfg.ng}
    (h : SpawnDrawn sr rng c ∧ FirstFree c g) :
    (cloudsSpawn sr rng c).1.grains[g] =
      grainInit sr c (drawOf cfg (rng + 1)) (drawOf cfg (rng + 2)) (drawOf cfg (rng + 3)) := by
  simp [cloudsSpawn_of_firstFree h.1 h.2]

/-- Every other slot keeps its grain. -/
theorem cloudsSpawn_grains_of_not {sr : F32} {rng : Word} {c : Clouds cfg} {g : Fin cfg.ng}
    (h : ¬(SpawnDrawn sr rng c ∧ FirstFree c g)) : (cloudsSpawn sr rng c).1.grains[g] = c.grains[g] := by
  by_cases hc : SpawnDrawn sr rng c ∧ ∃ k, FirstFree c k
  · obtain ⟨hs, k, hk⟩ := hc
    have hne : k.val ≠ g := fun e => h ⟨hs, Fin.ext e ▸ hk⟩
    simp [cloudsSpawn_of_firstFree hs hk, hne]
  · rw [cloudsSpawn_of_none hc]

/-! The parameters of R226 and R227 as the decimals that they are. -/

theorem std_grRateMax : Config.std.grRateMax = F32.ofNat 200 := by decide +kernel

theorem std_grJitter : Config.std.grJitter = F32.dec 25 100 := by decide +kernel

theorem std_grDetune : Config.std.grDetune = F32.dec 1 2 := by decide +kernel

end Sys2Proof.Machine

namespace Sys2Proof

/-- A value above +0 is a positive number of units or the positive infinity. -/
theorem F32.value_of_pos {x : F32} (h : F32.zero.lt x = true) :
    (∃ u, 0 < u ∧ x.value = .fin false u) ∨ x.value = .inf false := by
  obtain ⟨z, k, hz, hk, hzk⟩ := (F32.lt_iff _ _).mp h
  obtain rfl := Option.some.inj (F32.key_zero.symm.trans hz)
  rcases F32.nonneg_cases (F32.le_of_lt h) with ⟨neg, u, hv, hn⟩ | hv
  · obtain rfl := Option.some.inj ((F32.key_of_value hv).symm.trans hk)
    cases neg with
    | false => exact .inl ⟨u, by simpa [signedUnits] using hzk, hv⟩
    | true => simp [signedUnits, hn rfl] at hzk
  · exact .inr hv

theorem F32.zero_div_of_pos {x : F32} (h : F32.zero.lt x = true) : F32.zero.div x = F32.zero := by
  rcases F32.value_of_pos h with ⟨u, hu, hv⟩ | hv
  · rw [F32.div_of_fin F32.value_zero hv hu.ne', Nat.zero_mul, F32.ofRatio_zero _ hu]
    rfl
  · unfold F32.div
    rw [F32.value_zero, hv]
    rfl

end Sys2Proof

namespace Sys2Proof.Machine

/-- At density +0 the spawn probability is +0, which no draw is below. -/
theorem not_spawnDrawn_of_dens_zero {sr : F32} {c : Clouds Config.std} (hd : c.dens = F32.zero) (hsr : F32.zero.lt sr = true)
    (rng : Word) : ¬SpawnDrawn sr rng c := by
  have hmul : F32.zero.mul Config.std.grRateMax = F32.zero := by decide +kernel
  have hdraw : F32.zero.le (drawOf Config.std rng) = true := (Bool.and_eq_true _ _ ▸ isDraw_drawOf Config.std rng).1
  rw [SpawnDrawn, spawnProbability, hd, hmul, F32.zero_div_of_pos hsr, F32.not_lt_of_le hdraw]
  exact Bool.false_ne_true

/-- Settles O26: the command is `cloudsProc`, a spawn and then one sample of the grains that are active after it. -/
theorem granularProcCommand : Obligations.GranularProcCommand := by
  intro s v hr c draw spread spawns fresh firstFree
  have hdraw : draw 0 = drawOf Config.std s.rngIdx := congrArg randStream (BitVec.add_zero _)
  have hspawns : spawns = SpawnDrawn s.sr s.rngIdx c := by
    rw [SpawnDrawn, ← hdraw, spawnProbability, std_grRateMax]
  have hfresh : grainInit s.sr c (drawOf Config.std (s.rngIdx + 1)) (drawOf Config.std (s.rngIdx + 2))
      (drawOf Config.std (s.rngIdx + 3)) = fresh := by
    rw [grainInit, std_grJitter, std_grDetune]
    rfl
  refine ⟨_, (cloudsSpawn s.sr s.rngIdx c).1.grains, runVoice_vidOf rfl rfl rfl rfl hr, ?_, ?_, ?_, ?_, ?_, ?_, ?_⟩
  · intro g
    rw [hspawns, ← hfresh]
    exact ⟨cloudsSpawn_grains_of_firstFree, cloudsSpawn_grains_of_not⟩
  · rw [hspawns]
    rintro ⟨hs, g, hg⟩
    exact congrArg Prod.snd (cloudsSpawn_of_firstFree hs hg)
  · rw [hspawns]
    exact fun h => congrArg Prod.snd (cloudsSpawn_of_none h)
  · rw [hspawns]
    exact fun hd hsr => not_spawnDrawn_of_dens_zero hd hsr _
  · intro g p
    rw [State.voice_pushF, State.voice_pushF, State.voice_setRng, State.voice_updVoice_self]
    exact getElem_vecMap _ _ _ _
  · intro heard norm n read amp left right
    have hmix : cloudsMix s.bufLen (cloudsSpawn s.sr s.rngIdx c).1 =
        (norm ((heard.map left).foldl F32.add F32.zero), norm ((heard.map right).foldl F32.add F32.zero)) := by
      rw [cloudsSpawn_frame, List.foldl_map, List.foldl_map]
      rfl
    rw [State.pushF_rsp, State.pushF_rsp, List.append_assoc]
    exact congrArg (fun p : F32 × F32 => s.rsp ++ [p.1.bits, p.2.bits]) hmix
  · rw [State.voice_pushF, State.voice_pushF, State.voice_setRng, State.voice_updVoice_self]
    let r := cloudsProc s.sr s.bufLen s.rngIdx c
    exact congrArg (fun d : Clouds Config.std =>
      (((s.updVoice v fun x => { x with clouds := d }).setRng r.rng).pushF r.left).pushF r.right)
      (cloudsProc_clouds s.sr s.bufLen s.rngIdx c)

end Sys2Proof.Machine

/-! Freeze (`42_granular_engine.md` R224): the buffers and the write cursor through every command but `PREPARE`. -/

namespace Sys2Proof.Machine

variable {cfg : Config.Params}

/-- If `c` is frozen, `d` has its buffers and its write cursor. -/
def FreezeKeeps (c d : Clouds cfg) : Prop := c.freeze = true → d.bufL = c.bufL ∧ d.bufR = c.bufR ∧ d.wc = c.wc

theorem FreezeKeeps.of_eq {c d : Clouds cfg} (h : d = c) : FreezeKeeps c d := fun _ => h ▸ ⟨rfl, rfl, rfl⟩

theorem freezeKeeps_write (bufLen : Word) (l r : F32) (c : Clouds cfg) : FreezeKeeps c (cloudsWrite bufLen l r c) := fun hf =>
  FreezeKeeps.of_eq (cloudsWrite_of_frozen hf bufLen l r) hf

theorem freezeKeeps_proc (sr : F32) (bufLen rng : Word) (c : Clouds cfg) : FreezeKeeps c (cloudsProc sr bufLen rng c).clouds := by
  rw [cloudsProc_clouds]
  exact fun _ => ⟨rfl, rfl, rfl⟩

theorem setEnv_clouds (x : Voice cfg) (k : Bool) (e : Env) : (setEnv x k e).clouds = x.clouds := by cases k <;> rfl

theorem updOsc_clouds (x : Voice cfg) (k : Bool) (f : Osc → Osc) : (updOsc x k f).clouds = x.clouds := by cases k <;> rfl

theorem voiceStop_clouds (sr : F32) (k : Bool) (x : Voice cfg) : (voiceStop sr k x).clouds = x.clouds := by
  rcases voiceStop_cases sr k x with h | ⟨_, _, h⟩ | ⟨_, _, _, h⟩ <;> rw [h]

theorem voiceNoteOff_clouds (sr : F32) (n : Nat) (x : Voice cfg) : (voiceNoteOff sr n x).clouds = x.clouds := by
  unfold voiceNoteOff
  split
  · exact voiceStop_clouds sr true x
  · rfl

/-! Commands on one voice. -/

/-- A property of voice `w` through a replacement of voice `v`, which is to have it where the two are the same. -/
theorem State.voice_of_set {P : Voice cfg → Prop} {s t : State cfg} {v w : Fin cfg.nv} {y : Voice cfg}
    (ht : t.voices = s.voices.set v y) (hs : P (s.voice w)) (hy : w = v → P y) : P (t.voice w) := by
  rw [State.voice_congr (t := s.setVoice v y) ht]
  by_cases e : w = v
  · rw [e, State.voice_setVoice_self]
    exact hy e
  · rwa [State.voice_setVoice_ne s v y e]

theorem freezeKeeps_of_set {s t : State cfg} {v : Fin cfg.nv} {y : Voice cfg} (ht : t.voices = s.voices.set v y)
    (hy : FreezeKeeps (s.voice v).clouds y.clouds) (w : Fin cfg.nv) : FreezeKeeps (s.voice w).clouds (t.voice w).clouds :=
  State.voice_of_set (P := fun x => FreezeKeeps (s.voice w).clouds x.clouds) ht (.of_eq rfl) fun e => e ▸ hy

theorem runVoice_freezeKeeps {i : Instr} {s t : State cfg} {g : Fin cfg.nv → State cfg} {y : Fin cfg.nv → Voice cfg}
    (h : runVoice i s (fun v => .next (g v)) = .next t) (hg : ∀ v, (g v).voices = s.voices.set v (y v))
    (hy : ∀ v, FreezeKeeps (s.voice v).clouds (y v).clouds) (w : Fin cfg.nv) :
    FreezeKeeps (s.voice w).clouds (t.voice w).clouds := by
  rcases runVoice_next h with ⟨f, rfl⟩ | ⟨v, _, _, hu⟩
  · exact .of_eq rfl
  · obtain rfl := Host.Outcome.next.inj hu
    exact freezeKeeps_of_set (hg v) (hy v) w

/-! Renders. -/

/-- `d` is frozen, with the buffers and the write cursor of `c`. -/
structure FrozenAs (c d : Clouds cfg) : Prop where
  freeze : d.freeze = true
  bufL : d.bufL = c.bufL
  bufR : d.bufR = c.bufR
  wc : d.wc = c.wc

/-- `CLOUD(m)` finds the freeze on: it writes nothing. -/
theorem FrozenAs.genCloud {c : Clouds cfg} {x : Voice cfg} (h : FrozenAs c x.clouds) (sr : F32) (bufLen rng : Word) (m : F32) :
    FrozenAs c (genCloud sr bufLen rng m x).voice.clouds := by
  rw [Machine.genCloud, cloudsWrite_of_frozen h.freeze, cloudsProc_clouds]
  exact { h with }

theorem FrozenAs.engineSample {c : Clouds cfg} {x : Voice cfg} (h : FrozenAs c x.clouds) (sr : F32) (bufLen rng : Word) :
    FrozenAs c (engineSample sr bufLen rng x).voice.clouds :=
  engineSample_induction (P := fun x => FrozenAs c x.clouds) h (fun _ h => h) (fun _ h => h) (fun _ h => h) (fun _ h => h)
    fun m _ h => h.genCloud sr bufLen rng m

/-- A replacement of voice `v` that keeps a frozen engine as it was keeps it in every voice. -/
theorem FrozenAs.of_set {c : Clouds cfg} {s t : State cfg} {v w : Fin cfg.nv} {y : Voice cfg} (h : FrozenAs c (s.voice w).clouds)
    (ht : t.voices = s.voices.set v y) (hy : FrozenAs c (s.voice v).clouds → FrozenAs c y.clouds) :
    FrozenAs c (t.voice w).clouds :=
  State.voice_of_set (P := fun x => FrozenAs c x.clouds) ht h fun e => hy (e ▸ h)

theorem FrozenAs.renderLoop {c : Clouds cfg} {s : State cfg} {w : Fin cfg.nv} (h : FrozenAs c (s.voice w).clouds) (v : Fin cfg.nv)
    (n f : Nat) : FrozenAs c ((State.renderLoop v n f s).voice w).clouds :=
  renderLoop_induction (P := fun t => FrozenAs c (t.voice w).clouds) h
    (fun t _ _ _ ht => ht.of_set (v := v) rfl fun hv => hv.engineSample t.sr t.bufLen t.rngIdx)
    fun _ ht => ht.of_set (v := v) rfl fun hv => hv

theorem freezeKeeps_renderAll (s : State cfg) (l : List (Fin cfg.nv)) (n : Nat) (w : Fin cfg.nv) :
    FreezeKeeps (s.voice w).clouds ((l.foldl (fun t v => t.renderVoice v n) s).voice w).clouds := by
  intro hf
  obtain ⟨-, hL, hR, hwc⟩ := renderAll_induction (P := fun t => FrozenAs (s.voice w).clouds (t.voice w).clouds)
    ⟨hf, rfl, rfl, rfl⟩ (fun _ v _ h => h.renderLoop v n 0) l
  exact ⟨hL, hR, hwc⟩

/-- Every command but `PREPARE` leaves a frozen buffer and its cursor alone. -/
theorem exec_freezeKeeps {i : Instr} {s t : State} (h : exec i s = .next t) (hi : ∀ vid arg ops, i ≠ .prepare vid arg ops)
    (w : Fin Config.NV) : FreezeKeeps (s.voice w).clouds (t.voice w).clouds := by
  cases i with
  | prepare vid arg ops => exact absurd rfl (hi vid arg ops)
  | nop vid arg ops | clrerr vid arg ops | peek vid arg ops | wrparam vid arg ops | wtGet vid arg ops =>
    exact .of_eq (congrArg _ (exec_touches_no_voice h ⟨vid, arg, ops, by simp⟩ w))
  | setglobal vid arg ops =>
    rcases execSetglobal_next h with ⟨f, rfl⟩ | ⟨_, rfl⟩
    · exact .of_eq rfl
    · rw [State.voice_updVoices]
      exact fun _ => ⟨rfl, rfl, rfl⟩
  | noteoff vid arg ops =>
    rcases execNoteoff_next h with ⟨f, rfl⟩ | ⟨_, rfl⟩
    · exact .of_eq rfl
    · rw [State.voice_updVoices]
      exact .of_eq (voiceNoteOff_clouds _ _ _)
  | noteon vid arg ops =>
    rcases execNoteon_next h with ⟨f, rfl⟩ | ⟨_, rfl⟩
    · exact .of_eq rfl
    · exact freezeKeeps_of_set (State.startVoice_voices s _ _ _) (.of_eq rfl) w
  | render vid arg ops =>
    rcases execRender_next h with ⟨f, rfl⟩ | ⟨_, _, _, ht⟩
    · exact .of_eq rfl
    · rw [ht]
      exact freezeKeeps_renderAll s (voiceNumbers Config.std) _ w
  | vRender vid arg ops =>
    rcases execVRender_next h with ⟨f, rfl⟩ | ⟨v, _, _, _, _, rfl⟩
    · exact .of_eq rfl
    · exact freezeKeeps_renderAll s [v] _ w
  | grWrite => exact runVoice_freezeKeeps h (fun _ => rfl) (fun _ => freezeKeeps_write _ _ _ _) w
  | grProc => exact runVoice_freezeKeeps h (fun _ => rfl) (fun _ => freezeKeeps_proc s.sr s.bufLen s.rngIdx _) w
  | vSetclouds => exact runVoice_freezeKeeps h (fun _ => rfl) (fun _ _ => ⟨rfl, rfl, rfl⟩) w
  | vStop => exact runVoice_freezeKeeps h (fun _ => rfl) (fun _ => .of_eq (voiceStop_clouds _ _ _)) w
  | oscSetfreq | oscSetwave | oscReset =>
    exact runVoice_freezeKeeps h (fun _ => rfl) (fun _ => .of_eq (updOsc_clouds _ _ _)) w
  | envSetparams | envNoteon | envNoteoff | envNext =>
    exact runVoice_freezeKeeps h (fun _ => rfl) (fun _ => .of_eq (setEnv_clouds _ _ _)) w
  | vStart | vSetmode | vSetrings | vSetwt | vSetmix | vSetenv | vSetfilt | vSetosc | mrSetparams | mrTrigger | mrProc
  | ksSetfreq | ksTrigger | ksGet | oscNext | fltProc | fltReset =>
    exact runVoice_freezeKeeps h (fun _ => rfl) (fun _ => .of_eq rfl) w

/-- Settles O27, by the commands: only a write moves the buffers, and it finds the freeze on. -/
theorem freezeKeepsBuffers : Obligations.FreezeKeepsBuffers :=
  fun _ _ _ v h hi hf => exec_freezeKeeps h hi v hf

end Sys2Proof.Machine

/-! The configuration that `PREPARE` writes (`10_state.md` R32, `47_voice_pool_and_system.md` R362): products of a legal sample rate lie
between the products of its bounds. -/

namespace Sys2Proof

theorem F32.ofRatio_mono {num num' den : Nat} (hd : 0 < den) (h : num ≤ num') :
    (F32.ofRatio false num den).le (F32.ofRatio false num' den) = true :=
  (F32.le_iff _ _).mpr ⟨_, _, F32.key_pack_pos (roundMagnitude_le_infinity _ _), F32.key_pack_pos (roundMagnitude_le_infinity _ _),
    magKey_le (roundMagnitude_mono hd hd (Nat.mul_le_mul_right den h)) (roundMagnitude_le_infinity _ _)⟩

/-- `int` keeps the order of finite values that are not negative. -/
theorem F32.toInt_le_toInt {x y : F32} {s : Bool} {u : Nat} (h0 : F32.zero.le x = true) (h : x.le y = true)
    (hy : y.value = .fin s u) : x.toInt ≤ y.toInt := by
  obtain ⟨_, _, hvy, hsy, _⟩ := F32.fin_of_le (F32.le_trans h0 h) (F32.le_self_right h) hy
  obtain ⟨_, _, hvx, hsx, hu⟩ := F32.fin_of_le h0 h hvy
  rw [F32.toInt_of_fin hvx hsx, F32.toInt_of_fin hvy hsy]
  exact Nat.div_le_div_right hu

/-- Multiplication by a finite value without a sign keeps the order of such values. -/
theorem F32.mul_le_mul_left {c x y : F32} {uc ux uy : Nat} (hc : c.value = .fin false uc) (hx : x.value = .fin false ux)
    (hy : y.value = .fin false uy) (h : ux ≤ uy) : (c.mul x).le (c.mul y) = true := by
  rw [F32.mul_of_fin hc hx, F32.mul_of_fin hc hy]
  exact F32.ofRatio_mono unitsPerOne_pos (Nat.mul_le_mul_left uc h)

theorem srMin_value : Config.srMin.value = .fin false (1000 * unitsPerOne) := by decide +kernel

theorem srMax_value : Config.srMax.value = .fin false (192000 * unitsPerOne) := by decide +kernel

/-- The units of a legal sample rate. -/
theorem F32.value_rate {sr : F32} (h : F32.between Config.srMin Config.srMax sr = true) :
    ∃ u, sr.value = .fin false u ∧ 1000 * unitsPerOne ≤ u ∧ u ≤ 192000 * unitsPerOne := by
  obtain ⟨hlo, hhi⟩ := (F32.between_iff _ _ _).mp h
  obtain ⟨s, u, hv, hs, hu⟩ := F32.fin_of_le (F32.le_trans (F32.nonneg_of_value srMin_value (by simp)) hlo) hhi srMax_value
  have hu0 := F32.units_le srMin_value hv hlo
  have hpos := unitsPerOne_pos
  cases s with
  | false => exact ⟨u, hv, hu0, hu⟩
  | true => exact absurd (hs rfl) (by omega)

/-- The integer of a factor times a legal sample rate lies between those for the least rate and for the greatest. -/
theorem F32.toInt_mul_rate {c sr : F32} {uc : Nat} (hc : c.value = .fin false uc)
    (hf : (c.mul Config.srMax).isFinite = true) (hsr : F32.between Config.srMin Config.srMax sr = true) :
    (c.mul Config.srMin).toInt ≤ (c.mul sr).toInt ∧ (c.mul sr).toInt ≤ (c.mul Config.srMax).toInt := by
  obtain ⟨u, hv, hlo, hhi⟩ := F32.value_rate hsr
  obtain ⟨_, _, hmax⟩ := F32.value_of_isFinite hf
  have hle := F32.mul_le_mul_left hc hv srMax_value hhi
  have h0 : F32.zero.le (c.mul sr) = true := F32.mul_nonneg_of_fin hc hv (by simp) (by simp)
  have h0min : F32.zero.le (c.mul Config.srMin) = true := F32.mul_nonneg_of_fin hc srMin_value (by simp) (by simp)
  obtain ⟨_, _, hprod, _⟩ := F32.fin_of_le h0 hle hmax
  exact ⟨F32.toInt_le_toInt h0min (F32.mul_le_mul_left hc srMin_value hv hlo) hprod, F32.toInt_le_toInt h0 hle hmax⟩

end Sys2Proof

namespace Sys2Proof.Machine

variable {cfg : Config.Params}

theorem toNat_natWord {n : Nat} (h : n < 2 ^ 32) : (natWord n).toNat = n := by rw [natWord, BitVec.toNat_ofNat, Nat.mod_eq_of_lt h]

theorem clampRate_between (x : F32) : F32.between Config.srMin Config.srMax (clampRate Config.std x) = true :=
  between_clamp (by decide +kernel) x

theorem clampBlock_bounds (n : Nat) :
    1 ≤ (natWord (clampBlock cfg n)).toNat ∧ (natWord (clampBlock cfg n)).toNat ≤ cfg.maxBlockCap := by
  have h : clampBlock cfg n = min (max n 1) cfg.maxBlockCap := rfl
  obtain ⟨h1, h2⟩ := cfg.maxBlockCapBounds
  rw [toNat_natWord (by omega)]
  omega

/-- A fade of `ms` has at least one sample, if `ms` at the greatest legal rate is a number that a register holds. -/
theorem one_le_fadeLength {ms sr : F32} {u : Nat} (hms : ms.value = .fin false u) (hf : (ms.mul Config.srMax).isFinite = true)
    (hmax : (ms.mul Config.srMax).toInt < 2 ^ 32) (hsr : F32.between Config.srMin Config.srMax sr = true) :
    1 ≤ (fadeLength ms sr).toNat := by
  have h : fadeLength ms sr = natWord (max 1 (ms.mul sr).toInt) := rfl
  have hle := (F32.toInt_mul_rate hms hf hsr).2
  rw [h, toNat_natWord (by omega)]
  omega

/-- Four seconds at a legal rate are a positive number of samples that `BUFLEN` holds. -/
theorem toNat_bufLen {sr : F32} (hsr : F32.between Config.srMin Config.srMax sr = true) :
    (natWord ((F32.ofNat 4).mul sr).toInt).toNat = ((F32.ofNat 4).mul sr).toInt ∧ 1 ≤ ((F32.ofNat 4).mul sr).toInt := by
  obtain ⟨u, hu, -⟩ := F32.value_ofNat (n := 4) (by norm_num)
  obtain ⟨hlo, hhi⟩ := F32.toInt_mul_rate hu (by decide +kernel) hsr
  have hmin : ((F32.ofNat 4).mul Config.srMin).toInt = 4000 := by decide +kernel
  have hmax : ((F32.ofNat 4).mul Config.srMax).toInt = 768000 := by decide +kernel
  exact ⟨toNat_natWord (by omega), by omega⟩

/-- `PREPARE` configures the block legally, whatever its operands. -/
theorem State.prepare_configOk (s : State) (r : F32) (n : Nat) : (s.prepare r n).configOk := by
  have hsr := clampRate_between r
  obtain ⟨hb1, hb2⟩ := clampBlock_bounds (cfg := Config.std) n
  obtain ⟨hlen, hlen1⟩ := toNat_bufLen hsr
  refine .inr ⟨hsr, hb1, hb2, ?_, ?_, hlen.symm ▸ hlen1, hlen⟩
  · have hms := F32.value_pack false (m := roundMagnitude (10 * unitsPerOne) 1000) (by decide +kernel)
    exact one_le_fadeLength (ms := F32.dec 10 1000) hms (by decide +kernel) (by decide +kernel) hsr
  · have hms := F32.value_pack false (m := roundMagnitude (2 * unitsPerOne) 1000) (by decide +kernel)
    exact one_le_fadeLength (ms := F32.dec 2 1000) hms (by decide +kernel) (by decide +kernel) hsr

theorem exec_configOk {i : Instr} {s t : State} (h : exec i s = .next t) (hs : s.configOk) : t.configOk := by
  by_cases hp : ∃ vid arg ops, i = .prepare vid arg ops
  · obtain ⟨vid, arg, ops, rfl⟩ := hp
    rcases execPrepare_next h with ⟨f, rfl⟩ | ⟨_, rfl⟩
    · exact hs
    · exact s.prepare_configOk _ _
  · exact ((exec_effect h).sameConfig hp).configOk hs

theorem step_configOk {s t : State} (h : step s = .next t) (hs : s.configOk) : t.configOk :=
  step_induction (P := State.configOk) (fun u a hu => (State.land_voices_config u a).2.configOk hu) (fun _ _ hu => hu)
    (fun _ _ hu => hu) (fun _ _ _ hu => hu) (fun _ _ _ he hu => exec_configOk he hu) h hs

end Sys2Proof.Machine

/-! The cursors (`43_karplus_strong.md` R250, `10_state.md` R42): `KS_SETFREQ` writes a legal length and the cursor 0, and a cursor that
moves on is taken modulo the length of its memory. -/

namespace Sys2Proof.Machine

variable {cfg : Config.Params}

/-- The length law stays within 2 and `KS_CAP` (R251). -/
theorem ksLength_bounds (sr f : F32) : 2 ≤ ksLength cfg sr f ∧ ksLength cfg sr f ≤ cfg.ksCap := by
  have h : ksLength cfg sr f = min (max ((sr.div f).toInt + 1) 2) cfg.ksCap := rfl
  obtain ⟨h3, -⟩ := cfg.ksCapBounds
  omega

theorem karplusSetFreq_len (sr f : F32) (k : Karplus) :
    (karplusSetFreq cfg sr f k).len.toNat = ksLength cfg sr (clampFreq f) :=
  toNat_natWord ((ksLength_bounds sr _).2.trans_lt cfg.ksCapBounds.2)

/-- The next position in a memory with at least one word lies in it. -/
theorem toNat_succ_umod_lt {n : Word} (h : 0 < n.toNat) (wc : Word) : ((wc + 1) % n).toNat < n.toNat := by
  rw [BitVec.toNat_umod]
  exact Nat.mod_lt _ h

/-- The delay line has a legal length and its cursor inside, and the write cursor `wc` is inside a buffer of `bufLen` frames. -/
structure CursorsIn (cfg : Config.Params) (bufLen : Word) (k : Karplus) (wc : Word) : Prop where
  two_le : 2 ≤ k.len.toNat
  le_cap : k.len.toNat ≤ cfg.ksCap
  line : k.wc.toNat < k.len.toNat
  buf : wc.toNat < bufLen.toNat

theorem voiceCursorsOk_iff (bufLen : Word) (x : Voice cfg) :
    voiceCursorsOk bufLen x = true ↔ CursorsIn cfg bufLen x.karplus x.clouds.wc := by
  simp only [voiceCursorsOk, Bool.and_eq_true, decide_eq_true_eq]
  exact ⟨fun ⟨⟨⟨h1, h2⟩, h3⟩, h4⟩ => ⟨h1, h2, h3, h4⟩, fun ⟨h1, h2, h3, h4⟩ => ⟨⟨⟨h1, h2⟩, h3⟩, h4⟩⟩

theorem cursorsIn_setFreq {bufLen wc : Word} (h : wc.toNat < bufLen.toNat) (sr f : F32) (k : Karplus) :
    CursorsIn cfg bufLen (karplusSetFreq cfg sr f k) wc := by
  obtain ⟨h2, hcap⟩ := ksLength_bounds (cfg := cfg) sr (clampFreq f)
  rw [← karplusSetFreq_len sr f k] at h2 hcap
  exact ⟨h2, hcap, Nat.zero_lt_of_lt h2, h⟩

theorem CursorsIn.trigger {bufLen wc : Word} {k : Karplus} (h : CursorsIn cfg bufLen k wc) (w : F32) (rng : Word) :
    CursorsIn cfg bufLen (karplusTrigger cfg w rng k) wc := { h with }

theorem CursorsIn.get {bufLen wc : Word} {k : Karplus} (h : CursorsIn cfg bufLen k wc) :
    CursorsIn cfg bufLen (karplusGet cfg k).1 wc :=
  { h with line := toNat_succ_umod_lt (Nat.zero_lt_of_lt h.line) k.wc }

theorem CursorsIn.write {bufLen : Word} {k : Karplus} {c : Clouds cfg} (h : CursorsIn cfg bufLen k c.wc) (l r : F32) :
    CursorsIn cfg bufLen k (cloudsWrite bufLen l r c).wc := by
  cases hf : c.freeze
  · rw [cloudsWrite_of_unfrozen hf]
    exact { h with buf := toNat_succ_umod_lt (Nat.zero_lt_of_lt h.buf) c.wc }
  · rwa [cloudsWrite_of_frozen hf]

theorem cloudsProc_wc (sr : F32) (bufLen rng : Word) (c : Clouds cfg) : (cloudsProc sr bufLen rng c).clouds.wc = c.wc := by
  rw [cloudsProc_clouds]

theorem CursorsIn.engineSample {bufLen : Word} {x : Voice cfg} (h : CursorsIn cfg bufLen x.karplus x.clouds.wc) (sr : F32) (rng : Word) :
    CursorsIn cfg bufLen (engineSample sr bufLen rng x).voice.karplus (engineSample sr bufLen rng x).voice.clouds.wc :=
  engineSample_induction (P := fun x => CursorsIn cfg bufLen x.karplus x.clouds.wc) h (fun _ h => h) (fun _ h => h.get) (fun _ h => h)
    (fun _ h => h) fun m _ h => (cloudsProc_wc sr bufLen rng _).symm ▸ h.write m.san m.san

theorem cursorsIn_preparedVoice {bufLen : Word} (h : 0 < bufLen.toNat) (sr : F32) :
    CursorsIn cfg bufLen (preparedVoice cfg sr).karplus (preparedVoice cfg sr).clouds.wc :=
  cursorsIn_setFreq (wc := 0) h sr _ _

theorem setEnv_karplus (x : Voice cfg) (k : Bool) (e : Env) : (setEnv x k e).karplus = x.karplus := by cases k <;> rfl

theorem voiceStop_karplus (sr : F32) (k : Bool) (x : Voice cfg) : (voiceStop sr k x).karplus = x.karplus := by
  rcases voiceStop_cases sr k x with h | ⟨_, _, h⟩ | ⟨_, _, _, h⟩ <;> rw [h]

/-- The cursors of a voice of a prepared block lie inside their memories. -/
def cursorsWhenReady (s : State) (x : Voice Config.std) : Prop :=
  s.ready = true → CursorsIn Config.std s.bufLen x.karplus x.clouds.wc

/-- Every update that a command makes keeps the cursors of a voice inside. -/
theorem cursorsWhenReady_keeps : VoiceKeeps cursorsWhenReady cursorsWhenReady where
  config s t x hc h hr := by
    have hready := hc.ready
    obtain ⟨_, _, _, _, hbuf⟩ := hc
    rw [hbuf]
    exact h (hready ▸ hr)
  prepare s r n _ := by
    obtain ⟨hlen, hpos⟩ := toNat_bufLen (clampRate_between r)
    exact cursorsIn_preparedVoice (hlen.symm ▸ hpos) _
  osc _ _ _ _ _ _ h := ⟨h, h, h, h⟩
  setOscs _ _ _ _ _ _ _ _ h := h
  setRings _ _ _ _ _ _ _ _ _ h := h
  ringsRun _ _ _ _ h := ⟨h, h⟩
  setClouds _ _ _ _ _ _ _ _ _ h := h
  cloudsRun s x l r rng _ h := ⟨fun hr => (h hr).write l r, fun hr => (cloudsProc_wc s.sr s.bufLen rng x.clouds).symm ▸ h hr⟩
  karplus _ _ w rng _ h := ⟨fun hr => cursorsIn_setFreq (h hr).buf _ _ _, fun hr => (h hr).trigger w rng, fun hr => (h hr).get⟩
  setWt _ _ _ _ _ _ _ _ h := h
  env _ x k _ _ _ _ _ h := by
    simp only [cursorsWhenReady, setEnv_karplus, setEnv_clouds]
    exact ⟨h, h, h, h⟩
  setFilt _ _ _ _ _ _ _ h := h
  filtRun _ _ _ _ _ _ h := ⟨h, h⟩
  mode _ _ _ _ _ _ _ _ _ h := ⟨h, h⟩
  start _ _ _ _ _ _ h hr := (cursorsIn_setFreq (h hr).buf _ _ _).trigger _ _
  stop s x k _ h := by
    rw [cursorsWhenReady, voiceStop_karplus, voiceStop_clouds]
    exact h
  frame s _ _ _ h hr := (h hr).engineSample s.sr s.rngIdx
  ends _ _ _ h _ := h
  goesOn _ _ _ h _ := h

theorem State.cursorsOk_iff (s : State) : s.cursorsOk ↔ s.configOk ∧ ∀ v, cursorsWhenReady s (s.voice v) := by
  simp only [State.cursorsOk, voiceCursorsOk_iff]
  exact and_congr_right fun _ => forall_comm

/-- Settles O57: `PREPARE` alone configures, with clamped values, and every cursor moves modulo the length of its memory. -/
theorem stepKeepsCursors : Obligations.StepKeepsCursors := by
  intro s t h h0
  rw [State.cursorsOk_iff] at h0 ⊢
  exact ⟨step_configOk h h0.1, cursorsWhenReady_keeps.step h h0.2⟩

end Sys2Proof.Machine

/-! The commands of the Karplus-Strong oscillator in a prepared block (`43_karplus_strong.md` R252, R254, R256). -/

namespace Sys2Proof.Machine

variable {cfg : Config.Params}

/-- The fill writes draw `rng + a` to word `a`, for every `a` below `n`, and no other word (R254). -/
theorem read_karplusFill {m : Mem} (h : m.wf = true) (vel : F32) (rng : Word) (n a : Nat) :
    (karplusFill cfg vel rng n m).read a =
      if a < n then ((bipolarDraw (drawOf cfg (rng + natWord a))).mul vel).bits else m.read a := by
  induction n with
  | zero => rfl
  | succ n ih =>
    rw [karplusFill, Mem.read_write (wf_karplusFill h vel rng n), ih]
    rcases Nat.lt_trichotomy a n with hlt | rfl | hgt
    · rw [if_neg hlt.ne, if_pos hlt, if_pos (Nat.lt_succ_of_lt hlt)]
    · rw [if_pos rfl, if_pos a.lt_succ_self]
    · rw [if_neg hgt.ne', if_neg (by omega), if_neg (by omega)]

/-- Settles O29: the command is `karplusTrigger`, which fills the line in index order. -/
theorem karplusTriggerCommand : Obligations.KarplusTriggerCommand := by
  intro s v w hr hmem
  have hwf : VoiceWf (s.voice v) := ((State.memOk_iff s).mp hmem).2 v
  refine ⟨_, runVoice_vidOf rfl rfl rfl rfl hr, ?_, fun a => ?_⟩
  · rw [State.voice_setRng, State.voice_updVoice_self]
    exact congrArg (State.setRng · _) (State.updVoice_congr rfl)
  · rw [State.voice_setRng, State.voice_updVoice_self]
    exact read_karplusFill hwf.line _ _ _ a

theorem std_ksDamp : Config.std.ksDamp = F32.dec 995 1000 := by decide +kernel

/-- The line after `KS_GET`, word by word (R256). -/
theorem read_karplusAdvance {k : Karplus} (h : k.line.wf = true) (a : Nat) :
    (karplusAdvance cfg k).line.read a =
      if a = k.wc.toNat then ((((karplusOut k).add k.prev).mul half).mul cfg.ksDamp).bits else k.line.read a :=
  Mem.read_write h _ _ a

/-- Settles O30: the command is `karplusGet`, which writes the one word at the cursor. -/
theorem karplusGetCommand : Obligations.KarplusGetCommand := by
  intro s v hr hmem k out
  have hwf : VoiceWf (s.voice v) := ((State.memOk_iff s).mp hmem).2 v
  refine ⟨_, runVoice_vidOf rfl rfl rfl rfl hr, ?_, fun a => ?_⟩
  · rw [State.voice_pushF, State.voice_updVoice_self]
    exact congrArg (State.push · _) (State.updVoice_congr rfl)
  · rw [State.voice_pushF, State.voice_updVoice_self, ← std_ksDamp]
    exact read_karplusAdvance hwf.line a

/-! Silence (R252). -/

/-- The damped average of +0 and +0 is +0. -/
theorem damped_zero : ((F32.zero.add F32.zero).mul half).mul Config.std.ksDamp = F32.zero := by decide +kernel

/-- A line that is +0 at the cursor, after a sample that was +0, stays as it is. -/
theorem karplusAdvance_silent {k : Karplus} (hwf : k.line.wf = true) (hout : karplusOut k = F32.zero) (hprev : k.prev = F32.zero) :
    karplusAdvance Config.std k = { k with wc := (k.wc + 1) % k.len } := by
  have hline : (karplusAdvance Config.std k).line = k.line := by
    refine Mem.ext (Mem.wf_write hwf _ _) hwf fun a => ?_
    rw [read_karplusAdvance hwf, hout, hprev, damped_zero, ← hout]
    split
    · rename_i ha
      rw [ha]
      rfl
    · rfl
  calc karplusAdvance Config.std k
      = { k with line := (karplusAdvance Config.std k).line, prev := karplusOut k, wc := (k.wc + 1) % k.len } := rfl
    _ = { k with wc := (k.wc + 1) % k.len } := by rw [hline, hout, ← hprev]

/-- After `KS_SETFREQ`, every position in the line is +0. -/
theorem karplusOut_setFreq (sr f : F32) {k : Karplus} {wc : Word} (h : wc.toNat < (karplusSetFreq cfg sr f k).len.toNat) :
    karplusOut { karplusSetFreq cfg sr f k with wc := wc } = F32.zero := by
  rw [karplusSetFreq_len] at h
  refine congrArg F32.mk ((Mem.read_zeroBelow k.line cfg.ksCap wc.toNat).trans (if_pos ?_))
  exact h.trans_le (ksLength_bounds sr _).2

/-- `KS.GET` of a voice whose line is +0 at the cursor, after a sample that was +0. -/
theorem exec_ksGet_silent {s : State} {v : Fin Config.NV} (hr : s.ready = true) (hwf : (s.voice v).karplus.line.wf = true)
    (hout : karplusOut (s.voice v).karplus = F32.zero) (hprev : (s.voice v).karplus.prev = F32.zero) :
    ∃ t, exec (.ksGet (vidOf v) 0 []) s = .next t ∧ t.rsp = s.rsp ++ [0] ∧
      (t.voice v).karplus.line = (s.voice v).karplus.line ∧ (t.voice v).karplus.prev = F32.zero := by
  refine ⟨_, runVoice_vidOf rfl rfl rfl rfl hr, congrArg (fun y : F32 => s.rsp ++ [y.bits]) hout, ?_⟩
  rw [State.voice_pushF, State.voice_updVoice_self, karplusGet, karplusAdvance_silent hwf hout hprev]
  exact ⟨rfl, hprev⟩

/-- Settles O28: the command is `karplusSetFreq`, and in the line that it clears `KS_GET` is silent. -/
theorem karplusSetfreqCommand : Obligations.KarplusSetfreqCommand := by
  intro s v w hr
  refine ⟨_, runVoice_vidOf rfl rfl rfl rfl hr, ?_, ?_, ?_⟩
  · rw [State.voice_updVoice_self]
    exact State.updVoice_congr rfl
  · rw [State.voice_updVoice_self]
    exact ⟨karplusSetFreq_len _ _ _, rfl, rfl, fun a => Mem.read_zeroBelow _ _ a⟩
  · rw [State.voice_updVoice_self]
    intro hmem n hn u hu
    have hwf : VoiceWf (s.voice v) := ((State.memOk_iff s).mp hmem).2 v
    have hwc : (natWord n).toNat < (karplusSetFreq Config.std s.sr ⟨w⟩ (s.voice v).karplus).len.toNat :=
      (toNat_natWord (hn.trans (BitVec.isLt _))).symm ▸ hn
    have hk : (u.voice v).karplus = { karplusSetFreq Config.std s.sr ⟨w⟩ (s.voice v).karplus with wc := natWord n } := by
      rw [hu, State.voice_updVoice_self, State.voice_updVoice_self]
      rfl
    have hrsp : u.rsp = s.rsp := hu ▸ rfl
    have hget := exec_ksGet_silent (s := u) (v := v) (hu ▸ hr) (hk ▸ Mem.wf_zeroBelow hwf.line _)
      (hk ▸ karplusOut_setFreq s.sr ⟨w⟩ hwc) (hk ▸ rfl)
    rw [hk, hrsp] at hget
    exact hget

end Sys2Proof.Machine

/-! The wavetable engine (`44_wavetable_engine.md` R271 to R275): `WT.GET` is `wtGet` of its operands. -/

namespace Sys2Proof.Machine

/-- A table word is the sample of its table (R62, R271). -/
theorem wtWord_eq_bits_wtGen (t : Nat) {n : Nat} (h : n < Config.TLEN) : wtWord (Config.TLEN * t + n) = (wtGen t n).bits := by
  rw [wtWord, Nat.mul_add_div (by decide), Nat.div_eq_of_lt h, Nat.mul_add_mod, Nat.mod_eq_of_lt h, Nat.add_zero]

theorem tableSample_eq_wtGen (t : Fin Config.NTABLES) {n : Nat} (h : n < Config.TLEN) : tableSample t n = wtGen t n :=
  congrArg F32.mk (wtWord_eq_bits_wtGen t h)

/-- The read of R273, with the samples written as the sums of R271. -/
theorem wtRead_eq_interpolate_wtGen (t : Fin Config.NTABLES) (ph : F32) :
    wtRead t ph =
      interpolate (wtGen t ((ph.mul (F32.ofNat 2048)).toInt % 2048))
        (wtGen t (((ph.mul (F32.ofNat 2048)).toInt % 2048 + 1) % 2048))
        ((ph.mul (F32.ofNat 2048)).sub (F32.ofNat (ph.mul (F32.ofNat 2048)).toInt)) := by
  rw [← tableSample_eq_wtGen t (Nat.mod_lt _ (by decide)), ← tableSample_eq_wtGen t (Nat.mod_lt _ (by decide))]
  rfl

/-- With no warp, tables A and B are read and morphed (R274). -/
theorem wtUnfolded_of_eqv_zero {w : F32} (h : w.eqv F32.zero = true) (ph : F32) (a b : Fin Config.NTABLES) (m : F32) :
    wtUnfolded ph a b m w = interpolate (wtRead a ph) (wtRead b ph) m := by
  rw [wtUnfolded, h]
  rfl

/-- With a warp, table A alone is read, at the warped phase (R275). -/
theorem wtUnfolded_of_not_eqv_zero {w : F32} (h : w.eqv F32.zero = false) (ph : F32) (a b : Fin Config.NTABLES) (m : F32) :
    wtUnfolded ph a b m w = wtRead a (ph.add (w.mul (Num.sin (Config.twoPi.mul ph)))).frac := by
  rw [wtUnfolded, h]
  rfl

/-- `WT.GET` passes its checks in every state, prepared or not. -/
theorem exec_wtGet (s : State) (phase ta tb morph warp fold : Word) :
    exec (.wtGet 0 0 [phase, ta, tb, morph, warp, fold]) s =
      .next (s.pushF (wtGet ⟨phase⟩ (tableOf ta.toNat) (tableOf tb.toNat) ⟨morph⟩ ⟨warp⟩ ⟨fold⟩)) :=
  runGlobal_of_firstFault (firstFault_of_wellFormed rfl (.inr rfl))

/-- Settles O31: the command is `wtGet`, whose reads interpolate the sums of R271. -/
theorem wavetableGetCommand : Obligations.WavetableGetCommand := by
  unfold Obligations.WavetableGetCommand
  extract_lets sample read table
  have hgen (t n : Nat) : wtGen t n = sample t n := by
    simp only [wtGen, sample, List.foldl_map]
    rfl
  have hread (t : Fin Config.NTABLES) (ph : F32) : wtRead t ph = read t ph := by
    rw [wtRead_eq_interpolate_wtGen, hgen, hgen]
    rfl
  intro s phase ta tb morph warp fold
  refine (exec_wtGet s phase ta tb morph warp fold).trans ?_
  extract_lets ph m w fo a b y
  have hy : wtUnfolded ph (table ta) (table tb) m w = y := by
    cases hw : w.eqv F32.zero
    · rw [wtUnfolded_of_not_eqv_zero hw, hread]
      exact (if_neg (Bool.eq_false_iff.mp hw)).symm
    · rw [wtUnfolded_of_eqv_zero hw, hread, hread]
      exact (if_pos hw).symm
  rw [← hy]
  rfl

/-- The clamp of a warp (R274) is zero only if the warp is. -/
theorem clampBipolar_eqv_zero {w : F32} (h : w.eqv F32.zero = false) : (clampBipolar w).eqv F32.zero = false := by
  unfold clampBipolar F32.clamp
  split
  · decide +kernel
  · split
    · decide +kernel
    · exact h

/-- Settles O32: with a warp, what is folded is read from table A alone. -/
theorem warpDiscardsMorph : Obligations.WarpDiscardsMorph := by
  intro s phase ta tb tb' morph morph' warp fold h
  refine ⟨_, exec_wtGet s phase ta tb morph warp fold, (exec_wtGet s phase ta tb' morph' warp fold).trans ?_⟩
  simp only [wtGet, wtUnfolded_of_not_eqv_zero (clampBipolar_eqv_zero h)]

end Sys2Proof.Machine

/-! Bounded values: sums, products and quotients of values of small magnitude are finite (`00_scope.md` R7). -/

namespace Sys2Proof

theorem natAbs_signedUnits (neg : Bool) (u : Nat) : (signedUnits neg u).natAbs = u := by cases neg <;> simp

/-- `x` is finite and its magnitude is at most the integer `n`. -/
def F32.AbsLe (n : Nat) (x : F32) : Prop := ∃ neg u, x.value = .fin neg u ∧ u ≤ n * unitsPerOne

theorem F32.AbsLe.isFinite {n : Nat} {x : F32} (h : x.AbsLe n) : x.isFinite = true := by
  obtain ⟨_, _, hv, _⟩ := h
  obtain ⟨_, hm, rfl, _⟩ := F32.value_fin hv
  exact F32.isFinite_pack _ hm

/-- A ratio that is at most an integer up to 2^24 rounds to at most that integer. -/
theorem F32.absLe_ofRatio (neg : Bool) {n num den : Nat} (hn : n ≤ 2 ^ 24) (hd : 0 < den) (h : num ≤ n * unitsPerOne * den) :
    (F32.ofRatio neg num den).AbsLe n := by
  obtain ⟨m, hm, he⟩ := exists_magUnits_eq 149 hn
  change magUnits m = n * unitsPerOne at he
  rw [← he] at h
  obtain ⟨u, hv, hu⟩ := F32.value_ofRatio_le neg (by omega) hd h
  exact ⟨neg, u, hv, he ▸ hu⟩

theorem F32.AbsLe.addAs {m n : Nat} {a b : F32} (ha : a.AbsLe m) (hb : b.AbsLe n) (h : m + n ≤ 2 ^ 24) (op : FOp) (flip : Bool) :
    (F32.addAs op a b flip).AbsLe (m + n) := by
  obtain ⟨sa, ua, hva, hua⟩ := ha
  obtain ⟨sb, ub, hvb, hub⟩ := hb
  rw [F32.addAs_of_fin op hva hvb]
  split
  · exact ⟨_, _, F32.value_pack _ (by norm_num), magUnits_zero ▸ Nat.zero_le _⟩
  · refine F32.absLe_ofRatio _ h Nat.one_pos ?_
    rw [Nat.mul_one, Nat.add_mul]
    calc (signedUnits sa ua + signedUnits (sb ^^ flip) ub).natAbs
        ≤ (signedUnits sa ua).natAbs + (signedUnits (sb ^^ flip) ub).natAbs := Int.natAbs_add_le _ _
      _ = ua + ub := by rw [natAbs_signedUnits, natAbs_signedUnits]
      _ ≤ m * unitsPerOne + n * unitsPerOne := Nat.add_le_add hua hub

theorem F32.AbsLe.add {m n : Nat} {a b : F32} (ha : a.AbsLe m) (hb : b.AbsLe n) (h : m + n ≤ 2 ^ 24) : (a.add b).AbsLe (m + n) :=
  ha.addAs hb h .add false

theorem F32.AbsLe.sub {m n : Nat} {a b : F32} (ha : a.AbsLe m) (hb : b.AbsLe n) (h : m + n ≤ 2 ^ 24) : (a.sub b).AbsLe (m + n) :=
  ha.addAs hb h .sub true

theorem F32.AbsLe.mul {m n : Nat} {a b : F32} (ha : a.AbsLe m) (hb : b.AbsLe n) (h : m * n ≤ 2 ^ 24) :
    (a.mul b).AbsLe (m * n) := by
  obtain ⟨sa, ua, hva, hua⟩ := ha
  obtain ⟨sb, ub, hvb, hub⟩ := hb
  rw [F32.mul_of_fin hva hvb]
  refine F32.absLe_ofRatio _ h unitsPerOne_pos ?_
  calc ua * ub ≤ m * unitsPerOne * (n * unitsPerOne) := Nat.mul_le_mul hua hub
    _ = m * n * unitsPerOne * unitsPerOne := by ring

/-- Division by a positive integer does not raise the bound. -/
theorem F32.AbsLe.div_ofNat {m n : Nat} {a : F32} (ha : a.AbsLe m) (h : m ≤ 2 ^ 24) (hn0 : 0 < n) (hn : n ≤ 2 ^ 32) :
    (a.div (F32.ofNat n)).AbsLe m := by
  obtain ⟨sa, ua, hva, hua⟩ := ha
  obtain ⟨ub, hvb, hub⟩ := F32.value_ofNat hn
  have hle := hub hn0
  have hpos := unitsPerOne_pos
  rw [F32.div_of_fin hva hvb (by omega)]
  exact F32.absLe_ofRatio _ h (by omega) (Nat.mul_le_mul hua hle)

theorem F32.absLe_ofNat {n : Nat} (h : n ≤ 2 ^ 24) : (F32.ofNat n).AbsLe n :=
  F32.absLe_ofRatio false h Nat.one_pos (Nat.mul_one _).ge

theorem F32.AbsLe.mono {m n : Nat} {x : F32} (h : x.AbsLe m) (hmn : m ≤ n) : x.AbsLe n := by
  obtain ⟨neg, u, hv, hu⟩ := h
  exact ⟨neg, u, hv, hu.trans (Nat.mul_le_mul_right _ hmn)⟩

theorem F32.absLe_one_of_unit {x : F32} (h0 : F32.zero.le x = true) (h1 : x.le F32.one = true) : x.AbsLe 1 := by
  obtain ⟨s, u, hv, _, hu⟩ := F32.fin_of_le h0 h1 F32.value_one
  exact ⟨s, u, hv, by rwa [Nat.one_mul]⟩

/-- A quotient of two integers, the first at most the second, is at most 1. -/
theorem F32.absLe_div_ofNat {m n : Nat} (hmn : m ≤ n) (h0 : 0 < n) (hn : n ≤ 2 ^ 32) :
    ((F32.ofNat m).div (F32.ofNat n)).AbsLe 1 := by
  obtain ⟨u, hv, hu⟩ := F32.value_ofNat hn
  obtain ⟨hlo, hhi⟩ := F32.div_unit (F32.ofNat_zero ▸ F32.value_ofNat_le m.zero_le) (F32.value_ofNat_le hmn) hv
    (unitsPerOne_pos.trans_le (hu h0))
  exact F32.absLe_one_of_unit hlo hhi

theorem F32.abs_pack (neg : Bool) {m : Nat} (hm : m < 2 ^ 31) : (F32.pack neg m).abs = F32.pack false m := by
  refine congrArg F32.mk (BitVec.eq_of_toNat_eq ?_)
  have hmask : (0x7FFFFFFF : Word).toNat = 2 ^ 31 - 1 := rfl
  rw [BitVec.toNat_and, hmask, Nat.and_two_pow_sub_one_eq_mod]
  cases neg <;> simp only [F32.pack, BitVec.toNat_ofNat] <;> simp <;> omega

theorem F32.absLe_one_of_abs_le {x : F32} (hx : x.isFinite = true) (h : x.abs.le F32.one = true) : x.AbsLe 1 := by
  obtain ⟨neg, m, hm, rfl⟩ := (F32.isFinite_iff x).mp hx
  rw [F32.abs_pack neg (by omega)] at h
  have hv := F32.value_pack false hm
  obtain ⟨_, _, hv', _, hle⟩ := F32.fin_of_le (F32.nonneg_of_value hv (by simp)) h F32.value_one
  rw [hv] at hv'
  cases hv'
  exact ⟨neg, _, F32.value_pack neg hm, by rwa [Nat.one_mul]⟩

/-- P6: the sine of a finite value is at most 1. -/
theorem Num.absLe_sin {x : F32} (hx : x.isFinite = true) : (Num.sin x).AbsLe 1 := by
  obtain ⟨hfin, hle⟩ := Num.sin_bounded hx
  exact F32.absLe_one_of_abs_le hfin hle

end Sys2Proof

/-! The tables (`44_wavetable_engine.md` R271): each partial is at most 1, so the sum of up to 17 of them is finite. -/

namespace Sys2Proof.Machine

theorem harmonicCount_bounds {t : Nat} (ht : t < Config.NTABLES) : 0 < harmonicCount t ∧ harmonicCount t ≤ 17 := by
  rw [Config.NTABLES] at ht
  rw [harmonicCount]
  omega

theorem absLe_wtPartial {t n h : Nat} (ht : t < Config.NTABLES) (hn : n < Config.TLEN) (h0 : 0 < h) (h17 : h ≤ 17) :
    (wtPartial t n h).AbsLe 1 := by
  rw [Config.NTABLES] at ht
  rw [Config.TLEN] at hn
  have htwoPi : Config.twoPi.AbsLe 7 := ⟨_, _, rfl, by decide +kernel⟩
  have htenth : (F32.dec 1 10).AbsLe 1 := F32.absLe_ofRatio false (by norm_num) (by norm_num) (by omega)
  have hone : F32.one.AbsLe 1 := ⟨_, _, F32.value_one, (Nat.one_mul _).ge⟩
  have hhf : (F32.ofNat h).AbsLe 17 := (F32.absLe_ofNat (by omega)).mono h17
  have htp : ((F32.ofNat t).div (F32.ofNat 31)).AbsLe 1 := F32.absLe_div_ofNat (by omega) (by norm_num) (by norm_num)
  have hx : ((F32.ofNat n).div (F32.ofNat 2048)).AbsLe 1 := F32.absLe_div_ofNat hn.le (by norm_num) (by norm_num)
  have hmul := hhf.mul (hone.add ((htp.mul htenth (by norm_num)).mul hhf (by norm_num)) (by norm_num)) (by norm_num)
  have harg := (htwoPi.mul hx (by norm_num)).mul hmul (by norm_num)
  exact (Num.absLe_sin harg.isFinite).div_ofNat (by norm_num) h0 (by omega)

/-- The sum of the first `k` partials is at most `k`. -/
theorem absLe_sum_wtPartial {t n k : Nat} (ht : t < Config.NTABLES) (hn : n < Config.TLEN) (hk : k ≤ 17) :
    ((List.range k).foldl (fun acc h => acc.add (wtPartial t n (h + 1))) F32.zero).AbsLe k := by
  induction k with
  | zero => exact ⟨_, _, F32.value_zero, Nat.zero_le _⟩
  | succ k ih =>
    rw [List.range_succ, List.foldl_append]
    exact (ih (by omega)).add (absLe_wtPartial ht hn k.succ_pos hk) (by omega)

/-- Every sample of a table is finite, with a coarse bound. -/
theorem absLe_tableSample (t : Fin Config.NTABLES) {n : Nat} (hn : n < Config.TLEN) : (tableSample t n).AbsLe 17 := by
  obtain ⟨h0, h17⟩ := harmonicCount_bounds t.isLt
  rw [tableSample_eq_wtGen t hn]
  exact ((absLe_sum_wtPartial t.isLt hn h17).div_ofNat (by omega) h0 (by omega)).mono h17

end Sys2Proof.Machine

/-! The round trip (`44_wavetable_engine.md` R278): adding a zero of either sign keeps a finite value, up to the sign of a zero. -/

namespace Sys2Proof

/-- `y` is `x`, or +0 for an `x` of -0. -/
def F32.SameUpToNegZero (x y : F32) : Prop := y = x ∨ x = F32.pack true 0 ∧ y = F32.zero

theorem F32.SameUpToNegZero.trans {x y z : F32} (hxy : x.SameUpToNegZero y) (hyz : y.SameUpToNegZero z) : x.SameUpToNegZero z := by
  rcases hxy with rfl | ⟨hx, rfl⟩
  · exact hyz
  · rcases hyz with rfl | ⟨h, _⟩
    · exact .inr ⟨hx, rfl⟩
    · exact absurd h (by decide)

theorem F32.SameUpToNegZero.isFinite {x y : F32} (h : x.SameUpToNegZero y) (hx : x.isFinite = true) : y.isFinite = true := by
  rcases h with rfl | ⟨_, rfl⟩
  · exact hx
  · decide

theorem F32.sameUpToNegZero_add_zero {x : F32} (hx : x.isFinite = true) (s : Bool) : x.SameUpToNegZero (x.add (F32.pack s 0)) := by
  obtain ⟨neg, m, hm, rfl⟩ := (F32.isFinite_iff x).mp hx
  rcases m.eq_zero_or_pos with rfl | hpos
  · unfold F32.SameUpToNegZero
    cases neg <;> cases s <;> decide +kernel
  · left
    have hu : 0 < magUnits m := magUnits_zero ▸ magUnits_lt_iff.mpr hpos
    have hsign : decide (signedUnits neg (magUnits m) < 0) = neg := by
      cases neg
      · exact decide_eq_false (by simp)
      · exact decide_eq_true (by simpa using hu)
    have hne : signedUnits neg (magUnits m) ≠ 0 := by cases neg <;> simp [hu.ne']
    rw [F32.add, F32.addAs_of_fin .add (F32.value_pack neg hm) (F32.value_pack s (by norm_num)), magUnits_zero, signedUnits_zero,
      add_zero, if_neg hne, hsign, natAbs_signedUnits, ← Nat.mul_one (magUnits m), F32.ofRatio_exact neg hm Nat.one_pos]

/-- A finite value times +0 is a zero. -/
theorem F32.mul_eq_pack_zero {x y : F32} (hx : x.isFinite = true) (hy : y.isFinite = true) (h : x = F32.zero ∨ y = F32.zero) :
    ∃ s, x.mul y = F32.pack s 0 := by
  obtain ⟨sx, ux, hvx⟩ := F32.value_of_isFinite hx
  obtain ⟨sy, uy, hvy⟩ := F32.value_of_isFinite hy
  refine ⟨sx ^^ sy, ?_⟩
  have hprod : ux * uy = 0 := by
    rcases h with rfl | rfl
    · rw [F32.value_zero] at hvx
      cases hvx
      exact Nat.zero_mul uy
    · rw [F32.value_zero] at hvy
      cases hvy
      exact Nat.mul_zero ux
  rw [F32.mul_of_fin hvx hvy, hprod, F32.ofRatio_zero _ unitsPerOne_pos]

theorem F32.sub_self {x : F32} (hx : x.isFinite = true) : x.sub x = F32.zero := by
  obtain ⟨s, u, hv⟩ := F32.value_of_isFinite hx
  rw [F32.sub, F32.addAs_of_fin .sub hv hv, signedUnits_xor_true, add_neg_cancel, if_pos rfl]
  cases s <;> rfl

end Sys2Proof

namespace Sys2Proof.Machine

/-- An interpolation with the factor +0, or between equal values, stays at its first value. -/
theorem sameUpToNegZero_interpolate {a b fr : F32} (ha : a.isFinite = true) (hd : (b.sub a).isFinite = true) (hfr : fr.isFinite = true)
    (h : fr = F32.zero ∨ b.sub a = F32.zero) : a.SameUpToNegZero (interpolate a b fr) := by
  obtain ⟨s, hs⟩ := F32.mul_eq_pack_zero hfr hd h
  rw [interpolate, hs]
  exact F32.sameUpToNegZero_add_zero ha s

/-- Phase 0.25 reads sample 512, with the factor +0 (R273). -/
theorem wtRead_quarter (t : Fin Config.NTABLES) :
    wtRead t ⟨0x3E800000⟩ = interpolate (tableSample t 512) (tableSample t 513) F32.zero := by
  have hpos : (F32.mk 0x3E800000).mul (F32.ofNat 2048) = F32.ofNat 512 := by decide +kernel
  have hint : (F32.ofNat 512).toInt = 512 := by decide +kernel
  have hfr : (F32.ofNat 512).sub (F32.ofNat 512) = F32.zero := by decide +kernel
  simp only [wtRead, hpos, hint, hfr]
  rfl

theorem sameUpToNegZero_wtRead_quarter (t : Fin Config.NTABLES) : (tableSample t 512).SameUpToNegZero (wtRead t ⟨0x3E800000⟩) := by
  have h512 := absLe_tableSample t (show 512 < Config.TLEN by decide)
  have h513 := absLe_tableSample t (show 513 < Config.TLEN by decide)
  rw [wtRead_quarter]
  exact sameUpToNegZero_interpolate h512.isFinite (h513.sub h512 (by norm_num)).isFinite (by decide) (.inl rfl)

theorem clampUnit_isFinite (x : F32) : (clampUnit x).isFinite = true := by
  obtain ⟨h0, h1⟩ := F32.clamp_mem x (lo := F32.zero) (hi := F32.one) (by decide +kernel)
  exact (F32.absLe_one_of_unit h0 h1).isFinite

/-- At phase 0.25, without warp and fold, a table is morphed with itself (R274). -/
theorem wtGet_quarter (t : Fin Config.NTABLES) (morph : F32) :
    wtGet ⟨0x3E800000⟩ t t morph ⟨0⟩ ⟨0⟩ = interpolate (wtRead t ⟨0x3E800000⟩) (wtRead t ⟨0x3E800000⟩) (clampUnit morph) := by
  have hphase : (F32.mk 0x3E800000).san.frac = ⟨0x3E800000⟩ := by decide +kernel
  have hwarp : (clampBipolar ⟨0⟩).eqv F32.zero = true := by decide +kernel
  have hfold : F32.zero.lt (clampUnit ⟨0⟩) = false := by decide +kernel
  rw [wtGet, hphase, wtUnfolded_of_eqv_zero hwarp, wtFolded, hfold]
  rfl

/-- Settles O33: every sample is a bounded sum, and both the read at sample 512 and the morph add a zero. -/
theorem wavetableRoundTrip : Obligations.WavetableRoundTrip := by
  refine ⟨fun t n hn => (absLe_tableSample t hn).isFinite, fun s k morph => ?_⟩
  have htable : tableOf (BitVec.ofNat 32 k).toNat = k := by decide +revert
  have hread := sameUpToNegZero_wtRead_quarter k
  have hfin := hread.isFinite (absLe_tableSample k (by decide)).isFinite
  have hdiff := F32.sub_self hfin
  have hmorph := sameUpToNegZero_interpolate hfin (hdiff ▸ by decide) (clampUnit_isFinite ⟨morph⟩) (.inr hdiff)
  refine ⟨_, exec_wtGet s _ _ _ _ _ _, ?_⟩
  rw [htable, wtGet_quarter]
  rcases hread.trans hmorph with hsame | ⟨hneg, hzero⟩
  · exact .inl (congrArg F32.bits hsame)
  · exact .inr ⟨congrArg F32.bits hneg, congrArg F32.bits hzero⟩

end Sys2Proof.Machine

/-! The group setters in a prepared block (`40_basic_oscillator.md` R186, `42_granular_engine.md` R221, `44_wavetable_engine.md` R276,
`46_voice.md` R321, R322). -/

namespace Sys2Proof.Machine

theorem modeCode_modeOfCode (n : Nat) : modeCode (modeOfCode n) = min n 8 := by
  have h : clampu n 8 ≤ 8 := Nat.min_le_right n 8
  show modeCode (modeOfCode n) = clampu n 8
  unfold modeOfCode
  generalize clampu n 8 = k at h
  interval_cases k <;> rfl

theorem waveCode_waveOfCode (n : Nat) : waveCode (waveOfCode n) = min n 4 := by
  have h : clampu n 4 ≤ 4 := Nat.min_le_right n 4
  show waveCode (waveOfCode n) = clampu n 4
  unfold waveOfCode
  generalize clampu n 4 = k at h
  interval_cases k <;> rfl

/-- The two waveform codes that the `ARG` of `V.SETOSC` packs (R144 (f), R186). -/
theorem argLow_packed : ∀ n0 n1 : Fin 16, argLow (BitVec.ofNat 8 (16 * n1 + n0)) = n0 := by decide

theorem argHigh_packed : ∀ n0 n1 : Fin 16, argHigh (BitVec.ofNat 8 (16 * n1 + n0)) = n1 := by decide

/-- The freeze flag is `clampu(ARG, 1)` (R221): any `ARG` but 0 sets it. -/
theorem clampu_one_iff (arg : Byte) : clampu arg.toNat 1 = 1 ↔ arg ≠ 0 := by
  rw [clampu, ne_eq, ← BitVec.toNat_inj]
  show min arg.toNat 1 = 1 ↔ ¬arg.toNat = 0
  omega

/-- Settles O36: each command passes its checks and is its setter, which clamps. -/
theorem groupSetterCommands : Obligations.GroupSetterCommands := by
  intro s v hr
  refine ⟨fun arg => ⟨_, modeCode_modeOfCode _, runVoice_vidOf rfl rfl rfl rfl hr⟩,
    fun a b c d e => runVoice_vidOf rfl rfl rfl rfl hr,
    fun n0 n1 d m p => ⟨_, _, waveCode_waveOfCode n0, waveCode_waveOfCode n1, ?_⟩,
    fun a b m w f => ⟨tableOf a.toNat, tableOf b.toNat, rfl, rfl, runVoice_vidOf rfl rfl rfl rfl hr⟩,
    fun arg p z d q t => ?_⟩
  · refine Eq.trans (runVoice_vidOf rfl rfl rfl rfl hr) ?_
    rw [argLow_packed, argHigh_packed]
    rfl
  · simp only [← clampu_one_iff]
    exact runVoice_vidOf rfl rfl rfl rfl hr

end Sys2Proof.Machine

/-! Levels (`45_envelope_and_filter.md` R297): an increment that is not negative keeps the level in [0, 1] below 1, and a decrement that
is not negative keeps it there above a floor of [0, 1]. -/

namespace Sys2Proof

theorem F32.inUnit_iff (x : F32) : x.inUnit = true ↔ F32.zero.le x = true ∧ x.le F32.one = true := F32.between_iff _ _ _

theorem F32.zero_inUnit : F32.zero.inUnit = true := by decide +kernel

theorem F32.one_inUnit : F32.one.inUnit = true := by decide +kernel

theorem F32.lt_of_lt_of_le {a b c : F32} (h1 : a.lt b = true) (h2 : b.le c = true) : a.lt c = true := by
  refine (F32.le_or_lt (F32.le_self_right h2) (F32.le_self_left (F32.le_of_lt h1))).resolve_left fun h => ?_
  rw [F32.not_lt_of_le (F32.le_trans h2 h)] at h1
  cases h1

/-- A value of at least 1 scales a positive finite value up. -/
theorem F32.le_mul_of_one_le {x y : F32} {sx : Bool} {ux uy : Nat} (hpos : F32.zero.lt x = true) (hx : x.value = .fin sx ux)
    (hy : y.value = .fin false uy) (h : unitsPerOne ≤ uy) : x.le (x.mul y) = true := by
  rcases F32.value_of_pos hpos with ⟨u, -, hv⟩ | hv
  · rw [F32.mul_of_fin hv hy]
    exact F32.le_ofRatio unitsPerOne_pos hv (Nat.mul_le_mul_left u h)
  · rw [hv] at hx
    cases hx

/-- A value of [0, 1] is finite. -/
theorem F32.fin_of_inUnit {x : F32} (h : x.inUnit = true) :
    ∃ neg u, x.value = .fin neg u ∧ (neg = true → u = 0) ∧ u ≤ unitsPerOne := by
  obtain ⟨h0, h1⟩ := (F32.inUnit_iff x).mp h
  exact F32.fin_of_le h0 h1 F32.value_one

theorem F32.sub_of_inf {a b : F32} {sa : Bool} {ua : Nat} (ha : a.value = .fin sa ua) (hb : b.value = .inf false) :
    a.sub b = F32.infinity true := by
  unfold F32.sub F32.addAs
  rw [ha, hb]
  rfl

/-- What is not negative lowers a value of [0, 1], to minus infinity at the lowest. -/
theorem F32.sub_le_self {x b : F32} (hx : x.inUnit = true) (hb : F32.zero.le b = true) : (x.sub b).le x = true := by
  obtain ⟨sx, ux, hvx, hzx, -⟩ := F32.fin_of_inUnit hx
  rcases F32.nonneg_cases hb with ⟨sb, ub, hvb, hzb⟩ | hvb
  · exact (F32.sub_bounds hvx hvb hzx hzb).2.1
  · have hinf : (F32.infinity true).le F32.zero = true := by decide +kernel
    rw [F32.sub_of_inf hvx hvb]
    exact F32.le_trans hinf ((F32.inUnit_iff x).mp hx).1

/-- A difference that is not at or below the floor `c` is still in [0, 1]. -/
theorem F32.sub_inUnit_of_not_le {x b c : F32} (hx : x.inUnit = true) (hc : c.inUnit = true) (hb : F32.zero.le b = true)
    (h : ¬(x.sub b).le c = true) : (x.sub b).inUnit = true := by
  have hle := F32.sub_le_self hx hb
  obtain ⟨-, hx1⟩ := (F32.inUnit_iff x).mp hx
  obtain ⟨hc0, hc1⟩ := (F32.inUnit_iff c).mp hc
  have hlt := (F32.le_or_lt (F32.le_self_left hle) (F32.le_self_left hc1)).resolve_left h
  exact (F32.inUnit_iff _).mpr ⟨F32.le_trans hc0 (F32.le_of_lt hlt), F32.le_trans hle hx1⟩

/-- A sum that is not at or above 1 is still in [0, 1]. -/
theorem F32.add_inUnit_of_not_le {x b : F32} (hx : x.inUnit = true) (hb : F32.zero.le b = true)
    (h : ¬F32.one.le (x.add b) = true) : (x.add b).inUnit = true := by
  obtain ⟨_, _, hv, hz, -⟩ := F32.fin_of_inUnit hx
  have h0 := F32.add_nonneg hv hz hb
  have hone : F32.one.le F32.one = true := ((F32.inUnit_iff _).mp F32.one_inUnit).2
  exact (F32.inUnit_iff _).mpr ⟨h0, F32.le_of_lt ((F32.le_or_lt hone (F32.le_self_right h0)).resolve_left h)⟩

theorem F32.one_sub_inUnit {x : F32} (h : x.inUnit = true) : (F32.one.sub x).inUnit = true := by
  obtain ⟨_, _, hv, hz, hu⟩ := F32.fin_of_inUnit h
  obtain ⟨h0, h1, -⟩ := F32.sub_bounds F32.value_one hv (by simp) hz
  exact (F32.inUnit_iff _).mpr ⟨h0 hu, h1⟩

end Sys2Proof

/-! The envelopes (`45_envelope_and_filter.md` R291 to R295): every stage's update keeps a level in [0, 1], and a release starts with a
decrement that is not negative. -/

namespace Sys2Proof.Machine

/-- An envelope with legal times and sustain, a level in [0, 1] and a release decrement that is not negative, register by register. -/
structure EnvOk (e : Env) : Prop where
  a : F32.between (F32.dec 1 1000) (F32.ofNat 10) e.a = true
  d : F32.between (F32.dec 1 1000) (F32.ofNat 10) e.d = true
  r : F32.between (F32.dec 1 1000) (F32.ofNat 10) e.r = true
  s : e.s.inUnit = true
  level : e.level.inUnit = true
  relRate : F32.zero.le e.relRate = true

theorem envOk_iff (e : Env) : envLegal e = true ∧ envLevelOk e = true ↔ EnvOk e := by
  simp only [envLegal, envLevelOk, Bool.and_eq_true]
  exact ⟨fun ⟨⟨⟨⟨ha, hd⟩, hr⟩, hs⟩, hl, hq⟩ => ⟨ha, hd, hr, hs, hl, hq⟩,
    fun ⟨ha, hd, hr, hs, hl, hq⟩ => ⟨⟨⟨⟨ha, hd⟩, hr⟩, hs⟩, hl, hq⟩⟩

theorem EnvOk.set {e : Env} (h : EnvOk e) (a d s r : F32) : EnvOk (envSet a d s r e) :=
  { h with a := clampTime_between a, d := clampTime_between d, s := clampUnit_inUnit s, r := clampTime_between r }

theorem EnvOk.noteOn {e : Env} (h : EnvOk e) : EnvOk (envNoteOn e) := { h with }

theorem EnvOk.silence {e : Env} (h : EnvOk e) : EnvOk { e with stage := .idle, level := F32.zero } :=
  { h with level := F32.zero_inUnit }

/-- A level in [0, 1] over a legal time at a legal sample rate: the time is a positive number of samples. -/
theorem levelStep_nonneg {x t sr : F32} (hx : x.inUnit = true) (ht : F32.between (F32.dec 1 1000) (F32.ofNat 10) t = true)
    (hsr : F32.between Config.srMin Config.srMax sr = true) : F32.zero.le (x.div (t.mul sr)) = true := by
  obtain ⟨hlo, hhi⟩ := (F32.between_iff _ _ _).mp ht
  have hmin : F32.zero.lt (F32.dec 1 1000) = true := by decide +kernel
  have hpos := F32.lt_of_lt_of_le hmin hlo
  obtain ⟨_, hvTen, -⟩ := F32.value_ofNat (n := 10) (by norm_num)
  obtain ⟨_, _, hvt, -⟩ := F32.fin_of_le (F32.le_of_lt hpos) hhi hvTen
  obtain ⟨_, hvr, hur, -⟩ := F32.value_rate hsr
  have hsamples := F32.lt_of_lt_of_le hpos (F32.le_mul_of_one_le hpos hvt hvr (by omega))
  obtain ⟨_, _, hvx, hzx, -⟩ := F32.fin_of_inUnit hx
  exact F32.div_nonneg hvx hzx hsamples

section
variable {sr : F32} (hsr : F32.between Config.srMin Config.srMax sr = true)
include hsr

theorem EnvOk.noteOff {e : Env} (h : EnvOk e) : EnvOk (envNoteOff sr e) := by
  unfold envNoteOff
  cases e.stage with
  | idle | release => exact h
  | attack | decay | sustain => exact { h with relRate := levelStep_nonneg h.level h.r hsr }

/-- Each stage moves the level by a step that is not negative and stops it at 1, at the sustain level or at 0. -/
theorem EnvOk.next {e : Env} (h : EnvOk e) : EnvOk (envNext sr e) := by
  unfold envNext
  cases e.stage with
  | idle => exact { h with level := F32.zero_inUnit }
  | attack =>
    have hstep := levelStep_nonneg F32.one_inUnit h.a hsr
    dsimp only
    split
    · exact { h with level := F32.one_inUnit }
    · exact { h with level := F32.add_inUnit_of_not_le h.level hstep ‹_› }
  | decay =>
    have hstep := levelStep_nonneg (F32.one_sub_inUnit h.s) h.d hsr
    dsimp only
    split
    · exact { h with level := h.s }
    · exact { h with level := F32.sub_inUnit_of_not_le h.level h.s hstep ‹_› }
  | sustain => exact { h with level := h.s }
  | release =>
    dsimp only
    split
    · exact { h with level := F32.zero_inUnit }
    · exact { h with level := F32.sub_inUnit_of_not_le h.level F32.zero_inUnit h.relRate ‹_› }

end

/-- Both envelopes of a voice are in order, in a block whose configuration is legal. -/
structure EnvsOk (s : State) (x : Voice Config.std) : Prop where
  config : s.configOk
  enva : EnvOk x.enva
  envf : EnvOk x.envf

theorem EnvsOk.envOf {s : State} {x : Voice Config.std} (h : EnvsOk s x) (k : Bool) : EnvOk (envOf x k) := by
  cases k
  · exact h.enva
  · exact h.envf

theorem EnvsOk.setEnv {s : State} {x : Voice Config.std} (h : EnvsOk s x) (k : Bool) {e : Env} (he : EnvOk e) :
    EnvsOk s (setEnv x k e) := by
  cases k
  · exact { h with enva := he }
  · exact { h with envf := he }

theorem EnvsOk.rate {s : State} {x : Voice Config.std} (h : EnvsOk s x) (hr : s.ready = true) :
    F32.between Config.srMin Config.srMax s.sr = true := State.rate_of_ready h.config hr

theorem EnvsOk.stop {s : State} {x : Voice Config.std} (h : EnvsOk s x) (hr : s.ready = true) (k : Bool) :
    EnvsOk s (voiceStop s.sr k x) := by
  rcases voiceStop_cases s.sr k x with e | ⟨_, _, e⟩ | ⟨_, _, _, e⟩ <;> rw [e]
  · exact h
  · exact { h with enva := h.enva.noteOff (h.rate hr), envf := h.envf.noteOff (h.rate hr) }
  · exact { h with }

theorem EnvsOk.frame {s : State} {x : Voice Config.std} (h : EnvsOk s x) (hr : s.ready = true) :
    EnvsOk s (voiceFrame s.sr s.fadeIn s.fadeOut s.bufLen s.rngIdx x).voice where
  config := h.config
  enva := (voiceFrame_enva _ _ _ _ _ _).symm ▸ h.enva.next (h.rate hr)
  envf := (voiceFrame_envf _ _ _ _ _ _).symm ▸ h.envf.next (h.rate hr)

theorem resetEnvA_ok : EnvOk resetEnvA := (envOk_iff _).mp (by decide +kernel)

theorem resetEnvF_ok : EnvOk resetEnvF := (envOk_iff _).mp (by decide +kernel)

/-- Every update that a command makes keeps the envelopes of a voice in order. -/
theorem envsOk_keeps : VoiceKeeps EnvsOk EnvsOk where
  config _ _ _ hc h := { h with config := hc.configOk h.config }
  prepare s r n := ⟨s.prepare_configOk r n, resetEnvA_ok, resetEnvF_ok⟩
  osc _ _ _ _ _ _ h := ⟨{ h with }, { h with }, { h with }, { h with }⟩
  setOscs _ _ _ _ _ _ _ _ h := { h with }
  setRings _ _ _ _ _ _ _ _ _ h := { h with }
  ringsRun _ _ _ _ h := ⟨{ h with }, { h with }⟩
  setClouds _ _ _ _ _ _ _ _ _ h := { h with }
  cloudsRun _ _ _ _ _ _ h := ⟨{ h with }, { h with }⟩
  karplus _ _ _ _ _ h := ⟨{ h with }, { h with }, { h with }⟩
  setWt _ _ _ _ _ _ _ _ h := { h with }
  env _ _ k a b c d hr h :=
    ⟨h.setEnv k ((h.envOf k).set a b c d), h.setEnv k (h.envOf k).noteOn, h.setEnv k ((h.envOf k).noteOff (h.rate hr)),
      h.setEnv k ((h.envOf k).next (h.rate hr))⟩
  setFilt _ _ _ _ _ _ _ h := { h with }
  filtRun _ _ _ _ _ _ h := ⟨{ h with }, { h with }⟩
  mode _ _ _ _ _ _ _ _ _ h := ⟨{ h with }, { h with }⟩
  start _ _ _ _ _ _ h := { h with enva := h.enva.noteOn, envf := h.envf.noteOn }
  stop _ _ k hr h := h.stop hr k
  frame _ _ hr _ h := h.frame hr
  ends _ _ _ h _ := { h with enva := h.enva.silence, envf := h.envf.silence }
  goesOn _ _ _ h _ := h

/-- With legal registers and configuration, levels in [0, 1] are envelopes in order. -/
theorem envsOk_of_levelsOk {s : State} (h : s.levelsOk) (v : Fin Config.NV) : EnvsOk s (s.voice v) := by
  obtain ⟨hc, hl, he⟩ := h
  have hlegal := (voiceLegal_iff _).mp (hl v)
  obtain ⟨ha, hf⟩ := Bool.and_eq_true_iff.mp (he v)
  exact ⟨hc, (envOk_iff _).mp ⟨hlegal.enva, ha⟩, (envOk_iff _).mp ⟨hlegal.envf, hf⟩⟩

/-- Settles O59: each stage moves the level by a step that is not negative, up to 1 or down to a floor of [0, 1]. -/
theorem stepKeepsLevels : Obligations.StepKeepsLevels := by
  intro s t h h0
  have henvs := envsOk_keeps.step h (envsOk_of_levelsOk h0)
  obtain ⟨hc, hl, -⟩ := h0
  refine ⟨step_configOk h hc, (stepKeepsLegalRegisters s t h).1 hl, fun v => Bool.and_eq_true_iff.mpr ⟨?_, ?_⟩⟩
  · exact ((envOk_iff _).mpr (henvs v).enva).2
  · exact ((envOk_iff _).mpr (henvs v).envf).2

end Sys2Proof.Machine

/-! The commands of the envelopes and of the filter in a prepared block (`45_envelope_and_filter.md` R291 to R304). -/

namespace Sys2Proof.Machine

variable {cfg : Config.Params}

/-- A flag as a byte is the number 0 or 1. -/
theorem flagByte_eq : ∀ k : Bool, (if k then 1 else 0 : Byte) = BitVec.ofNat 8 (if k then 1 else 0) := by decide

/-- A note-off changes an envelope that is neither idle nor releasing (R294). -/
theorem setEnv_envNoteOff (sr : F32) (x : Voice cfg) (k : Bool) :
    setEnv x k (envNoteOff sr (envOf x k)) =
      if (envOf x k).stage = .idle ∨ (envOf x k).stage = .release then x
      else setEnv x k { envOf x k with relRate := (envOf x k).level.div ((envOf x k).r.mul sr), stage := .release } := by
  have hkeep : setEnv x k (envOf x k) = x := by cases k <;> rfl
  unfold envNoteOff
  cases (envOf x k).stage with
  | idle | release => simpa using hkeep
  | attack | decay | sustain => simp

/-- Settles O34: each command passes its checks and is the operation of its rule on the envelope that `ARG` names. -/
theorem envelopeCommands : Obligations.EnvelopeCommands := by
  intro s v k hr put get arg
  have harg : arg = BitVec.ofNat 8 (if k then 1 else 0) := flagByte_eq k
  have hlegal : decide (arg.toNat < 2) = true := harg ▸ instanceArg_legal k
  have hbit : argBit0 arg = k := harg ▸ argBit0_instanceArg k
  refine ⟨fun a d u r => ?_, ?_, ?_, ?_, fun a d u r a' d' u' r' => runVoice_vidOf rfl rfl rfl rfl hr⟩
  · refine Eq.trans (runVoice_vidOf rfl rfl rfl hlegal hr) ?_
    rw [hbit]
    rfl
  · refine Eq.trans (runVoice_vidOf rfl rfl rfl hlegal hr) ?_
    rw [hbit]
    rfl
  · refine Eq.trans (runVoice_vidOf rfl rfl rfl hlegal hr) ?_
    simp only [hbit, setEnv_envNoteOff]
    rfl
  · refine Eq.trans (runVoice_vidOf rfl rfl rfl hlegal hr) ?_
    rw [hbit]
    rfl

/-- The filter type of a code (R40): the codes above 1 all name `HIGHPASS`. -/
theorem typeOfCode_eq (n : Nat) : typeOfCode n = if n = 0 then .lowpass else if n = 1 then .bandpass else .highpass := by
  match n with
  | 0 | 1 => rfl
  | n + 2 =>
    have h : clampu (n + 2) 2 = 2 := Nat.min_eq_right (by omega)
    simp [typeOfCode, h]

/-- Settles O35: each command passes its checks and is `filtSet`, `filtProc` at the cutoff of the filter, or `filtClear`. -/
theorem filterCommands : Obligations.FilterCommands := by
  intro s v hr
  refine ⟨fun arg c q e => ?_, fun l r => runVoice_vidOf rfl rfl rfl rfl hr, runVoice_vidOf rfl rfl rfl rfl hr⟩
  rw [← typeOfCode_eq]
  exact runVoice_vidOf rfl rfl rfl rfl hr

end Sys2Proof.Machine

/-! The lifecycle registers (`46_voice.md` R340, R341, R345): a frame moves each fade counter by at most one, and the end tests follow
every frame. -/

namespace Sys2Proof.Machine

variable {cfg : Config.Params}

/-- The lifecycle registers of a voice belong together, register by register. -/
structure LifeOk (fin fout : Word) (x : Voice cfg) : Prop where
  note : x.active = true → x.note.toNat ≤ 127
  idle : x.active = false → x.note = 255 ∧ x.fading = false
  fading : x.fading = true → x.fadeoutCnt.toNat < fout.toNat
  steady : x.fading = false → x.fadeoutCnt = 0
  fadein : x.fadeinCnt.toNat ≤ fin.toNat

theorem voiceLifeOk_iff (fin fout : Word) (x : Voice cfg) : voiceLifeOk fin fout x = true ↔ LifeOk fin fout x := by
  simp only [voiceLifeOk, Bool.and_eq_true, decide_eq_true_eq]
  constructor
  · rintro ⟨⟨hnote, hfade⟩, hin⟩
    refine ⟨fun h => ?_, fun h => ?_, fun h => ?_, fun h => ?_, hin⟩
    · simpa [h] using hnote
    · simpa [h] using hnote
    · simpa [h] using hfade
    · simpa [h] using hfade
  · rintro ⟨hnote, hidle, hfade, hsteady, hin⟩
    refine ⟨⟨?_, ?_⟩, hin⟩
    · cases h : x.active
      · simpa using hidle h
      · simpa using hnote h
    · cases h : x.fading
      · simpa using hsteady h
      · simpa using hfade h

/-- A voice after a frame and before the end tests: its fade-out may be complete. -/
structure FrameDone (fin fout : Word) (x : Voice cfg) : Prop where
  active : x.active = true
  note : x.note.toNat ≤ 127
  fading : x.fading = true → x.fadeoutCnt.toNat ≤ fout.toNat
  steady : x.fading = false → x.fadeoutCnt = 0
  fadein : x.fadeinCnt.toNat ≤ fin.toNat

/-- The end tests (R335). -/
theorem voiceEnds_iff (fout : Word) (x : Voice cfg) :
    voiceEnds fout x = true ↔ (x.fading = true ∧ fout.toNat ≤ x.fadeoutCnt.toNat) ∨ x.enva.stage = .idle := by
  simp [voiceEnds, envActive, BitVec.le_def]

section
variable {fin fout : Word} {x : Voice cfg}

theorem LifeOk.setEnv (h : LifeOk fin fout x) (k : Bool) (e : Env) : LifeOk fin fout (setEnv x k e) := by
  cases k <;> exact { h with }

theorem lifeOk_preparedVoice (sr : F32) : LifeOk fin fout (preparedVoice cfg sr) where
  note h := nomatch h
  idle _ := ⟨rfl, rfl⟩
  fading h := nomatch h
  steady _ := rfl
  fadein := Nat.zero_le _

theorem lifeOk_voiceStart (sr : F32) (seq rng : Word) {n : Nat} (hn : n ≤ 127) (w : F32) :
    LifeOk fin fout (voiceStart sr seq rng n w x) where
  note _ := (toNat_natWord (by omega)).trans_le hn
  idle h := nomatch h
  fading h := nomatch h
  steady _ := rfl
  fadein := Nat.zero_le _

/-- A fade-out that begins has its first sample still to come. -/
theorem LifeOk.stop (h : LifeOk fin fout x) (hfout : 0 < fout.toNat) (sr : F32) (k : Bool) :
    LifeOk fin fout (voiceStop sr k x) := by
  rcases voiceStop_cases sr k x with e | ⟨_, _, e⟩ | ⟨ha, _, _, e⟩ <;> rw [e]
  · exact h
  · exact { h with }
  · exact { h with
      idle := fun hi => absurd (ha.symm.trans hi) (by decide)
      fading := fun _ => hfout
      steady := fun hs => nomatch hs }

theorem toNat_fadeInCount_le (h : x.fadeinCnt.toNat ≤ fin.toNat) : (fadeInCount fin x).toNat ≤ fin.toNat := by
  unfold fadeInCount
  split
  · bv_omega
  · exact h

theorem LifeOk.toNat_fadeOutCount_le (h : LifeOk fin fout x) (hf : x.fading = true) : (fadeOutCount x).toNat ≤ fout.toNat := by
  have hlt := h.fading hf
  rw [fadeOutCount, if_pos hf]
  bv_omega

theorem fadeOutCount_of_not_fading (hf : x.fading = false) : fadeOutCount x = x.fadeoutCnt := by
  rw [fadeOutCount, hf, if_neg Bool.false_ne_true]

/-- One frame of an active voice moves each fade counter by at most one. -/
theorem LifeOk.frame (h : LifeOk fin fout x) (ha : x.active = true) (sr : F32) (bufLen rng : Word) :
    FrameDone fin fout (voiceFrame sr fin fout bufLen rng x).voice := by
  refine ⟨?_, ?_, fun hf => ?_, fun hf => ?_, ?_⟩
  · rwa [voiceFrame_active]
  · rw [voiceFrame_note]
    exact h.note ha
  · rw [voiceFrame_fading] at hf
    rw [voiceFrame_fadeoutCnt]
    exact h.toNat_fadeOutCount_le hf
  · rw [voiceFrame_fading] at hf
    rw [voiceFrame_fadeoutCnt, fadeOutCount_of_not_fading hf]
    exact h.steady hf
  · rw [voiceFrame_fadeinCnt]
    exact toNat_fadeInCount_le h.fadein

theorem FrameDone.clear (h : FrameDone fin fout x) : LifeOk fin fout (voiceClear x) where
  note h := nomatch h
  idle _ := ⟨rfl, rfl⟩
  fading h := nomatch h
  steady _ := rfl
  fadein := h.fadein

/-- A voice that goes on has not completed its fade-out. -/
theorem FrameDone.goesOn (h : FrameDone fin fout x) (he : voiceEnds fout x = false) : LifeOk fin fout x where
  note _ := h.note
  idle hi := absurd (h.active.symm.trans hi) (by decide)
  fading hf := by
    by_contra hle
    rw [(voiceEnds_iff fout x).mpr (.inl ⟨hf, Nat.le_of_not_lt hle⟩)] at he
    cases he
  steady := h.steady
  fadein := h.fadein

end

/-- A prepared block in a legal configuration has a fade-out of at least one sample. -/
theorem State.fadeOut_pos {s : State cfg} (h : s.configOk) (hr : s.ready = true) : 0 < s.fadeOut.toNat := by
  rcases h with ⟨h0, _⟩ | ⟨_, _, _, _, hout, _⟩
  · rw [State.ready, h0] at hr
    cases hr
  · exact hout

/-- The lifecycle registers of a voice of a legally configured block belong together. -/
structure LifeIn (s : State) (x : Voice Config.std) : Prop extends life : LifeOk s.fadeIn s.fadeOut x where
  config : s.configOk

/-- The same after a frame and before the end tests. -/
structure FrameDoneIn (s : State) (x : Voice Config.std) : Prop extends done : FrameDone s.fadeIn s.fadeOut x where
  config : s.configOk

/-- Every update that a command makes keeps the lifecycle registers of a voice together. -/
theorem lifeIn_keeps : VoiceKeeps LifeIn FrameDoneIn where
  config s t x hc h := by
    have hconfig := hc.configOk h.config
    obtain ⟨_, _, hin, hout, _⟩ := hc
    exact ⟨hin ▸ hout ▸ h.life, hconfig⟩
  prepare s r n := ⟨lifeOk_preparedVoice _, s.prepare_configOk r n⟩
  osc _ _ _ _ _ _ h := ⟨{ h with }, { h with }, { h with }, { h with }⟩
  setOscs _ _ _ _ _ _ _ _ h := { h with }
  setRings _ _ _ _ _ _ _ _ _ h := { h with }
  ringsRun _ _ _ _ h := ⟨{ h with }, { h with }⟩
  setClouds _ _ _ _ _ _ _ _ _ h := { h with }
  cloudsRun _ _ _ _ _ _ h := ⟨{ h with }, { h with }⟩
  karplus _ _ _ _ _ h := ⟨{ h with }, { h with }, { h with }⟩
  setWt _ _ _ _ _ _ _ _ h := { h with }
  env _ _ k _ _ _ _ _ h :=
    ⟨{ h with life := h.life.setEnv k _ }, { h with life := h.life.setEnv k _ }, { h with life := h.life.setEnv k _ },
      { h with life := h.life.setEnv k _ }⟩
  setFilt _ _ _ _ _ _ _ h := { h with }
  filtRun _ _ _ _ _ _ h := ⟨{ h with }, { h with }⟩
  mode _ _ _ _ _ _ _ _ _ h := ⟨{ h with }, { h with }⟩
  start _ _ _ _ _ hn h := { h with life := lifeOk_voiceStart _ _ _ hn _ }
  stop _ _ k hr h := { h with life := h.life.stop (State.fadeOut_pos h.config hr) _ k }
  frame _ _ _ ha h := { h with done := h.life.frame ha _ _ _ }
  ends _ _ _ h _ := { h with life := h.done.clear }
  goesOn _ _ _ h he := { h with life := h.done.goesOn he }

/-- Settles O58: a frame counts at most one, a fade-out that is complete ends the voice, and a start or a stop sets the counters. -/
theorem stepKeepsLives : Obligations.StepKeepsLives := by
  intro s t h h0
  have hlives := lifeIn_keeps.step h fun v => ⟨(voiceLifeOk_iff _ _ _).mp (h0.2 v), h0.1⟩
  exact ⟨step_configOk h h0.1, fun v => (voiceLifeOk_iff _ _ _).mpr (hlives v).life⟩

end Sys2Proof.Machine

/-! The starts (`46_voice.md` R325, `47_voice_pool_and_system.md` R369). -/

namespace Sys2Proof.Machine

variable {cfg : Config.Params}

theorem startedVoice_startVoice (s : State cfg) (v : Fin cfg.nv) (n : Nat) (velocity : F32) :
    startedVoice s (s.startVoice v n velocity) v n velocity := by
  unfold startedVoice
  rw [State.voice_startVoice_self]
  exact ⟨rfl, rfl⟩

/-- Settles O37: `V.START` starts the voice of its `VID`, `NOTEON` the voice that the allocation answers. -/
theorem startCommands : Obligations.StartCommands := by
  intro s v arg w hr
  exact ⟨⟨_, runVoice_vidOf rfl rfl rfl rfl hr, startedVoice_startVoice s v _ _⟩,
    ⟨_, runGlobal_of_firstFault (firstFault_of_wellFormed rfl (.inl hr)), startedVoice_startVoice s _ _ _⟩⟩

end Sys2Proof.Machine

/-! The gains (`46_voice.md` R340 to R342): quotients of a count by a length that it does not exceed, and products of values of
[0, 1]. -/

namespace Sys2Proof

/-- A quotient of two integers, the first at most the second, lies in [0, 1]. -/
theorem F32.ofNat_div_inUnit {m n : Nat} (hmn : m ≤ n) (h0 : 0 < n) (hn : n ≤ 2 ^ 32) :
    ((F32.ofNat m).div (F32.ofNat n)).inUnit = true := by
  obtain ⟨u, hv, hu⟩ := F32.value_ofNat hn
  exact (F32.inUnit_iff _).mpr (F32.div_unit (F32.ofNat_zero ▸ F32.value_ofNat_le m.zero_le) (F32.value_ofNat_le hmn) hv
    (unitsPerOne_pos.trans_le (hu h0)))

theorem F32.mul_inUnit {a b : F32} (ha : a.inUnit = true) (hb : b.inUnit = true) : (a.mul b).inUnit = true := by
  rw [F32.inUnit_iff] at *
  exact F32.mul_unit ha.1 ha.2 hb.1 hb.2

end Sys2Proof

namespace Sys2Proof.Machine

variable {cfg : Config.Params}

theorem fadeInGain_inUnit (fin : Word) (x : Voice cfg) : (fadeInGain fin x).inUnit = true := by
  unfold fadeInGain
  split
  · rename_i hlt
    rw [BitVec.lt_def] at hlt
    exact F32.ofNat_div_inUnit hlt.le (Nat.zero_lt_of_lt hlt) fin.isLt.le
  · exact F32.one_inUnit

theorem LifeOk.fadeOutGain_inUnit {fin fout : Word} {x : Voice cfg} (h : LifeOk fin fout x) :
    (fadeOutGain fout x).inUnit = true := by
  unfold fadeOutGain
  split
  · rename_i hf
    have hle := h.toNat_fadeOutCount_le hf
    have hpos := Nat.zero_lt_of_lt (h.fading hf)
    exact F32.ofNat_div_inUnit (by bv_omega) hpos fout.isLt.le
  · exact F32.one_inUnit

theorem headroom_eq : Config.headroom = F32.dec 25 100 := by decide +kernel

/-- The headroom scales a product of values of [0, 1] down to at most 0.25. -/
theorem frameGain_between {a vel gi go : F32} (ha : a.inUnit = true) (hv : vel.inUnit = true) (hi : gi.inUnit = true)
    (ho : go.inUnit = true) : F32.between F32.zero (F32.dec 25 100) (frameGain a vel gi go) = true := by
  have hprod := F32.mul_inUnit (F32.mul_inUnit (F32.mul_inUnit ha hv) hi) ho
  obtain ⟨h0, h1⟩ := (F32.inUnit_iff _).mp hprod
  have hvalue : (F32.dec 25 100).value = .fin false (2 ^ 147) := by decide +kernel
  rw [frameGain, headroom_eq]
  exact (F32.between_iff _ _ _).mpr (F32.mul_le_right h0 h1 hvalue (by simp))

/-- Settles O44: each gain is a quotient of [0, 1] or 1, and the gain of the frame is their product times the headroom. -/
theorem frameGainInRange : Obligations.FrameGainInRange := by
  intro fin fout x a hlife hvel ha
  have hout := ((voiceLifeOk_iff fin fout x).mp hlife).fadeOutGain_inUnit
  exact ⟨fadeInGain_inUnit fin x, hout, frameGain_between ha hvel (fadeInGain_inUnit fin x) hout⟩

end Sys2Proof.Machine

/-! The frames of `V.RENDER` (`46_voice.md` R335): a frame reads the envelopes, the filter and the fades of the voice as they were, since
no engine graph writes them. -/

namespace Sys2Proof.Machine

variable {cfg : Config.Params}

@[simp] theorem fadeInGain_engineSample (fin : Word) (sr : F32) (bufLen rng : Word) (x : Voice cfg) :
    fadeInGain fin (engineSample sr bufLen rng x).voice = fadeInGain fin x := by
  simp [fadeInGain]

@[simp] theorem fadeInCount_engineSample (fin : Word) (sr : F32) (bufLen rng : Word) (x : Voice cfg) :
    fadeInCount fin (engineSample sr bufLen rng x).voice = fadeInCount fin x := by
  simp [fadeInCount]

@[simp] theorem fadeOutCount_engineSample (sr : F32) (bufLen rng : Word) (x : Voice cfg) :
    fadeOutCount (engineSample sr bufLen rng x).voice = fadeOutCount x := by
  simp [fadeOutCount]

@[simp] theorem fadeOutGain_engineSample (fout : Word) (sr : F32) (bufLen rng : Word) (x : Voice cfg) :
    fadeOutGain fout (engineSample sr bufLen rng x).voice = fadeOutGain fout x := by
  simp [fadeOutGain]

/-- The gain of a fade-out, by the counter before it advances (R341). -/
theorem fadeOutGain_eq (fout : Word) (x : Voice cfg) :
    fadeOutGain fout x =
      if x.fading then (F32.ofNat (fout - (x.fadeoutCnt + 1)).toNat).div (F32.ofNat fout.toNat) else F32.one := by
  unfold fadeOutGain fadeOutCount
  split <;> rfl

theorem frameGain_eq (a vel gi go : F32) : frameGain a vel gi go = (((a.mul vel).mul gi).mul go).mul (F32.dec 25 100) := by
  rw [frameGain, headroom_eq]

/-- What a frame makes, by the registers of the voice before it (R335). -/
theorem voiceFrame_eq (sr : F32) (fin fout bufLen rng : Word) (x : Voice cfg) :
    voiceFrame sr fin fout bufLen rng x =
      let e := engineSample sr bufLen rng x
      let p := filtProc sr e.left.san e.right.san (filtModCut x.flt (envNext sr x.envf).level) x.flt
      let g := frameGain (envNext sr x.enva).level x.vel (fadeInGain fin x) (fadeOutGain fout x)
      { voice := { e.voice with
          enva := envNext sr x.enva
          envf := envNext sr x.envf
          flt := filtGuard p.filt
          fadeinCnt := fadeInCount fin x
          fadeoutCnt := fadeOutCount x }
        rng := e.rng
        left := p.left.san.mul g
        right := p.right.san.mul g } := by
  simp [voiceFrame]

theorem renderLoop_of_ends {s : State cfg} {v : Fin cfg.nv} {f : Nat}
    (h : voiceEnds (s.renderFrame v f).fadeOut ((s.renderFrame v f).voice v) = true) (n : Nat) :
    State.renderLoop v (n + 1) f s = (s.renderFrame v f).updVoice v voiceClear :=
  if_pos h

theorem renderLoop_of_goesOn {s : State cfg} {v : Fin cfg.nv} {f : Nat}
    (h : ¬voiceEnds (s.renderFrame v f).fadeOut ((s.renderFrame v f).voice v) = true) (n : Nat) :
    State.renderLoop v (n + 1) f s = State.renderLoop v n (f + 1) (s.renderFrame v f) :=
  if_neg h

/-- In a prepared block, with the host away from the frames of a block that is not too long, `V.RENDER` is `V_RENDER`. -/
theorem exec_vRender {s : State} (v : Fin Config.NV) {n : Word} (hr : s.ready = true) (hn : n.toNat ≤ s.maxBlock.toNat)
    (hh : s.hostInOut n.toNat = false) : exec (.vRender (vidOf v) 0 [n]) s = .next (s.renderVoice v n.toNat) :=
  Eq.trans (runVoice_vidOf rfl rfl rfl rfl hr) (renderGuard_of_le hn hh)

/-- Settles O40: the loop is `renderLoop`, each of whose frames is `renderFrame`. -/
theorem voiceRenderCommand : Obligations.VoiceRenderCommand := by
  unfold Obligations.VoiceRenderCommand
  extract_lets frame ended cleared
  have hframe (s : State) (v : Fin Config.NV) (f : Nat) : frame s v f = s.renderFrame v f := by
    rw [State.renderFrame, voiceFrame_eq]
    simp only [frameGain_eq, fadeOutGain_eq]
    rfl
  have hended (t : State) (v : Fin Config.NV) : ended t v ↔ voiceEnds t.fadeOut (t.voice v) = true :=
    (voiceEnds_iff _ _).symm
  have hcleared (t : State) (v : Fin Config.NV) : cleared t v = t.updVoice v voiceClear := rfl
  refine ⟨State.renderLoop (cfg := Config.std), fun _ _ _ => rfl, fun v n f s => ?_, fun s v n hr hn hh => ?_⟩
  · rw [hframe, hended, hcleared]
    exact ⟨fun h => renderLoop_of_ends h n, fun h => renderLoop_of_goesOn h n⟩
  · rw [exec_vRender v hr hn hh, State.renderVoice]

end Sys2Proof.Machine

/-! What a render leaves alone (`46_voice.md` R335, R344, R345, `10_state.md` R48 to R52): the registers of a voice that no frame writes, and
the frames of the output buffer from the block's length on. -/

namespace Sys2Proof.Machine

variable {cfg : Config.Params}

/-- An envelope with the registers that run put to rest: `A`, `D`, `S` and `R` are left (R51). -/
def envShadow (e : Env) : Env := { e with stage := .idle, level := F32.zero, relRate := F32.zero }

/-- A granular engine with the registers and buffers that run put to rest. -/
def cloudsShadow (c : Clouds cfg) : Clouds cfg :=
  { c with wc := 0, grains := (resetClouds cfg).grains, bufL := [], bufR := [] }

/-- A voice with everything put to rest that a render can write: its other registers are left. -/
def shadow (x : Voice cfg) : Voice cfg :=
  { x with
    active := false
    fading := false
    note := 255
    fadeinCnt := 0
    fadeoutCnt := 0
    rings := { x.rings with modes := resetRings.modes }
    clouds := cloudsShadow x.clouds
    karplus := { resetKarplus with len := x.karplus.len }
    wt := { x.wt with phase := F32.zero }
    oscs := { x.oscs with
      osc0 := { x.oscs.osc0 with phase := F32.zero }
      osc1 := { x.oscs.osc1 with phase := F32.zero } }
    enva := envShadow x.enva
    envf := envShadow x.envf
    flt := filtClear x.flt }

theorem envShadow_envNext (sr : F32) (e : Env) : envShadow (envNext sr e) = envShadow e := by
  unfold envNext
  cases e.stage with
  | idle | sustain => rfl
  | attack | decay | release =>
    dsimp only
    split <;> rfl

theorem filtClear_filtGuard (f : Filt) : filtClear (filtGuard f) = filtClear f := by
  unfold filtGuard
  split <;> rfl

theorem filtClear_filtProc (sr xl xr fc : F32) (f : Filt) : filtClear (filtProc sr xl xr fc f).filt = filtClear f := rfl

theorem cloudsShadow_cloudsWrite (bufLen : Word) (l r : F32) (c : Clouds cfg) :
    cloudsShadow (cloudsWrite bufLen l r c) = cloudsShadow c := by
  rw [cloudsWrite_frame]
  rfl

theorem cloudsShadow_cloudsProc (sr : F32) (bufLen rng : Word) (c : Clouds cfg) :
    cloudsShadow (cloudsProc sr bufLen rng c).clouds = cloudsShadow c := by
  rw [cloudsProc_clouds]
  rfl

theorem shadow_genCloud (sr : F32) (bufLen rng : Word) (m : F32) (x : Voice cfg) :
    shadow (genCloud sr bufLen rng m x).voice = shadow x := by
  have h : cloudsShadow (genCloud sr bufLen rng m x).voice.clouds = cloudsShadow x.clouds :=
    (cloudsShadow_cloudsProc sr bufLen rng _).trans (cloudsShadow_cloudsWrite _ _ _ _)
  simp only [shadow, h]
  rfl

theorem shadow_engineSample (sr : F32) (bufLen rng : Word) (x : Voice cfg) :
    shadow (engineSample sr bufLen rng x).voice = shadow x :=
  engineSample_induction (P := fun y => shadow y = shadow x) rfl (fun _ h => h) (fun _ h => h) (fun _ h => h) (fun _ h => h)
    fun m y h => (shadow_genCloud sr bufLen rng m y).trans h

/-- Fade counters, envelopes that run and integrators of the filter are not in the shadow. -/
theorem shadow_frameRegisters (x : Voice cfg) {a ef : Env} {f : Filt} (ha : envShadow a = envShadow x.enva)
    (hef : envShadow ef = envShadow x.envf) (hf : filtClear f = filtClear x.flt) (i o : Word) :
    shadow { x with enva := a, envf := ef, flt := f, fadeinCnt := i, fadeoutCnt := o } = shadow x := by
  simp only [shadow, ha, hef, hf]

theorem shadow_voiceFrame (sr : F32) (fin fout bufLen rng : Word) (x : Voice cfg) :
    shadow (voiceFrame sr fin fout bufLen rng x).voice = shadow x := by
  rw [← shadow_engineSample sr bufLen rng x]
  exact shadow_frameRegisters _ (envShadow_envNext _ _) (envShadow_envNext _ _)
    ((filtClear_filtGuard _).trans (filtClear_filtProc _ _ _ _ _)) _ _

/-- What holds all through a render of `n` frames that began in the state `s`, at the state `t`. -/
structure RenderKeeps (n : Nat) (s t : State cfg) : Prop where
  wf : t.outWf
  out : ∀ a, n ≤ a → t.outL.read a = s.outL.read a ∧ t.outR.read a = s.outR.read a
  voices : ∀ w, shadow (t.voice w) = shadow (s.voice w)

section
variable {n : Nat} {s t : State cfg}

theorem RenderKeeps.refl (h : s.outWf) : RenderKeeps n s s := ⟨h, fun _ _ => ⟨rfl, rfl⟩, fun _ => rfl⟩

/-- A replacement of one voice by one with the same registers that stay. -/
theorem RenderKeeps.voices_of_set (h : RenderKeeps n s t) {u : State cfg} {v : Fin cfg.nv} {y : Voice cfg}
    (hu : u.voices = t.voices.set v y) (hy : shadow y = shadow (t.voice v)) (w : Fin cfg.nv) : shadow (u.voice w) = shadow (s.voice w) :=
  State.voice_of_set (P := fun x => shadow x = shadow (s.voice w)) hu (h.voices w) fun e => hy.trans (e ▸ h.voices w)

theorem RenderKeeps.renderFrame (h : RenderKeeps n s t) (v : Fin cfg.nv) {k : Nat} (hk : k < n) :
    RenderKeeps n s (t.renderFrame v k) := by
  obtain ⟨hL, hR⟩ := h.wf
  refine ⟨⟨Mem.wf_accumulate hL _ _, Mem.wf_accumulate hR _ _⟩, fun a ha => ?_,
    h.voices_of_set (State.renderFrame_voices t v k) (shadow_voiceFrame _ _ _ _ _ _)⟩
  have hne : a ≠ k := by omega
  rw [State.renderFrame_outL, State.renderFrame_outR, Mem.read_accumulate hL, Mem.read_accumulate hR, if_neg hne, if_neg hne]
  exact h.out a ha

theorem RenderKeeps.clear (h : RenderKeeps n s t) (v : Fin cfg.nv) : RenderKeeps n s (t.updVoice v voiceClear) where
  wf := h.wf
  out := h.out
  voices := h.voices_of_set (State.updVoice_voices t v _) rfl

theorem RenderKeeps.renderLoop (h : RenderKeeps n s t) (v : Fin cfg.nv) : RenderKeeps n s (State.renderLoop v n 0 t) :=
  renderLoop_induction (P := RenderKeeps n s) h (fun _ _ _ hk hu => hu.renderFrame v (by omega)) fun _ hu => hu.clear v

theorem renderKeeps_renderAll (h : s.outWf) (l : List (Fin cfg.nv)) : RenderKeeps n s (l.foldl (fun t v => t.renderVoice v n) s) :=
  renderAll_induction (P := RenderKeeps n s) (.refl h) (fun _ v _ hu => hu.renderLoop v) l

end

/-- A render command leaves the state alone but for its fault, or it renders the voices of a list. -/
theorem exec_renders {s t : State} {v : Fin Config.NV} {n : Word}
    (h : exec (.vRender (vidOf v) 0 [n]) s = .next t ∨ exec (.render 0 0 [n]) s = .next t) :
    (∃ f w, t = s.raise f w) ∨ ∃ l : List (Fin Config.NV), t = l.foldl (fun t v => t.renderVoice v n.toNat) s := by
  rcases h with h | h
  · rcases execVRender_next h with ⟨f, rfl⟩ | ⟨v, _, _, _, _, rfl⟩
    · exact .inl ⟨f, _, rfl⟩
    · exact .inr ⟨[v], rfl⟩
  · rcases execRender_next h with ⟨f, rfl⟩ | ⟨_, _, _, ht⟩
    · exact .inl ⟨f, _, rfl⟩
    · exact .inr ⟨_, ht⟩

/-- What a render command leaves alone of the block. -/
theorem exec_render_frame {s t : State} {v : Fin Config.NV} {n : Word} (hs : s.outWf)
    (h : exec (.vRender (vidOf v) 0 [n]) s = .next t ∨ exec (.render 0 0 [n]) s = .next t) :
    RenderKeeps n.toNat s t ∧ (t.params = s.params ∧ t.rsp = s.rsp ∧ t.noteSeq = s.noteSeq ∧ t.sr = s.sr) ∧
      ∀ w, (s.voice w).active = false → t.voice w = s.voice w := by
  rcases exec_renders h with ⟨f, w, rfl⟩ | ⟨l, rfl⟩
  · exact ⟨⟨hs, fun _ _ => ⟨rfl, rfl⟩, fun _ => rfl⟩, ⟨rfl, rfl, rfl, rfl⟩, fun _ _ => rfl⟩
  · refine ⟨renderKeeps_renderAll hs l, ?_, fun w hw => voice_renderAll_of_inactive hw l _⟩
    obtain ⟨_, _, _, _, e⟩ := rendered_renderAll l n.toNat s
    rw [e]
    exact ⟨rfl, rfl, rfl, rfl⟩

/-- The `VID`s of two voices differ. -/
theorem vidOf_ne {v w : Fin cfg.nv} (h : w ≠ v) : vidOf v ≠ vidOf w := fun e =>
  h (Option.some.inj ((voiceOf_eq_some.mpr e).symm.trans (voiceOf_vidOf v)))

/-- Settles O41: a frame accumulates into its own frame of the buffer and writes registers of its voice that run. -/
theorem renderFrame : Obligations.RenderFrame := by
  intro s t v n hmem h
  obtain ⟨hkeeps, ⟨hparams, hrsp, hseq, hsr⟩, hinactive⟩ := exec_render_frame ((State.memOk_iff s).mp hmem).1 h
  refine ⟨hkeeps.out, hparams, hrsp, hseq, hsr, hinactive,
    fun hv w hw => exec_onVoice hv rfl (vidOf_ne (cfg := Config.std) hw), fun w => ?_⟩
  have hw := hkeeps.voices w
  simp only [shadow, cloudsShadow, envShadow, filtClear, Voice.mk.injEq, Rings.mk.injEq, Clouds.mk.injEq, Karplus.mk.injEq,
    WtRegs.mk.injEq, Oscs.mk.injEq, Osc.mk.injEq, Env.mk.injEq, Filt.mk.injEq] at hw
  simp [hw]

end Sys2Proof.Machine

/-! A fade-out that ends (`46_voice.md` R331, R341, R345): every frame counts one, so the loop ends with the frame that completes it. -/

namespace Sys2Proof.Machine

variable {cfg : Config.Params}

/-- A voice that is fading out and has `k` frames to go is cleared by the `k`-th frame or an earlier one, however many were asked for. -/
theorem renderLoop_of_fading {v : Fin cfg.nv} {n k f : Nat} {s : State cfg} (hf : (s.voice v).fading = true) (hpos : 0 < k)
    (hk : (s.voice v).fadeoutCnt.toNat + k = s.fadeOut.toNat) (hn : k ≤ n) :
    ∃ t : State cfg, State.renderLoop v n f s = t.updVoice v voiceClear ∧ State.renderLoop v k f s = t.updVoice v voiceClear := by
  induction k generalizing n f s with
  | zero => exact absurd hpos (Nat.lt_irrefl 0)
  | succ k ih =>
    obtain ⟨n, rfl⟩ : ∃ m, n = m + 1 := ⟨n - 1, by omega⟩
    have hfading : ((s.renderFrame v f).voice v).fading = true := by rwa [State.voice_renderFrame_self, voiceFrame_fading]
    have hcount : ((s.renderFrame v f).voice v).fadeoutCnt.toNat = (s.voice v).fadeoutCnt.toNat + 1 := by
      rw [State.voice_renderFrame_self, voiceFrame_fadeoutCnt, fadeOutCount, if_pos hf]
      bv_omega
    by_cases he : voiceEnds (s.renderFrame v f).fadeOut ((s.renderFrame v f).voice v) = true
    · exact ⟨_, renderLoop_of_ends he n, renderLoop_of_ends he k⟩
    · have hgoing : ((s.renderFrame v f).voice v).fadeoutCnt.toNat < s.fadeOut.toNat := by
        by_contra hle
        exact he ((voiceEnds_iff _ _).mpr (.inl ⟨hfading, Nat.le_of_not_lt hle⟩))
      rw [renderLoop_of_goesOn he, renderLoop_of_goesOn he]
      exact ih hfading (by omega) (by rw [State.renderFrame_fadeOut]; omega) (by omega)

/-- Settles O43: the render is that of the frames the fade-out has to go, whose last clears the voice. -/
theorem fadeOutEndsTheVoice : Obligations.FadeOutEndsTheVoice := by
  intro s v n hr hn hh hmem ha hf hlt hle
  obtain ⟨t, hloop, hfew⟩ := renderLoop_of_fading (f := 0) hf (Nat.sub_pos_of_lt hlt) (by omega) hle
  have hwf := ((State.memOk_iff s).mp hmem).1
  refine ⟨_, exec_vRender v hr hn hh, ?_⟩
  rw [renderVoice_of_active ha, hloop, State.voice_updVoice_self]
  refine ⟨rfl, rfl, rfl, fun a hle => ?_⟩
  rw [← hfew]
  exact ((RenderKeeps.refl hwf).renderLoop v).out a hle

end Sys2Proof.Machine

/-! The engine graphs (`46_voice.md` R336, R337, R351): which engines a graph leaves alone, how many draws it takes, and the commands that
advance an engine as a graph does. -/

namespace Sys2Proof.Machine

variable {cfg : Config.Params}

section
variable (sr : F32) (bufLen rng : Word) (x : Voice cfg)

theorem engineSample_rings : modeCode x.mode = 1 ∨ modeCode x.mode = 2 ∨ modeCode x.mode = 5 ∨ modeCode x.mode = 7 →
    (engineSample sr bufLen rng x).voice.rings = x.rings := by
  unfold engineSample
  cases x.mode with
  | clouds | karplus | osc | oscClouds => exact fun _ => rfl
  | rings | ringsIntoClouds | hybridAll | oscRings | fullHybrid => exact fun h => absurd h (by decide)

theorem engineSample_karplus : modeCode x.mode ≠ 2 ∧ modeCode x.mode ≠ 4 ∧ modeCode x.mode ≠ 8 →
    (engineSample sr bufLen rng x).voice.karplus = x.karplus := by
  unfold engineSample
  cases x.mode with
  | rings | clouds | ringsIntoClouds | osc | oscRings | oscClouds => exact fun _ => rfl
  | karplus | hybridAll | fullHybrid => exact fun h => absurd h (by decide)

theorem engineSample_wt : modeCode x.mode ≠ 1 ∧ modeCode x.mode ≠ 4 ∧ modeCode x.mode ≠ 8 →
    (engineSample sr bufLen rng x).voice.wt = x.wt := by
  unfold engineSample
  cases x.mode with
  | rings | karplus | ringsIntoClouds | osc | oscRings | oscClouds => exact fun _ => rfl
  | clouds | hybridAll | fullHybrid => exact fun h => absurd h (by decide)

theorem engineSample_oscs : modeCode x.mode < 5 → (engineSample sr bufLen rng x).voice.oscs = x.oscs := by
  unfold engineSample
  cases x.mode with
  | rings | clouds | karplus | ringsIntoClouds | hybridAll => exact fun _ => rfl
  | osc | oscRings | oscClouds | fullHybrid => exact fun h => absurd h (by decide)

/-- The graphs without the granular engine: no draw, and one sample for both sides. -/
theorem engineSample_mono : modeCode x.mode = 0 ∨ modeCode x.mode = 2 ∨ modeCode x.mode = 5 ∨ modeCode x.mode = 6 →
    (engineSample sr bufLen rng x).voice.clouds = x.clouds ∧ (engineSample sr bufLen rng x).rng = rng ∧
      (engineSample sr bufLen rng x).left = (engineSample sr bufLen rng x).right := by
  unfold engineSample
  cases x.mode with
  | rings | karplus | osc | oscRings => exact fun _ => ⟨rfl, rfl, rfl⟩
  | clouds | ringsIntoClouds | hybridAll | oscClouds | fullHybrid => exact fun h => absurd h (by decide)

/-- A spawn takes one draw, and three more for the grain. -/
theorem cloudsSpawn_rng (c : Clouds cfg) : (cloudsSpawn sr rng c).2 = rng + 1 ∨ (cloudsSpawn sr rng c).2 = rng + 4 := by
  unfold cloudsSpawn
  split
  · split
    · exact .inr rfl
    · exact .inl rfl
  · exact .inl rfl

/-- The graphs with the granular engine. -/
theorem engineSample_draws :
    modeCode x.mode = 1 ∨ modeCode x.mode = 3 ∨ modeCode x.mode = 4 ∨ modeCode x.mode = 7 ∨ modeCode x.mode = 8 →
    (engineSample sr bufLen rng x).rng = rng + 1 ∨ (engineSample sr bufLen rng x).rng = rng + 4 := by
  unfold engineSample
  cases x.mode with
  | clouds | ringsIntoClouds | hybridAll | oscClouds | fullHybrid => exact fun _ => cloudsSpawn_rng sr rng _
  | rings | karplus | osc | oscRings => exact fun h => absurd h (by decide)

end

/-! An engine that advances by its command (R337). -/

section
variable {s : State} (v : Fin Config.NV) (hr : s.ready = true)
include hr

/-- `MR.PROC` of +0. -/
theorem exec_mrProc_zero :
    ∃ t, (exec (.mrProc (vidOf v) 0 [0]) s = .next t ∧ t.rsp = s.rsp ++ [(genRings (s.voice v)).2.bits]) ∧
      (t.voice v).rings = (genRings (s.voice v)).1.rings := by
  refine ⟨_, ⟨runVoice_vidOf rfl rfl rfl rfl hr, rfl⟩, ?_⟩
  rw [State.voice_pushF, State.voice_updVoice_self]
  rfl

/-- `KS.GET`. -/
theorem exec_ksGet :
    ∃ t, (exec (.ksGet (vidOf v) 0 []) s = .next t ∧ t.rsp = s.rsp ++ [(genKarplus (s.voice v)).2.bits]) ∧
      (t.voice v).karplus = (genKarplus (s.voice v)).1.karplus := by
  refine ⟨_, ⟨runVoice_vidOf rfl rfl rfl rfl hr, rfl⟩, ?_⟩
  rw [State.voice_pushF, State.voice_updVoice_self]
  rfl

/-- `OSC.NEXT` of oscillator `k`. -/
theorem exec_oscNext (k : Bool) :
    ∃ t, (exec (.oscNext (vidOf v) (BitVec.ofNat 8 (if k then 1 else 0)) []) s = .next t ∧
        t.rsp = s.rsp ++ [(oscNext (s.voice v).oscs k).2.bits]) ∧
      t.ready = true ∧ (t.voice v).oscs = (oscNext (s.voice v).oscs k).1 := by
  refine ⟨_, ⟨runVoice_vidOf rfl rfl rfl (instanceArg_legal k) hr, ?_⟩, hr, ?_⟩
  · rw [argBit0_instanceArg]
    rfl
  · rw [State.voice_pushF, State.voice_updVoice_self, argBit0_instanceArg]

/-- `GR.WRITE` of a mono source and `GR.PROC`. -/
theorem exec_grWrite_grProc (m : F32) :
    ∃ t u, exec (.grWrite (vidOf v) 0 [m.bits, m.bits]) s = .next t ∧
      (exec (.grProc (vidOf v) 0 []) t = .next u ∧
        u.rsp = t.rsp ++ [(genCloud s.sr s.bufLen s.rngIdx m (s.voice v)).left.bits,
          (genCloud s.sr s.bufLen s.rngIdx m (s.voice v)).right.bits]) ∧
      (u.voice v).clouds = (genCloud s.sr s.bufLen s.rngIdx m (s.voice v)).voice.clouds ∧
      u.rngIdx = (genCloud s.sr s.bufLen s.rngIdx m (s.voice v)).rng := by
  refine ⟨_, _, runVoice_vidOf rfl rfl rfl rfl hr, ⟨runVoice_vidOf rfl rfl rfl rfl hr, ?_⟩, ?_, ?_⟩
  · rw [State.voice_updVoice_self, State.pushF_rsp, State.pushF_rsp, List.append_assoc]
    rfl
  · rw [State.voice_pushF, State.voice_pushF, State.voice_setRng, State.voice_updVoice_self, State.voice_updVoice_self]
    rfl
  · rw [State.voice_updVoice_self]
    rfl

end

theorem tableOf_ofNat (t : Fin Config.NTABLES) : tableOf (BitVec.ofNat 32 t).toNat = t := by decide +revert

/-- `WT.GET` of a voice's wavetable registers. -/
theorem exec_wtGet_voice (s : State) (sr : F32) (x : Voice Config.std) :
    exec (.wtGet 0 0 [x.wt.phase.bits, BitVec.ofNat 32 x.wt.a, BitVec.ofNat 32 x.wt.b, x.wt.morph.bits, x.wt.warp.bits,
      x.wt.fold.bits]) s = .next (s.push (genWt sr x).2.bits) := by
  rw [exec_wtGet, tableOf_ofNat, tableOf_ofNat]
  rfl

/-- The mono source that a graph writes to the granular buffers, of the samples of the engines (R337). -/
def monoSource (x : Voice cfg) (r k w o : F32) : F32 :=
  let all := ((x.mix.rings.mul r).add (x.mix.karplus.mul k)).add (x.mix.wt.mul w)
  match x.mode with
  | .clouds => w
  | .ringsIntoClouds => r
  | .hybridAll => all
  | .oscClouds => o
  | .fullHybrid => all.add (x.mix.osc.mul o)
  | .rings | .karplus | .osc | .oscRings => F32.zero

/-- Settles O45: each engine of a graph is advanced as by its command, and the graph mixes the samples. -/
theorem onlyNamedEnginesAdvance : Obligations.OnlyNamedEnginesAdvance := by
  refine ⟨fun sr bufLen rng x => ⟨engineSample_keeps sr bufLen rng x, engineSample_rings sr bufLen rng x,
    engineSample_karplus sr bufLen rng x, engineSample_wt sr bufLen rng x, engineSample_oscs sr bufLen rng x,
    engineSample_mono sr bufLen rng x, engineSample_draws sr bufLen rng x⟩, fun s v hr => ?_⟩
  obtain ⟨tr, hproc, hrings⟩ := exec_mrProc_zero v hr
  obtain ⟨tk, hget, hkarplus⟩ := exec_ksGet v hr
  obtain ⟨t0, hnext0, hr0, hoscs0⟩ := exec_oscNext v hr false
  obtain ⟨t1, hnext1, -, hoscs1⟩ := exec_oscNext v hr0 true
  obtain ⟨tg, tc, hwrite, hcloud, hclouds, hdraws⟩ := exec_grWrite_grProc v hr (monoSource (s.voice v)
    (genRings (s.voice v)).2 (genKarplus (s.voice v)).2 (genWt s.sr (s.voice v)).2 (genOsc (s.voice v)).2)
  rw [hoscs0] at hnext1 hoscs1
  refine ⟨tr, tk, t0, t1, tg, tc, _, _, _, _, _, _, _, hproc, hget, hnext0, hnext1, exec_wtGet_voice s s.sr _, hwrite, hcloud, ?_⟩
  rw [hrings, hkarplus, hoscs1, hclouds, hdraws]
  generalize s.voice v = x
  obtain ⟨_, _, _, _, _, _, _, _, mode, _, _, _, _, _, _, _, _, _⟩ := x
  cases mode <;> rfl

end Sys2Proof.Machine

/-! The allocation (`47_voice_pool_and_system.md` R369): a search finds the lowest voice of its kind, and `oldest` the smallest `AGE`. -/

namespace Sys2Proof.Machine

variable {cfg : Config.Params}

/-- The search over all voices answers the lowest one, if there is one. -/
theorem exists_find_voiceNumbers {p : Fin cfg.nv → Bool} {v : Fin cfg.nv} (hv : p v = true) :
    ∃ t, (voiceNumbers cfg).find? p = some t ∧ p t = true ∧ ∀ w, p w = true → t ≤ w := by
  obtain ⟨t, ht⟩ := Option.isSome_iff_exists.mp (List.find?_isSome.mpr ⟨v, List.mem_finRange v, hv⟩)
  obtain ⟨hp, i, hi, hti, hlow⟩ := List.find?_eq_some_iff_getElem.mp ht
  refine ⟨t, ht, hp, fun w hw => ?_⟩
  by_contra hlt
  have hwi : w.val < i := by
    rw [← hti, List.getElem_finRange] at hlt
    exact Nat.lt_of_not_le hlt
  simpa [voiceNumbers, hw] using hlow w.val hwi

theorem find_voiceNumbers_eq_none {p : Fin cfg.nv → Bool} (h : ∀ v, ¬p v = true) : (voiceNumbers cfg).find? p = none :=
  List.find?_eq_none.mpr fun v _ => h v

/-- Voice `v` has the smaller `AGE`, or the same and not the higher number. -/
def State.Older (s : State cfg) (v w : Fin cfg.nv) : Prop :=
  (s.voice v).age.toNat < (s.voice w).age.toNat ∨ ((s.voice v).age = (s.voice w).age ∧ v ≤ w)

/-- The oldest voice of a list in ascending order. -/
theorem State.exists_oldest (s : State cfg) {l : List (Fin cfg.nv)} (hl : l.Pairwise (· < ·)) {v : Fin cfg.nv} (hv : v ∈ l) :
    ∃ t, s.oldest l = some t ∧ t ∈ l ∧ ∀ w ∈ l, s.Older t w := by
  induction l generalizing v with
  | nil => cases hv
  | cons a l ih =>
    obtain ⟨hal, hl⟩ := List.pairwise_cons.mp hl
    cases l with
    | nil =>
      refine ⟨a, rfl, .head _, fun w hw => ?_⟩
      obtain rfl := List.mem_singleton.mp hw
      exact .inr ⟨rfl, le_rfl⟩
    | cons b l =>
      obtain ⟨t, ht, hmem, hold⟩ := ih hl (.head _)
      rw [State.oldest, ht]
      by_cases hlt : (s.voice t).age < (s.voice a).age
      · refine ⟨t, if_pos hlt, .tail _ hmem, fun w hw => ?_⟩
        rcases List.mem_cons.mp hw with rfl | hw
        · exact .inl hlt
        · exact hold w hw
      · refine ⟨a, if_neg hlt, .head _, fun w hw => ?_⟩
        rcases List.mem_cons.mp hw with rfl | hw
        · exact .inr ⟨rfl, le_rfl⟩
        · have hle : (s.voice a).age.toNat ≤ (s.voice t).age.toNat := Nat.le_of_not_lt hlt
          rcases hold w hw with h | ⟨h, _⟩
          · exact .inl (hle.trans_lt h)
          · rw [h] at hle
            exact (Nat.lt_or_eq_of_le hle).imp_right fun e => ⟨BitVec.eq_of_toNat_eq e, (hal w hw).le⟩

theorem voiceNumbers_pairwise : (voiceNumbers cfg).Pairwise (· < ·) := List.pairwise_lt_finRange cfg.nv

theorem holdsNote_iff (n : Nat) (x : Voice cfg) :
    holdsNote n x = true ↔ x.active = true ∧ x.note = natWord n ∧ x.fading = false := by
  simp [holdsNote, and_assoc]

theorem isEnding_iff (x : Voice cfg) :
    isEnding x = true ↔ x.active = true ∧ (x.fading = true ∨ x.enva.stage = .release) := by
  unfold isEnding lifecycle
  cases x.active <;> cases x.fading <;> by_cases hs : x.enva.stage = .release <;> simp [hs]

/-! The four steps of R369. -/

theorem State.allocate_of_held {s : State cfg} {n : Nat} {v : Fin cfg.nv} (hv : holdsNote n (s.voice v) = true) :
    holdsNote n (s.voice (s.allocate n)) = true ∧ ∀ w, holdsNote n (s.voice w) = true → s.allocate n ≤ w := by
  obtain ⟨t, hfind, ht⟩ := exists_find_voiceNumbers (p := fun v => holdsNote n (s.voice v)) hv
  rw [State.allocate, hfind]
  exact ht

theorem State.allocate_of_free {s : State cfg} {n : Nat} (hheld : ∀ v, ¬holdsNote n (s.voice v) = true) {v : Fin cfg.nv}
    (hv : (s.voice v).active = false) :
    (s.voice (s.allocate n)).active = false ∧ ∀ w, (s.voice w).active = false → s.allocate n ≤ w := by
  obtain ⟨t, hfind, ht⟩ := exists_find_voiceNumbers (p := fun v => !(s.voice v).active) (by simpa using hv)
  rw [State.allocate, find_voiceNumbers_eq_none hheld, hfind]
  simpa using ht

theorem State.allocate_of_ending {s : State cfg} {n : Nat} (hheld : ∀ v, ¬holdsNote n (s.voice v) = true)
    (hfree : ∀ v, ¬(!(s.voice v).active) = true) {v : Fin cfg.nv} (hv : isEnding (s.voice v) = true) :
    isEnding (s.voice (s.allocate n)) = true ∧ ∀ w, isEnding (s.voice w) = true → s.Older (s.allocate n) w := by
  have hmem : ∀ w, w ∈ ((voiceNumbers cfg).filter fun v => isEnding (s.voice v)) ↔ isEnding (s.voice w) = true :=
    fun w => by simp [voiceNumbers]
  obtain ⟨t, hold, ht, hleast⟩ := s.exists_oldest (voiceNumbers_pairwise.filter _) ((hmem v).mpr hv)
  rw [State.allocate, find_voiceNumbers_eq_none hheld, find_voiceNumbers_eq_none hfree, hold]
  exact ⟨(hmem t).mp ht, fun w hw => hleast w ((hmem w).mpr hw)⟩

theorem State.allocate_of_sounding {s : State cfg} {n : Nat} (hheld : ∀ v, ¬holdsNote n (s.voice v) = true)
    (hfree : ∀ v, ¬(!(s.voice v).active) = true) (hending : ∀ v, ¬isEnding (s.voice v) = true) (w : Fin cfg.nv) :
    s.Older (s.allocate n) w := by
  have hempty : ((voiceNumbers cfg).filter fun v => isEnding (s.voice v)) = [] := List.filter_eq_nil_iff.mpr fun v _ => hending v
  obtain ⟨t, hold, _, hleast⟩ := s.exists_oldest voiceNumbers_pairwise (List.mem_finRange w)
  rw [State.allocate, find_voiceNumbers_eq_none hheld, find_voiceNumbers_eq_none hfree, hempty, hold]
  exact hleast w (List.mem_finRange w)

/-- Settles O38: each step of the allocation is a search for the lowest or the oldest voice of its kind. -/
theorem allocationOrder : Obligations.AllocationOrder := by
  intro s n t holds free ending older
  have hholds : ∀ v, holds v ↔ holdsNote n (s.voice v) = true := fun v => (holdsNote_iff n _).symm
  have hending : ∀ v, ending v ↔ isEnding (s.voice v) = true := fun v => (isEnding_iff _).symm
  have hfree : ∀ v, free v ↔ (!(s.voice v).active) = true := fun v => by simp [free]
  simp only [hholds, hending, not_exists]
  refine ⟨fun ⟨v, hv⟩ => State.allocate_of_held hv, fun hheld ⟨v, hv⟩ => State.allocate_of_free hheld hv,
    fun hheld hnone ⟨v, hv⟩ => ?_, fun hheld hnone hsounding => ?_⟩
  · exact State.allocate_of_ending hheld (fun v => mt (hfree v).mpr (hnone v)) hv
  · exact State.allocate_of_sounding (s := s) hheld (fun v => mt (hfree v).mpr (hnone v)) hsounding

end Sys2Proof.Machine

/-! Notes held once (`47_voice_pool_and_system.md` R372 (b)): a command other than a start lets no voice sound that did not, and `NOTEON`
starts the one voice that holds the note, if there is one. -/

namespace Sys2Proof.Machine

variable {cfg : Config.Params}

/-- If the voice `y` is active and not fading out, then so is `x`, with the same note. -/
def SoundsOn (x y : Voice cfg) : Prop :=
  y.active = true → y.fading = false → x.active = true ∧ x.fading = false ∧ y.note = x.note

theorem SoundsOn.of_same {x y : Voice cfg} (ha : y.active = x.active) (hf : y.fading = x.fading) (hn : y.note = x.note) :
    SoundsOn x y := fun hya hyf => ⟨ha ▸ hya, hf ▸ hyf, hn⟩

theorem SoundsOn.refl (x : Voice cfg) : SoundsOn x x := .of_same rfl rfl rfl

theorem SoundsOn.trans {x y z : Voice cfg} (hxy : SoundsOn x y) (hyz : SoundsOn y z) : SoundsOn x z := fun ha hf => by
  obtain ⟨hya, hyf, hzy⟩ := hyz ha hf
  obtain ⟨hxa, hxf, hyx⟩ := hxy hya hyf
  exact ⟨hxa, hxf, hzy.trans hyx⟩

theorem SoundsOn.of_inactive {x y : Voice cfg} (h : y.active = false) : SoundsOn x y := fun ha => by
  rw [h] at ha
  cases ha

theorem soundsOn_setEnv (x : Voice cfg) (k : Bool) (e : Env) : SoundsOn x (setEnv x k e) := by
  cases k <;> exact .of_same rfl rfl rfl

theorem soundsOn_voiceStop (sr : F32) (k : Bool) (x : Voice cfg) : SoundsOn x (voiceStop sr k x) := by
  rcases voiceStop_cases sr k x with h | ⟨_, _, h⟩ | ⟨_, _, _, h⟩ <;> rw [h]
  · exact .refl x
  · exact .of_same rfl rfl rfl
  · exact fun _ hf => nomatch hf

theorem soundsOn_voiceNoteOff (sr : F32) (n : Nat) (x : Voice cfg) : SoundsOn x (voiceNoteOff sr n x) := by
  unfold voiceNoteOff
  split
  · exact soundsOn_voiceStop sr true x
  · exact .refl x

theorem soundsOn_of_set {s t : State cfg} {v : Fin cfg.nv} {y : Voice cfg} (ht : t.voices = s.voices.set v y)
    (hy : SoundsOn (s.voice v) y) (w : Fin cfg.nv) : SoundsOn (s.voice w) (t.voice w) :=
  State.voice_of_set (P := SoundsOn (s.voice w)) ht (.refl _) fun e => e ▸ hy

theorem runVoice_soundsOn {i : Instr} {s t : State cfg} {g : Fin cfg.nv → State cfg} {y : Fin cfg.nv → Voice cfg}
    (h : runVoice i s (fun v => .next (g v)) = .next t) (hg : ∀ v, (g v).voices = s.voices.set v (y v))
    (hy : ∀ v, SoundsOn (s.voice v) (y v)) (w : Fin cfg.nv) : SoundsOn (s.voice w) (t.voice w) := by
  rcases runVoice_next h with ⟨f, rfl⟩ | ⟨v, _, _, hu⟩
  · exact .refl _
  · obtain rfl := Host.Outcome.next.inj hu
    exact soundsOn_of_set (hg v) (hy v) w

/-- A render frame leaves the lifecycle registers alone, and the end of a voice silences it. -/
theorem soundsOn_renderAll (s : State cfg) (l : List (Fin cfg.nv)) (n : Nat) (w : Fin cfg.nv) :
    SoundsOn (s.voice w) ((l.foldl (fun t v => t.renderVoice v n) s).voice w) := by
  refine renderAll_induction (P := fun t => SoundsOn (s.voice w) (t.voice w)) (.refl _) (fun t v _ ht =>
    renderLoop_induction (P := fun t => SoundsOn (s.voice w) (t.voice w)) ht (fun u k _ _ hu => ?_) fun u hu => ?_) l
  · exact hu.trans (soundsOn_of_set (State.renderFrame_voices u v k)
      (.of_same (voiceFrame_active _ _ _ _ _ _) (voiceFrame_fading _ _ _ _ _ _) (voiceFrame_note _ _ _ _ _ _)) w)
  · exact hu.trans (soundsOn_of_set (State.updVoice_voices u v _) (.of_inactive rfl) w)

/-- Every command but a start only lets voices sound on. -/
theorem exec_soundsOn {i : Instr} {s t : State} (h : exec i s = .next t) (hi : ¬startsVoice i) (w : Fin Config.NV) :
    SoundsOn (s.voice w) (t.voice w) := by
  cases i with
  | vStart vid arg ops => exact absurd (.inl ⟨vid, arg, ops, rfl⟩) hi
  | noteon vid arg ops => exact absurd (.inr ⟨vid, arg, ops, rfl⟩) hi
  | nop vid arg ops | clrerr vid arg ops | peek vid arg ops | wrparam vid arg ops | wtGet vid arg ops =>
    rw [exec_touches_no_voice h ⟨vid, arg, ops, by simp⟩ w]
    exact .refl _
  | prepare vid arg ops =>
    rcases execPrepare_next h with ⟨f, rfl⟩ | ⟨_, rfl⟩
    · exact .refl _
    · rw [State.voice_prepare]
      exact .of_inactive rfl
  | setglobal vid arg ops =>
    rcases execSetglobal_next h with ⟨f, rfl⟩ | ⟨_, rfl⟩
    · exact .refl _
    · rw [State.voice_updVoices]
      exact .of_same rfl rfl rfl
  | noteoff vid arg ops =>
    rcases execNoteoff_next h with ⟨f, rfl⟩ | ⟨_, rfl⟩
    · exact .refl _
    · rw [State.voice_updVoices]
      exact soundsOn_voiceNoteOff _ _ _
  | render vid arg ops =>
    rcases execRender_next h with ⟨f, rfl⟩ | ⟨_, _, _, ht⟩
    · exact .refl _
    · rw [ht]
      exact soundsOn_renderAll s (voiceNumbers Config.std) _ w
  | vRender vid arg ops =>
    rcases execVRender_next h with ⟨f, rfl⟩ | ⟨v, _, _, _, _, rfl⟩
    · exact .refl _
    · exact soundsOn_renderAll s [v] _ w
  | vStop => exact runVoice_soundsOn h (fun _ => rfl) (fun _ => soundsOn_voiceStop _ _ _) w
  | envSetparams | envNoteon | envNoteoff | envNext =>
    exact runVoice_soundsOn h (fun _ => rfl) (fun _ => soundsOn_setEnv _ _ _) w
  | vSetmode | vSetrings | vSetclouds | vSetwt | vSetmix | vSetenv | vSetfilt | vSetosc | mrSetparams | mrTrigger | mrProc | grWrite
  | grProc | ksSetfreq | ksTrigger | ksGet | oscSetfreq | oscSetwave | oscReset | oscNext | fltProc | fltReset =>
    exact runVoice_soundsOn h (fun _ => rfl) (fun _ => .of_same rfl rfl rfl) w

theorem State.notesHeldOnce_of_soundsOn {s t : State cfg} (hs : s.notesHeldOnce) (h : ∀ w, SoundsOn (s.voice w) (t.voice w)) :
    t.notesHeldOnce := by
  intro v w hva hvf hwa hwf hnote
  obtain ⟨hva, hvf, hvn⟩ := h v hva hvf
  obtain ⟨hwa, hwf, hwn⟩ := h w hwa hwf
  exact hs v w hva hvf hwa hwf (hvn.symm.trans (hnote.trans hwn))

/-- A start of a note on the only voice that may hold it. -/
theorem State.notesHeldOnce_startVoice {s : State cfg} (hs : s.notesHeldOnce) {a : Fin cfg.nv} {n : Nat}
    (ha : ∀ w, holdsNote n (s.voice w) = true → w = a) (x : F32) : (s.startVoice a n x).notesHeldOnce := by
  have hother : ∀ w, w ≠ a → ((s.startVoice a n x).voice w).active = true → ((s.startVoice a n x).voice w).fading = false →
      ((s.startVoice a n x).voice w).note ≠ natWord n := by
    intro w hw hwa hwf hwn
    rw [State.voice_startVoice_ne s a n x hw] at hwa hwf hwn
    exact hw (ha w ((holdsNote_iff n _).mpr ⟨hwa, hwn, hwf⟩))
  have hstarted : ((s.startVoice a n x).voice a).note = natWord n := by rw [State.voice_startVoice_self, voiceStart_note]
  intro v w hva hvf hwa hwf hnote
  by_cases hv : v = a <;> by_cases hw : w = a
  · exact hv.trans hw.symm
  · exact absurd (hnote.symm.trans (hv ▸ hstarted)) (hother w hw hwa hwf)
  · exact absurd (hnote.trans (hw ▸ hstarted)) (hother v hv hva hvf)
  · rw [State.voice_startVoice_ne s a n x hv] at hva hvf hnote
    rw [State.voice_startVoice_ne s a n x hw] at hwa hwf hnote
    exact hs v w hva hvf hwa hwf hnote

/-- Only the voice that the allocation answers holds the note. -/
theorem State.eq_allocate_of_holdsNote {s : State cfg} (hs : s.notesHeldOnce) {n : Nat} {w : Fin cfg.nv}
    (hw : holdsNote n (s.voice w) = true) : w = s.allocate n := by
  obtain ⟨haa, han, haf⟩ := (holdsNote_iff n _).mp (State.allocate_of_held hw).1
  obtain ⟨hwa, hwn, hwf⟩ := (holdsNote_iff n _).mp hw
  exact hs w _ hwa hwf haa haf (hwn.trans han.symm)

/-- Settles O60: `NOTEON` starts the one voice that holds the note, and every other command only lets voices sound on. -/
theorem notesHeldOnce : Obligations.NotesHeldOnce := by
  intro i s t h hi hs
  by_cases hon : ∃ vid arg ops, i = .noteon vid arg ops
  · obtain ⟨vid, arg, ops, rfl⟩ := hon
    rcases execNoteon_next h with ⟨f, rfl⟩ | ⟨_, rfl⟩
    · exact hs
    · exact State.notesHeldOnce_startVoice hs (fun _ => State.eq_allocate_of_holdsNote hs) _
  · exact State.notesHeldOnce_of_soundsOn hs (exec_soundsOn h fun hst =>
      hst.elim (fun ⟨vid, arg, ops, e⟩ => hi vid arg ops e) hon)

end Sys2Proof.Machine

/-! The stops (`46_voice.md` R330, R331, `47_voice_pool_and_system.md` R370). -/

namespace Sys2Proof.Machine

variable {cfg : Config.Params}

/-- A command that names no voice and passes its header checks is its effect, in a prepared block or if it is marked U. -/
theorem runGlobal_of_wellFormed {i : Instr} {s : State cfg} {e : Out cfg} (hw : i.wellFormed cfg = true)
    (hr : s.ready = true ∨ isEarly i = true) : runGlobal i s e = e :=
  runGlobal_of_firstFault (firstFault_of_wellFormed hw hr)

/-- A note-off releases an envelope that is neither idle nor releasing (R294). -/
theorem envNoteOff_eq (sr : F32) (e : Env) :
    envNoteOff sr e =
      if e.stage = .idle ∨ e.stage = .release then e else { e with relRate := e.level.div (e.r.mul sr), stage := .release } := by
  unfold envNoteOff
  cases e.stage <;> simp

theorem voiceStop_tailOff (sr : F32) (x : Voice cfg) :
    voiceStop sr true x = if x.active then { x with enva := envNoteOff sr x.enva, envf := envNoteOff sr x.envf } else x := by
  unfold voiceStop
  cases x.active <;> rfl

theorem voiceStop_fadeOut (sr : F32) (x : Voice cfg) :
    voiceStop sr false x = if x.active = true ∧ x.fading = false then { x with fading := true, fadeoutCnt := 0 } else x := by
  unfold voiceStop
  cases x.active <;> cases x.fading <;> rfl

theorem voiceNoteOff_eq (sr : F32) (n : Nat) (x : Voice cfg) :
    voiceNoteOff sr n x =
      if x.active = true ∧ x.note = natWord n ∧ x.fading = false then
        { x with enva := envNoteOff sr x.enva, envf := envNoteOff sr x.envf }
      else x := by
  simp only [voiceNoteOff, holdsNote_iff]
  refine if_ctx_congr Iff.rfl (fun h => ?_) fun _ => rfl
  rw [voiceStop_tailOff, if_pos h.1]

/-- Settles O39: each command passes its checks and is `voiceStop` or `voiceNoteOff`, whose cases are those of R330, R331 and R370. -/
theorem stopCommands : Obligations.StopCommands := by
  unfold Obligations.StopCommands
  extract_lets off
  intro s v hr
  have hoff (sr : F32) (e : Env) : off sr e = envNoteOff sr e := (envNoteOff_eq sr e).symm
  simp only [hoff]
  refine ⟨Eq.trans (runVoice_vidOf rfl rfl rfl rfl hr) ?_, Eq.trans (runVoice_vidOf rfl rfl rfl rfl hr) ?_, fun arg =>
    Eq.trans (runGlobal_of_wellFormed rfl (.inl hr)) ?_⟩
  · exact congrArg Host.Outcome.next (State.updVoice_congr (voiceStop_tailOff s.sr _))
  · exact congrArg Host.Outcome.next (State.updVoice_congr (voiceStop_fadeOut s.sr _))
  · exact congrArg (fun f => Host.Outcome.next (s.updVoices f)) (funext (voiceNoteOff_eq s.sr _))

end Sys2Proof.Machine

/-! `RENDER` (`47_voice_pool_and_system.md` R368, R372). -/

namespace Sys2Proof.Machine

variable {cfg : Config.Params}

theorem renderAll_of_inactive {l : List (Fin cfg.nv)} {s : State cfg} (h : ∀ v ∈ l, (s.voice v).active = false) (n : Nat) :
    l.foldl (fun t v => t.renderVoice v n) s = s := by
  induction l with
  | nil => rfl
  | cons v l ih =>
    rw [List.foldl_cons, renderVoice_of_inactive (h v (.head _))]
    exact ih fun w hw => h w (.tail _ hw)

/-- Where one voice may be active, the render of a list that has it once is that voice's. -/
theorem renderAll_of_only {l : List (Fin cfg.nv)} {s : State cfg} {v : Fin cfg.nv} (hv : v ∈ l) (hl : l.Nodup)
    (h : ∀ w, w ≠ v → (s.voice w).active = false) (n : Nat) :
    l.foldl (fun t v => t.renderVoice v n) s = s.renderVoice v n := by
  induction l with
  | nil => cases hv
  | cons a l ih =>
    obtain ⟨hal, hl⟩ := List.nodup_cons.mp hl
    rw [List.foldl_cons]
    by_cases ha : a = v
    · subst ha
      refine renderAll_of_inactive (fun w hw => ?_) n
      have hne : w ≠ a := fun e => hal (e ▸ hw)
      rw [voice_renderVoice_ne hne, h w hne]
    · rw [renderVoice_of_inactive (h a ha)]
      exact ih (List.mem_of_ne_of_mem (Ne.symm ha) hv) hl

/-- In a prepared block, with the host away from the frames of a block that is not too long, `RENDER` renders voice after voice. -/
theorem exec_render {s : State} {n : Word} (hr : s.ready = true) (hn : n.toNat ≤ s.maxBlock.toNat)
    (hh : s.hostInOut n.toNat = false) :
    exec (.render 0 0 [n]) s = .next ((voiceNumbers Config.std).foldl (fun t v => t.renderVoice v n.toNat) s) :=
  Eq.trans (runGlobal_of_wellFormed rfl (.inl hr)) (renderGuard_of_le hn hh)

/-- Settles O42: the command is a fold over the voice numbers, in which an inactive voice renders nothing. -/
theorem renderCommand : Obligations.RenderCommand := by
  intro s n hr hn hh
  rw [exec_render hr hn hh]
  refine ⟨rfl, fun hidle => ?_, fun v _ hidle => ?_⟩
  · exact congrArg _ (renderAll_of_inactive (fun v _ => hidle v) _)
  · rw [exec_vRender v hr hn hh]
    exact congrArg _ (renderAll_of_only (List.mem_finRange v) (List.nodup_finRange _) hidle _)

end Sys2Proof.Machine

/-! `PREPARE` (`47_voice_pool_and_system.md` R362, `60_exceptions.md` R415). -/

namespace Sys2Proof

/-- P4 at +0. -/
theorem Num.exp2_zero : Num.exp2 F32.zero = F32.one := Num.exp2_of_exactPower (e := 127) (by decide +kernel)

end Sys2Proof

namespace Sys2Proof.Machine

variable {cfg : Config.Params}

theorem exec_prepare (s : State) (w0 w1 : Word) : exec (.prepare 0 0 [w0, w1]) s = .next (s.prepare ⟨w0⟩ w1.toNat) :=
  runGlobal_of_wellFormed rfl (.inr rfl)

theorem clampRate_eq (x : F32) : clampRate Config.std x = x.clamp (F32.ofNat 1000) (F32.ofNat 192000) := by
  have hlo : Config.srMin = F32.ofNat 1000 := by decide +kernel
  have hhi : Config.srMax = F32.ofNat 192000 := by decide +kernel
  show x.clamp Config.srMin Config.srMax = _
  rw [hlo, hhi]

theorem clampFreq_440 : clampFreq (F32.ofNat 440) = F32.ofNat 440 := by decide +kernel

/-- With no detune both oscillators have the increment of the voice's frequency. -/
theorem oscRetune_resetOscs (sr : F32) :
    oscRetune sr (F32.ofNat 440) resetOscs = { resetOscs with
      osc0 := { resetOscs.osc0 with inc := clampInc ((F32.ofNat 440).div sr) }
      osc1 := { resetOscs.osc1 with inc := clampInc ((F32.ofNat 440).div sr) } } := by
  have hdetune : resetOscs.detune.div (F32.ofNat 12) = F32.zero := by decide +kernel
  have hfreq : (F32.ofNat 440).mul F32.one = F32.ofNat 440 := by decide +kernel
  rw [oscRetune, hdetune, Num.exp2_zero, hfreq]

theorem resetRings_modes : ∀ i : Fin Config.NMODES, resetRings.modes[i] = resetMode i := by decide +kernel

/-- Settles O50: the command is `State.prepare`, which gives every voice `preparedVoice`. -/
theorem prepareCommand : Obligations.PrepareCommand := by
  intro s w0 w1
  refine ⟨_, exec_prepare s w0 w1, ?_⟩
  intro sr
  have hsr : clampRate Config.std ⟨w0⟩ = sr := clampRate_eq _
  rw [← hsr]
  refine ⟨rfl, fun v => ?_⟩
  rw [State.voice_prepare]
  refine ⟨?_, fun i => ?_, ?_, rfl, rfl, fun _ => rfl⟩
  · have hosc := oscRetune_resetOscs (clampRate Config.std ⟨w0⟩)
    exact congrArg (fun o => { preparedVoice Config.std (clampRate Config.std ⟨w0⟩) with oscs := o }) hosc
  · rw [Fin.getElem_fin, preparedVoice, getElem_vecMap, ← Fin.getElem_fin, resetRings_modes]
  · show natWord (ksLength Config.std _ (clampFreq (F32.ofNat 440))) = _
    rw [clampFreq_440, natWord]

/-- The sample rate that `PREPARE` sets is not +0. -/
theorem State.prepare_ready (s : State) (r : F32) (n : Nat) : (s.prepare r n).ready = true := by
  rw [State.ready, bne_iff_ne, State.prepare_sr]
  intro h
  have hbetween := clampRate_between r
  rw [h] at hbetween
  exact absurd hbetween (by decide +kernel)

/-- A well-formed `PREPARE` has two operand words and nothing else in its header. -/
theorem prepare_of_wellFormed {vid arg : Byte} {ops : List Word} (h : (Instr.prepare vid arg ops).wellFormed = true) :
    ∃ w0 w1, Instr.prepare vid arg ops = .prepare 0 0 [w0, w1] := by
  simp only [Instr.wellFormed, Bool.and_eq_true] at h
  obtain ⟨⟨hlen, harg⟩, hvid⟩ := h
  obtain rfl : arg = 0 := eq_of_beq (α := Byte) harg
  obtain rfl : vid = 0 := eq_of_beq (α := Byte) hvid
  obtain ⟨w0, w1, rfl⟩ := List.length_eq_two.mp (of_decide_eq_true hlen)
  exact ⟨w0, w1, rfl⟩

/-- Settles O8: `PREPARE` alone writes the sample rate, and only a well-formed one does. -/
theorem readyEnteredByPrepareOnly : Obligations.ReadyEnteredByPrepareOnly := by
  refine ⟨fun i s t h hr => ?_, fun i s t h hr ht => ?_, fun s w0 w1 => ⟨_, exec_prepare s w0 w1, s.prepare_ready _ _⟩⟩
  · by_cases hp : ∃ vid arg ops, i = .prepare vid arg ops
    · obtain ⟨vid, arg, ops, rfl⟩ := hp
      rcases execPrepare_next h with ⟨f, rfl⟩ | ⟨_, rfl⟩
      · exact hr
      · exact s.prepare_ready _ _
    · rw [((exec_effect h).sameConfig hp).ready, hr]
  · by_cases hp : ∃ vid arg ops, i = .prepare vid arg ops
    · obtain ⟨vid, arg, ops, rfl⟩ := hp
      rcases execPrepare_next h with ⟨f, rfl⟩ | ⟨ha, _⟩
      · exact absurd (hr.symm.trans ht) Bool.false_ne_true
      · have hw := (wellFormedIffChecksPass Config.std _).mpr (of_admit ha).1
        exact prepare_of_wellFormed hw
    · exact absurd (hr.symm.trans (((exec_effect h).sameConfig hp).ready ▸ ht)) Bool.false_ne_true

end Sys2Proof.Machine

/-! `SETGLOBAL` (`47_voice_pool_and_system.md` R366): each group's setter, set again to the same operands, changes nothing. -/

namespace Sys2Proof.Machine

variable {cfg : Config.Params}

/-- `MR_SET` leaves a resonator alone that has these registers and whose modes are tuned to them. -/
theorem ringsSet_eq_self {sr f a b c d : F32} {n : Nat} {r : Rings} (hf : clampFreq f = r.freq) (ha : clampUnit a = r.bri)
    (hb : clampUnit b = r.damp) (hc : clampUnit c = r.pos) (hd : clampUnit d = r.struct) (hn : modelOfCode n = r.model)
    (hr : RingsTuned cfg sr r) (hsr : (sr != F32.zero) = true) : ringsSet cfg sr f a b c d n r = r := by
  have hmodes : (ringsSet cfg sr f a b c d n r).modes = r.modes := by
    refine Vector.ext fun i hi => ?_
    obtain ⟨hfreq, hdecay, hbri, hcoef⟩ := hr ⟨i, hi⟩
    refine (ringsSet_modes sr f a b c d n r ⟨i, hi⟩).trans (Eq.trans ?_ (hcoef hsr))
    rw [hf, ha, hb, hd, hn, ← hfreq, ← hdecay, ← hbri]
  calc ringsSet cfg sr f a b c d n r = { r with modes := (ringsSet cfg sr f a b c d n r).modes } := by
        simp only [ringsSet, hf, ha, hb, hc, hd, hn]
    _ = r := by rw [hmodes]

/-- `V.SETOSC` leaves oscillators alone that have these registers and are tuned to the frequency of the voice. -/
theorem oscSet_oscRetune {sr f a b c : F32} {m n : Nat} {o : Oscs} (hm : waveOfCode m = o.osc0.wave) (hn : waveOfCode n = o.osc1.wave)
    (ha : clampDetune a = o.detune) (hb : clampUnit b = o.mix) (hc : clampWidth c = o.pw) :
    oscSet sr f m n a b c (oscRetune sr f o) = oscRetune sr f o := by
  rw [oscSet, hm, hn, ha, hb, hc]
  rfl

theorem State.updVoices_eq_self {s : State cfg} {f : Voice cfg → Voice cfg} (h : ∀ v, f (s.voice v) = s.voice v) :
    s.updVoices f = s := by
  rw [State.updVoices, vecMap_eq_self f s.voices fun i hi => h ⟨i, hi⟩]

theorem exec_setglobal {s : State} (hr : s.ready = true) :
    exec (.setglobal 0 0 []) s = .next (s.updVoices (voiceSetGlobal s.sr s.cellsRead)) :=
  runGlobal_of_wellFormed rfl (.inl hr)

/-- A `SETGLOBAL` that finds every voice as it would set it. -/
theorem exec_setglobal_eq_self {s : State} (hr : s.ready = true) (hp : s.port = [])
    (h : ∀ v, voiceSetGlobal s.sr s.params (s.voice v) = s.voice v) : exec (.setglobal 0 0 []) s = .next s := by
  rw [exec_setglobal hr, State.cellsRead_of_port_nil hp, State.updVoices_eq_self h]

/-- `SETGLOBAL` leaves a voice alone that each group's setter leaves alone. -/
theorem voiceSetGlobal_eq_self {sr : F32} {p : Vector Word Config.NPARAM} {x : Voice cfg} (hmode : modeOfCode p[0].toNat = x.mode)
    (hrings : ringsSet cfg sr x.freq ⟨p[1]⟩ ⟨p[2]⟩ ⟨p[3]⟩ ⟨p[4]⟩ p[5].toNat x.rings = x.rings)
    (hclouds : cloudsSet p[11].toNat ⟨p[6]⟩ ⟨p[7]⟩ ⟨p[8]⟩ ⟨p[9]⟩ ⟨p[10]⟩ x.clouds = x.clouds)
    (hwt : wtSet p[12].toNat p[13].toNat ⟨p[14]⟩ ⟨p[15]⟩ ⟨p[16]⟩ x.wt = x.wt)
    (hmix : mixSet ⟨p[17]⟩ ⟨p[18]⟩ ⟨p[19]⟩ ⟨p[20]⟩ ⟨p[21]⟩ = x.mix)
    (henva : envSet ⟨p[22]⟩ ⟨p[23]⟩ ⟨p[24]⟩ ⟨p[25]⟩ x.enva = x.enva)
    (henvf : envSet ⟨p[26]⟩ ⟨p[27]⟩ ⟨p[28]⟩ ⟨p[29]⟩ x.envf = x.envf)
    (hflt : filtSet p[33].toNat ⟨p[30]⟩ ⟨p[31]⟩ ⟨p[32]⟩ x.flt = x.flt)
    (hoscs : oscSet sr x.freq p[34].toNat p[35].toNat ⟨p[36]⟩ ⟨p[37]⟩ ⟨p[38]⟩ x.oscs = x.oscs) : voiceSetGlobal sr p x = x := by
  rw [voiceSetGlobal, hmode, hrings, hclouds, hwt, hmix, henva, henvf, hflt, hoscs]

theorem voiceSetGlobal_idem {sr : F32} (hsr : (sr != F32.zero) = true) (p : Vector Word Config.NPARAM) (x : Voice cfg) :
    voiceSetGlobal sr p (voiceSetGlobal sr p x) = voiceSetGlobal sr p x :=
  voiceSetGlobal_eq_self rfl (ringsSet_eq_self rfl rfl rfl rfl rfl rfl (ringsTuned_ringsSet _ _ _ _ _ _ _ _) hsr) rfl rfl rfl rfl rfl
    rfl rfl

/-- Settles O46: the command is `voiceSetGlobal` at every voice, which sets a voice once and for all. -/
theorem setglobalCommand : Obligations.SetglobalCommand := by
  intro s hr p n t
  have hset : exec (.setglobal 0 0 []) s = .next t := exec_setglobal hr
  refine ⟨hset, fun hp => ⟨State.cellsRead_of_port_nil hp, exec_setglobal_eq_self hr hp fun v => ?_⟩⟩
  have ht : t = s.updVoices (voiceSetGlobal s.sr s.params) := by
    rw [← State.cellsRead_of_port_nil hp]
    rfl
  rw [ht, State.voice_updVoices]
  exact voiceSetGlobal_idem hr s.params (s.voice v)

/-- The cells after reset. -/
abbrev resetCells : Vector Word Config.NPARAM := State.reset.params

/-- The default cells set a voice to what `PREPARE` leaves (R366, example). -/
theorem voiceSetGlobal_preparedVoice {sr : F32} (hsr : (sr != F32.zero) = true) :
    voiceSetGlobal sr resetCells (preparedVoice Config.std sr) = preparedVoice Config.std sr := by
  refine voiceSetGlobal_eq_self (show modeOfCode resetCells[0].toNat = .rings by decide +kernel) ?_ ?_ ?_ ?_ ?_ ?_ ?_ ?_
  · exact ringsSet_eq_self clampFreq_440 (show clampUnit ⟨resetCells[1]⟩ = resetRings.bri by decide +kernel)
      (show clampUnit ⟨resetCells[2]⟩ = resetRings.damp by decide +kernel)
      (show clampUnit ⟨resetCells[3]⟩ = resetRings.pos by decide +kernel)
      (show clampUnit ⟨resetCells[4]⟩ = resetRings.struct by decide +kernel)
      (show modelOfCode resetCells[5].toNat = resetRings.model by decide +kernel) (ringsTuned_preparedVoice sr) hsr
  · show cloudsSet resetCells[11].toNat ⟨resetCells[6]⟩ ⟨resetCells[7]⟩ ⟨resetCells[8]⟩ ⟨resetCells[9]⟩ ⟨resetCells[10]⟩
      (resetClouds Config.std) = resetClouds Config.std
    decide +kernel
  · show wtSet resetCells[12].toNat resetCells[13].toNat ⟨resetCells[14]⟩ ⟨resetCells[15]⟩ ⟨resetCells[16]⟩ resetWt = resetWt
    decide +kernel
  · show mixSet ⟨resetCells[17]⟩ ⟨resetCells[18]⟩ ⟨resetCells[19]⟩ ⟨resetCells[20]⟩ ⟨resetCells[21]⟩ = resetMix
    decide +kernel
  · show envSet ⟨resetCells[22]⟩ ⟨resetCells[23]⟩ ⟨resetCells[24]⟩ ⟨resetCells[25]⟩ resetEnvA = resetEnvA
    decide +kernel
  · show envSet ⟨resetCells[26]⟩ ⟨resetCells[27]⟩ ⟨resetCells[28]⟩ ⟨resetCells[29]⟩ resetEnvF = resetEnvF
    decide +kernel
  · show filtSet resetCells[33].toNat ⟨resetCells[30]⟩ ⟨resetCells[31]⟩ ⟨resetCells[32]⟩ resetFilt = resetFilt
    decide +kernel
  · exact oscSet_oscRetune (show waveOfCode resetCells[34].toNat = resetOscs.osc0.wave by decide +kernel)
      (show waveOfCode resetCells[35].toNat = resetOscs.osc1.wave by decide +kernel)
      (show clampDetune ⟨resetCells[36]⟩ = resetOscs.detune by decide +kernel)
      (show clampUnit ⟨resetCells[37]⟩ = resetOscs.mix by decide +kernel)
      (show clampWidth ⟨resetCells[38]⟩ = resetOscs.pw by decide +kernel)

/-- Settles O47: `PREPARE` leaves the cells alone and no host access pending, and gives every voice what the defaults set. -/
theorem setglobalAtDefaultsChangesNothing : Obligations.SetglobalAtDefaultsChangesNothing := by
  intro s t w0 w1 hparams hport h
  rw [exec_prepare] at h
  obtain rfl := Host.Outcome.next.inj h
  refine exec_setglobal_eq_self (s.prepare_ready _ _) hport fun v => ?_
  rw [State.voice_prepare, State.prepare_params, hparams]
  exact voiceSetGlobal_preparedVoice (s.prepare_ready ⟨w0⟩ w1.toNat)

end Sys2Proof.Machine

/-! The wait for operand words (`70_reset_and_hazards.md` R453). -/

namespace Sys2Proof.Machine

theorem decode_of_short {q : List Word} (h : q = [] ∨ ∃ w t, q = w :: t ∧ t.length < headerLen w) : decode q = .waiting := by
  rcases h with rfl | ⟨w, t, rfl, hlen⟩
  · rfl
  · rw [decode, if_pos hlen]

/-- Settles O10: what decodes to no command yet makes the step answer its state. -/
theorem stepWaitsForOperands : Obligations.StepWaitsForOperands := by
  intro s h
  rw [step, stepBy, decode_of_short h]

end Sys2Proof.Machine

/-! `NOP`, `CLRERR`, `WRPARAM` and `PEEK` (`47_voice_pool_and_system.md` R360, R363 to R365), which need no `PREPARE`. -/

namespace Sys2Proof.Machine

variable {cfg : Config.Params}

theorem toNat_cellByte (c : Fin Config.NPARAM) : (BitVec.ofNat 8 c).toNat = c := by
  rw [BitVec.toNat_ofNat, Nat.mod_eq_of_lt (c.isLt.trans (by decide))]

/-- The cell of a number that names one is replaced. -/
theorem State.setCell_of_fin (s : State cfg) (c : Fin Config.NPARAM) (w : Word) :
    s.setCell c w = { s with params := s.params.set c w } := by
  have hset : s.params.setIfInBounds c w = s.params.set c w :=
    Vector.ext fun i hi => by rw [Vector.getElem_setIfInBounds, Vector.getElem_set]
  rw [State.setCell, hset]

/-- Settles O48: each command passes its checks in every state; the number of a cell is below the number of cells. -/
theorem nopClrerrWrparamCommands : Obligations.NopClrerrWrparamCommands := by
  intro s
  refine ⟨runGlobal_of_wellFormed rfl (.inr rfl), runGlobal_of_wellFormed rfl (.inr rfl), fun c w => ?_⟩
  have hc : decide ((BitVec.ofNat 8 c).toNat < Config.NPARAM) = true := by
    rw [toNat_cellByte]
    exact decide_eq_true c.isLt
  have hw : (Instr.wrparam 0 (BitVec.ofNat 8 c) [w]).wellFormed = true := by
    rw [Instr.wellFormed, Instr.argOk, hc]
    rfl
  refine Eq.trans (runGlobal_of_wellFormed hw (.inr rfl)) ?_
  rw [toNat_cellByte, State.setCell_of_fin]
  rfl

/-- Every address below the size of a space fits an operand word. -/
theorem State.spaceSize_le (s : State cfg) (space : Nat) : s.spaceSize space ≤ 2 ^ 32 := by
  have hbuf := s.bufLen.isLt
  have hcells : Config.NPARAM = 39 := rfl
  obtain ⟨_, hng⟩ := cfg.ngBounds
  obtain ⟨_, hline⟩ := cfg.ksCapBounds
  obtain ⟨_, hout⟩ := cfg.maxBlockCapBounds
  unfold State.spaceSize
  split <;> omega

/-- `PEEK` of a space that exists, at an address inside it, for a `VID` that suits the space. -/
theorem exec_peek {s : State} {vid : Byte} {space a : Nat} (hspace : space ≤ 10) (ha : a < s.spaceSize space)
    (hvid : (if spacePerVoice space then decide (vid.toNat < Config.NV) else vid == 0) = true) :
    exec (.peek vid (BitVec.ofNat 8 space) [BitVec.ofNat 32 a]) s = .next (s.push (s.peekWord space vid a)) := by
  have hsize := s.spaceSize_le space
  have harg : (BitVec.ofNat 8 space).toNat = space := by rw [BitVec.toNat_ofNat, Nat.mod_eq_of_lt (by omega)]
  have haddr : (opWord [BitVec.ofNat 32 a] 0).toNat = a := by
    show (BitVec.ofNat 32 a).toNat = a
    rw [BitVec.toNat_ofNat, Nat.mod_eq_of_lt (by omega)]
  have hw : (Instr.peek vid (BitVec.ofNat 8 space) [BitVec.ofNat 32 a]).wellFormed = true := by
    have hle : decide (10 < space) = false := decide_eq_false (by omega)
    simp only [Instr.wellFormed, Instr.vidOk, harg, hle, Bool.false_or, hvid]
    rfl
  refine Eq.trans (runGlobal_of_wellFormed hw (.inr rfl)) ?_
  rw [harg, haddr, if_neg (by omega)]

/-! The words that `PEEK` reads, as the spec lists them. -/

/-- `STATUS` by its two bits (R33). -/
theorem State.status_eq (s : State cfg) :
    s.status = if s.sr = F32.zero then (if s.err = 0 then 0 else 2) else (if s.err = 0 then 1 else 3) := by
  have hready : flagWord s.ready = if s.sr = F32.zero then 0 else 1 := by
    by_cases hsr : s.sr = F32.zero <;> simp [State.ready, flagWord, hsr]
  rw [State.status, hready]
  by_cases hsr : s.sr = F32.zero <;> by_cases herr : s.err = 0 <;> simp only [hsr, herr, if_true, if_false] <;> rfl

theorem State.activeCount_eq (s : State cfg) :
    s.activeCount = BitVec.ofNat 32 (s.voices.toList.filter fun x => x.active).length := by
  rw [State.activeCount, List.countP_eq_length_filter, natWord]

/-- A register of one of the modes or grains of a bank. -/
theorem getD_bank {α : Type} {n m : Nat} (v : Vector α n) (regs : α → List Word) (i : Fin n) (k : Fin m) :
    (((v.toList.map regs).getD ((m * i + k) / m) []).getD ((m * i + k) % m) 0) = (regs v[i]).getD k 0 := by
  have hm : 0 < m := Nat.zero_lt_of_lt k.isLt
  rw [Nat.mul_add_div hm, Nat.div_eq_of_lt k.isLt, Nat.mul_add_mod, Nat.mod_eq_of_lt k.isLt, Nat.add_zero]
  simp [List.getD_eq_getElem?_getD]

/-- A word of a per-voice space. -/
theorem State.peekWord_vidOf {s : State cfg} {space : Nat} (h : spacePerVoice space = true) (v : Fin cfg.nv) (a : Nat) :
    s.peekWord space (vidOf v) a = voiceWord space a (s.voice v) := by
  rw [State.peekWord, if_pos h, voiceOf_vidOf]

/-- Settles O49: each space exists and the address is inside it, so `PEEK` pushes its word, whose cases are those of `peekWord`. -/
theorem peekCommand : Obligations.PeekCommand := by
  intro s v a peek mode model wave type stage x
  have hvid : decide ((vidOf v).toNat < Config.NV) = true := by
    rw [vidOf_toNat (cfg := Config.std)]
    exact decide_eq_true v.isLt
  have hglobal : ∀ (space : Nat) (w : Word), space ≤ 10 → spacePerVoice space = false → a < s.spaceSize space →
      s.globalWord space a = w → peek 0 space w := by
    rintro space w hspace hone ha rfl
    have hword : s.peekWord space 0 a = s.globalWord space a := if_neg (by rw [hone]; exact Bool.false_ne_true)
    exact hword ▸ exec_peek hspace ha (by rw [hone]; rfl)
  have hvoice : ∀ (space : Nat) (w : Word), space ≤ 10 → spacePerVoice space = true → a < s.spaceSize space →
      voiceWord space a x = w → peek (vidOf v) space w := by
    rintro space w hspace hper ha rfl
    exact State.peekWord_vidOf (s := s) hper v a ▸ exec_peek hspace ha (by rw [hper]; exact hvid)
  refine ⟨fun ha => hglobal 0 _ (by decide) rfl ha ?_, ?_, fun ha => hvoice 2 _ (by decide) rfl ha ?_, ?_, ?_,
    fun ha => ⟨hvoice 5 _ (by decide) rfl ha rfl, hvoice 6 _ (by decide) rfl ha rfl⟩,
    fun ha => hvoice 7 _ (by decide) rfl ha rfl, fun ha => hglobal 8 _ (by decide) rfl ha rfl,
    fun ha => ⟨hglobal 9 _ (by decide) rfl ha rfl, hglobal 10 _ (by decide) rfl ha rfl⟩⟩
  · show s.sysRegs.getD a 0 = _
    rw [State.sysRegs, State.status_eq, State.activeCount_eq]
    rfl
  · rintro c rfl
    refine hglobal 1 _ (by decide) rfl c.isLt ?_
    show s.params.toList.getD c 0 = s.params[c]
    simp [List.getD_eq_getElem?_getD]
  · have hmode : ∀ m, natWord (modeCode m) = mode m := fun m => by cases m <;> rfl
    have hmodel : ∀ m, natWord (modelCode m) = model m := fun m => by cases m <;> rfl
    have hwave : ∀ w, natWord (waveCode w) = wave w := fun w => by cases w <;> rfl
    have htype : ∀ y, natWord (typeCode y) = type y := fun y => by cases y <;> rfl
    have hstage : ∀ e, natWord (stageCode e) = stage e := fun e => by cases e <;> rfl
    show (voiceRegs x).getD a 0 = _
    rw [voiceRegs, envRegs, envRegs, hmode, hmodel, hwave, hwave, hstage, hstage, htype]
    rfl
  · rintro i k rfl
    have hi : i.val < 8 := i.isLt
    refine hvoice 3 _ (by decide) rfl (show 16 * i.val + k.val < 128 by omega) ?_
    exact getD_bank x.rings.modes modeRegs i k
  · rintro g k rfl
    have hg : g.val < 64 := g.isLt
    refine hvoice 4 _ (by decide) rfl (show 8 * g.val + k.val < 512 by omega) ?_
    exact getD_bank x.clouds.grains grainRegs g k

end Sys2Proof.Machine

/-! Reset (`70_reset_and_hazards.md` R440, R441). -/

namespace Sys2Proof.Machine

@[simp] theorem State.voice_reset (v : Fin Config.NV) : State.reset.voice v = resetVoice Config.std :=
  Vector.getElem_replicate v.isLt

theorem State.reset_ready : State.reset.ready = false := by decide +kernel

/-- Settles O13: every voice is `resetVoice`, whose values are the decimals of R35 in lowest terms. -/
theorem resetLeaves : Obligations.ResetLeaves := by
  unfold Obligations.ResetLeaves
  extract_lets s d c
  have hone : d 1 1 = F32.one := by decide +kernel
  have hhalf : d 5 10 = F32.dec 1 2 := by decide +kernel
  have hquarter : d 25 100 = F32.dec 1 4 := by decide +kernel
  have hthree : d 75 100 = F32.dec 3 4 := by decide +kernel
  have hvoice : ∀ v : Fin Config.NV, s.voice v = resetVoice Config.std := State.voice_reset
  simp only [hone, hhalf, hquarter, hthree, hvoice]
  refine ⟨⟨rfl, rfl⟩, ⟨rfl, rfl, rfl, rfl, rfl, rfl, rfl, rfl, rfl, rfl, ?_, ?_⟩, ?_, fun _ => ⟨rfl, rfl⟩, fun v => ?_⟩
  · show State.reset.status = 0
    decide +kernel
  · show State.reset.activeCount = 0
    decide +kernel
  · show State.reset.params.toList = _
    decide +kernel
  · exact ⟨⟨rfl, rfl, rfl, rfl, rfl, rfl, rfl, rfl, rfl⟩, ⟨rfl, rfl, rfl, rfl, rfl, rfl⟩, ⟨rfl, rfl, rfl, rfl, rfl, rfl, rfl⟩,
      rfl, rfl, rfl, rfl, rfl, rfl, ⟨rfl, rfl, rfl⟩, fun _ => ⟨rfl, rfl, rfl⟩, fun g => Vector.getElem_replicate g.isLt, resetRings_modes⟩

/-- Settles O14: reset leaves every register in its range and every voice inactive, and the block is not ready. -/
theorem invariantsHoldAtReset : Obligations.InvariantsHoldAtReset := by
  have hconfig : State.reset.configOk := .inl ⟨rfl, rfl, rfl, rfl, rfl⟩
  have hlegal : State.reset.registersLegal := fun v => by
    rw [State.voice_reset]
    decide +kernel
  refine ⟨⟨rfl, rfl, fun v => ?_⟩, hlegal, fun v => ?_, ⟨hconfig, fun hr => ?_⟩, ⟨hconfig, fun v => ?_⟩,
    ⟨hconfig, hlegal, fun v => ?_⟩, fun v _ hv => ?_⟩
  · rw [State.voice_reset]
    rfl
  · rw [State.voice_reset]
    exact ⟨modesSet_resetRings, fun hr => absurd (State.reset_ready.symm.trans hr) Bool.false_ne_true⟩
  · exact absurd (State.reset_ready.symm.trans hr) Bool.false_ne_true
  · rw [State.voice_reset]
    rfl
  · rw [State.voice_reset]
    decide +kernel
  · rw [State.voice_reset] at hv
    cases hv

end Sys2Proof.Machine
